-- ==== Sys2Proof/Word.lean ====
section
/-!
DEFINITION. The words of the hub: bytes, stamps, hub time and shared RAM words (00_scope.md section 6,
01_shared_memory_and_the_bus_port.md R1, R5, R14).
-/

namespace Sys2Proof

/-- One byte of the shared RAM or one character of a display trunk. -/
abbrev Byte := BitVec 8

/-- A twin-stamp value: 16 bits, every value valid, wrapping (00_scope.md 6.4). -/
abbrev Stamp := BitVec 16

/-- Hub time: a 32-bit count of milliseconds that wraps (R14). -/
abbrev Time := BitVec 32

/-- One word of the port: 32 bits (R1). -/
abbrev Word32 := BitVec 32

end Sys2Proof
end

