-- ==== Sys2Proof/Config.lean ====
section
/-!
DEFINITION. What the hub's maker fixes (the Identity register, the sizes of the hub's collections) and the values
the spec leaves open, as constants with no body.
-/

namespace Sys2Proof.Config

/-- Identity PART (01, register table): 2416. -/
def part : Nat := 0x0970

/-- Identity REV (01, register table): the revision the manual describes. -/
def revision : Nat := 0x01

/-- Identity VENDOR (01, register table). -/
def vendor : Nat := 0x5A

/-- Landings of a building, 0 to 191 (00_scope.md 6.6). -/
def maxLandings : Nat := 192

/-- Building cars, 0 to 63 (00_scope.md 6.6). -/
def maxCars : Nat := 64

/-- Head addresses of one trunk, 1 to 62 (00_scope.md 6.6). -/
def headsPerTrunk : Nat := 62

/-- Display trunks (00_scope.md 6.6). -/
def maxTrunks : Nat := 16

/-- Assignment slots of a tenant area (05, section 1). -/
def slotsPerTenant : Nat := 64

/-- Notice programs of a tenant area (07). -/
def programsPerTenant : Nat := 8

/-- Places of the Board Table (R89). -/
def boardPlaces : Nat := 384

/-- Most destinations of one board entry (R89). -/
def boardDestinations : Nat := 6

/-- Most destinations of one Aboard List (R90). -/
def aboardDestinations : Nat := 24

/-- Most prompts of one kiosk head (R92). -/
def maxPrompts : Nat := 4

/-- FREE VALUE (assumption 20). R24 says that a one-tenant-per-car failure 'names the car and the second tenant'. The
Layouts chapter gives one 16-bit entry field and no packing of two numbers in it. -/
opaque carAndTenantEntry : (car tenant : Nat) → BitVec 16

/-- FREE VALUE (assumption 21). The check code of a text panel row that does not name exactly one of landing and
car: R23 says that the failure names the field, the two fields have different codes (R27), and the spec does not say
which one is named. The arguments are the row's two fields as written. -/
opaque textPanelBindingCheck : (landing car : Nat) → BitVec 8

end Sys2Proof.Config
end

