-- ==== Sys2Proof/Syntax.lean ====
section
/-!
DEFINITION. The commands of the hub: one constructor per row of spec/opcode_table.json, in the table's order, with
the operands that the row's rule names. The host, the pins, the timers and the display trunks send them.
-/

namespace Sys2Proof

/-- The unit of sweeping: the building area or one tenant area (R8). -/
inductive Area where
  | building
  | tenant (t : Fin 8)
  deriving DecidableEq, Repr

/-- One of a trunk's two half-duplex lines (R149). -/
inductive LineId where
  | a
  | b
  deriving DecidableEq, Repr

/-- One character as the hub received it on a line (R149): its eight data bits, its parity bit, and its stop bit, `true`
at the idle level. -/
structure Received where
  code : Byte
  parity : Bool
  stop : Bool
  deriving DecidableEq, Repr

/-- The commands. -/
inductive Instr where
  /-- R3: the power-on reset input is asserted. -/
  | powerOnResetAssert
  /-- R3: the power-on reset input is released; zero-fill begins. -/
  | powerOnResetRelease
  /-- R3: zero-fill completes. -/
  | zeroFillCompletion
  /-- R1: the host writes one shared RAM word (word address, value). -/
  | sharedRamWrite (addr : BitVec 16) (value : Word32)
  /-- R1: the host reads one shared RAM word. -/
  | sharedRamRead (addr : BitVec 16)
  /-- R15: a Control write with RESET = 1. -/
  | portReset
  /-- R15: the port reset completes. -/
  | portResetCompletion
  /-- R11: a Control write with RESET = 0 and RUN = 1. -/
  | runSet
  /-- R11: a Control write with RESET = 0 and RUN = 0. -/
  | runClear
  /-- R10: a Nudge write of 0 to 7. -/
  | nudgeTenant (t : Fin 8)
  /-- R10: a Nudge write of 8. -/
  | nudgeBuilding
  /-- R12: a write of the Attention register. -/
  | attentionClear (value : Word32)
  /-- R12: a write of the Attention Mask register. -/
  | attentionMaskWrite (value : Word32)
  /-- R13: a Lock write of 1. -/
  | lockSetHold
  /-- R13: a Lock write of 2. -/
  | lockClearHold
  /-- R13: a Lock write of 3. -/
  | lockSetFixed
  /-- R2, R10, R11, R13: a register write that the port ignores (register select, value). -/
  | registerWriteIgnored (select : BitVec 3) (value : Word32)
  /-- R14: one millisecond of hub time. -/
  | hubTimeTick
  /-- R9: the area's sweep timer expires. -/
  | sweepTimerExpiry (area : Area)
  /-- R8: the area's sweep ends after its last record. -/
  | sweepCompletion (area : Area)
  /-- R16: the building sweep reads the Building Configuration. -/
  | sweepReadConfiguration
  /-- R33: the building sweep reads the Building Orders. -/
  | sweepReadOrders
  /-- R37: a tenant sweep reads the Tenant Header. -/
  | sweepReadTenantHeader (t : Fin 8)
  /-- R44: a tenant sweep reads the Tenant Map. -/
  | sweepReadTenantMap (t : Fin 8)
  /-- R56: a tenant sweep reads Car Report `i`. -/
  | sweepReadCarReport (t : Fin 8) (i : Fin 16)
  /-- R78: a tenant sweep reads the host half of slot `i`. -/
  | sweepReadSlot (t : Fin 8) (i : Fin 64)
  /-- R108: a tenant sweep reads the control of notice program `p`. -/
  | sweepReadProgramControl (t : Fin 8) (p : Fin 8)
  /-- R27, R28: the validation in flight completes. -/
  | validationCompletion
  /-- R59: a car's freshness timer expires. -/
  | freshnessExpiry (car : Fin 64)
  /-- R87: a TAKEN slot's boarding limit expires. -/
  | boardingLimitExpiry (t : Fin 8) (i : Fin 64)
  /-- R87: a BOARDED slot's ride limit expires. -/
  | rideLimitExpiry (t : Fin 8) (i : Fin 64)
  /-- R92: a prompt of the kiosk head's Prompt List reaches its hold expiry. -/
  | promptHoldExpiry (trunk : Fin 16) (address : Nat)
  /-- R111 to R113: a SHOW or BLANK step expires. -/
  | stepExpiry (t : Fin 8) (p : Fin 8)
  /-- R118: a WAIT step's timeout expires. -/
  | waitTimeout (t : Fin 8) (p : Fin 8)
  /-- R123: the level of pin OVR`line` becomes low (asserted) or high. -/
  | overridePinChange (line : Fin 4) (low : Bool)
  /-- R124: an override line's debounce timer expires. -/
  | debounceExpiry (line : Fin 4)
  /-- R128: the level of the SBEN pin changes. -/
  | sbenChange (high : Bool)
  /-- R127: SBFR falls and ends a side-band word. -/
  | sideBandWord
  /-- R157: a trunk with nothing in flight begins a turn. -/
  | turnBegin (trunk : Fin 16)
  /-- R153, R170: the last character of a frame copy has been sent; `echo` is what came back on the line. -/
  | frameEnd (trunk : Fin 16) (echo : List Received)
  /-- R161: the break after a cut frame ends. -/
  | breakEnd (trunk : Fin 16)
  /-- R153: a reply ends; `reply` is its characters, the lead byte first. -/
  | replyEnd (trunk : Fin 16) (reply : List Received)
  /-- R153: a reply window expires with no character begun. -/
  | replyWindowExpiry (trunk : Fin 16)
  /-- R153, R162: a gap of three character times runs out. -/
  | gapExpiry (trunk : Fin 16)
  /-- R159: a head's poll falls due. -/
  | pollDue (trunk : Fin 16) (address : Nat)
  /-- R159: a LOST head's probe falls due. -/
  | probeDue (trunk : Fin 16) (address : Nat)
  /-- R171: a line's driver enable has stood for 300 character times. -/
  | watchdogExpiry (trunk : Fin 16) (line : LineId)
  /-- R173: a DOWN trunk's recovery timer expires. -/
  | recoveryExpiry (trunk : Fin 16)
  /-- R173: a DOWN trunk begins its recovery probe. -/
  | recoveryProbeBegin (trunk : Fin 16)
  /-- R126: SBFR rises. -/
  | sideBandWordStart
  /-- R126: SBCK rises while SBDA has the level `bit`. -/
  | sideBandClockEdge (bit : Bool)
  /-- R153: a reply's first character begins within the window. -/
  | replyFirstCharacter (trunk : Fin 16)
  deriving DecidableEq, Repr

end Sys2Proof
end

