-- ==== Sys2Proof/WellFormed.lean ====
section
/-!
DEFINITION. What a command must satisfy beyond its type: a head address is 1 to 62 (00_scope.md 6.6), a reply has at
least one character (R153: it is taken when its first character begins), and the echo of one frame copy is no longer
than the longest frame, 248 characters (R150).
-/

namespace Sys2Proof

/-- A head address of a trunk: 1 to 62; address 0 names all heads at once and is no single head. -/
def headAddressOk (address : Nat) : Bool := 1 ≤ address && address ≤ Config.headsPerTrunk

/-- The checks of a command's operands. -/
def WellFormed (i : Instr) : Bool :=
  match i with
  | .promptHoldExpiry _ a => headAddressOk a
  | .pollDue _ a => headAddressOk a
  | .probeDue _ a => headAddressOk a
  | .frameEnd _ echo => echo.length ≤ 248
  | .replyEnd _ reply => !reply.isEmpty
  | .powerOnResetAssert | .powerOnResetRelease | .zeroFillCompletion | .sharedRamWrite _ _ | .sharedRamRead _
  | .portReset | .portResetCompletion | .runSet | .runClear | .nudgeTenant _ | .nudgeBuilding
  | .attentionClear _ | .attentionMaskWrite _ | .lockSetHold | .lockClearHold | .lockSetFixed
  | .registerWriteIgnored _ _ | .hubTimeTick | .sweepTimerExpiry _ | .sweepCompletion _
  | .sweepReadConfiguration | .sweepReadOrders | .sweepReadTenantHeader _ | .sweepReadTenantMap _
  | .sweepReadCarReport _ _ | .sweepReadSlot _ _ | .sweepReadProgramControl _ _ | .validationCompletion
  | .freshnessExpiry _ | .boardingLimitExpiry _ _ | .rideLimitExpiry _ _ | .stepExpiry _ _ | .waitTimeout _ _
  | .overridePinChange _ _ | .debounceExpiry _ | .sbenChange _ | .sideBandWord | .turnBegin _ | .breakEnd _
  | .replyWindowExpiry _ | .gapExpiry _ | .watchdogExpiry _ _ | .recoveryExpiry _ | .recoveryProbeBegin _
  | .sideBandWordStart | .sideBandClockEdge _ | .replyFirstCharacter _ => true

end Sys2Proof
end

