-- ==== Sys2Proof/Decode.lean ====
section
/-!
DEFINITION. The command that a word spells by the opcode table's bits. spec/opcode_table.json gives no row any bits
(98_reader.md: 0 rows with fixed bits, 0 with fields), so no word spells a command.
-/

namespace Sys2Proof

/-- The command spelled by the `nbits` bits of `w`: none, since no row of the table has an encoding. -/
def decodeTableWord (_nbits _w : Nat) : Option Instr := none

end Sys2Proof
end

