-- ==== Sys2Proof/Machine/State.lean ====
section
/-!
DEFINITION. The hub's state as plain data: every register, timer, record, list and pin that the spec gives the hub,
and the queue of the commands that wait. Tables are lists of (key, value) pairs; a key that is not listed holds the
value its accessor names (Machine/Ops.lean), which is the value after power-on reset.
-/

namespace Sys2Proof.Machine

/-- A table of things by number. -/
abbrev Table (α : Type) := List (Nat × α)

/-- The shared RAM: the bytes that are not 0, by rising byte address. -/
abbrev Memory := List Host.Cell

/-! ### Names of the spec -/

/-- What the reset inputs have the hub doing: held in reset, zero-filling (R3), in a port reset (R15), or ready. -/
inductive Phase where
  | held | zeroFill | portReset | ready
  deriving DecidableEq, Repr

/-- UP or DOWN (12_layouts.md section 4). -/
inductive Dir where
  | up | down
  deriving DecidableEq, Repr

/-- An arrow of a display. -/
inductive Arrow where
  | none | up | down
  deriving DecidableEq, Repr

/-- The tracking state of a car (04). -/
inductive Tracking where
  | acquiring | tracking | parked
  deriving DecidableEq, Repr

/-- The mode of a car deck (R63). -/
inductive DeckMode where
  | none | at | running | between | inspection | outOfService
  deriving DecidableEq, Repr

/-- The motions of a car report (R56). -/
inductive Motion where
  | stopped | running | levelling | inspection | outOfService
  deriving DecidableEq, Repr

/-- The door states of a car report (R56). -/
inductive Door where
  | closed | opening | opened | closing
  deriving DecidableEq, Repr

/-- The four car marks (R75). -/
inductive Mark where
  | arrive | door | depart | park
  deriving DecidableEq, Repr

/-- The mark beside a position label (R66, R72). -/
inductive PosMark where
  | none | parked | inspection
  deriving DecidableEq, Repr

/-- The deck attribute of a tenant floor: 0, 1 or BOTH (03 section 6). -/
inductive DeckAttr where
  | lower | upper | both
  deriving DecidableEq, Repr

/-- The six head kinds (R23). -/
inductive HeadKind where
  | positionIndicator | lantern | landingDestination | kioskPrompt | carPanel | textPanel
  deriving DecidableEq, Repr

/-- The link state of a head with a row in the Head Table (R165). ABSENT is having no record. -/
inductive LinkState where
  | unknown | online | failed | lost
  deriving DecidableEq, Repr

/-- The content state of a head (R156). -/
inductive ContentState where
  | confirmed | dirty | sent
  deriving DecidableEq, Repr

/-- The layer a head presents (R139). -/
inductive Layer where
  | override | notice | guidance | position | idle
  deriving DecidableEq, Repr

/-- The state of an assignment slot (05 section 1). -/
inductive SlotState where
  | idle | taken | boarded | retired
  deriving DecidableEq, Repr

/-- The outcome of a retired slot (05 section 1). -/
inductive Outcome where
  | refused | cancelled | delivered | listFull | expired | reconfigured | revoked | reset | restart
  deriving DecidableEq, Repr

/-- Why a slot was refused (R80, R81). -/
inductive Refused where
  | map | grant | sameLanding | notServed | restricted | boardFull | quota
  deriving DecidableEq, Repr

/-- The result of a slot's last request (R78). -/
inductive RequestResult where
  | accepted | conflict | late
  deriving DecidableEq, Repr

/-- The state of a notice program (R122). -/
inductive ProgramState where
  | idle | running | waiting | done | faulted
  deriving DecidableEq, Repr

/-- The causes of faults (03 section 9). -/
inductive Cause where
  | floorUnmapped | carUnmapped | kioskUnmapped | entryRange | textIndex | stepKind | stepRange | loop
  | requestConflict | landingNotGranted | carNotGranted | headNotGranted | configRefused | lockedChange
  deriving DecidableEq, Repr

/-- The record a fault names as its source (R52). -/
inductive SourceKind where
  | carReport | slot | program | map | header | configuration
  deriving DecidableEq, Repr

/-- The state of an override line (R124). -/
inductive LineState where
  | idle | pendingOn | active | pendingOff
  deriving DecidableEq, Repr

/-- The state of a trunk (11 section 4). -/
inductive TrunkState where
  | off | running | down
  deriving DecidableEq, Repr

/-- The cause of a SHUT line (11 section 4). -/
inductive ShutCause where
  | loop | watchdog | ordered
  deriving DecidableEq, Repr

/-- The frames of a turn (R150). -/
inductive FrameKind where
  | content | quick | setup | poll | probe | override
  deriving DecidableEq, Repr

/-- What lit an announcement (R99). -/
inductive LitBy where
  | commit | door
  deriving DecidableEq, Repr

/-- The parts of a Building Configuration (R27). -/
inductive ConfigPart where
  | header | floor | car | head | grant | trunk | kind | restriction | overrideLine | overrideText
  deriving DecidableEq, Repr

/-! ### The building configuration (02 section 1, 12_layouts.md section 2), fields as written -/

/-- A Floor Table entry: height in mm and the four label places. -/
structure Floor where
  height : Nat := 0
  label : List Byte := []
  deriving DecidableEq, Repr

/-- A Car Record. -/
structure CarRecord where
  present : Nat := 0
  deckCount : Nat := 0
  label : List Byte := []
  spacing : Nat := 0
  deceleration : Nat := 0
  reaction : Nat := 0
  vmax : Nat := 0
  deriving DecidableEq, Repr

/-- A Head Table row that holds a head. -/
structure HeadRow where
  kind : Nat := 0
  zone : Nat := 0
  immunity : Byte := 0
  layerMask : Byte := 0
  landing : Nat := 255
  car : Nat := 255
  deck : Nat := 255
  owner : Nat := 255
  deriving DecidableEq, Repr

/-- A Tenant Grant. -/
structure Grant where
  landings : BitVec 192 := 0
  cars : BitVec 64 := 0
  quota : Nat := 0
  routing : BitVec 16 := 0
  deriving DecidableEq, Repr

/-- The settings of one trunk. -/
structure TrunkSettings where
  enabled : Nat := 0
  speed : Nat := 0
  window : Nat := 0
  recovery : Nat := 0
  deriving DecidableEq, Repr

/-- The settings of one head kind. -/
structure KindSettings where
  poll : Nat := 0
  offset : Int := 0
  gain : Nat := 0
  lmin : Nat := 0
  lmax : Nat := 0
  deriving DecidableEq, Repr

/-- A Restriction List entry; landing 255 is absent. -/
structure Restriction where
  landing : Nat := 255
  mode : Nat := 0
  cars : BitVec 64 := 0
  deriving DecidableEq, Repr

/-- The settings of one override line. -/
structure LineSettings where
  zones : BitVec 16 := 0
  permitted : BitVec 16 := 0
  sideBand : Nat := 0
  text : Nat := 0
  kill : Nat := 0
  onTime : Nat := 0
  offTime : Nat := 0
  deriving DecidableEq, Repr

/-- A text in its two forms: 72 places and 4 places. -/
structure TwoForms where
  long : List Byte := []
  short : List Byte := []
  deriving DecidableEq, Repr

/-- The body of one generation of the Building Configuration. The Head Table lists the rows that hold a head, by
head key (62 × trunk + address − 1). -/
structure BuildingConfig where
  sweepPeriod : Nat := 0
  dayCeiling : Nat := 0
  nightCeiling : Nat := 0
  floorCount : Nat := 0
  floors : List Floor := []
  cars : List CarRecord := []
  heads : Table HeadRow := []
  grants : List Grant := []
  trunks : List TrunkSettings := []
  kinds : List KindSettings := []
  restrictions : List Restriction := []
  lines : List LineSettings := []
  texts : List TwoForms := []
  deriving DecidableEq, Repr

/-- The first offending item of a refused generation (R27): part, check code, and entry where there is one. -/
structure Offence where
  part : ConfigPart
  check : Byte
  entry : Option (BitVec 16)
  deriving DecidableEq, Repr

/-- A generation in validation: its stamp, its body, and the seen stamp before its hand-over (R18, R19). -/
structure Validation where
  stamp : Stamp
  body : BuildingConfig
  seenBefore : Option Stamp
  deriving DecidableEq, Repr

/-- The Configuration Unit (02). -/
structure ConfigUnit where
  /-- The configuration in force; none is UNCONFIGURED. -/
  inForce : Option BuildingConfig := none
  /-- The accepted generation's stamp. -/
  accepted : Option Stamp := none
  /-- The validation in flight: VALIDATING is its presence. -/
  validating : Option Validation := none
  /-- The refused flag with the refused stamp and first offending item (R27). -/
  refused : Option (Stamp × Offence) := none
  /-- The locked stamp; "locked change seen" is its presence (R18). -/
  lockedStamp : Option Stamp := none
  deriving DecidableEq, Repr

/-- The copy of the Building Orders and the baselines of their one-time stamps (R33). Line orders are numbered
2 × trunk for line A and 2 × trunk + 1 for line B; `true` is SHUT. -/
structure OrdersCopy where
  night : Bool := false
  tests : BitVec 4 := 0
  lines : Table Bool := []
  closed : BitVec 192 := 0
  restore : Table (Option Stamp) := []
  historyClear : Option Stamp := none
  /-- The accepted Orders record's stamp. -/
  stamp : Option Stamp := none
  deriving DecidableEq, Repr

/-! ### The Sweep Engine (01 section 5) -/

/-- One area's sweep: its timer, its nudge-pending flag, and the number of the record that the sweep in flight reads
next (none: no sweep in flight). -/
structure AreaSweep where
  timer : Option Time := none
  nudge : Bool := false
  next : Option Nat := none
  deriving DecidableEq, Repr

/-! ### Tenants (03) -/

/-- The effective options of a tenant (R40), at the values of an all-zero header. Text indices 255 are absent. -/
structure Options where
  landingZone : Nat := 150
  hysteresis : Nat := 100
  freshness : Nat := 1000
  express : Nat := 0
  glyph : List Byte := [32, 32, 32, 32]
  park : Nat := 0
  parkText : Option Nat := some 0
  oosText : Option Nat := some 0
  promptHold : Nat := 6000
  boardingLimit : Nat := 600
  rideLimit : Nat := 900
  refuseClosed : Bool := false
  deriving DecidableEq, Repr

/-- The standing of a map entry in the resolved copy (03 section 6): unusable for grant keeps its cause. -/
inductive Standing where
  | unmapped
  | usable
  | badRange
  | badGrant (cause : Cause)
  deriving DecidableEq, Repr

/-- A floor entry of a Tenant Map, fields as written. -/
structure FloorEntry where
  landing : Nat := 255
  attr : Nat := 0
  usable : Nat := 0
  deriving DecidableEq, Repr

/-- A kiosk entry of a Tenant Map, fields as written: a head by trunk and address. -/
structure KioskEntry where
  trunk : Nat := 255
  address : Nat := 255
  deriving DecidableEq, Repr

/-- The body of a Tenant Map. -/
structure TenantMap where
  floors : List FloorEntry := []
  cars : List Nat := []
  kiosks : List KioskEntry := []
  deriving DecidableEq, Repr

/-- The resolved copy of a tenant's map: the generation stamp, the body, and each entry's standing. -/
structure ResolvedMap where
  stamp : Stamp := 0
  body : TenantMap := {}
  floors : List Standing := []
  cars : List Standing := []
  kiosks : List Standing := []
  deriving DecidableEq, Repr

/-- The hub half of an assignment slot with its running limit timer (05 section 1). -/
structure Slot where
  seen : Option Stamp := none
  state : SlotState := .idle
  outcome : Option Outcome := none
  reason : Option Refused := none
  car : Option Nat := none
  deck : Option Nat := none
  origin : Option Nat := none
  destination : Option Nat := none
  direction : Option Dir := none
  party : Nat := 0
  accessible : Bool := false
  takeTime : Time := 0
  boardTime : Time := 0
  result : Option RequestResult := none
  /-- The boarding limit's expiry while TAKEN, the ride limit's while BOARDED (R87). -/
  limit : Option Time := none
  deriving DecidableEq, Repr

/-- One step of a notice program, fields as written (12_layouts.md 3.7). -/
structure Step where
  kind : Nat := 0
  p1 : Nat := 0
  p2 : Nat := 0
  p3 : Nat := 0
  time : Nat := 0
  deriving DecidableEq, Repr

/-- The target description of a notice program, fields as written (07 section 1). -/
structure TargetDesc where
  kind : Nat := 0
  first : Nat := 0
  last : Nat := 0
  kinds : Byte := 0
  car : Nat := 0
  deriving DecidableEq, Repr

/-- The resolved target of a notice program (R110). -/
inductive Target where
  | empty
  | landings (set : BitVec 192) (kinds : Byte)
  | car (c : Nat)
  deriving DecidableEq, Repr

/-- The share a program holds on each of its target heads (07 section 3). -/
inductive Share where
  | none
  | text (forms : TwoForms)
  | blank
  deriving DecidableEq, Repr

/-- A notice program: baselines, target description, step copy and run state (R108, R109, R122). -/
structure Program where
  runBase : Option Stamp := none
  stopBase : Option Stamp := none
  desc : TargetDesc := {}
  steps : List Step := []
  state : ProgramState := .idle
  current : Option Nat := none
  expiry : Option Time := none
  waiting : Option (Nat × Mark) := none
  counters : Table Nat := []
  zeroTime : Nat := 0
  cause : Option Cause := none
  start : Time := 0
  target : Target := .empty
  share : Share := .none
  deriving DecidableEq, Repr

/-- The fault record of one entry: what the Fault Reporter placed (R52). -/
structure FaultRecord where
  sequence : BitVec 32
  tenant : Option Nat
  cause : Cause
  source : SourceKind
  indexA : Option Nat
  indexB : Option Nat
  logical : Nat
  building : Option Nat
  count : Option Nat
  time : Time
  deriving DecidableEq, Repr

/-- A fault list's counters and the hub's copies of the records it placed (R54, R55). -/
structure FaultList where
  sequence : BitVec 32 := 0
  dropped : Nat := 0
  records : Table FaultRecord := []
  deriving DecidableEq, Repr

/-- A tenant: state, baselines, map, counts, seen stamps, slots and programs. -/
structure Tenant where
  active : Bool := false
  headerStamp : Option Stamp := none
  options : Options := {}
  restartBase : Option Stamp := none
  markBase : Option Stamp := none
  map : Option ResolvedMap := none
  rangeCount : Nat := 0
  grantCount : Nat := 0
  torn : Nat := 0
  sweepCount : BitVec 32 := 0
  faults : FaultList := {}
  sweep : AreaSweep := {}
  headerSeen : Option Stamp := none
  mapSeen : Option Stamp := none
  reportSeen : Table (Option Stamp) := []
  controlSeen : Table (Option Stamp) := []
  slots : Table Slot := []
  programs : Table Program := []
  deriving DecidableEq, Repr

/-! ### Cars (04, 06) -/

/-- Where a deck's shown label comes from (R65): a landing's label, or four codes. -/
inductive LabelSource where
  | landing (i : Nat)
  | codes (places : List Byte)
  deriving DecidableEq, Repr

/-- The announcement of a deck (R99). -/
structure Announcement where
  landing : Option Nat := none
  litBy : Option LitBy := none
  arrow : Arrow := .none
  accessible : Bool := false
  deriving DecidableEq, Repr

/-- The state of one deck of a car. -/
structure Deck where
  mode : DeckMode := .none
  /-- The indicated landing I (R63, R64). -/
  landing : Option Nat := none
  held : Option Nat := none
  /-- The label R65 chooses, by its source. -/
  shown : LabelSource := .codes [32, 32, 32, 32]
  /-- The four places last presented under TRACKING (R65). -/
  lastShown : List Byte := [32, 32, 32, 32]
  arrow : Arrow := .none
  mark : PosMark := .none
  commit : Option Nat := none
  doorDue : Bool := false
  /-- The served set in use (R70). -/
  served : BitVec 192 := 0
  announcement : Announcement := {}
  /-- The MODEL's own: counts the entries into PARKED and ACQUIRING, the changes of the mode and the changes of the
  tenant's options, each of which writes the position layer anew and so reads its Text Store entry anew (R71, R72,
  assumption 27). -/
  writes : Nat := 0
  deriving DecidableEq, Repr

/-- A building car: Car State and the Position Unit's own state (R76, R77). -/
structure Car where
  tracking : Tracking := .acquiring
  anchor : Bool := false
  runCount : Nat := 0
  tenant : Option Nat := none
  tenantCar : Option Nat := none
  stamp : Stamp := 0
  time : Time := 0
  arriveMark : Bool := false
  doorMark : Bool := false
  departMark : Bool := false
  parkMark : Bool := false
  overrun : Bool := false
  freshness : Option Time := none
  /-- The position of the last report recorded as applied (R57). -/
  position : Nat := 0
  /-- Direction of motion d, service direction, doors and declared stop of that report (R56, R62). -/
  motionDir : Option Dir := none
  service : Option Dir := none
  door0 : Door := .closed
  door1 : Door := .closed
  stop : Option (Nat × DeckAttr) := none
  deck0 : Deck := {}
  deck1 : Deck := {}
  deriving DecidableEq, Repr

/-! ### Guidance collections (05) -/

/-- A Board Table entry (R89): key, owning tenant, destinations with waiting counts, and the order of creation,
which R94 asks for. -/
structure BoardEntry where
  landing : Nat
  car : Nat
  deck : Nat
  direction : Dir
  tenant : Nat
  destinations : List (Nat × Nat)
  created : Nat
  deriving DecidableEq, Repr

/-- A prompt of a kiosk's Prompt List (R92). -/
structure Prompt where
  carLabel : List Byte
  arrow : Arrow
  destination : List Byte
  refused : Bool
  closed : Bool
  wheelchair : Bool
  expiry : Option Time
  deriving DecidableEq, Repr

/-! ### Override (08) -/

/-- An override line: state, the pin level last taken (true: asserted, low), debounce expiry, effective zone set and
last good side-band word. -/
structure OverrideLine where
  state : LineState := .idle
  pin : Bool := false
  expiry : Option Time := none
  zones : BitVec 16 := 0
  word : Option (BitVec 16) := none
  deriving DecidableEq, Repr

/-! ### Head content (09) -/

/-- An item of a landing destination or car panel list: label, arrow, closed and wheelchair marks. -/
structure DestItem where
  label : List Byte
  arrow : Arrow
  closed : Bool
  wheelchair : Bool
  deriving DecidableEq, Repr

/-- An item of a kiosk prompt list. -/
structure PromptItem where
  carLabel : List Byte
  arrow : Arrow
  destination : List Byte
  refused : Bool
  closed : Bool
  wheelchair : Bool
  deriving DecidableEq, Repr

/-- The content of a guidance layer, in the form of the head's kind (R137). -/
inductive Guide where
  | lit (arrow : Arrow) (flash : Bool) (chimes : Nat)
  | destinations (items : List DestItem)
  | prompts (items : List PromptItem)
  deriving DecidableEq, Repr

/-- The content of a position layer (R71): four places, arrow, mark. -/
structure PosText where
  places : List Byte
  arrow : Arrow
  mark : PosMark
  deriving DecidableEq, Repr

/-- What the Position Unit last wrote into a position layer: nothing, a label with arrow and mark, or the short form
of a Text Store entry (read at that write). -/
inductive PosDesc where
  | empty
  | label (text : PosText)
  | store (tenant text writes : Nat)
  deriving DecidableEq, Repr

/-- The content of an override layer (R129): the deciding line (absent for a lantern's dark content) and the forms
that the kind takes. -/
structure OverrideContent where
  line : Option Nat
  short : List Byte
  long : List Byte
  deriving DecidableEq, Repr

/-- The main region of a text-showing head. -/
inductive Main where
  | blank
  | destinations (items : List DestItem)
  | prompts (items : List PromptItem)
  | text (long : List Byte)
  deriving DecidableEq, Repr

/-- The next content of a head, in the form its kind shows (R141). -/
inductive Content where
  | indicator (text : PosText) (line : Option Nat)
  | lantern (lit : Bool) (arrow : Arrow) (flash : Bool) (chimes : Nat)
  | panel (main : Main) (line : Option Nat)
  | carPanel (region : PosText) (main : Main) (line : Option Nat)
  deriving DecidableEq, Repr

/-- A held snapshot (R143): content, tag and level. -/
structure Snapshot where
  content : Content
  tag : BitVec 4
  level : Nat
  deriving DecidableEq, Repr

/-- A head with a row in the Head Table in force: the Compositor's content record (09), the Trunk Controller's part
(10, 11) and the kiosk's Prompt List (R92). -/
structure Head where
  override : Option OverrideContent := none
  notice : Option (List Byte) := none
  guidance : Option Guide := none
  position : Option PosText := none
  /-- The MODEL's own: what the position layer and the guidance layer were last written from. -/
  positionDesc : PosDesc := .empty
  guidanceDesc : Option Guide := none
  presented : Layer := .idle
  next : Content := .lantern false .none false 0
  confirmed : Option Content := none
  snapshot : Option Snapshot := none
  ambient : Option Nat := none
  target : Nat := 0
  level : Nat := 0
  jump : Bool := false
  /-- The Compositor's last result handed to the Trunk Controller: differs, and the presented layer with it (R142). -/
  differs : Bool := true
  handed : Layer := .idle
  link : LinkState := .unknown
  needsReload : Bool := false
  busy : Bool := false
  missRun : Nat := 0
  misses : Nat := 0
  busyCount : Nat := 0
  crcErrors : Nat := 0
  sentTag : BitVec 4 := 0
  pending : Bool := false
  echo : BitVec 4 := 0
  everLost : Bool := false
  everFailed : Bool := false
  /-- Last frame time (R159), when the poll falls due after it, and membership of the poll class. -/
  lastFrame : Option Time := none
  pollAt : Option Time := none
  pollDue : Bool := true
  /-- When a LOST head's probe falls due, and membership of the probe class. -/
  probeAt : Option Time := none
  probeDue : Bool := false
  prompts : List Prompt := []
  deriving DecidableEq, Repr

/-! ### Trunks (10, 11) -/

/-- One line of a trunk: SHUT with its cause or READY, shut time, loop error run, histories (11 section 4). -/
structure TrunkLine where
  shut : Option ShutCause := none
  shutTime : Time := 0
  loopRun : Nat := 0
  loopErr : Bool := false
  watchdog : Bool := false
  deriving DecidableEq, Repr

/-- A broadcast request (R131). -/
structure Request where
  line : Nat
  zones : BitVec 16
  short : List Byte
  long : List Byte
  deriving DecidableEq, Repr

/-- A turn in flight (R153, R162): the head served or 0 for a broadcast, the line used, the frame as sent, and how the
turn stands. -/
structure Turn where
  kind : FrameKind
  address : Nat
  line : LineId
  frame : List Byte
  /-- The retry of a head's frame, or the second copy of a broadcast, has begun. -/
  second : Bool := false
  /-- Ended early for a broadcast: no retry and no miss (R161). -/
  early : Bool := false
  /-- A recovery probe of a DOWN trunk (R173). -/
  recovery : Bool := false
  /-- A recovery probe that an order turned into an ordinary turn: no miss (R173). -/
  noMiss : Bool := false
  /-- The served head's row was set to NONE: nothing is handed for it (R163). -/
  orphan : Bool := false
  request : Option Request := none
  /-- Speed and reply window codes taken at the turn's beginning (R163). -/
  speed : Nat := 0
  window : Nat := 0
  deriving DecidableEq, Repr

/-- What a trunk has in flight. -/
inductive Flight where
  | idle
  | sending (turn : Turn)
  | window (turn : Turn)
  | receiving (turn : Turn)
  | copyGap (turn : Turn)
  | breaking (line : LineId)
  | gap
  deriving DecidableEq, Repr

/-- A Trunk Controller. -/
structure Trunk where
  state : TrunkState := .off
  active : Option LineId := none
  lineA : TrunkLine := {}
  lineB : TrunkLine := {}
  /-- Recovery expiry, the line chosen at it and not yet probed, and the address of the last recovery probe (R173). -/
  recovery : Option Time := none
  chosen : Option LineId := none
  lastProbe : Nat := 0
  /-- The scheduler's positions of classes 2 to 7 (R158). -/
  positions : Table Nat := []
  /-- The pending broadcast list, oldest first (R160). -/
  requests : List Request := []
  flight : Flight := .idle
  deriving DecidableEq, Repr

/-! ### The hub -/

/-- The state of the hub. -/
structure State where
  /-- Reset state: READY is `phase = ready`. -/
  phase : Phase := .held
  run : Bool := false
  attention : BitVec 12 := 0
  mask : BitVec 12 := 0
  hold : Bool := false
  fixed : Bool := false
  /-- The word the port drives on its data lines at the last shared RAM read (R1). -/
  readData : Word32 := 0
  ram : Memory := []
  /-- The hub's stamp of each hub-owned record, by the byte address of its lead stamp (R5). -/
  stamps : Table Stamp := []
  hubTime : Time := 0
  /-- Override pins OVR0 to OVR3: bit i set while the pin is low. -/
  ovrLow : BitVec 4 := 0
  /-- SBEN and SBFR pin levels. -/
  sben : Bool := false
  sbfr : Bool := false
  /-- The side-band word in reception: the bits taken so far, in order (R126). -/
  word : Option (List Bool) := none
  /-- The side-band bad-word count (R127). -/
  badWords : Nat := 0
  /-- The building area's sweep, seen stamps and torn count. -/
  sweep : AreaSweep := {}
  configSeen : Option Stamp := none
  ordersSeen : Option Stamp := none
  torn : Nat := 0
  config : ConfigUnit := {}
  orders : OrdersCopy := {}
  /-- The Supervisor Fault List. -/
  faults : FaultList := {}
  tenants : Table Tenant := []
  cars : Table Car := []
  board : Table BoardEntry := []
  /-- Counts the board entries created: the next entry's order of creation. -/
  boardCreated : Nat := 0
  /-- The Aboard Lists, deck k of car c at 2 × c + k: destinations with rider counts (R90). -/
  aboard : Table (List (Nat × Nat)) := []
  lines : Table OverrideLine := []
  heads : Table Head := []
  trunks : Table Trunk := []
  /-- The commands that wait, first in first out. -/
  pending : List Instr := []
  deriving DecidableEq, Repr

/-- Faults that stop the hub: none. The spec describes no command that stops it, so the type has no constructor; the
hub's own fault records are state (R52). -/
inductive Fault where
  deriving DecidableEq, Repr

/-- Refusals. -/
inductive Refusal where
  /-- Raised by exec's arm of a command that has no meaning yet; safe, since nothing is claimed of the command. -/
  | notModelled (mnemonic : String)
  deriving DecidableEq, Repr

/-- The hub right after assertion of the power-on reset input (R3): held in reset, every register field 0, every
unit at its power-on state, the shared RAM with nothing listed, the override pins high and SBEN and SBFR low
(assumptions 1 and 2). -/
def State.reset : State := {}

end Sys2Proof.Machine
end

