-- ==== Sys2Proof/Machine/Ops.lean ====
section
/-!
DEFINITION. The named operations over tables, shared RAM, timers, registers and the parts of the state. Every read and
write of the state's tables, of the shared RAM and of the Attention register goes through these.
-/

namespace Sys2Proof.Machine

/-! ### Tables -/

/-- The entry of key `k`, if it is listed. -/
def tableFind {α : Type} : Table α → Nat → Option α
  | [], _ => none
  | (k', v) :: t, k => if k' = k then some v else tableFind t k

/-- The value of key `k`, `d` where it is not listed. -/
def tableGet {α : Type} (d : α) (t : Table α) (k : Nat) : α := (tableFind t k).getD d

/-- The table with `v` at key `k`; the keys stay in rising order. -/
def tableSet {α : Type} : Table α → Nat → α → Table α
  | [], k, v => [(k, v)]
  | (k', v') :: t, k, v =>
    if k < k' then (k, v) :: (k', v') :: t else if k' = k then (k, v) :: t else (k', v') :: tableSet t k v

/-- The table without key `k`. -/
def tableErase {α : Type} (t : Table α) (k : Nat) : Table α := t.filter (fun e => !(e.1 == k))

/-- The keys listed in either table, each once. -/
def keysOfBoth {α : Type} (t u : Table α) : List Nat :=
  t.map (·.1) ++ (u.map (·.1)).filter (fun k => (tableFind t k).isNone)

/-! ### Bytes and numbers (R174) -/

/-- The number in a little-endian run of bytes. -/
def leNat : List Byte → Nat
  | [] => 0
  | b :: bs => b.toNat + 256 * leNat bs

/-- One byte, two bytes and four bytes of a number, little-endian. -/
def u8 (n : Nat) : List Byte := [BitVec.ofNat 8 n]
def u16 (n : Nat) : List Byte := [BitVec.ofNat 8 n, BitVec.ofNat 8 (n / 256)]
def u32 (n : Nat) : List Byte :=
  [BitVec.ofNat 8 n, BitVec.ofNat 8 (n / 256), BitVec.ofNat 8 (n / 65536), BitVec.ofNat 8 (n / 16777216)]

/-- `n` unused bytes, written 0. -/
def unused (n : Nat) : List Byte := List.replicate n 0

/-- An optional 8-bit field: 0xFF when absent (R174). -/
def opt8 (o : Option Nat) : List Byte := u8 (o.getD 0xFF)

/-- An optional 16-bit field: 0xFFFF when absent (R174). -/
def opt16 (o : Option Nat) : List Byte := u16 (o.getD 0xFFFF)

/-- A bit as a number. -/
def bit (b : Bool) : Nat := if b then 1 else 0

/-- A signed 8-bit and 16-bit number in two's complement (R174). -/
def signed8 (n : Nat) : Int := (BitVec.ofNat 8 n).toInt
def signed16 (n : Nat) : Int := (BitVec.ofNat 16 n).toInt

/-- The least integer not below n / d. -/
def ceilDiv (n d : Nat) : Nat := (n + d - 1) / d

/-- clamp(x, lo, hi) of 00_scope.md 6.1. -/
def clamp (x lo hi : Int) : Int := if x < lo then lo else if x > hi then hi else x

/-- A count that saturates at `top`. -/
def saturate (top n : Nat) : Nat := min n top

/-- `n` places: the list cut or filled with spaces. -/
def places (n : Nat) (l : List Byte) : List Byte := (l ++ List.replicate n 32).take n

/-- A printable code or a glyph (00_scope.md 6.8). -/
def isPrintable (b : Byte) : Bool := 32 ≤ b.toNat && b.toNat ≤ 126
def isGlyph (b : Byte) : Bool := 128 ≤ b.toNat && b.toNat ≤ 143

/-- A code of display text as it is presented: a space when neither printable nor a glyph (R40, R72, R112). -/
def displayCode (b : Byte) : Byte := if isPrintable b || isGlyph b then b else 32

/-- A label as it shows: its characters up to code 0, then spaces (R65). -/
def labelPlaces (n : Nat) (l : List Byte) : List Byte := places n (l.takeWhile (fun b => !(b == 0)))

/-! ### Shared RAM -/

/-- The byte at a byte address; an unlisted byte is 0 (the zero pattern, R3). -/
def memGet : Memory → Nat → Byte
  | [], _ => 0
  | (k, b) :: m, a => if k = a then b else memGet m a

/-- The cells of a run of bytes from `base`, those that are not 0. -/
def cellsFrom : Nat → List Byte → List Host.Cell
  | _, [] => []
  | base, b :: bs => if b = 0 then cellsFrom (base + 1) bs else (base, b) :: cellsFrom (base + 1) bs

/-- The memory with the bytes written from `base`. -/
def memWrite (m : Memory) (base : Nat) (bytes : List Byte) : Memory :=
  m.filter (fun c => c.1 < base) ++ cellsFrom base bytes ++ m.filter (fun c => base + bytes.length ≤ c.1)

/-- `n` bytes read from `base`. -/
def memBytes (m : Memory) (base n : Nat) : List Byte := (List.range n).map (fun i => memGet m (base + i))

/-- A little-endian number of `n` bytes at `base`. -/
def memNat (m : Memory) (base n : Nat) : Nat := leNat (memBytes m base n)

/-- The 32-bit word at a word address (R1). -/
def memWord (m : Memory) (addr : BitVec 16) : Word32 := BitVec.ofNat 32 (memNat m (4 * addr.toNat) 4)

/-- The canonical form: addresses strictly rise, lie in the 256 KiB, and no listed byte is 0. -/
def memWf : Memory → Bool
  | [] => true
  | [(k, b)] => k < 262144 && b != 0
  | (k, b) :: (k', b') :: m => k < k' && b != 0 && memWf ((k', b') :: m)

/-! ### Time (R14) -/

/-- The expiry of a timer of length `ms` started at `now`. -/
def expiryAfter (now : Time) (ms : Nat) : Time := now + BitVec.ofNat 32 ms

/-- Whether a running timer's expiry has been reached: no timer is longer than 2^31 ms (assumption 4). -/
def reached (now : Time) (expiry : Option Time) : Bool :=
  match expiry with
  | none => false
  | some e => (now - e).toNat < 2147483648

/-- Milliseconds from one hub time to a later one, modulo 2^32. -/
def elapsed (since now : Time) : Nat := (now - since).toNat

/-! ### Port registers (01 section 1) -/

/-- READY: zero-fill and any port reset are complete. -/
def ready (s : State) : Bool := s.phase == .ready

/-- The attention output (R12): an Attention bit is set with its mask bit at 1. -/
def attentionOutput (s : State) : Bool := !(s.attention &&& s.mask == 0)

/-- Identity (01, register table). -/
def identityWord : Word32 :=
  BitVec.ofNat 32 (Config.part + 65536 * Config.revision + 16777216 * Config.vendor)

/-- What a read of register `select` returns (01 section 1, R2). -/
def readRegister (s : State) (select : BitVec 3) : Word32 :=
  match select.toNat with
  | 0 => identityWord
  | 1 => BitVec.ofNat 32 (bit s.run + 4 * bit (ready s) + 8 * bit s.sben)
  | 3 => s.attention.zeroExtend 32
  | 4 => s.mask.zeroExtend 32
  | 5 => BitVec.ofNat 32 (bit s.hold + 2 * bit s.fixed)
  | _ => 0

/-- Which command a write of `value` to register `select` is (R2, R10 to R13). -/
def registerWriteCommand (s : State) (select : BitVec 3) (value : Word32) : Instr :=
  if !ready s then .registerWriteIgnored select value
  else match select.toNat with
    | 1 =>
      if value.getLsbD 1 then .portReset
      else if value.getLsbD 0 && !s.run then .runSet
      else if !value.getLsbD 0 && s.run then .runClear
      else .registerWriteIgnored select value
    | 2 =>
      let v := value.toNat % 256
      if h : v < 8 then
        if s.run && s.config.inForce.isSome then .nudgeTenant ⟨v, h⟩ else .registerWriteIgnored select value
      else if v == 8 && s.run then .nudgeBuilding
      else .registerWriteIgnored select value
    | 3 => .attentionClear value
    | 4 => .attentionMaskWrite value
    | 5 =>
      if value.toNat == 1 then .lockSetHold
      else if value.toNat == 2 then .lockClearHold
      else if value.toNat == 3 then .lockSetFixed
      else .registerWriteIgnored select value
    | _ => .registerWriteIgnored select value

/-- Sets Attention bit `i` (R12): 0 to 7 TENANTt, 8 SUPERVISOR, 9 TRUNK, 10 OVERRIDE, 11 LOCKED. -/
def attend (i : Nat) (s : State) : State := { s with attention := s.attention ||| BitVec.ofNat 12 (2 ^ i) }

/-! ### Parts of the state by number -/

def State.tenant (s : State) (t : Nat) : Tenant := tableGet {} s.tenants t
def State.setTenant (s : State) (t : Nat) (v : Tenant) : State := { s with tenants := tableSet s.tenants t v }
def State.modTenant (s : State) (t : Nat) (f : Tenant → Tenant) : State := s.setTenant t (f (s.tenant t))

def State.car (s : State) (c : Nat) : Car := tableGet {} s.cars c
def State.setCar (s : State) (c : Nat) (v : Car) : State := { s with cars := tableSet s.cars c v }
def State.modCar (s : State) (c : Nat) (f : Car → Car) : State := s.setCar c (f (s.car c))

def State.line (s : State) (l : Nat) : OverrideLine := tableGet {} s.lines l
def State.setLine (s : State) (l : Nat) (v : OverrideLine) : State := { s with lines := tableSet s.lines l v }

def State.trunk (s : State) (t : Nat) : Trunk := tableGet {} s.trunks t
def State.setTrunk (s : State) (t : Nat) (v : Trunk) : State := { s with trunks := tableSet s.trunks t v }

/-- The key of head (trunk, address), address 1 to 62, in trunk order and then address order (R168). -/
def headKey (trunk address : Nat) : Nat := Config.headsPerTrunk * trunk + address - 1

/-- The trunk and the address of a head key. -/
def keyTrunk (k : Nat) : Nat := k / Config.headsPerTrunk
def keyAddress (k : Nat) : Nat := k % Config.headsPerTrunk + 1

/-- The record of a head, none for an ABSENT one; no address beyond 1 to 62 names a head. -/
def State.headAt (s : State) (trunk address : Nat) : Option Head :=
  if headAddressOk address then tableFind s.heads (headKey trunk address) else none

/-- Changes a head's record, if there is one. -/
def State.modHead (s : State) (k : Nat) (f : Head → Head) : State :=
  match tableFind s.heads k with
  | none => s
  | some h => { s with heads := tableSet s.heads k (f h) }

def State.aboardList (s : State) (car deck : Nat) : List (Nat × Nat) := tableGet [] s.aboard (2 * car + deck)
def State.setAboard (s : State) (car deck : Nat) (l : List (Nat × Nat)) : State :=
  { s with aboard := tableSet s.aboard (2 * car + deck) l }

def Tenant.slot (t : Tenant) (i : Nat) : Slot := tableGet {} t.slots i
def State.slot (s : State) (t i : Nat) : Slot := (s.tenant t).slot i
def State.modSlot (s : State) (t i : Nat) (f : Slot → Slot) : State :=
  s.modTenant t (fun ten => { ten with slots := tableSet ten.slots i (f (ten.slot i)) })

def Tenant.program (t : Tenant) (p : Nat) : Program := tableGet {} t.programs p
def State.program (s : State) (t p : Nat) : Program := (s.tenant t).program p
def State.modProgram (s : State) (t p : Nat) (f : Program → Program) : State :=
  s.modTenant t (fun ten => { ten with programs := tableSet ten.programs p (f (ten.program p)) })

def Car.deck (c : Car) (k : Nat) : Deck := if k = 0 then c.deck0 else c.deck1
def Car.setDeck (c : Car) (k : Nat) (d : Deck) : Car := if k = 0 then { c with deck0 := d } else { c with deck1 := d }
def Car.mapDecks (c : Car) (f : Deck → Deck) : Car := { c with deck0 := f c.deck0, deck1 := f c.deck1 }
def State.deck (s : State) (c k : Nat) : Deck := (s.car c).deck k
def State.modDeck (s : State) (c k : Nat) (f : Deck → Deck) : State :=
  s.modCar c (fun car => car.setDeck k (f (car.deck k)))

def Trunk.line (t : Trunk) (l : LineId) : TrunkLine :=
  match l with
  | .a => t.lineA
  | .b => t.lineB
def Trunk.setLine (t : Trunk) (l : LineId) (v : TrunkLine) : Trunk :=
  match l with
  | .a => { t with lineA := v }
  | .b => { t with lineB := v }

/-- The other line of a trunk. -/
def LineId.other : LineId → LineId
  | .a => .b
  | .b => .a

/-! ### Parts of a configuration by number -/

def BuildingConfig.floor (g : BuildingConfig) (i : Nat) : Floor := g.floors.getD i {}
def BuildingConfig.car (g : BuildingConfig) (c : Nat) : CarRecord := g.cars.getD c {}
def BuildingConfig.grant (g : BuildingConfig) (t : Nat) : Grant := g.grants.getD t {}
def BuildingConfig.trunk (g : BuildingConfig) (t : Nat) : TrunkSettings := g.trunks.getD t {}
def BuildingConfig.line (g : BuildingConfig) (l : Nat) : LineSettings := g.lines.getD l {}
def BuildingConfig.text (g : BuildingConfig) (i : Nat) : TwoForms := g.texts.getD i {}
def BuildingConfig.head (g : BuildingConfig) (k : Nat) : Option HeadRow := tableFind g.heads k
def BuildingConfig.height (g : BuildingConfig) (i : Nat) : Nat := (g.floor i).height

/-- The configuration in force; an empty one while UNCONFIGURED. -/
def State.conf (s : State) : BuildingConfig := s.config.inForce.getD {}

/-- CONFIGURED: a generation is in force (R28). -/
def State.configured (s : State) : Bool := s.config.inForce.isSome

/-- Does a tenant's grant hold a car, a landing? -/
def grantsCar (g : BuildingConfig) (t c : Nat) : Bool := c < 64 && (g.grant t).cars.getLsbD c
def grantsLanding (g : BuildingConfig) (t l : Nat) : Bool := l < 192 && (g.grant t).landings.getLsbD l

/-- The tenant to which a car is granted; R24 allows one at most. -/
def carTenant (g : BuildingConfig) (c : Nat) : Option Nat := (List.range 8).find? (fun t => grantsCar g t c)

/-- The label of a landing, four places (R65). -/
def landingLabel (g : BuildingConfig) (i : Nat) : List Byte := labelPlaces 4 (g.floor i).label

/-- The four places of a label source. -/
def sourcePlaces (g : BuildingConfig) : LabelSource → List Byte
  | .landing i => landingLabel g i
  | .codes l => l

/-- The label of a car, two places. -/
def carLabel (g : BuildingConfig) (c : Nat) : List Byte := labelPlaces 2 (g.car c).label

/-- The closed-landing set in force holds a landing (R34). -/
def State.closed (s : State) (l : Nat) : Bool := l < 192 && s.orders.closed.getLsbD l

/-- The sweep period P (R9): 20 ms while UNCONFIGURED. -/
def sweepPeriod (s : State) : Nat :=
  match s.config.inForce with
  | none => 20
  | some g => g.sweepPeriod

/-! ### Members of sets -/

def setAdd {n : Nat} (set : BitVec n) (i : Nat) : BitVec n := set ||| BitVec.ofNat n (2 ^ i)

end Sys2Proof.Machine
end

