-- ==== Sys2Proof/Machine/Codes.lean ====
section
/-!
DEFINITION. The codes of enumerated fields (12_layouts.md section 4, R174).
-/

namespace Sys2Proof.Machine

def motionOf (n : Nat) : Option Motion :=
  match n with
  | 0 => some .stopped | 1 => some .running | 2 => some .levelling | 3 => some .inspection
  | 4 => some .outOfService | _ => none

/-- A door code other than the four reads as CLOSED (R56). -/
def doorOf (n : Nat) : Door :=
  match n with
  | 1 => .opening | 2 => .opened | 3 => .closing | _ => .closed

/-- A direction code; any code other than UP and DOWN is absent (R56). -/
def dirOf (n : Nat) : Option Dir :=
  match n with
  | 0 => some .up | 1 => some .down | _ => none

def dirCode : Dir → Nat
  | .up => 0 | .down => 1

def arrowCode : Arrow → Nat
  | .none => 0 | .up => 1 | .down => 2

def dirArrow : Dir → Arrow
  | .up => .up | .down => .down

def optArrow : Option Dir → Arrow
  | none => .none | some d => dirArrow d

def trackingCode : Tracking → Nat
  | .acquiring => 0 | .tracking => 1 | .parked => 2

def modeCode : DeckMode → Nat
  | .none => 0 | .at => 1 | .running => 2 | .between => 3 | .inspection => 4 | .outOfService => 5

def markOf (n : Nat) : Option Mark :=
  match n with
  | 0 => some .arrive | 1 => some .door | 2 => some .depart | 3 => some .park | _ => none

def markCode : Mark → Nat
  | .arrive => 0 | .door => 1 | .depart => 2 | .park => 3

def kindOf (n : Nat) : Option HeadKind :=
  match n with
  | 1 => some .positionIndicator | 2 => some .lantern | 3 => some .landingDestination
  | 4 => some .kioskPrompt | 5 => some .carPanel | 6 => some .textPanel | _ => none

def kindCode : HeadKind → Nat
  | .positionIndicator => 1 | .lantern => 2 | .landingDestination => 3
  | .kioskPrompt => 4 | .carPanel => 5 | .textPanel => 6

def linkCode : Option LinkState → Nat
  | none => 0 | some .unknown => 1 | some .online => 2 | some .failed => 3 | some .lost => 4

def contentCode : ContentState → Nat
  | .confirmed => 0 | .dirty => 1 | .sent => 2

def slotCode : SlotState → Nat
  | .idle => 0 | .taken => 1 | .boarded => 2 | .retired => 3

def outcomeCode : Outcome → Nat
  | .refused => 1 | .cancelled => 2 | .delivered => 3 | .listFull => 4 | .expired => 5
  | .reconfigured => 6 | .revoked => 7 | .reset => 8 | .restart => 9

def refusedCode : Refused → Nat
  | .map => 1 | .grant => 2 | .sameLanding => 3 | .notServed => 4 | .restricted => 5 | .boardFull => 6 | .quota => 7

def resultCode : RequestResult → Nat
  | .accepted => 0 | .conflict => 1 | .late => 2

def programCode : ProgramState → Nat
  | .idle => 0 | .running => 1 | .waiting => 2 | .done => 3 | .faulted => 4

def causeCode : Cause → Nat
  | .floorUnmapped => 1 | .carUnmapped => 2 | .kioskUnmapped => 3 | .entryRange => 4 | .textIndex => 5
  | .stepKind => 6 | .stepRange => 7 | .loop => 8 | .requestConflict => 9 | .landingNotGranted => 10
  | .carNotGranted => 11 | .headNotGranted => 12 | .configRefused => 13 | .lockedChange => 14

/-- The class of a cause (03 section 9): 1 MAP, 2 GRANT, 3 CONTENT, 4 BUILDING. -/
def classCode : Cause → Nat
  | .floorUnmapped | .carUnmapped | .kioskUnmapped | .entryRange => 1
  | .landingNotGranted | .carNotGranted | .headNotGranted => 2
  | .textIndex | .stepKind | .stepRange | .loop | .requestConflict => 3
  | .configRefused | .lockedChange => 4

/-- The stage of a fault (R52): 1 for MAP, 2 for GRANT, absent for the rest. -/
def stageOf (c : Cause) : Option Nat :=
  if classCode c = 1 then some 1 else if classCode c = 2 then some 2 else none

def sourceCode : SourceKind → Nat
  | .carReport => 1 | .slot => 2 | .program => 3 | .map => 4 | .header => 5 | .configuration => 6

def partCode : ConfigPart → Nat
  | .header => 1 | .floor => 2 | .car => 3 | .head => 4 | .grant => 5 | .trunk => 6 | .kind => 7
  | .restriction => 8 | .overrideLine => 9 | .overrideText => 10

def lineStateCode : LineState → Nat
  | .idle => 0 | .pendingOn => 1 | .active => 2 | .pendingOff => 3

def trunkCode : TrunkState → Nat
  | .off => 0 | .running => 1 | .down => 2

def lineIdCode : LineId → Nat
  | .a => 0 | .b => 1

def shutCode : ShutCause → Nat
  | .loop => 1 | .watchdog => 2 | .ordered => 3

/-- The display mark of Car State and position content: 0, or the mark's glyph code. -/
def posMarkCode : PosMark → Nat
  | .none => 0 | .parked => 0x85 | .inspection => 0x86

/-- A deck attribute: 0, 1 or 2 for BOTH; any other code fails stage one (R45). -/
def attrOf (n : Nat) : Option DeckAttr :=
  match n with
  | 0 => some .lower | 1 => some .upper | 2 => some .both | _ => none

/-- Does a deck attribute cover deck `k`? (R50) -/
def attrCovers (a : DeckAttr) (k : Nat) : Bool :=
  match a with
  | .lower => k == 0
  | .upper => k == 1
  | .both => true

end Sys2Proof.Machine
end

