-- ==== Sys2Proof/Machine/Operands.lean ====
section
/-!
DEFINITION. The host-owned records as the hub reads them from shared RAM (12_layouts.md sections 2 and 3), and the
lenient readings and clamps of their fields (R40, R56, R78, 07 section 3).
-/

namespace Sys2Proof.Machine

/-! ### Places in shared RAM (12_layouts.md section 2) -/

def configBase : Nat := 0x1000
def ordersBase : Nat := 0x6000
def tenantBase (t : Nat) : Nat := 0x10000 + 0x6000 * t
def reportBase (t i : Nat) : Nat := tenantBase t + 0x100 + 32 * i
def mapBase (t : Nat) : Nat := tenantBase t + 0x300
def slotBase (t i : Nat) : Nat := tenantBase t + 0x800 + 64 * i
def programBase (t p : Nat) : Nat := tenantBase t + 0x1800 + 256 * p
def textBase (t i : Nat) : Nat := tenantBase t + 0x2000 + 80 * i
def tenantFaultBase (t : Nat) : Nat := tenantBase t + 0x3400
def supervisorFaultBase : Nat := 0x6400

/-- The twin stamps of a host-owned record: the lead at its first byte, the tail at `tailOffset` (R6). -/
structure Stamps where
  lead : Stamp
  tail : Stamp
  deriving DecidableEq, Repr

def stampsAt (m : Memory) (base tailOffset : Nat) : Stamps :=
  { lead := BitVec.ofNat 16 (memNat m base 2), tail := BitVec.ofNat 16 (memNat m (base + tailOffset) 2) }

/-! ### The Building Configuration -/

/-- Floor Table entry `i`. -/
def readFloor (m : Memory) (i : Nat) : Floor :=
  let b := configBase + 0x40 + 16 * i
  { height := memNat m b 4, label := memBytes m (b + 4) 4 }

/-- Car Record `c`. -/
def readCarRecord (m : Memory) (c : Nat) : CarRecord :=
  let b := configBase + 0xC40 + 16 * c
  { present := memNat m b 1, deckCount := memNat m (b + 1) 1, label := memBytes m (b + 2) 2,
    spacing := memNat m (b + 4) 2, deceleration := memNat m (b + 6) 2, reaction := memNat m (b + 8) 2,
    vmax := memNat m (b + 10) 2 }

/-- The Head Table row of head key `k`. -/
def readHeadRow (m : Memory) (k : Nat) : HeadRow :=
  let b := configBase + 0x1040 + 8 * k
  { kind := memNat m b 1, zone := memNat m (b + 1) 1, immunity := memGet m (b + 2), layerMask := memGet m (b + 3),
    landing := memNat m (b + 4) 1, car := memNat m (b + 5) 1, deck := memNat m (b + 6) 1,
    owner := memNat m (b + 7) 1 }

def readGrant (m : Memory) (t : Nat) : Grant :=
  let b := configBase + 0x2F40 + 64 * t
  { landings := BitVec.ofNat 192 (memNat m b 24), cars := BitVec.ofNat 64 (memNat m (b + 24) 8),
    quota := memNat m (b + 32) 2, routing := BitVec.ofNat 16 (memNat m (b + 34) 2) }

def readTrunkSettings (m : Memory) (t : Nat) : TrunkSettings :=
  let b := configBase + 0x3140 + 16 * t
  { enabled := memNat m b 1, speed := memNat m (b + 1) 1, window := memNat m (b + 2) 1,
    recovery := memNat m (b + 4) 2 }

/-- The settings of head kind code `i + 1`. -/
def readKindSettings (m : Memory) (i : Nat) : KindSettings :=
  let b := configBase + 0x3240 + 16 * i
  { poll := memNat m b 2, offset := signed8 (memNat m (b + 2) 1), gain := memNat m (b + 3) 1,
    lmin := memNat m (b + 4) 1, lmax := memNat m (b + 5) 1 }

def readRestriction (m : Memory) (i : Nat) : Restriction :=
  let b := configBase + 0x32A0 + 16 * i
  { landing := memNat m b 1, mode := memNat m (b + 1) 1, cars := BitVec.ofNat 64 (memNat m (b + 8) 8) }

def readLineSettings (m : Memory) (i : Nat) : LineSettings :=
  let b := configBase + 0x36A0 + 16 * i
  { zones := BitVec.ofNat 16 (memNat m b 2), permitted := BitVec.ofNat 16 (memNat m (b + 2) 2),
    sideBand := memNat m (b + 4) 1, text := memNat m (b + 5) 1, kill := memNat m (b + 6) 1,
    onTime := memNat m (b + 8) 2, offTime := memNat m (b + 10) 2 }

def readOverrideText (m : Memory) (i : Nat) : TwoForms :=
  let b := configBase + 0x36E0 + 80 * i
  { long := memBytes m b 72, short := memBytes m (b + 72) 4 }

/-- The rows of the Head Table that hold a head: those whose kind is not NONE (R23). -/
def readHeadTable (m : Memory) : Table HeadRow :=
  ((List.range 992).map (fun k => (k, readHeadRow m k))).filter (fun e => !(e.2.kind == 0))

/-- The body of the Building Configuration (R16). -/
def readConfiguration (m : Memory) : BuildingConfig :=
  { floorCount := memNat m (configBase + 2) 1, dayCeiling := memNat m (configBase + 3) 1,
    nightCeiling := memNat m (configBase + 4) 1, sweepPeriod := memNat m (configBase + 6) 2,
    floors := (List.range 192).map (readFloor m), cars := (List.range 64).map (readCarRecord m),
    heads := readHeadTable m, grants := (List.range 8).map (readGrant m),
    trunks := (List.range 16).map (readTrunkSettings m), kinds := (List.range 6).map (readKindSettings m),
    restrictions := (List.range 64).map (readRestriction m), lines := (List.range 4).map (readLineSettings m),
    texts := (List.range 16).map (readOverrideText m) }

def configStamps (m : Memory) : Stamps := stampsAt m configBase 0x4FFC

/-! ### The Building Orders (12_layouts.md 3.10) -/

/-- The body of an Orders record; line orders by line number, codes as written. -/
structure OrdersRecord where
  night : Nat
  tests : BitVec 4
  lines : List Nat
  closed : BitVec 192
  restore : List Stamp
  historyClear : Stamp
  deriving DecidableEq, Repr

def readOrders (m : Memory) : OrdersRecord :=
  { night := memNat m (ordersBase + 2) 1, tests := BitVec.ofNat 4 (memNat m (ordersBase + 3) 1),
    lines := (List.range 32).map (fun i => memNat m (ordersBase + 4 + i) 1),
    closed := BitVec.ofNat 192 (memNat m (ordersBase + 36) 24),
    restore := (List.range 16).map (fun t => BitVec.ofNat 16 (memNat m (ordersBase + 60 + 2 * t) 2)),
    historyClear := BitVec.ofNat 16 (memNat m (ordersBase + 92) 2) }

def ordersStamps (m : Memory) : Stamps := stampsAt m ordersBase 1022

/-! ### The Tenant Header (12_layouts.md 3.1) -/

structure HeaderRecord where
  enable : Nat
  express : Nat
  landingZone : Nat
  hysteresis : Nat
  freshness : Nat
  promptHold : Nat
  boardingLimit : Nat
  rideLimit : Nat
  glyph : List Byte
  park : Nat
  parkText : Nat
  oosText : Nat
  refuseClosed : Nat
  restart : Stamp
  markStamp : Stamp
  markCar : Nat
  markMark : Nat
  deriving DecidableEq, Repr

def readHeader (m : Memory) (t : Nat) : HeaderRecord :=
  let b := tenantBase t
  { enable := memNat m (b + 2) 1, express := memNat m (b + 3) 1, landingZone := memNat m (b + 4) 2,
    hysteresis := memNat m (b + 6) 2, freshness := memNat m (b + 8) 2, promptHold := memNat m (b + 10) 2,
    boardingLimit := memNat m (b + 12) 2, rideLimit := memNat m (b + 14) 2, glyph := memBytes m (b + 16) 4,
    park := memNat m (b + 20) 1, parkText := memNat m (b + 21) 1, oosText := memNat m (b + 22) 1,
    refuseClosed := memNat m (b + 23) 1, restart := BitVec.ofNat 16 (memNat m (b + 24) 2),
    markStamp := BitVec.ofNat 16 (memNat m (b + 26) 2), markCar := memNat m (b + 28) 1,
    markMark := memNat m (b + 29) 1 }

def headerStamps (m : Memory) (t : Nat) : Stamps := stampsAt m (tenantBase t) 126

/-- A value written 0 takes the default; otherwise it is brought between `lo` and `hi` (R40). -/
def clampOption (v default lo hi : Nat) : Nat := if v = 0 then default else max lo (min v hi)

/-- A text index of the header: 64 and above is absent (R40). -/
def textOption (v : Nat) : Option Nat := if v < 64 then some v else none

/-- The effective options of an accepted header (R40). -/
def effectiveOptions (h : HeaderRecord) : Options :=
  { landingZone := clampOption h.landingZone 150 20 400,
    hysteresis := if h.hysteresis = 0xFFFF then 0 else clampOption h.hysteresis 100 1 500,
    freshness := clampOption h.freshness 1000 200 5000,
    express := if h.express ≤ 2 then h.express else 0,
    glyph := h.glyph.map displayCode,
    park := if h.park ≤ 2 then h.park else 0,
    parkText := textOption h.parkText,
    oosText := textOption h.oosText,
    promptHold := clampOption h.promptHold 6000 1000 30000,
    boardingLimit := clampOption h.boardingLimit 600 10 1800,
    rideLimit := clampOption h.rideLimit 900 10 1800,
    refuseClosed := !(h.refuseClosed == 0) }

/-! ### The Tenant Map (12_layouts.md section 2) -/

def readMap (m : Memory) (t : Nat) : TenantMap :=
  let b := mapBase t
  { floors := (List.range 192).map (fun i =>
      { landing := memNat m (b + 4 + 4 * i) 1, attr := memNat m (b + 5 + 4 * i) 1,
        usable := memNat m (b + 6 + 4 * i) 1 }),
    cars := (List.range 16).map (fun i => memNat m (b + 0x304 + 4 * i) 1),
    kiosks := (List.range 32).map (fun i =>
      { trunk := memNat m (b + 0x344 + 4 * i) 1, address := memNat m (b + 0x345 + 4 * i) 1 }) }

def mapStamps (m : Memory) (t : Nat) : Stamps := stampsAt m (mapBase t) 0x3C4

/-! ### Car Reports (12_layouts.md 3.3) -/

/-- A car report after the lenient readings of R56; `stop` is the tenant floor as written, when present. -/
structure ReportRecord where
  motion : Option Motion
  door0 : Door
  position : Nat
  velocity : Int
  door1 : Door
  service : Option Dir
  stop : Option Nat
  deriving DecidableEq, Repr

def readReport (m : Memory) (t i : Nat) : ReportRecord :=
  let b := reportBase t i
  let stop := memNat m (b + 12) 1
  { motion := motionOf (memNat m (b + 2) 1), door0 := doorOf (memNat m (b + 3) 1), position := memNat m (b + 4) 4,
    velocity := signed16 (memNat m (b + 8) 2), door1 := doorOf (memNat m (b + 10) 1),
    service := dirOf (memNat m (b + 11) 1), stop := if stop = 0xFF then none else some stop }

def reportStamps (m : Memory) (t i : Nat) : Stamps := stampsAt m (reportBase t i) 30

/-! ### Slot host halves (12_layouts.md 3.5) -/

structure SlotRequest where
  kind : Nat
  car : Nat
  origin : Nat
  destination : Nat
  kiosk : Option Nat
  party : Nat
  hold : Option Nat
  accessible : Bool
  deriving DecidableEq, Repr

/-- A slot request, its party size read between 1 and 15 and any nonzero ACCESSIBLE as 1 (R78). -/
def readSlotRequest (m : Memory) (t i : Nat) : SlotRequest :=
  let b := slotBase t i
  let kiosk := memNat m (b + 6) 1
  let hold := memNat m (b + 8) 2
  { kind := memNat m (b + 2) 1, car := memNat m (b + 3) 1, origin := memNat m (b + 4) 1,
    destination := memNat m (b + 5) 1, kiosk := if kiosk = 0xFF then none else some kiosk,
    party := max 1 (min (memNat m (b + 7) 1) 15),
    hold := if hold = 0xFFFF then none else some hold,
    accessible := !(memNat m (b + 10) 1 == 0) }

def slotStamps (m : Memory) (t i : Nat) : Stamps := stampsAt m (slotBase t i) 30

/-- The prompt hold of a request (R78): the tenant's where absent or 0, else 1,000 to 30,000 ms; doubled when
ACCESSIBLE. -/
def promptHoldOf (o : Options) (r : SlotRequest) : Nat :=
  let base := match r.hold with
    | none => o.promptHold
    | some h => clampOption h o.promptHold 1000 30000
  if r.accessible then 2 * base else base

/-! ### Notice programs (12_layouts.md 3.7) -/

structure ControlRecord where
  run : Stamp
  stop : Stamp
  desc : TargetDesc
  deriving DecidableEq, Repr

def readControl (m : Memory) (t p : Nat) : ControlRecord :=
  let b := programBase t p
  { run := BitVec.ofNat 16 (memNat m (b + 2) 2), stop := BitVec.ofNat 16 (memNat m (b + 4) 2),
    desc := { kind := memNat m (b + 6) 1, first := memNat m (b + 7) 1, last := memNat m (b + 8) 1,
              kinds := memGet m (b + 9), car := memNat m (b + 10) 1 } }

def controlStamps (m : Memory) (t p : Nat) : Stamps := stampsAt m (programBase t p) 14

/-- Steps 0 to 11 of a program, as copied at its start (R109). -/
def readSteps (m : Memory) (t p : Nat) : List Step :=
  (List.range 12).map (fun i =>
    let b := programBase t p + 16 + 12 * i
    { kind := memNat m b 1, p1 := memNat m (b + 1) 1, p2 := memNat m (b + 2) 1, p3 := memNat m (b + 3) 1,
      time := memNat m (b + 4) 4 })

/-- A duration or timeout as read: 1 to 99 is 100, above 600,000 is 600,000 (07 section 3). -/
def stepTime (v : Nat) : Nat := if v = 0 then 0 else max 100 (min v 600000)

/-- A Text Store entry, with undisplayable codes as spaces (R72, R112). -/
def readText (m : Memory) (t i : Nat) : TwoForms :=
  { long := (memBytes m (textBase t i) 72).map displayCode,
    short := (memBytes m (textBase t i + 72) 4).map displayCode }

end Sys2Proof.Machine
end

