-- ==== Sys2Proof/Machine/Flags.lean ====
section
/-!
DEFINITION. The hub's judgements and checks: the twin-stamp judgement of a sweep (R7) and the three checks of R175.
-/

namespace Sys2Proof.Machine

/-- What a sweep decides of a host-owned record (R7). -/
inductive Verdict where
  | torn
  | skipped
  | accepted (stamp : Stamp)
  deriving DecidableEq, Repr

/-- R7's table. -/
def judge (st : Stamps) (seen : Option Stamp) : Verdict :=
  if st.lead ≠ st.tail then .torn
  else match seen with
    | none => if st.lead = 0 then .skipped else .accepted st.lead
    | some v => if st.lead = v then .skipped else .accepted st.lead

/-! ### Runs of bits -/

/-- The number of one-bits of a list of bits. -/
def ones (bits : List Bool) : Nat := (bits.filter (fun b => b)).length

/-- A number from its bits, the highest first. -/
def ofBits (bits : List Bool) : Nat := bits.foldl (fun n b => 2 * n + bit b) 0

/-! ### Characters of a line (R149) -/

/-- The even parity bit of a character: with it the number of one-bits is even. -/
def evenParity (b : Byte) : Bool :=
  b.getLsbD 0 ^^ b.getLsbD 1 ^^ b.getLsbD 2 ^^ b.getLsbD 3 ^^ b.getLsbD 4 ^^ b.getLsbD 5 ^^ b.getLsbD 6 ^^ b.getLsbD 7

/-- The 11 levels of a character in the order of their sending, `true` for the idle level: a start bit, the data bits from
the least significant, the parity bit, and a stop bit. -/
def characterLevels (b : Byte) : List Bool := false :: (List.range 8).map b.getLsbD ++ [evenParity b, true]

/-- The character received from 11 levels that begin with its start bit. -/
def receivedFrom (levels : List Bool) : Received :=
  { code := BitVec.ofNat 8 (ofBits ((levels.drop 1).take 8).reverse), parity := levels.getD 9 true,
    stop := levels.getD 10 true }

/-- A character as it arrives when nothing disturbs it. -/
def goodCharacter (b : Byte) : Received := { code := b, parity := evenParity b, stop := true }

/-- A bad character: its parity is wrong, or its stop bit is not at the idle level. -/
def badCharacter (x : Received) : Bool := !(x.parity == evenParity x.code) || !x.stop

/-- A break: the start-bit level for 22 bit times. -/
def breakLevels : List Bool := List.replicate 22 false

/-! ### Checks (R175) -/

/-- One left shift of the CRC-16 register (R175). -/
def crcShift (r : BitVec 16) : BitVec 16 := if r.getLsbD 15 then (r <<< 1) ^^^ 0x1021 else r <<< 1

/-- The CRC-16 register after one character (R175). -/
def crcChar (r : BitVec 16) (c : Byte) : BitVec 16 :=
  let x := r ^^^ ((c.zeroExtend 16) <<< 8)
  crcShift (crcShift (crcShift (crcShift (crcShift (crcShift (crcShift (crcShift x)))))))

/-- The CRC-16 of a run of characters, from a register of 0xFFFF (R175). -/
def crc16 (cs : List Byte) : BitVec 16 := cs.foldl crcChar 0xFFFF

/-- Two bytes, the more significant first, as the trunks send them (12_layouts.md). -/
def be16 (w : BitVec 16) : List Byte := [(w >>> 8).truncate 8, w.truncate 8]

/-- The QUICK check: the XOR of bits 15-12, 11-8 and 7-4 of the quick word (R152, R175). -/
def quickCheck (w : BitVec 16) : BitVec 16 := ((w >>> 12) ^^^ (w >>> 8) ^^^ (w >>> 4)) &&& 0xF

/-- A side-band word's line and zone set when it is good (R127, R175): 22 bits, the line field, zones 15 down to 0,
and a check equal to the count of one-bits before it, modulo 16. -/
def judgeSideBand (bits : List Bool) : Option (Nat × BitVec 16) :=
  if bits.length = 22 ∧ ofBits (bits.drop 18) = ones (bits.take 18) % 16 then
    some (ofBits (bits.take 2), BitVec.ofNat 16 (ofBits ((bits.drop 2).take 16)))
  else none

end Sys2Proof.Machine
end

