-- ==== Sys2Proof/Machine/Resolution.lean ====
section
/-!
DEFINITION. The Resolution Unit: the two stages of a Tenant Map (R45 to R47), resolution at use (R49), served sets
(R50), the heads that belong to a tenant (R51), and the target heads of a notice program (R110).
-/

namespace Sys2Proof.Machine

/-! ### Heads and their tenants (R51) -/

/-- The kind of a Head Table row. -/
def HeadRow.kind? (r : HeadRow) : Option HeadKind := kindOf r.kind

/-- The tenant to which a head belongs under a configuration, if any (R51). -/
def headTenant (g : BuildingConfig) (r : HeadRow) : Option Nat :=
  match r.kind? with
  | none => none
  | some .kioskPrompt => if r.owner < 8 && grantsLanding g r.owner r.landing then some r.owner else none
  | some .textPanel =>
    if r.owner < 8 && (if r.landing = 0xFF then grantsCar g r.owner r.car else grantsLanding g r.owner r.landing)
    then some r.owner else none
  | some .positionIndicator => carTenant g r.car
  | some .lantern => carTenant g r.car
  | some .landingDestination => carTenant g r.car
  | some .carPanel => carTenant g r.car

/-! ### The two stages (R45, R46) -/

/-- Standing of floor entry `e` of tenant `t`. -/
def floorStanding (g : BuildingConfig) (t : Nat) (e : FloorEntry) : Standing :=
  if e.landing = 0xFF ∨ e.usable = 0 then .unmapped
  else if g.floorCount ≤ e.landing ∨ attrOf e.attr = none then .badRange
  else if grantsLanding g t e.landing then .usable
  else .badGrant .landingNotGranted

/-- Standing of car entry `i` of a map's car entries. -/
def carStanding (g : BuildingConfig) (t : Nat) (cars : List Nat) (i : Nat) : Standing :=
  let c := cars.getD i 0xFF
  if c = 0xFF then .unmapped
  else if 64 ≤ c ∨ (g.car c).present ≠ 1 ∨ (cars.take i).contains c then .badRange
  else if grantsCar g t c then .usable
  else .badGrant .carNotGranted

/-- Standing of kiosk entry `i` of a map's kiosk entries; a reference whose trunk is absent is unmapped
(assumption 5). -/
def kioskStanding (g : BuildingConfig) (t : Nat) (kiosks : List KioskEntry) (i : Nat) : Standing :=
  let e := kiosks.getD i {}
  if e.trunk = 0xFF then .unmapped
  else if 16 ≤ e.trunk ∨ headAddressOk e.address = false ∨ (kiosks.take i).contains e then .badRange
  else match g.head (headKey e.trunk e.address) with
    | none => .badRange
    | some r =>
      if r.kind? ≠ some .kioskPrompt then .badRange
      else if headTenant g r = some t then .usable
      else .badGrant .headNotGranted

/-- The resolved copy of a map: every entry with its standing (R44). -/
def resolveMap (g : BuildingConfig) (t : Nat) (stamp : Stamp) (b : TenantMap) : ResolvedMap :=
  { stamp := stamp, body := b,
    floors := b.floors.map (floorStanding g t),
    cars := (List.range b.cars.length).map (carStanding g t b.cars),
    kiosks := (List.range b.kiosks.length).map (kioskStanding g t b.kiosks) }

/-- An entry of a map by table (1 floor, 2 car, 3 kiosk) and tenant number, with its standing. -/
def ResolvedMap.entries (m : ResolvedMap) : List (Nat × Nat × Standing) :=
  ((List.range m.floors.length).map (fun i => (1, i, m.floors.getD i .unmapped))) ++
  ((List.range m.cars.length).map (fun i => (2, i, m.cars.getD i .unmapped))) ++
  ((List.range m.kiosks.length).map (fun i => (3, i, m.kiosks.getD i .unmapped)))

/-- The entries unusable for range, and those unusable for grant, in the order of R45. -/
def ResolvedMap.rangeFailures (m : ResolvedMap) : List (Nat × Nat × Standing) :=
  m.entries.filter (fun e => e.2.2 == .badRange)
def ResolvedMap.grantFailures (m : ResolvedMap) : List (Nat × Nat × Standing) :=
  m.entries.filter (fun e => match e.2.2 with | .badGrant _ => true | _ => false)

/-- The building value of an entry (R52): landing, car, or head as trunk × 256 + address. -/
def ResolvedMap.buildingValue (m : ResolvedMap) (table i : Nat) : Nat :=
  match table with
  | 1 => (m.body.floors.getD i {}).landing
  | 2 => m.body.cars.getD i 0xFF
  | _ => let k := m.body.kiosks.getD i {}
         k.trunk * 256 + k.address

/-! ### Resolution at use (R49) -/

/-- A failed resolution: the fault's cause and, for GRANT, the building value. -/
structure Failure where
  cause : Cause
  building : Option Nat
  deriving DecidableEq, Repr

/-- R49's table for an entry of table `table` with number `i` below its bound. -/
def resolveEntry (ten : Tenant) (table i bound : Nat) (unmappedCause : Cause) : Except Failure ResolvedMap :=
  if bound ≤ i then .error ⟨.entryRange, none⟩
  else match ten.map with
    | none => .error ⟨unmappedCause, none⟩
    | some m =>
      let st := match table with
        | 1 => m.floors.getD i .unmapped
        | 2 => m.cars.getD i .unmapped
        | _ => m.kiosks.getD i .unmapped
      match st with
      | .unmapped => .error ⟨unmappedCause, none⟩
      | .badRange => .error ⟨.entryRange, none⟩
      | .badGrant c => .error ⟨c, some (m.buildingValue table i)⟩
      | .usable => .ok m

/-- A tenant floor: its building landing and deck attribute. -/
def resolveFloor (ten : Tenant) (n : Nat) : Except Failure (Nat × DeckAttr) :=
  match resolveEntry ten 1 n 192 .floorUnmapped with
  | .error f => .error f
  | .ok m => let e := m.body.floors.getD n {}
             .ok (e.landing, (attrOf e.attr).getD .both)

/-- A tenant car: its building car. -/
def resolveCar (ten : Tenant) (n : Nat) : Except Failure Nat :=
  match resolveEntry ten 2 n 16 .carUnmapped with
  | .error f => .error f
  | .ok m => .ok (m.body.cars.getD n 0xFF)

/-- A tenant kiosk: its head key. -/
def resolveKiosk (ten : Tenant) (n : Nat) : Except Failure Nat :=
  match resolveEntry ten 3 n 32 .kioskUnmapped with
  | .error f => .error f
  | .ok m => let e := m.body.kiosks.getD n {}
             .ok (headKey e.trunk e.address)

/-! ### Sets (R50) -/

/-- The usable floors of a map as (landing, deck attribute). -/
def usableFloors (m : ResolvedMap) : List (Nat × DeckAttr) :=
  ((m.body.floors.zip m.floors).filter (fun e => e.2 == .usable)).map
    (fun e => (e.1.landing, (attrOf e.1.attr).getD .both))

/-- The served set of deck `k` of a tenant's car: empty for deck 1 of a single-deck car (R50). -/
def servedSet (g : BuildingConfig) (ten : Tenant) (car k : Nat) : BitVec 192 :=
  if k = 1 ∧ (g.car car).deckCount ≠ 2 then 0
  else match ten.map with
    | none => 0
    | some m => ((usableFloors m).filter (fun e => attrCovers e.2 k)).foldl (fun set e => setAdd set e.1) 0

/-- Is landing `l` in a landing set? -/
def inSet (set : BitVec 192) (l : Nat) : Bool := l < 192 && set.getLsbD l

/-- The building cars reached by the usable car entries of a tenant's map (R38, R61). -/
def usableCars (ten : Tenant) : List Nat :=
  match ten.map with
  | none => []
  | some m => ((m.body.cars.zip m.cars).filter (fun e => e.2 == .usable)).map (·.1)

/-- The tenant floors of a LANDINGS target, from the lower of the two numbers up to the higher (R110). -/
def targetFloors (d : TargetDesc) : List Nat :=
  let lo := min d.first d.last
  let hi := max d.first d.last
  (List.range (hi + 1 - lo)).map (fun i => lo + i)

/-- The landings of a LANDINGS target (R50): those of its usable floors. A floor number above 191 gives none and no fault
(assumption 49). -/
def targetLandings (ten : Tenant) (d : TargetDesc) : BitVec 192 :=
  (targetFloors d).foldl (fun set n => match resolveFloor ten n with
    | .ok e => setAdd set e.1
    | .error _ => set) 0

/-- The floors of a LANDINGS target that are unusable for grant, with their failures (R50). A floor number above 191 is
none of them (assumption 49). -/
def targetGrantFailures (ten : Tenant) (d : TargetDesc) : List (Nat × Failure) :=
  (targetFloors d).filterMap (fun n => match resolveFloor ten n with
    | .ok _ => none
    | .error f => if classCode f.cause = 2 then some (n, f) else none)

/-! ### Target heads of a notice program (R110) -/

/-- Is the head of row `r` a target head of a program of tenant `t` with this resolved target? -/
def isTarget (g : BuildingConfig) (t : Nat) (target : Target) (r : HeadRow) : Bool :=
  headTenant g r == some t &&
  match r.kind?, target with
  | none, _ => false
  | some .lantern, _ => false
  | _, .empty => false
  | some .carPanel, .landings _ _ => false
  | some k, .landings set kinds => kinds.getLsbD (kindCode k) && inSet set r.landing
  | some .kioskPrompt, .car _ => false
  | some _, .car c => r.car == c

/-- The number of target heads (R122). -/
def targetCount (g : BuildingConfig) (t : Nat) (target : Target) : Nat :=
  (g.heads.filter (fun e => isTarget g t target e.2)).length

/-! ### What a deck's position layer shows (R71, R72) -/

/-- The park presentation of a deck. -/
def parkDesc (t : Nat) (o : Options) (d : Deck) : PosDesc :=
  match o.park with
  | 1 => .label ⟨d.lastShown, .none, .parked⟩
  | 2 => match o.parkText with
    | none => .empty
    | some i => .store t i d.writes
  | _ => .empty

/-- The position presentation of deck `k` of car `c` (R71): empty while the car belongs to no ACTIVE tenant. -/
def positionDesc (s : State) (c k : Nat) : PosDesc :=
  match carTenant s.conf c with
  | none => .empty
  | some t =>
    let ten := s.tenant t
    let car := s.car c
    let d := car.deck k
    if !ten.active then .empty
    else if car.tracking == .tracking then
      if d.mode == .outOfService then
        match ten.options.oosText with
        | some i => .store t i d.writes
        | none => parkDesc t ten.options d
      else .label ⟨d.lastShown, d.arrow, d.mark⟩
    else parkDesc t ten.options d

/-! ### The content state of a head (R156) -/

/-- The turn in flight of a trunk, if any. -/
def Flight.turn? : Flight → Option Turn
  | .sending u => some u
  | .window u => some u
  | .receiving u => some u
  | .copyGap u => some u
  | _ => none

/-- A head with a content turn in flight is SENT; otherwise its state is that of the Compositor's last result (R156). A cut
turn is in flight no more while its break is sent (assumption 62). -/
def contentState (s : State) (k : Nat) (h : Head) : ContentState :=
  let inFlight : Bool := match (s.trunk (keyTrunk k)).flight.turn? with
    | some u => u.address == keyAddress k && !u.orphan && (u.kind == .content || u.kind == .quick)
    | none => false
  if inFlight then .sent else if h.differs then .dirty else .confirmed

end Sys2Proof.Machine
end

