-- ==== Sys2Proof/Machine/Records.lean ====
section
/-!
DEFINITION. The hub-owned records, byte for byte (12_layouts.md section 3), and their published writes (R5). The
stamps' place of a record is its lead address; its body follows the lead stamp and its tail stamp follows the body.
-/

namespace Sys2Proof.Machine

/-- The hub-owned records other than fault entries. Heads by head key; `aboardRow t i k` is the row of tenant car `i`
and deck `k`. -/
inductive RecordId where
  | buildingStatus
  | carState (c : Nat)
  | headStatus (k : Nat)
  | boardPlace (i : Nat)
  | tenantStatus (t : Nat)
  | slotHalf (t i : Nat)
  | runState (t p : Nat)
  | aboardRow (t i k : Nat)
  deriving DecidableEq, Repr

/-- The byte address of a record's lead stamp (12_layouts.md section 2). -/
def leadAddress : RecordId → Nat
  | .buildingStatus => 4
  | .carState c => 0x8000 + 64 * c
  | .headStatus k => 0x9000 + 16 * k
  | .boardPlace i => 0xD000 + 32 * i
  | .tenantStatus t => tenantBase t + 0x80
  | .slotHalf t i => slotBase t i + 32
  | .runState t p => programBase t p + 160
  | .aboardRow t i k => tenantBase t + 0x3800 + 256 * i + 128 * k

/-- The fields of a record one after another. -/
def cat (fields : List (List Byte)) : List Byte := fields.flatten

/-! ### Bodies -/

/-- The mode and landings of deck `k` as Car State shows them (R76). -/
def deckShows (s : State) (c k : Nat) : Bool := k == 0 || ((s.conf.car c).present == 1 && (s.conf.car c).deckCount == 2)

/-- Arrow and mark of a deck as presented (R66); ACQUIRING and PARKED take those of the park presentation
(assumption 9). For deck 1 of a car that has none they are those the deck keeps (assumption 51). -/
def presentedMarks (s : State) (c k : Nat) : Arrow × PosMark :=
  let car := s.car c
  let d := car.deck k
  match car.tracking with
  | .tracking => (d.arrow, d.mark)
  | _ => match carTenant s.conf c with
    | none => (.none, .none)
    | some t => if (s.tenant t).active && (s.tenant t).options.park == 1 then (.none, .parked) else (.none, .none)

/-- The shown label of a deck (R76): the one presented last, and in OUT_OF_SERVICE, where the heads show another text,
the one that R65 chooses (assumption 25). -/
def shownPlaces (s : State) (c k : Nat) : List Byte :=
  let d := s.deck c k
  if (s.car c).tracking = .tracking ∧ d.mode = .outOfService then sourcePlaces s.conf d.shown else d.lastShown

/-- One deck of Car State, 16 bytes. The deck 1 parts of a car with no deck 1 hold what the deck keeps of label, arrow and
mark (assumption 51). -/
def deckBytes (s : State) (c k : Nat) : List Byte :=
  let d := s.deck c k
  let p := presentedMarks s c k
  (if deckShows s c k then
     u8 (modeCode d.mode) ++ opt8 d.landing ++ opt8 d.commit ++ opt8 d.announcement.landing
   else u8 0 ++ opt8 none ++ opt8 none ++ opt8 none) ++
  places 4 (shownPlaces s c k) ++ u8 (arrowCode p.1) ++ u8 (posMarkCode p.2) ++ unused 6

/-- The body of Car State (12_layouts.md 3.4). -/
def carStateBody (s : State) (c : Nat) : List Byte :=
  let car := s.car c
  cat [u8 (trackingCode car.tracking), u8 (bit car.anchor), u8 car.runCount, opt8 car.tenant, opt8 car.tenantCar,
    u8 (bit car.arriveMark + 2 * bit car.doorMark + 4 * bit car.departMark + 8 * bit car.parkMark),
    u16 (if car.tenant.isSome then car.stamp.toNat else 0), u8 (bit car.overrun), unused 1, u32 car.time.toNat,
    deckBytes s c 0, deckBytes s c 1, unused 14]

/-- The body of Head Status (12_layouts.md 3.8); an ABSENT head's is 0 (R168). -/
def headStatusBody (s : State) (k : Nat) : List Byte :=
  match tableFind s.heads k with
  | none => unused 12
  | some h =>
    cat [u8 (linkCode (some h.link) + 16 * contentCode (contentState s k h)),
      u8 (bit h.needsReload + 2 * bit h.busy + 4 * bit h.ambient.isSome + 8 * bit h.everLost + 16 * bit h.everFailed),
      u8 h.missRun, u8 (h.sentTag.toNat + 16 * h.echo.toNat), u8 (h.ambient.getD 0), u8 h.level,
      u16 h.misses, u16 h.busyCount, u16 h.crcErrors]

/-- The body of a Board Table mirror place (12_layouts.md 3.11); a free place's is 0, and so are the places of an entry
beyond its destinations (assumption 59). -/
def boardBody (s : State) (i : Nat) : List Byte :=
  match tableFind s.board i with
  | none => unused 28
  | some e =>
    cat [u8 1, u8 e.landing, u8 e.car, u8 e.deck, u8 (dirCode e.direction), u8 e.tenant,
      u8 e.destinations.length, unused 1,
      ((e.destinations.map (fun d => BitVec.ofNat 8 d.1)) ++ unused 6).take 6,
      ((e.destinations.flatMap (fun d => u16 d.2)) ++ unused 12).take 12, unused 2]

/-- The body of Tenant Status (12_layouts.md 3.2). -/
def tenantStatusBody (s : State) (t : Nat) : List Byte :=
  let ten := s.tenant t
  let o := ten.options
  let m := ten.map
  cat [u8 (bit ten.active), u8 (bit m.isSome), u16 ((ten.headerStamp.getD 0).toNat),
    u16 (match m with | some r => r.stamp.toNat | none => 0), u8 ten.rangeCount, u8 ten.grantCount,
    u16 ((ten.markBase.getD 0).toNat), u8 (bit ten.headerStamp.isSome + 2 * bit ten.markBase.isSome), u8 o.express,
    u16 o.landingZone, u16 o.hysteresis, u16 o.freshness, u16 o.promptHold, u16 o.boardingLimit,
    u16 o.rideLimit, places 4 o.glyph, u8 o.park, opt8 o.parkText, opt8 o.oosText, u8 (bit o.refuseClosed),
    u16 ten.torn, u32 ten.sweepCount.toNat, u32 ten.faults.sequence.toNat, u16 ten.faults.dropped, unused 80]

/-- The body of a slot's hub half (12_layouts.md 3.5). -/
def slotBody (s : State) (t i : Nat) : List Byte :=
  let x := s.slot t i
  cat [u16 ((x.seen.getD 0).toNat), u8 (slotCode x.state), opt8 (x.outcome.map outcomeCode),
    opt8 (x.reason.map refusedCode), opt8 (x.result.map resultCode), opt8 x.car, opt8 x.deck, opt8 x.origin,
    opt8 x.destination, opt8 (x.direction.map dirCode), u8 x.party, u8 (bit x.accessible), u8 (bit x.seen.isSome),
    u32 x.takeTime.toNat, u32 x.boardTime.toNat, unused 6]

/-- The body of a run state record (12_layouts.md 3.7, R122). -/
def runStateBody (s : State) (t p : Nat) : List Byte :=
  let x := s.program t p
  cat [u8 (programCode x.state), opt8 x.current, u8 x.zeroTime, opt8 (x.cause.map causeCode),
    opt8 (x.waiting.map (fun w => markCode w.2)), opt8 (x.waiting.map (·.1)), u32 ((x.expiry.getD 0).toNat),
    u32 x.start.toNat, u16 (targetCount s.conf t x.target), u16 ((x.runBase.getD 0).toNat),
    u16 ((x.stopBase.getD 0).toNat), u8 (bit x.expiry.isSome + 2 * bit x.runBase.isSome + 4 * bit x.stopBase.isSome),
    unused 1, (List.range 12).map (fun i => BitVec.ofNat 8 (tableGet 0 x.counters i)), unused 58]

/-- The building car that tenant car `i` reaches through the tenant's map, none where the row shows an empty list
(R91). -/
def rowCar (s : State) (t i : Nat) : Option Nat :=
  match resolveCar (s.tenant t) i with
  | .ok c => some c
  | .error _ => none

/-- The Aboard List that a row shows. -/
def rowList (s : State) (t i k : Nat) : List (Nat × Nat) :=
  match rowCar s t i with
  | none => []
  | some c => s.aboardList c k

/-- The body of an Aboard mirror row (12_layouts.md 3.11); the places beyond the list's end are 0 (assumption 59). -/
def aboardBody (s : State) (t i k : Nat) : List Byte :=
  let l := rowList s t i k
  cat [u8 l.length, unused 1, ((l.map (fun d => BitVec.ofNat 8 d.1)) ++ unused 24).take 24,
    ((l.flatMap (fun d => u16 d.2)) ++ unused 48).take 48, unused 50]

/-- One override line of Building Status, 16 bytes. -/
def overrideLineBytes (s : State) (l : Nat) : List Byte :=
  let x := s.line l
  cat [u8 (lineStateCode x.state),
    u8 (bit x.pin + 2 * bit (s.orders.tests.getLsbD l) + 4 * bit x.expiry.isSome + 8 * bit x.word.isSome),
    u16 x.zones.toNat, u16 ((x.word.getD 0).toNat), unused 2, u32 ((x.expiry.getD 0).toNat), unused 4]

/-- One line of a trunk, 8 bytes (12_layouts.md 3.9). -/
def trunkLineBytes (x : TrunkLine) : List Byte :=
  cat [u8 (bit x.shut.isSome), opt8 (x.shut.map shutCode), u8 x.loopRun, u8 (bit x.loopErr + 2 * bit x.watchdog),
    u32 (if x.shut.isSome then x.shutTime.toNat else 0)]

/-- One trunk of Building Status, 32 bytes. -/
def trunkBytes (s : State) (t : Nat) : List Byte :=
  let x := s.trunk t
  cat [u8 (trunkCode x.state), opt8 (if x.state = .running then x.active.map lineIdCode else none),
    u8 (bit x.recovery.isSome), unused 1, u32 ((x.recovery.getD 0).toNat), trunkLineBytes x.lineA,
    trunkLineBytes x.lineB, unused 8]

/-- The body of Building Status (12_layouts.md 3.9, R35). With no refused generation the item's fields read absent
(assumption 8). -/
def buildingStatusBody (s : State) : List Byte :=
  let u := s.config
  cat [u8 (bit s.configured),
    u8 (bit u.validating.isSome + 2 * bit u.refused.isSome + 4 * bit u.lockedStamp.isSome + 8 * bit s.hold +
        16 * bit s.fixed + 32 * bit u.accepted.isSome + 64 * bit s.orders.stamp.isSome),
    u16 ((u.accepted.getD 0).toNat),
    (match u.refused with
     | none => u16 0 ++ opt8 none ++ opt8 none ++ opt16 none
     | some (st, o) => u16 st.toNat ++ u8 (partCode o.part) ++ [o.check] ++ opt16 (o.entry.map (·.toNat))),
    u16 ((u.lockedStamp.getD 0).toNat), u16 ((s.orders.stamp.getD 0).toNat), u16 s.torn, u16 s.badWords,
    u32 s.faults.sequence.toNat, u16 s.faults.dropped, unused 2,
    (List.range 4).flatMap (overrideLineBytes s), (List.range 16).flatMap (trunkBytes s)]

/-- The body of a hub-owned record, from the hub's own state and never from the shared RAM (R4). -/
def recordBody (s : State) : RecordId → List Byte
  | .buildingStatus => buildingStatusBody s
  | .carState c => carStateBody s c
  | .headStatus k => headStatusBody s k
  | .boardPlace i => boardBody s i
  | .tenantStatus t => tenantStatusBody s t
  | .slotHalf t i => slotBody s t i
  | .runState t p => runStateBody s t p
  | .aboardRow t i k => aboardBody s t i k

/-! ### Published writes (R5) -/

/-- The bytes from address `a` to the end of its word: none where `a` begins a word. -/
def wordRest (a : Nat) : Nat := (4 - a % 4) % 4

/-- One published write: lead stamp, body, tail stamp at `lead`, the stamp one more than the last, and the unused bytes of
the tail stamp's word written 0 (R174). Unused words of a region are not written (assumption 45). -/
def publishBytes (s : State) (lead : Nat) (body : List Byte) : State :=
  let st := tableGet 0 s.stamps lead + 1
  { s with ram := memWrite s.ram lead (u16 st.toNat ++ body ++ u16 st.toNat ++ unused (wordRest (lead + body.length))),
           stamps := tableSet s.stamps lead st }

/-- One published write of a record. -/
def publish (s : State) (r : RecordId) : State := publishBytes s (leadAddress r) (recordBody s r)

/-- Published writes of several records, one after another: the shared RAM and the stamps that they leave. -/
def publishList (s : State) (rs : List RecordId) : State :=
  let u := rs.foldl publish s
  { s with ram := u.ram, stamps := u.stamps }

/-- The rows of a tenant's Aboard mirror. -/
def aboardRows (t : Nat) : List RecordId :=
  (List.range 32).map (fun n => .aboardRow t (n / 2) (n % 2))

/-- Every record of one tenant area but the slots. -/
def tenantRecords (t : Nat) : List RecordId :=
  List.flatten [[.tenantStatus t], (List.range 8).map (fun p => .runState t p), aboardRows t]

/-- The slots of one tenant area. -/
def slotRecords (t : Nat) : List RecordId := (List.range 64).map (fun i => .slotHalf t i)

/-- The hub-owned records of the building regions. -/
def buildingRecords : List RecordId :=
  List.flatten [[.buildingStatus], (List.range 64).map .carState, (List.range 992).map .headStatus,
    (List.range 384).map .boardPlace]

/-- The aboard row's list together with the car it shows (R91). -/
inductive RecordView where
  | body (bytes : List Byte)
  | row (car : Option Nat) (list : List (Nat × Nat))
  deriving DecidableEq

/-- What an event must change for a record to be published. An Aboard row is published also when a tenant's restart or
disabling takes from it the car that it shows (assumption 52). -/
def recordView (s : State) (r : RecordId) : RecordView :=
  match r with
  | .aboardRow t i k => .row (rowCar s t i) (rowList s t i k)
  | _ => .body (recordBody s r)

/-- The records of tenant `t` that an event may have changed. -/
def tenantCandidates (s s' : State) (t : Nat) : List RecordId :=
  List.flatten [[.tenantStatus t],
    (keysOfBoth (s.tenant t).slots (s'.tenant t).slots).map (fun i => .slotHalf t i),
    (keysOfBoth (s.tenant t).programs (s'.tenant t).programs).map (fun p => .runState t p), aboardRows t]

/-- The records that an event from `s` to `s'` may have changed. -/
def candidates (s s' : State) : List RecordId :=
  List.flatten [[.buildingStatus], (List.range 64).map .carState, (keysOfBoth s.heads s'.heads).map .headStatus,
    (keysOfBoth s.board s'.board).map .boardPlace,
    ((keysOfBoth s.tenants s'.tenants).map (tenantCandidates s s')).flatten]

/-- The records that an event from `s` to `s'` changed, and those in `forced`. -/
def changedRecords (s s' : State) (forced : List RecordId) : List RecordId :=
  (candidates s s').filter (fun r => forced.contains r || !(recordView s r == recordView s' r))

/-- One published write of each record the event changed. -/
def publishChanged (s s' : State) (forced : List RecordId) : State := publishList s' (changedRecords s s' forced)

end Sys2Proof.Machine
end

