-- ==== Sys2Proof/Machine/Faults.lean ====
section
/-!
DEFINITION. The Fault Reporter: the fault record, its routing, its sequence and its placement (R52 to R55).
-/

namespace Sys2Proof.Machine

/-- A fault as a unit raises it (R52): everything but the sequence and the hub time. -/
structure Raised where
  tenant : Option Nat
  cause : Cause
  source : SourceKind
  indexA : Option Nat
  indexB : Option Nat
  logical : Nat
  building : Option Nat
  count : Option Nat
  deriving DecidableEq, Repr

/-- Does a fault go to the Supervisor Fault List? (R53) GRANT and BUILDING do; MAP and CONTENT go by the mask of the
configuration in force. -/
def toSupervisor (s : State) (f : Raised) : Bool :=
  match f.tenant with
  | none => true
  | some t =>
    if classCode f.cause = 2 ∨ classCode f.cause = 4 then true
    else (s.conf.grant t).routing.getLsbD (causeCode f.cause - 1)

/-- A fault list by its owner: tenant `t`'s, or the Supervisor Fault List. -/
abbrev ListOwner := Option Nat

def faultBase : ListOwner → Nat
  | some t => tenantFaultBase t
  | none => supervisorFaultBase

def faultEntries : ListOwner → Nat
  | some _ => 32
  | none => 64

/-- The Attention bit of a list's owner (R12). -/
def faultAttention : ListOwner → Nat
  | some t => t
  | none => 8

def State.faultList (s : State) : ListOwner → FaultList
  | some t => (s.tenant t).faults
  | none => s.faults

def State.setFaultList (s : State) (o : ListOwner) (l : FaultList) : State :=
  match o with
  | some t => s.modTenant t (fun ten => { ten with faults := l })
  | none => { s with faults := l }

/-- The occupied flag of entry `i`, as the search reads it from the shared RAM. -/
def occupied (m : Memory) (o : ListOwner) (i : Nat) : Bool := !(memNat m (faultBase o + 32 * i) 4 == 0)

/-- The first entry whose flag reads 0. -/
def freeEntry (m : Memory) (o : ListOwner) : Option Nat :=
  (List.range (faultEntries o)).find? (fun i => !occupied m o i)

/-- The body of a fault record (12_layouts.md 3.6). -/
def faultBody (r : FaultRecord) : List Byte :=
  cat [opt8 r.tenant, u8 (classCode r.cause), u32 r.sequence.toNat, u8 (causeCode r.cause), opt8 (stageOf r.cause),
    u8 (sourceCode r.source), opt8 r.indexA, opt16 r.indexB, u16 r.logical, opt16 r.building, opt16 r.count,
    u32 r.time.toNat, unused 2]

/-- Raises a fault: the sequence rises, and the fault is placed in the first free entry of its list, with attention,
or counted as dropped (R54, R55). -/
def raise (f : Raised) (s : State) : State :=
  let o : ListOwner := if toSupervisor s f then none else f.tenant
  let l := s.faultList o
  let seq := l.sequence + 1
  match freeEntry s.ram o with
  | none => s.setFaultList o { l with sequence := seq, dropped := saturate 65535 (l.dropped + 1) }
  | some i =>
    let r : FaultRecord :=
      { sequence := seq, tenant := f.tenant, cause := f.cause, source := f.source, indexA := f.indexA,
        indexB := f.indexB, logical := f.logical, building := f.building, count := f.count, time := s.hubTime }
    let s := s.setFaultList o { l with sequence := seq, records := tableSet l.records i r }
    let s := { s with ram := memWrite s.ram (faultBase o + 32 * i) (u32 1) }
    attend (faultAttention o) (publishBytes s (faultBase o + 32 * i + 4) (faultBody r))

/-- Raises the fault of a failed resolution (R49) for tenant `t`, with the source that asked and the tenant's own
number. -/
def raiseFailure (t : Nat) (source : SourceKind) (a b : Option Nat) (number : Nat) (f : Failure) (s : State) : State :=
  raise { tenant := some t, cause := f.cause, source := source, indexA := a, indexB := b, logical := number,
          building := f.building, count := none } s

/-- Sets a list's sequence and dropped count to 0; its entries stay (R55). -/
def clearFaultCounts (t : Nat) (s : State) : State :=
  s.modTenant t (fun ten => { ten with faults := { ten.faults with sequence := 0, dropped := 0 } })

end Sys2Proof.Machine
end

