-- ==== Sys2Proof/Machine/Notice.lean ====
section
/-!
DEFINITION. The Notice Unit: targets (R110), steps (R111 to R116), marks (R75, R117), stops and starts (R108, R109,
R119), faults (R120) and the deciding share of a head (R121).
-/

namespace Sys2Proof.Machine

/-! ### Marks (R75) -/

def Car.hasMark (c : Car) : Mark → Bool
  | .arrive => c.arriveMark
  | .door => c.doorMark
  | .depart => c.departMark
  | .park => c.parkMark

def Car.putMark (c : Car) (m : Mark) (b : Bool) : Car :=
  match m with
  | .arrive => { c with arriveMark := b }
  | .door => { c with doorMark := b }
  | .depart => { c with departMark := b }
  | .park => { c with parkMark := b }

/-- Clears the four marks of a car. -/
def Car.clearMarks (c : Car) : Car :=
  { c with arriveMark := false, doorMark := false, departMark := false, parkMark := false }

/-! ### Ends of a program -/

/-- The program's share becomes none and its step timer stops. -/
def Program.quiet (p : Program) : Program := { p with share := .none, expiry := none, waiting := none }

/-- R115: END at step `i`, or an advance past step 11 with `i` = 11. -/
def Program.finish (p : Program) (i : Nat) : Program := { p.quiet with state := .done, current := some i }

/-- R119: a stop. It drops the resolved target and the counters that a run, ended or not, holds until it (R115), and
leaves the zero-time count and the start time; of an IDLE or FAULTED program it only returns the state to IDLE, with no
current step, and clears the cause (assumption 10). -/
def Program.stop (p : Program) : Program :=
  let only : Bool := p.state == .idle || p.state == .faulted
  { p.quiet with state := .idle, current := none, cause := none, counters := if only then p.counters else [],
                 target := if only then p.target else .empty }

/-- A tenant's restart or disabling: IDLE as at a stop, baselines none, and the counts of R122's column 0. -/
def Program.forget (p : Program) : Program :=
  { p.stop with counters := [], zeroTime := 0, target := .empty, runBase := none, stopBase := none }

/-- R120: the program becomes FAULTED at step `i`, and its CONTENT fault is raised. -/
def faultProgram (t p i : Nat) (cause : Cause) (logical : Nat) (s : State) : State :=
  raise { tenant := some t, cause := cause, source := .program, indexA := some p, indexB := some i,
          logical := logical, building := none, count := none }
    (s.modProgram t p (fun x => { x.quiet with state := .faulted, current := some i, cause := some cause }))

/-! ### Steps -/

/-- What R111's table does to the zero-time count when a step begins, with the WAIT's resolution where it is one. -/
def zeroTimeAfter (n : Nat) (st : Step) (resolved : Bool) : Nat :=
  match st.kind with
  | 0 => n
  | 1 => if stepTime st.time = 0 then n + 1 else 0
  | 2 => if stepTime st.time = 0 then n + 1 else 0
  | 3 => if resolved then 0 else n + 1
  | _ => n + 1

/-- A step kind is one of the five, and a WAIT names one of the four marks (R111). -/
def stepKnown (st : Step) : Bool := st.kind < 5 && (!(st.kind == 3) || st.p2 < 4)

/-- What beginning a step leaves to do: the program has stopped at a step, or goes on with step `i`. -/
inductive StepResult where
  | rest
  | goOn (i : Nat)
  deriving DecidableEq, Repr

/-- SHOW and BLANK (R112, R113): the share, and the step expiry or an advance at once. -/
def showShare (t p i ms : Nat) (share : Share) (s : State) : State × StepResult :=
  if ms = 0 then (s.modProgram t p (fun x => { x with share := share }), .goOn (i + 1))
  else (s.modProgram t p (fun x => { x with share := share, expiry := some (expiryAfter s.hubTime ms) }), .rest)

/-- GOTO (R114). -/
def doGoto (t p i : Nat) (st : Step) (s : State) : State × StepResult :=
  if st.p1 > 11 then (faultProgram t p i .stepRange st.p1 s, .rest)
  else
    let n := tableGet 0 (s.program t p).counters i
    if st.p2 = 0 then (s, .goOn st.p1)
    else if n < st.p2 then
      (s.modProgram t p (fun x => { x with counters := tableSet x.counters i (n + 1) }), .goOn st.p1)
    else (s.modProgram t p (fun x => { x with counters := tableSet x.counters i 0 }), .goOn (i + 1))

/-- The on-timeout of a WAIT (R118): NEXT, or END for any other code. -/
def onTimeout (t p i : Nat) (st : Step) (s : State) : State × StepResult :=
  if st.p3 = 0 then (s, .goOn (i + 1))
  else (s.modProgram t p (fun x => x.finish i), .rest)

/-- WAIT (R116) with its tenant car's resolution. -/
def doWait (t p i : Nat) (st : Step) (r : Except Failure Nat) (s : State) : State × StepResult :=
  match r with
  | .error f => onTimeout t p i st (raiseFailure t .program (some p) (some i) st.p1 f s)
  | .ok c =>
    match markOf st.p2 with
    | none => (s, .rest)
    | some m =>
      if (s.car c).hasMark m then (s.modCar c (fun car => car.putMark m false), .goOn (i + 1))
      else
        let ms := stepTime st.time
        (s.modProgram t p (fun x =>
          { x with state := .waiting, waiting := some (c, m),
                   expiry := if ms = 0 then none else some (expiryAfter s.hubTime ms) }), .rest)

/-- Begins step `i`, at most 11: the zero-time count, the kind check and the step's work (R111). A step at whose
beginning the count reaches 16 is not carried out, and its car's failed resolution raises nothing (assumption 11). -/
def beginStep (t p i : Nat) (s : State) : State × StepResult :=
  let st := (s.program t p).steps.getD i {}
  let s := s.modProgram t p (fun x => { x with state := .running, current := some i, expiry := none, waiting := none })
  if !stepKnown st then (faultProgram t p i .stepKind st.kind s, .rest)
  else
    let r := resolveCar (s.tenant t) st.p1
    let n := zeroTimeAfter (s.program t p).zeroTime st (match r with | .ok _ => true | .error _ => false)
    let s := s.modProgram t p (fun x => { x with zeroTime := n })
    if 16 ≤ n then (faultProgram t p i .loop i s, .rest)
    else match st.kind with
      | 0 => (s.modProgram t p (fun x => x.finish i), .rest)
      | 1 =>
        if st.p1 < 64 then showShare t p i (stepTime st.time) (.text (readText s.ram t st.p1)) s
        else (faultProgram t p i .textIndex st.p1 s, .rest)
      | 2 => showShare t p i (stepTime st.time) .blank s
      | 3 => doWait t p i st r s
      | _ => doGoto t p i st s

/-- Runs a program from step `i` until a step holds it: R111's one piece of work. A WAIT that consumes a mark sets the
count to 0, so a piece of work has at most 17 steps for each of the 64 marks of the tenant's cars and 17 more. -/
def runFrom (t p : Nat) : (fuel i : Nat) → State → State
  | 0, _, s => s
  | fuel + 1, i, s =>
    if 11 < i then s.modProgram t p (fun x => x.finish 11)
    else
      let r := beginStep t p i s
      match r.2 with
      | .rest => r.1
      | .goOn j => runFrom t p fuel j r.1

/-- The bound of one piece of work. -/
def stepFuel : Nat := 1200

/-- The program advances from its current step. -/
def advance (t p : Nat) (s : State) : State :=
  runFrom t p stepFuel ((s.program t p).current.getD 0 + 1) s

/-- The expiry of a WAIT step (R118). -/
def waitExpired (t p : Nat) (s : State) : State :=
  let x := s.program t p
  let i := x.current.getD 0
  let r := onTimeout t p i (x.steps.getD i {}) s
  match r.2 with
  | .rest => r.1
  | .goOn j => runFrom t p stepFuel j r.1

/-! ### Targets (R50, R110) -/

/-- Resolves a target description, raising the faults of R50 and R49. -/
def resolveTarget (t p : Nat) (d : TargetDesc) (s : State) : State × Target :=
  let ten := s.tenant t
  match d.kind with
  | 1 =>
    let bad := targetGrantFailures ten d
    let s := match bad.head? with
      | none => s
      | some (n, f) =>
        raise { tenant := some t, cause := f.cause, source := .program, indexA := some p, indexB := some 0,
                logical := n, building := f.building, count := some bad.length } s
    (s, .landings (targetLandings ten d) d.kinds)
  | 2 =>
    match resolveCar ten d.car with
    | .ok c => (s, .car c)
    | .error f => (raiseFailure t .program (some p) (some 0) d.car f s, .empty)
  | _ => (s, .empty)

/-! ### Controls (R108), starts (R109) and stops (R119) -/

/-- R109, with the removal of an old run's shares (R119). -/
def startProgram (t p : Nat) (s : State) : State :=
  let r := resolveTarget t p (s.program t p).desc s
  let s := r.1.modProgram t p (fun x =>
    { x.quiet with steps := readSteps s.ram t p, target := r.2, counters := [], zeroTime := 0, start := s.hubTime,
                   state := .running, cause := none })
  runFrom t p stepFuel 0 s

/-- R119. -/
def stopProgram (t p : Nat) (s : State) : State := s.modProgram t p Program.stop

/-- R108: an accepted control. -/
def handControl (t p : Nat) (r : ControlRecord) (s : State) : State :=
  let x := s.program t p
  let s := s.modProgram t p (fun x => { x with desc := r.desc, runBase := some r.run, stopBase := some r.stop })
  match x.runBase, x.stopBase with
  | some run, some stop =>
    let s := if r.stop = stop then s else stopProgram t p s
    if r.run = run then s else startProgram t p s
  | _, _ => s

/-- A tenant's restart or disabling: every program IDLE as at a stop, baselines none (R38, R119). -/
def idlePrograms (t : Nat) (s : State) : State :=
  s.modTenant t (fun ten => { ten with
    programs := ten.programs.map (fun e => (e.1, e.2.forget)) })

/-! ### Mark settings (R117) -/

/-- Is a program WAITING on a car's mark? -/
def isWaiting (s : State) (c : Nat) (m : Mark) (tp : Nat × Nat) : Bool :=
  (s.program tp.1 tp.2).state == .waiting && (s.program tp.1 tp.2).waiting == some (c, m)

/-- Tenants and programs in their order. -/
def allPrograms : List (Nat × Nat) := (List.range 64).map (fun n => (n / 8, n % 8))

/-- The programs WAITING on a car's mark, in program order (of several tenants, in tenant order; assumption 12). -/
def waiters (s : State) (c : Nat) (m : Mark) : List (Nat × Nat) := allPrograms.filter (isWaiting s c m)

/-- A mark setting: the mark is consumed and every waiting program advances, or it stays set (R75, R117). -/
def setMark (c : Nat) (m : Mark) (s : State) : State :=
  let ws := waiters s c m
  if ws.isEmpty then s.modCar c (fun car => car.putMark m true)
  else ws.foldl (fun s tp => advance tp.1 tp.2 s) (s.modCar c (fun car => car.putMark m false))

/-! ### The notice layer (R121) -/

/-- The deciding share of a head: the lowest-numbered program of its tenant with a share on it. -/
def decidingShare (s : State) (row : HeadRow) : Share :=
  match headTenant s.conf row with
  | none => .none
  | some t =>
    match (List.range 8).find? (fun p =>
      !((s.program t p).share == .none) && isTarget s.conf t (s.program t p).target row) with
    | none => .none
    | some p => (s.program t p).share

/-- The notice layer of a head, in the form its kind takes (R112, R121). -/
def noticeLayer (s : State) (row : HeadRow) : Option (List Byte) :=
  match decidingShare s row with
  | .text f => if row.kind? = some .positionIndicator then some f.short else some f.long
  | _ => none

end Sys2Proof.Machine
end

