-- ==== Sys2Proof/Machine/Announcement.lean ====
section
/-!
DEFINITION. The arrival announcements of the car decks (06): the next-stop test, lighting and going dark at a report,
at a DOOR and between reports, the arrow, the accessible field and the chimes.
-/

namespace Sys2Proof.Machine

/-! ### Slots and collections as the tests read them -/

/-- Every slot the hub holds as (tenant, slot), in tenant order and slot order. -/
def allSlots (s : State) : List (Nat × Nat) :=
  (List.range 8).flatMap (fun t =>
    (((s.tenant t).slots.map (·.1)).filter (· < Config.slotsPerTenant)).map (fun i => (t, i)))

/-- The slots that a test of their hub half picks. -/
def slotsWhere (s : State) (f : Slot → Bool) : List (Nat × Nat) := (allSlots s).filter (fun ti => f (s.slot ti.1 ti.2))

/-- The board entry of a key, with its place. -/
def boardFind (s : State) (l c k : Nat) (d : Dir) : Option (Nat × BoardEntry) :=
  s.board.find? (fun e => e.2.landing == l && e.2.car == c && e.2.deck == k && e.2.direction == d)

/-- Does the deck's Aboard List hold `x`, or the Board Table an entry with origin `x`, in either direction? -/
def business (s : State) (c k x : Nat) : Bool :=
  (s.aboardList c k).any (fun e => e.1 == x) || (boardFind s x c k .up).isSome || (boardFind s x c k .down).isSome

/-- The declared stop of a car when it names deck `k` (R100). -/
def declaredStop (s : State) (c k : Nat) : Option Nat :=
  match (s.car c).stop with
  | some (l, a) => if attrCovers a k then some l else none
  | none => none

/-- The next-stop test (R100). -/
def nextStopTest (s : State) (c k x : Nat) : Bool :=
  match declaredStop s c k with
  | some l => x == l
  | none => business s c k x

/-! ### Arrow and accessible (R106, R107) -/

/-- R106: the report's service direction, else the direction of motion, else `old`. -/
def announceArrow (car : Car) (old : Arrow) : Arrow :=
  match car.service with
  | some d => dirArrow d
  | none => match car.motionDir with
    | some d => dirArrow d
    | none => old

/-- Does an arrow admit a slot's direction? (R107) -/
def arrowAdmits (a : Arrow) (d : Option Dir) : Bool :=
  match a with
  | .none => true
  | _ => optArrow d == a

/-- Some TAKEN slot of the deck with origin `l` is ACCESSIBLE and admitted by the arrow (R107). -/
def accessibleWaiting (s : State) (c k l : Nat) (a : Arrow) : Bool :=
  !(slotsWhere s (fun x => x.state == .taken && x.accessible && x.car == some c && x.deck == some k &&
    x.origin == some l && arrowAdmits a x.direction)).isEmpty

/-- The chime count (R107). -/
def chimes (a : Arrow) (accessible : Bool) : Nat :=
  match a with
  | .up => if accessible then 2 else 1
  | .down => if accessible then 3 else 2
  | .none => 0

/-! ### Lighting and clearing -/

/-- The announcement of deck `k` becomes absent. -/
def darken (c k : Nat) (s : State) : State := s.modDeck c k (fun d => { d with announcement := {} })

/-- The announcement is lit at `x`: arrow and accessible are judged afresh. -/
def light (c k x : Nat) (by_ : LitBy) (s : State) : State :=
  let a := announceArrow (s.car c) .none
  s.modDeck c k (fun d => { d with announcement :=
    { landing := some x, litBy := some by_, arrow := a, accessible := accessibleWaiting s c k x a } })

/-- The accessible field of a lit announcement is judged again; once 1 it stays 1 (R107). -/
def rejudge (c k : Nat) (s : State) : State :=
  let n := (s.deck c k).announcement
  match n.landing with
  | none => s
  | some x => s.modDeck c k (fun d => { d with announcement :=
      { n with accessible := n.accessible || accessibleWaiting s c k x n.arrow } })

/-- A lit announcement stays lit at an applied report: its arrow is recomputed (R106) and the accessible field judged
for a change of arrow (R107). -/
def relight (c k : Nat) (by_ : LitBy) (s : State) : State :=
  rejudge c k (s.modDeck c k (fun d => { d with announcement :=
    { d.announcement with litBy := some by_, arrow := announceArrow (s.car c) d.announcement.arrow } }))

/-- R101: the announcement of a deck after an applied report. A deck that leaves AT with a new commit at the landing it
leaves keeps its announcement, lit by COMMIT (assumption 53). One that moves from one landing to another is lit afresh at
the second: its accessible field and its arrow are judged anew there (assumption 60). -/
def announceAtReport (c k : Nat) (s : State) : State :=
  let d := s.deck c k
  match d.mode with
  | .running =>
    match d.commit with
    | some x =>
      if nextStopTest s c k x then
        if d.announcement.landing = some x then relight c k .commit s else light c k x .commit s
      else darken c k s
    | none => darken c k s
  | .at =>
    if d.announcement.landing.isSome ∧ d.announcement.landing = d.landing then
      relight c k (d.announcement.litBy.getD .commit) s
    else darken c k s
  | _ => darken c k s

/-- R102: the lighting test of DOOR, before delivery and boarding. -/
def announceAtDoor (c k x : Nat) (s : State) : State :=
  if (s.deck c k).announcement.landing = none ∧ business s c k x then light c k x .door s else s

/-- R103: the test re-applied after a change of the deck's collections at landing `l`. It settles the announcement of a
deck on its way to `l`; a change at a landing that is not the deck's commit changes no announcement. -/
def resettle (c k l : Nat) (s : State) : State :=
  let d := s.deck c k
  if (s.car c).tracking = .tracking ∧ d.mode = .running ∧ declaredStop s c k = none ∧ d.commit = some l then
    match d.announcement.landing with
    | some x => if x = l ∧ d.announcement.litBy = some .commit ∧ business s c k l = false then darken c k s else s
    | none => if business s c k l then light c k l .commit s else s
  else s

/-- R104: both announcements of a car are cleared. -/
def darkenCar (c : Nat) (s : State) : State := darken c 1 (darken c 0 s)

end Sys2Proof.Machine
end

