-- ==== Sys2Proof/Machine/Guidance.lean ====
section
/-!
DEFINITION. The Guidance Unit (05): the Board Table and the Aboard Lists, taking, cancelling, boarding, delivery,
limits and retirement of assignment slots, the kiosks' Prompt Lists, and the guidance layers.
-/

namespace Sys2Proof.Machine

/-! ### Ordered lists of destinations with counts (R89, R90) -/

def holdsDest (l : List (Nat × Nat)) (x : Nat) : Bool := l.any (fun e => e.1 == x)

/-- Adds `n` to destination `x`, inserting it in its place by landing index. -/
def addCount : List (Nat × Nat) → Nat → Nat → List (Nat × Nat)
  | [], x, n => [(x, n)]
  | (y, m) :: l, x, n =>
    if y = x then (y, m + n) :: l else if x < y then (x, n) :: (y, m) :: l else (y, m) :: addCount l x n

/-- Removes `n` from destination `x`; a count that reaches 0 leaves. -/
def subCount : List (Nat × Nat) → Nat → Nat → List (Nat × Nat)
  | [], _, _ => []
  | (y, m) :: l, x, n => if y = x then (if m ≤ n then l else (y, m - n) :: l) else (y, m) :: subCount l x n

/-! ### The Board Table (R89) -/

/-- The lowest-numbered free place. -/
def freePlace (s : State) : Option Nat := (List.range Config.boardPlaces).find? (fun i => (tableFind s.board i).isNone)

/-- Addition: into the entry of the key, or into a new entry charged to the tenant. The test of R103 follows when a
destination or an entry was added. -/
def boardAdd (t l c k : Nat) (d : Dir) (x n : Nat) (s : State) : State :=
  match boardFind s l c k d with
  | some (i, e) =>
    let s' := { s with board := tableSet s.board i { e with destinations := addCount e.destinations x n } }
    if holdsDest e.destinations x then s' else resettle c k l s'
  | none =>
    match freePlace s with
    | none => s
    | some i =>
      let e : BoardEntry := { landing := l, car := c, deck := k, direction := d, tenant := t, destinations := [(x, n)],
                              created := s.boardCreated }
      resettle c k l { s with board := tableSet s.board i e, boardCreated := s.boardCreated + 1 }

/-- Removal: a destination whose count reaches 0 leaves its entry, and an empty entry is freed. -/
def boardRemove (l c k : Nat) (d : Dir) (x n : Nat) (s : State) : State :=
  match boardFind s l c k d with
  | none => s
  | some (i, e) =>
    let ds := subCount e.destinations x n
    let s' := { s with board := if ds.isEmpty then tableErase s.board i
                                else tableSet s.board i { e with destinations := ds } }
    if ds.length = e.destinations.length then s' else resettle c k l s'

/-- The number of entries charged to a tenant. -/
def chargedEntries (s : State) (t : Nat) : Nat := (s.board.filter (fun e => e.2.tenant == t)).length

/-- Emptying: the entries that a test picks are freed (R97). -/
def boardEmpty (f : BoardEntry → Bool) (s : State) : State := { s with board := s.board.filter (fun e => !f e.2) }

/-! ### The Aboard Lists (R90) -/

def aboardAdd (c k x n : Nat) (s : State) : State :=
  let l := s.aboardList c k
  let s' := s.setAboard c k (addCount l x n)
  if holdsDest l x then s' else resettle c k x s'

def aboardRemove (c k x n : Nat) (s : State) : State :=
  let l := s.aboardList c k
  let l' := subCount l x n
  let s' := s.setAboard c k l'
  if l'.length = l.length then s' else resettle c k x s'

/-- Removal by delivery: the entry leaves whole. -/
def aboardDeliver (c k x : Nat) (s : State) : State :=
  let l := s.aboardList c k
  let s' := s.setAboard c k (l.filter (fun e => !(e.1 == x)))
  if holdsDest l x then resettle c k x s' else s'

/-! ### Retirement (R88) -/

/-- Removes the count a slot holds: waiting when TAKEN, riding when BOARDED. -/
def dropCount (x : Slot) (s : State) : State :=
  match x.car, x.deck, x.origin, x.destination, x.direction with
  | some c, some k, some o, some d, some dir =>
    match x.state with
    | .taken => boardRemove o c k dir d x.party s
    | .boarded => aboardRemove c k d x.party s
    | _ => s
  | _, _, _, _, _ => s

/-- R88: state RETIRED with its outcome, its count removed, its timer stopped, TENANTt set. -/
def retire (t i : Nat) (o : Outcome) (reason : Option Refused) (s : State) : State :=
  let x := s.slot t i
  let s := s.modSlot t i (fun x => { x with state := .retired, outcome := some o, reason := reason, limit := none })
  attend t (dropCount x s)

/-- Retires every slot that a test of its hub half picks, in tenant and slot order. -/
def retireWhere (f : Nat → Slot → Bool) (o : Outcome) (s : State) : State :=
  ((allSlots s).filter (fun ti => f ti.1 (s.slot ti.1 ti.2))).foldl (fun s ti => retire ti.1 ti.2 o none s) s

/-- TAKEN or BOARDED. -/
def Slot.live (x : Slot) : Bool := x.state == .taken || x.state == .boarded

/-! ### Prompts (R92) -/

/-- Adds a prompt; a list of four loses its oldest. -/
def addPrompt (key : Nat) (p : Prompt) (s : State) : State :=
  s.modHead key (fun h => { h with prompts :=
    (if h.prompts.length < Config.maxPrompts then h.prompts else h.prompts.drop 1) ++ [p] })

/-- The prompt of a slot as its hub half stands. -/
def promptOf (s : State) (x : Slot) (hold : Nat) : Prompt :=
  { carLabel := match x.car with | some c => carLabel s.conf c | none => [32, 32],
    arrow := optArrow x.direction,
    destination := match x.destination with | some l => landingLabel s.conf l | none => [32, 32, 32, 32],
    refused := x.outcome == some .refused,
    closed := match x.destination with | some l => s.closed l | none => false,
    wheelchair := x.accessible,
    expiry := some (expiryAfter s.hubTime hold) }

/-- Adds the slot's prompt when its kiosk resolved. -/
def promptFor (t i : Nat) (kiosk : Option Nat) (hold : Nat) (s : State) : State :=
  match kiosk with
  | none => s
  | some key => addPrompt key (promptOf s (s.slot t i) hold) s

/-! ### Requests (R78, R80 to R84) -/

/-- A used Restriction List entry bars the car from the landing (R81). -/
def restricted (g : BuildingConfig) (c l : Nat) : Bool :=
  g.restrictions.any (fun r => !(r.landing == 255) && r.landing == l && c < 64 && r.cars.getLsbD c)

/-- R81: the first check that a resolved slot meets. -/
def refusal (s : State) (t c k o d : Nat) (dir : Dir) : Option Refused :=
  let g := s.conf
  let ten := s.tenant t
  let served := servedSet g ten c k
  if o = d then some .sameLanding
  else if !inSet served o || !inSet served d then some .notServed
  else if restricted g c o || restricted g c d || (s.closed d && ten.options.refuseClosed) then some .restricted
  else match boardFind s o c k dir with
    | some (_, e) =>
      if e.destinations.length = Config.boardDestinations ∧ holdsDest e.destinations d = false then some .boardFull
      else none
    | none => if (g.grant t).quota ≤ chargedEntries s t then some .quota else none

/-- A refused take: the slot is retired REFUSED and the prompt, if its kiosk resolved, carries the refused mark. -/
def refuse (t i : Nat) (reason : Refused) (kiosk : Option Nat) (hold : Nat) (s : State) : State :=
  promptFor t i kiosk hold (retire t i .refused (some reason) s)

/-- A field that failed to resolve: its fault is raised and the slot refused with the fault's class (R80). -/
def refuseFailure (t i number : Nat) (f : Failure) (kiosk : Option Nat) (hold : Nat) (s : State) : State :=
  refuse t i (if classCode f.cause = 2 then .grant else .map) kiosk hold
    (raiseFailure t .slot (some i) none number f s)

/-- R82: the slot becomes TAKEN. An announcement lit at its origin has its accessible field judged again (R107). -/
def takeSlot (t i c k o d : Nat) (dir : Dir) (party : Nat) (kiosk : Option Nat) (hold : Nat) (s : State) : State :=
  let limit := expiryAfter s.hubTime (1000 * (s.tenant t).options.boardingLimit)
  let s := s.modSlot t i (fun x => { x with state := .taken, limit := some limit })
  let s := boardAdd t o c k dir d party s
  promptFor t i kiosk hold (if (s.deck c k).announcement.landing = some o then rejudge c k s else s)

/-- The slot's deck by the origin's deck attribute (R80). -/
def slotDeck (a : DeckAttr) : Nat :=
  match a with
  | .upper => 1
  | _ => 0

/-- The slot's direction by its landings (R80). -/
def slotDirection (o d : Nat) : Dir := if o < d then .up else .down

/-- The kiosk of a request: absent, failed, or a head key. -/
def requestKiosk (ten : Tenant) (r : SlotRequest) : Except Failure (Option Nat) :=
  match r.kiosk with
  | none => .ok none
  | some n => match resolveKiosk ten n with
    | .ok key => .ok (some key)
    | .error f => .error f

/-- R80: a POST into a slot that is IDLE or RETIRED. The outcome, refusal reason, resolved values and board time are
cleared first, and the fields resolve in the order kiosk, car, origin, destination. -/
def post (t i : Nat) (r : SlotRequest) (s : State) : State :=
  let ten := s.tenant t
  let hold := promptHoldOf ten.options r
  let s := s.modSlot t i (fun x => { x with
    outcome := none, reason := none, car := none, deck := none, origin := none, destination := none, direction := none,
    party := r.party, accessible := r.accessible, takeTime := s.hubTime, boardTime := 0, result := some .accepted })
  match requestKiosk ten r with
  | .error f => refuseFailure t i (r.kiosk.getD 255) f none hold s
  | .ok kiosk =>
    match resolveCar ten r.car with
    | .error f => refuseFailure t i r.car f kiosk hold s
    | .ok c =>
      let s := s.modSlot t i (fun x => { x with car := some c })
      match resolveFloor ten r.origin with
      | .error f => refuseFailure t i r.origin f kiosk hold s
      | .ok (o, a) =>
        let k := slotDeck a
        let s := s.modSlot t i (fun x => { x with deck := some k, origin := some o })
        match resolveFloor ten r.destination with
        | .error f => refuseFailure t i r.destination f kiosk hold s
        | .ok (d, _) =>
          let dir := slotDirection o d
          let s := s.modSlot t i (fun x => { x with destination := some d, direction := some dir })
          match refusal s t c k o d dir with
          | some reason => refuse t i reason kiosk hold s
          | none => takeSlot t i c k o d dir r.party kiosk hold s

/-- R83: a conflicting request. -/
def conflict (t i : Nat) (s : State) : State :=
  raise { tenant := some t, cause := .requestConflict, source := .slot, indexA := some i, indexB := none,
          logical := i, building := none, count := none }
    (s.modSlot t i (fun x => { x with result := some .conflict }))

/-- R84: a CANCEL. -/
def cancel (t i : Nat) (s : State) : State :=
  if (s.slot t i).live then retire t i .cancelled none (s.modSlot t i (fun x => { x with result := some .accepted }))
  else s.modSlot t i (fun x => { x with result := some .late })

/-- R78: an accepted slot request, by its kind and the slot's state. -/
def handRequest (t i : Nat) (r : SlotRequest) (s : State) : State :=
  match r.kind with
  | 1 => if (s.slot t i).live then conflict t i s else post t i r s
  | 2 => cancel t i s
  | _ => conflict t i s

/-! ### DOOR (R85, R86, R102) -/

/-- R85: delivery at landing `x`. -/
def deliver (c k x : Nat) (s : State) : State :=
  let riders := slotsWhere s (fun y => y.state == .boarded && y.car == some c && y.deck == some k &&
    y.destination == some x)
  aboardDeliver c k x (riders.foldl (fun s ti => attend ti.1 (s.modSlot ti.1 ti.2 (fun y =>
    { y with state := .retired, outcome := some .delivered, reason := none, limit := none }))) s)

/-- One boarding slot (R86): its waiting count leaves, and it joins the Aboard List or is retired LIST_FULL. -/
def boardOne (c k : Nat) (t i : Nat) (s : State) : State :=
  let x := s.slot t i
  let s := dropCount x s
  let d := x.destination.getD 0
  let l := s.aboardList c k
  if holdsDest l d || l.length < Config.aboardDestinations then
    aboardAdd c k d x.party (s.modSlot t i (fun y => { y with
      state := .boarded, boardTime := s.hubTime,
      limit := some (expiryAfter s.hubTime (1000 * (s.tenant t).options.rideLimit)) }))
  else attend t (s.modSlot t i (fun y => { y with
      state := .retired, outcome := some .listFull, reason := none, limit := none }))

/-- Inserts a slot by how long ago it was taken, the longest first; a slot of equal take time goes after. -/
def insertByAge (age : Nat × Nat → Nat) (ti : Nat × Nat) : List (Nat × Nat) → List (Nat × Nat)
  | [] => [ti]
  | u :: l => if age u < age ti then ti :: u :: l else u :: insertByAge age ti l

/-- Slots in the order of take time, earlier first, and then of slot index. -/
def byTakeTime (s : State) (l : List (Nat × Nat)) : List (Nat × Nat) :=
  l.foldl (fun acc ti => insertByAge (fun u => elapsed (s.slot u.1 u.2).takeTime s.hubTime) ti acc) []

/-- The slots that board at DOOR (R86). -/
def boarders (s : State) (c k x : Nat) : List (Nat × Nat) :=
  byTakeTime s (slotsWhere s (fun y => y.state == .taken && y.car == some c && y.deck == some k &&
    y.origin == some x && ((s.car c).service.isNone || y.direction == (s.car c).service)))

/-- DOOR(c, k, x): the lighting test, delivery, then boarding. -/
def door (c k x : Nat) (s : State) : State :=
  let s := deliver c k x (announceAtDoor c k x s)
  (boarders s c k x).foldl (fun s ti => boardOne c k ti.1 ti.2 s) s

/-! ### Bulk retirement of a tenant (R97) -/

/-- Empties the Prompt Lists of the kiosk heads that belong to a tenant. -/
def emptyPrompts (t : Nat) (s : State) : State :=
  { s with heads := s.heads.map (fun e => (e.1,
      match s.conf.head e.1 with
      | some row => if row.kind? = some .kioskPrompt ∧ headTenant s.conf row = some t
                    then { e.2 with prompts := [] } else e.2
      | none => e.2)) }

/-- The cars that a tenant's live slots hold. -/
def heldCars (s : State) (t : Nat) : List Nat :=
  (s.tenant t).slots.filterMap (fun e => if e.2.live then e.2.car else none)

/-- Empties the Aboard Lists of a car. -/
def emptyAboard (c : Nat) (s : State) : State := (s.setAboard c 0 []).setAboard c 1 []

/-- A tenant's restart or disabling (R38, R97). -/
def retireTenant (t : Nat) (s : State) : State :=
  let cars := heldCars s t
  let s := retireWhere (fun t' x => t' == t && x.live) .restart s
  emptyPrompts t (boardEmpty (fun e => e.tenant == t) (cars.foldl (fun s c => emptyAboard c s) s))

/-! ### Guidance layers (R93 to R95, R105) -/

/-- A kiosk's item for a prompt. -/
def promptItem (p : Prompt) : PromptItem :=
  { carLabel := p.carLabel, arrow := p.arrow, destination := p.destination, refused := p.refused, closed := p.closed,
    wheelchair := p.wheelchair }

/-- A landing destination head's item for destination `x` of an entry (R94). -/
def entryItem (s : State) (e : BoardEntry) (x : Nat) : DestItem :=
  { label := landingLabel s.conf x, arrow := dirArrow e.direction, closed := s.closed x,
    wheelchair := !(slotsWhere s (fun y => y.state == .taken && y.accessible && y.car == some e.car &&
      y.deck == some e.deck && y.origin == some e.landing && y.direction == some e.direction &&
      y.destination == some x)).isEmpty }

/-- Inserts an item by landing index. -/
def insertItem (x : Nat) (i : DestItem) : List (Nat × DestItem) → List (Nat × DestItem)
  | [] => [(x, i)]
  | (y, j) :: l => if x < y then (x, i) :: (y, j) :: l else (y, j) :: insertItem x i l

/-- The destinations of an entry, nearest to its landing first. -/
def nearestFirst (e : BoardEntry) : List Nat :=
  match e.direction with
  | .up => e.destinations.map (·.1)
  | .down => (e.destinations.map (·.1)).reverse

/-- The chosen destinations of the two entries of a landing, by entry (R94). -/
def chosen (first second : BoardEntry) : List (BoardEntry × Nat) :=
  let room := Config.boardDestinations - first.destinations.length
  first.destinations.map (fun d => (first, d.1)) ++ ((nearestFirst second).take room).map (fun d => (second, d))

/-- What a landing destination head shows (R94). -/
def landingItems (s : State) (l c k : Nat) : List DestItem :=
  let picked : List (BoardEntry × Nat) := match boardFind s l c k .up, boardFind s l c k .down with
    | some (_, u), some (_, d) => if d.created < u.created then chosen d u else chosen u d
    | some (_, u), none => u.destinations.map (fun x => (u, x.1))
    | none, some (_, d) => d.destinations.map (fun x => (d, x.1))
    | none, none => []
  (picked.foldl (fun acc e => insertItem e.2 (entryItem s e.1 e.2) acc) []).map (·.2)

/-- What a car panel shows (R95). -/
def aboardItems (s : State) (c k : Nat) : List DestItem :=
  (s.aboardList c k).map (fun e =>
    { label := landingLabel s.conf e.1, arrow := .none, closed := s.closed e.1, wheelchair := false })

/-- A lit lantern's content (R105). -/
def lanternGuide (s : State) (c k l : Nat) : Option Guide :=
  let d := s.deck c k
  if d.announcement.landing = some l then
    some (.lit d.announcement.arrow (d.mode == .running) (chimes d.announcement.arrow d.announcement.accessible))
  else none

/-- An empty list leaves the layer empty. -/
def listGuide (l : List DestItem) : Option Guide := if l.isEmpty then none else some (.destinations l)

/-- The guidance layer of a head, written for the ACTIVE tenant to which it belongs. After a restart the layer of a lantern
whose announcement stands is not written until what it presents changes (assumption 50). -/
def guidanceLayer (s : State) (row : HeadRow) (prompts : List Prompt) : Option Guide :=
  match headTenant s.conf row with
  | none => none
  | some t =>
    if !(s.tenant t).active then none
    else match row.kind? with
      | some .lantern => lanternGuide s row.car row.deck row.landing
      | some .landingDestination => listGuide (landingItems s row.landing row.car row.deck)
      | some .carPanel => listGuide (aboardItems s row.car row.deck)
      | some .kioskPrompt =>
        if prompts.isEmpty then none else some (.prompts ((prompts.reverse.take 2).map promptItem))
      | some .positionIndicator => none
      | some .textPanel => none
      | none => none

end Sys2Proof.Machine
end

