-- ==== Sys2Proof/Machine/Position.lean ====
section
/-!
DEFINITION. The Position Unit (04): judging and applying a car report, the indicated landing, the shown label, the
commit landing, the car events, parking and acquiring.
-/

namespace Sys2Proof.Machine

/-! ### Where the car is (R62, R64) -/

/-- |x − h| of two heights. -/
def distance (x h : Nat) : Nat := (x - h) + (h - x)

/-- N(x): the nearest landing, the lower index of two equally near (R62). -/
def nearest (g : BuildingConfig) (x : Nat) : Nat :=
  (List.range g.floorCount).foldl
    (fun best i => if distance x (g.height i) < distance x (g.height best) then i else best) 0

/-- mid(a, b) (R62). -/
def mid (g : BuildingConfig) (a b : Nat) : Nat := (g.height a + g.height b) / 2

/-- d: the direction of motion of a clamped velocity (R62). -/
def motionDirection (v : Int) : Option Dir := if 50 ≤ v then some .up else if v ≤ -50 then some .down else none

/-- p_k (R62). -/
def deckPosition (g : BuildingConfig) (c k p : Nat) : Nat := p + k * (g.car c).spacing

/-- The landing at which the running rules stand: the indicated landing and the held landing (R64, R65). -/
structure Standings where
  landing : Nat
  held : Option Nat
  deriving DecidableEq, Repr

/-- The held landing takes the landing I stands at when it is served (R65). -/
def holdAt (served : BitVec 192) (i : Nat) (held : Option Nat) : Option Nat := if inSet served i then some i else held

/-- UP: while I < n − 1 and p ≥ mid(I, I + 1) + H, I rises (R64). -/
def runUp (g : BuildingConfig) (h p : Nat) (served : BitVec 192) : (fuel : Nat) → Standings → Standings
  | 0, x => x
  | fuel + 1, x =>
    if x.landing + 1 < g.floorCount ∧ mid g x.landing (x.landing + 1) + h ≤ p then
      runUp g h p served fuel { landing := x.landing + 1, held := holdAt served (x.landing + 1) x.held }
    else x

/-- DOWN: while I > 0 and p ≤ mid(I − 1, I) − H, I falls (R64). -/
def runDown (g : BuildingConfig) (h p : Nat) (served : BitVec 192) : (fuel : Nat) → Standings → Standings
  | 0, x => x
  | fuel + 1, x =>
    if 0 < x.landing ∧ p + h ≤ mid g (x.landing - 1) x.landing then
      runDown g h p served fuel { landing := x.landing - 1, held := holdAt served (x.landing - 1) x.held }
    else x

/-- The running rules from the deck's previous landing, which is tested for the held landing at their start. -/
def runningRules (g : BuildingConfig) (h p : Nat) (served : BitVec 192) (d : Dir) (old : Standings) : Standings :=
  let x := { old with held := holdAt served old.landing old.held }
  match d with
  | .up => runUp g h p served Config.maxLandings x
  | .down => runDown g h p served Config.maxLandings x

/-- The mode of a deck (R63); `z` is the landing zone, `off` the distance to the nearest landing. -/
def modeOf (m : Motion) (d : Option Dir) (off z : Nat) : DeckMode :=
  match m with
  | .outOfService => .outOfService
  | .inspection => .inspection
  | .stopped => if off ≤ z then .at else .between
  | .levelling => if off ≤ z then .at else .between
  | .running => if d.isSome then .running else .between

/-- The travel direction of a mode (R63). -/
def travelDirection (m : DeckMode) (d : Option Dir) : Option Dir :=
  match m with
  | .outOfService => d
  | .inspection => d
  | .running => d
  | _ => none

/-! ### Stopping distance and commit (R67, R68) -/

/-- s (R67). -/
def stoppingDistance (r : CarRecord) (v : Int) : Nat :=
  ceilDiv (v.natAbs * v.natAbs) (2 * r.deceleration) + ceilDiv (v.natAbs * r.reaction) 1000

/-- The commit landing of a RUNNING deck (R68). -/
def commitLanding (g : BuildingConfig) (served : BitVec 192) (d : Dir) (i p s : Nat) : Option Nat :=
  match d with
  | .up => (List.range g.floorCount).find? (fun j => inSet served j && i ≤ j && p + s ≤ g.height j)
  | .down =>
    (List.range g.floorCount).reverse.find? (fun j => inSet served j && j ≤ i && g.height j + s ≤ p)

/-! ### Label, arrow and mark (R65, R66) -/

def shownLabel (g : BuildingConfig) (o : Options) (served : BitVec 192) (x : Standings) (p : Nat) : LabelSource :=
  match o.express with
  | 1 => match x.held with
    | some l => .landing l
    | none => .landing (nearest g p)
  | 2 => if inSet served x.landing then .landing x.landing else .codes (places 4 o.glyph)
  | _ => .landing x.landing

def modeArrow (m : DeckMode) (travel service : Option Dir) : Arrow :=
  match m with
  | .at => optArrow service
  | .running => optArrow travel
  | .inspection => optArrow travel
  | _ => .none

def modeMark (m : DeckMode) : PosMark :=
  match m with
  | .inspection => .inspection
  | _ => .none

/-! ### A judged report -/

/-- A report that resolved, clamped and with its declared stop resolved (R56, R57). -/
structure Judged where
  tenant : Nat
  index : Nat
  stamp : Stamp
  body : ReportRecord
  v : Int
  stop : Option (Nat × DeckAttr)
  deriving DecidableEq, Repr

/-- The step test (R57): does the report fail it? -/
def stepFails (vmax : Nat) (car : Car) (now : Time) (p : Nat) : Bool :=
  decide (vmax * elapsed car.time now / 1000 + 500 < distance p car.position)

/-- Is a report implausible? (R57) -/
def implausible (g : BuildingConfig) (car : Car) (vmax : Nat) (now : Time) (r : ReportRecord) : Bool :=
  r.motion.isNone ||
  decide (r.position + 10000 < g.height 0) ||
  decide (g.height (g.floorCount - 1) + 10000 < r.position) ||
  ((car.tracking == .tracking || (car.tracking == .acquiring && car.anchor)) && stepFails vmax car now r.position)

/-- The decks of a car: deck 0, and deck 1 when its deck count is 2. -/
def carDecks (g : BuildingConfig) (c : Nat) : List Nat := if (g.car c).deckCount = 2 then [0, 1] else [0]

/-- Records a report as applied (R58, R59): stamp, time, tenant and tenant car, the fields kept for the other units,
the run count 0 and the freshness timer. -/
def recordApplied (j : Judged) (s : State) (car : Car) : Car :=
  { car with
    tenant := some j.tenant, tenantCar := some j.index, stamp := j.stamp, time := s.hubTime, runCount := 0,
    freshness := some (expiryAfter s.hubTime (s.tenant j.tenant).options.freshness), position := j.body.position,
    motionDir := motionDirection j.v, service := j.body.service, door0 := j.body.door0, door1 := j.body.door1,
    stop := j.stop }

/-- One deck at the anchor (R58): I is N(p_k), and the held landing is set as for travel direction NONE. -/
def anchorDeck (j : Judged) (c : Nat) (s : State) (car : Car) (k : Nat) : Car :=
  let g := s.conf
  let served := servedSet g (s.tenant j.tenant) c k
  let i := nearest g (deckPosition g c k j.body.position)
  car.setDeck k { car.deck k with landing := some i, held := holdAt served i none, served := served }

/-- One deck of an applied report (sections 3 to 5 of 04). A change of its mode is a change of the deck's state, so its
position layer is written anew, and a text that it presents is read anew (R71, R72, assumption 27). -/
def applyDeck (j : Judged) (c : Nat) (s : State) (car : Car) (k : Nat) : Car :=
  let g := s.conf
  let ten := s.tenant j.tenant
  let o := ten.options
  let d := car.deck k
  let p := deckPosition g c k j.body.position
  let dir := motionDirection j.v
  let served := servedSet g ten c k
  let near := nearest g p
  let mode := modeOf (j.body.motion.getD .stopped) dir (distance p (g.height near)) o.landingZone
  let travel := travelDirection mode dir
  let x : Standings := match travel with
    | none => { landing := near, held := holdAt served near none }
    | some dir => runningRules g o.hysteresis p served dir { landing := d.landing.getD near, held := d.held }
  let commit := match mode, travel with
    | .running, some dir => commitLanding g served dir x.landing p (stoppingDistance (g.car c) j.v)
    | _, _ => none
  let shown := shownLabel g o served x p
  car.setDeck k { d with
    mode := mode, landing := some x.landing, held := x.held, shown := shown,
    lastShown := if mode = .outOfService then d.lastShown else sourcePlaces g shown,
    arrow := modeArrow mode travel j.body.service, mark := modeMark mode, commit := commit, served := served,
    writes := if mode = d.mode then d.writes else d.writes + 1 }

/-- OVERRUN at an applied report (R69), from the decks as the report left them. -/
def overrunAfter (decks : List Deck) (old : Bool) : Bool :=
  let real := decks.filter (fun d => !(d.served == 0))
  if real.any (fun d => d.mode == .running && d.commit.isNone) then true
  else if real.any (fun d => d.commit.isSome || d.mode == .at) then false
  else old

/-! ### Parking and acquiring (R60, R61, R77) -/

/-- The deck's position layer is written anew. -/
def Deck.rewrite (d : Deck) : Deck := { d with writes := d.writes + 1 }

/-- A deck with no mode: mode NONE, commit absent, door-due clear; its position layer is written anew. -/
def Deck.still (d : Deck) : Deck := { d.rewrite with mode := .none, commit := none, doorDue := false }

/-- The car enters PARKED (R60). -/
def enterParked (c : Nat) (s : State) : State :=
  setMark c .park (darkenCar c (s.modCar c (fun car =>
    { car.mapDecks Deck.still with tracking := .parked, anchor := false, overrun := false, freshness := none })))

/-- The car goes to ACQUIRING without a PARK event (R61); its marks are cleared where `marks` says so. -/
def toAcquiring (marks : Bool) (c : Nat) (s : State) : State :=
  darkenCar c (s.modCar c (fun car =>
    let car := { car.mapDecks (fun d => { d.still with served := 0 }) with
      tracking := .acquiring, anchor := false, overrun := false, freshness := none, runCount := 0 }
    if marks then car.clearMarks else car))

/-! ### Events of a deck (R73, R74) -/

/-- DEPART and ARRIVE of deck `k`, from its mode and landing after the previous report. -/
def departArrive (c k : Nat) (before : Deck) (s : State) : State :=
  let d := s.deck c k
  let wasAt := before.mode = .at
  let nowAt := d.mode = .at
  let moved := before.landing ≠ d.landing
  let s := if wasAt ∧ (¬ nowAt ∨ moved) then
      setMark c .depart (s.modDeck c k (fun d => { d with doorDue := false }))
    else s
  if nowAt ∧ (¬ wasAt ∨ moved) then setMark c .arrive (s.modDeck c k (fun d => { d with doorDue := true })) else s

/-- DOOR of deck `k` (R74): AT with the door-due flag set and its door OPENING or OPEN. -/
def doorEvent (c k : Nat) (s : State) : State :=
  let car := s.car c
  let d := car.deck k
  let leaf := if k = 0 then car.door0 else car.door1
  if d.mode = .at ∧ d.doorDue = true ∧ (leaf = .opening ∨ leaf = .opened) then
    door c k (d.landing.getD 0) (setMark c .door (s.modDeck c k (fun d => { d with doorDue := false })))
  else s

/-- The events of one deck, with its announcement between DEPART or ARRIVE and DOOR (R101). -/
def deckEvents (c : Nat) (before : Car) (s : State) (k : Nat) : State :=
  doorEvent c k (announceAtReport c k (departArrive c k (before.deck k) s))

/-! ### Reports (R58) -/

/-- The report becomes the anchor. -/
def anchorReport (j : Judged) (c : Nat) (s : State) : State :=
  let car := (carDecks s.conf c).foldl (anchorDeck j c s) (s.car c)
  s.setCar c { recordApplied j s car with tracking := .acquiring, anchor := true }

/-- The report is applied and the car is TRACKING. -/
def applyReport (j : Judged) (c : Nat) (s : State) : State :=
  let before := s.car c
  let ks := carDecks s.conf c
  let car := ks.foldl (applyDeck j c s) (recordApplied j s before)
  let car := { car with tracking := .tracking, anchor := false,
                        overrun := overrunAfter (ks.map car.deck) before.overrun }
  ks.foldl (deckEvents c before) (s.setCar c car)

/-- A plausible report, by the tracking state. A PARKED car enters ACQUIRING with it, which writes its position layer
anew. -/
def plausibleReport (j : Judged) (c : Nat) (s : State) : State :=
  let car := s.car c
  match car.tracking with
  | .tracking => applyReport j c s
  | .acquiring => if car.anchor then applyReport j c s else anchorReport j c s
  | .parked => anchorReport j c (s.modCar c (fun car => car.mapDecks Deck.still))

/-- An implausible report, by the tracking state. -/
def implausibleReport (c : Nat) (s : State) : State :=
  let car := s.car c
  let n := saturate 255 (car.runCount + 1)
  match car.tracking with
  | .parked => s.setCar c { car with runCount := n }
  | .tracking =>
    let s := s.setCar c { car with runCount := n }
    if 3 ≤ n then enterParked c s else s
  | .acquiring =>
    let s := s.setCar c { car with runCount := n, anchor := false, freshness := none }
    if 3 ≤ n then enterParked c s else s

/-- The declared next stop of a report, resolved, its fault raised where it fails (R56). -/
def declaredOf (t i : Nat) (r : ReportRecord) (s : State) : State × Option (Nat × DeckAttr) :=
  match r.stop with
  | none => (s, none)
  | some n => match resolveFloor (s.tenant t) n with
    | .ok e => (s, some e)
    | .error f => (raiseFailure t .carReport (some i) none n f s, none)

/-- An accepted Car Report (R56 to R58). -/
def handReport (t i : Nat) (stamp : Stamp) (r : ReportRecord) (s : State) : State :=
  match resolveCar (s.tenant t) i with
  | .error f => raiseFailure t .carReport (some i) none i f s
  | .ok c =>
    let q := declaredOf t i r s
    let s := q.1
    let vmax := (s.conf.car c).vmax
    let j : Judged := { tenant := t, index := i, stamp := stamp, body := r,
                        v := clamp r.velocity (-(vmax : Int)) vmax, stop := q.2 }
    if implausible s.conf (s.car c) vmax s.hubTime r then implausibleReport c s else plausibleReport j c s

/-- A freshness expiry (R59). -/
def freshnessExpired (c : Nat) (s : State) : State :=
  match (s.car c).tracking with
  | .tracking => enterParked c s
  | .acquiring => s.modCar c (fun car => { car with anchor := false, freshness := none })
  | .parked => s.modCar c (fun car => { car with freshness := none })

/-- The car a report resolved to, which is published whatever the report did (R58). -/
def reportCar (s : State) (t i : Nat) : Option Nat := rowCar s t i

/-! ### The position layer (R71, R72) -/

/-- What a written position layer holds; a text is read from the shared RAM at the write (R72). -/
def positionText (m : Memory) : PosDesc → Option PosText
  | .empty => none
  | .label x => some x
  | .store t i _ => some { places := (readText m t i).short, arrow := .none, mark := .none }

/-- Does a head's kind take a position layer? (R71) -/
def takesPosition (k : Option HeadKind) : Bool := k == some .positionIndicator || k == some .carPanel

end Sys2Proof.Machine
end

