-- ==== Sys2Proof/Machine/Compositor.lean ====
section
/-!
DEFINITION. The Compositor (09) with the override layers it is handed (R129): layers, presented layer, next content,
comparison, brightness; and the end of an event, where the layers are settled and the changed records published.
-/

namespace Sys2Proof.Machine

/-! ### The override layer (R129) -/

/-- ACTIVE or PENDING_OFF. -/
def OverrideLine.qualifies (x : OverrideLine) : Bool := x.state == .active || x.state == .pendingOff

/-- A zone in a zone set. -/
def inZone (set : BitVec 16) (z : Nat) : Bool := z < 16 && set.getLsbD z

/-- Does line `l` qualify for the head of a row? (R129) -/
def lineQualifies (s : State) (row : HeadRow) (l : Nat) : Bool :=
  (s.line l).qualifies && inZone (s.line l).zones row.zone && !row.immunity.getLsbD l

/-- The deciding line of a head: the lowest-numbered that qualifies. -/
def decidingLine (s : State) (row : HeadRow) : Option Nat := (List.range 4).find? (lineQualifies s row)

/-- The Override Text of a line, its places as they show. -/
def overrideText (g : BuildingConfig) (l : Nat) : TwoForms := g.text (g.line l).text

/-- The override layer of a head, in the forms of its kind (R129). -/
def overrideLayer (s : State) (row : HeadRow) : Option OverrideContent :=
  match decidingLine s row with
  | none => none
  | some l =>
    let t := overrideText s.conf l
    match row.kind? with
    | some .lantern => some { line := none, short := [], long := [] }
    | some .positionIndicator => some { line := some l, short := t.short, long := [] }
    | some .carPanel => some { line := some l, short := t.short, long := t.long }
    | _ => some { line := some l, short := [], long := t.long }

/-! ### Presented layer and next content (R139 to R141) -/

/-- Does a head's layer mask admit a layer? Bit 0 override, 1 notice, 2 guidance, 3 position. -/
def admits (row : HeadRow) : Layer → Bool
  | .override => row.layerMask.getLsbD 0
  | .notice => row.layerMask.getLsbD 1
  | .guidance => row.layerMask.getLsbD 2
  | .position => row.layerMask.getLsbD 3
  | .idle => true

/-- R139. -/
def presentedLayer (row : HeadRow) (h : Head) : Layer :=
  if h.override.isSome && admits row .override then .override
  else if h.notice.isSome && admits row .notice then .notice
  else if h.guidance.isSome && admits row .guidance then .guidance
  else if h.position.isSome && admits row .position then .position
  else .idle

/-- Four spaces, no arrow, no mark. -/
def blankText : PosText := { places := [32, 32, 32, 32], arrow := .none, mark := .none }

/-- Four places with no arrow and no mark. -/
def plainText (l : List Byte) : PosText := { places := l, arrow := .none, mark := .none }

/-- The position region of a car panel outside OVERRIDE (R140). -/
def positionRegion (row : HeadRow) (h : Head) : PosText :=
  if admits row .position then h.position.getD blankText else blankText

/-- The main region of a text-showing head by its presented layer. -/
def mainRegion (h : Head) (p : Layer) : Main :=
  match p with
  | .override => match h.override with
    | some o => .text o.long
    | none => .blank
  | .notice => match h.notice with
    | some l => .text l
    | none => .blank
  | .guidance => match h.guidance with
    | some (.destinations l) => .destinations l
    | some (.prompts l) => .prompts l
    | _ => .blank
  | _ => .blank

/-- The deciding line's number, under OVERRIDE. -/
def contentLine (h : Head) (p : Layer) : Option Nat :=
  match p with
  | .override => h.override.bind (·.line)
  | _ => none

/-- R141: the next content of a head of kind `k` presenting `p`. -/
def nextContent (k : HeadKind) (row : HeadRow) (h : Head) (p : Layer) : Content :=
  match k with
  | .positionIndicator =>
    .indicator (match p with
      | .override => match h.override with
        | some o => plainText o.short
        | none => blankText
      | .notice => plainText (h.notice.getD [32, 32, 32, 32])
      | .position => h.position.getD blankText
      | _ => blankText) (contentLine h p)
  | .lantern =>
    match p, h.guidance with
    | .guidance, some (.lit a f n) => .lantern true a f n
    | _, _ => .lantern false .none false 0
  | .carPanel =>
    .carPanel (match p with
      | .override => match h.override with
        | some o => plainText o.short
        | none => blankText
      | _ => positionRegion row h) (mainRegion h p) (contentLine h p)
  | _ => .panel (mainRegion h p) (contentLine h p)

/-! ### Brightness (R145, R146) -/

/-- The ceiling in force (R34, R145). -/
def ceiling (s : State) : Nat := if s.orders.night then s.conf.nightCeiling else s.conf.dayCeiling

/-- The settings of a head's kind. -/
def kindSettings (g : BuildingConfig) (row : HeadRow) : KindSettings := g.kinds.getD (row.kind - 1) {}

/-- R145. -/
def brightnessTarget (s : State) (row : HeadRow) (ambient : Option Nat) (p : Layer) : Nat :=
  let c := ceiling s
  if p = .override then c
  else
    let k := kindSettings s.conf row
    let raw : Int := k.offset + ((k.gain * ambient.getD 128 / 64 : Nat) : Int)
    let floored := if raw < k.lmin then (k.lmin : Int) else raw
    (min floored ((min k.lmax c : Nat) : Int)).toNat

/-- The level that the next frame carries (R146). -/
def nextLevel (h : Head) : Nat :=
  if h.jump then h.target else ((h.level : Int) + clamp ((h.target : Int) - (h.level : Int)) (-4) 4).toNat

/-- The level is handed: S takes it and the jump flag returns to 0. -/
def Head.handLevel (h : Head) : Head := { h with level := nextLevel h, jump := false }

/-! ### Comparison and reload (R142, R143) -/

/-- The result of comparing the next content with the confirmed content, handed with the presented layer (R142). -/
def Head.compare (h : Head) : Head := { h with differs := !(h.confirmed == some h.next), handed := h.presented }

/-- The snapshot of a content turn (R143). -/
def Head.takeSnapshot (h : Head) : Head :=
  { h with snapshot := some { content := h.next, tag := h.sentTag, level := h.level } }

/-- The Trunk Controller hands back a confirmed tag (R143). -/
def Head.confirm (h : Head) (tag : BitVec 4) : Head :=
  match h.snapshot with
  | none => h
  | some x => if x.tag = tag then { h with confirmed := some x.content }.compare else h

/-- A reload is reported (R167). The contents are compared also where the confirmed content was none before (assumption
54). -/
def Head.reload (h : Head) : Head :=
  { h with needsReload := true, confirmed := none, snapshot := none, jump := true }.compare

/-! ### Settling a head -/

/-- The position presentation of a head: that of its car deck, for the kinds that take a position layer. -/
def headPosition (s : State) (row : HeadRow) : PosDesc :=
  if takesPosition row.kind? then positionDesc s row.car row.deck else .empty

/-- The layers of a head as their units write them now. A position or guidance layer is written when what it presents
changes, and a text is read at that write (R71, R72, R105). -/
def writeLayers (s : State) (row : HeadRow) (h : Head) : Head :=
  let d := headPosition s row
  let g := guidanceLayer s row h.prompts
  { h with override := overrideLayer s row, notice := noticeLayer s row,
           guidance := if g = h.guidanceDesc then h.guidance else g, guidanceDesc := g,
           position := if d = h.positionDesc then h.position else positionText s.ram d, positionDesc := d }

/-- The presented layer and the next content are formed again, and a changed next content is compared (R138, R139,
R141, R142); the target is worked again (R145, R147). -/
def formContent (s : State) (k : HeadKind) (row : HeadRow) (h : Head) : Head :=
  let p := presentedLayer row h
  let n := nextContent k row h p
  let h' := { h with presented := p, next := n, target := brightnessTarget s row h.ambient p }
  if n = h.next then h' else h'.compare

/-- A head is settled after an event. -/
def settleHead (s : State) (row : HeadRow) (h : Head) : Head :=
  match row.kind? with
  | none => h
  | some k => formContent s k row (writeLayers s row h)

/-- Every head of the Head Table in force is settled. -/
def settleHeads (s : State) : State :=
  { s with heads := s.heads.map (fun e => (e.1,
      match s.conf.head e.1 with
      | some row => settleHead s row e.2
      | none => e.2)) }

/-- The end of an event that took the hub from `s`: the heads are settled, and each record that the event changed, or
that `forced` names, has one published write (R5). -/
def finishWith (forced : List RecordId) (s s' : State) : State := publishChanged s (settleHeads s') forced

/-- The end of an event with no record forced. -/
def finish (s s' : State) : State := finishWith [] s s'

/-- A head's position and guidance layers are emptied, with what they are then to count as last written from: a unit
writes a layer when what it presents is no longer that. -/
def Head.emptyLayers (h : Head) (position : PosDesc) (guidance : Option Guide) : Head :=
  { h with position := none, positionDesc := position, guidance := none, guidanceDesc := guidance }

/-- A tenant's restart or disabling: the layers written for it are emptied (R38, R39, R138). The Position Unit then writes
those of the map's cars anew; any other stands empty until what it presents changes (assumption 50). -/
def emptyTenantLayers (t : Nat) (cars : List Nat) (s : State) : State :=
  { s with heads := s.heads.map (fun e => (e.1,
      match s.conf.head e.1 with
      | some row =>
        if headTenant s.conf row = some t then
          e.2.emptyLayers (if cars.contains row.car then .empty else headPosition s row)
            (guidanceLayer s row e.2.prompts)
        else e.2
      | none => e.2)) }

end Sys2Proof.Machine
end

