-- ==== Sys2Proof/Machine/Frames.lean ====
section
/-!
DEFINITION. The frames of the display trunks, character for character (12_layouts.md section 6, R150 to R152), the
loop check of an echoed copy (R170) and the judgement of a status reply (R153).
-/

namespace Sys2Proof.Machine

/-- One character. -/
def ch (n : Nat) : Byte := BitVec.ofNat 8 n

/-- A frame that ends with a CRC-16 over the characters after its lead byte. -/
def withCrc (lead : Byte) (body : List Byte) : List Byte := lead :: (body ++ be16 (crc16 body))

/-- A marks byte. -/
def marksByte (refused closed wheelchair : Bool) : Byte := ch (bit refused + 2 * bit closed + 4 * bit wheelchair)

/-! ### The CONTENT payload -/

/-- The form byte: 0 blank, 1 guidance, 2 text, 3 position. -/
def formByte (c : Content) (p : Layer) : Byte :=
  match c, p with
  | .indicator _ _, .position => 3
  | _, .override => 2
  | _, .notice => 2
  | _, .guidance => 1
  | _, _ => 0

/-- Four places, arrow, mark. -/
def posBytes (x : PosText) : List Byte := cat [places 4 x.places, u8 (arrowCode x.arrow), u8 (posMarkCode x.mark)]

/-- The deciding line's number, or absent. -/
def lineByte (l : Option Nat) : List Byte := opt8 l

/-- The main region of a head other than a car panel. -/
def mainBytes : Main → List Byte
  | .blank => []
  | .text l => places 72 l
  | .destinations l => ch l.length :: l.flatMap (fun i =>
      cat [places 4 i.label, u8 (arrowCode i.arrow), [marksByte false i.closed i.wheelchair]])
  | .prompts l => ch l.length :: l.flatMap (fun i =>
      cat [places 2 i.carLabel, u8 (arrowCode i.arrow), places 4 i.destination,
        [marksByte i.refused i.closed i.wheelchair]])

/-- The main region of a car panel: its destinations carry no arrow. -/
def panelBytes : Main → List Byte
  | .destinations l => ch l.length :: l.flatMap (fun i => cat [places 4 i.label, [marksByte false i.closed i.wheelchair]])
  | m => mainBytes m

/-- The payload of a CONTENT frame. -/
def payload (c : Content) (p : Layer) : List Byte :=
  match c with
  | .indicator x l => cat [[formByte c p], lineByte l, if formByte c p = 0 then [] else posBytes x]
  | .panel m l => cat [[formByte c p], lineByte l, mainBytes m]
  | .carPanel r m l => cat [[formByte c p], lineByte l, posBytes r, panelBytes m]
  | .lantern _ _ _ _ => []

/-! ### The frames -/

def contentFrame (address : Nat) (kind : HeadKind) (tag : BitVec 4) (level : Nat) (c : Content) (p : Layer) :
    List Byte :=
  let load := payload c p
  withCrc 0xC1 (cat [[ch address, ch (kindCode kind), ch load.length, ch tag.toNat, ch level], load])

def setupFrame (address : Nat) (row : HeadRow) (poll : Nat) : List Byte :=
  withCrc 0xC2 (cat [[ch address, ch row.kind, ch row.zone, row.immunity], be16 (BitVec.ofNat 16 poll), [0]])

def pollFrame (address level : Nat) : List Byte := withCrc 0xC3 [ch address, ch level]

def probeFrame (address : Nat) : List Byte := withCrc 0xC6 [ch address]

/-- The broadcast's frame; the zone set is a field of two bytes, its more significant byte first (assumption 13). -/
def overrideFrame (r : Request) : List Byte :=
  withCrc 0xC5 (cat [[0, ch r.line], be16 r.zones, places 4 r.short, places 72 r.long])

/-- The quick word of a lantern's content and level, reply-wanted set (R152). -/
def quickWord (c : Content) (level : Nat) : BitVec 16 :=
  let v := match c with
    | .lantern true a f n =>
      (match a with
        | .up => 0x8000
        | .down => 0x4000
        | .none => 0xC000) + 0x2000 * bit f + 0x800 * (n % 4)
    | _ => 0
  let w := BitVec.ofNat 16 (v + 0x20 * (level % 64) + 0x10)
  w ||| quickCheck w

def quickFrame (address : Nat) (w : BitVec 16) (tag : BitVec 4) : List Byte :=
  cat [[0xC4, ch address], be16 w, [ch tag.toNat]]

/-! ### The loop check (R170) -/

/-- The codes of an echo, as many as the frame has characters. -/
def echoCodes (frame : List Byte) (echo : List Received) : List Byte := (echo.take frame.length).map (·.code)

/-- Is a frame copy's echo a loop error? A character bad or not arrived; a CRC-16 that differs from the one sent, as
echoed or as worked over the echo; for QUICK, a word or tag that differs. -/
def loopError (kind : FrameKind) (frame : List Byte) (echo : List Received) : Bool :=
  let got := echo.take frame.length
  let codes := echoCodes frame echo
  got.length < frame.length || got.any badCharacter ||
  (match kind with
   | .quick => !(codes.drop 2 == frame.drop 2)
   | _ =>
     let n := frame.length - 2
     !(codes.drop n == frame.drop n) || !(be16 (crc16 ((codes.take n).drop 1)) == frame.drop n))

/-! ### Status replies (R150, R153) -/

/-- An accepted reply's fields. -/
structure Reply where
  fault : Bool
  service : Bool
  busy : Bool
  lasterr : Bool
  tag : Nat
  ambient : Nat
  deriving DecidableEq, Repr

/-- What a reply comes to: accepted, or no reply with its CRC-16 at fault or not. -/
inductive Judgement where
  | accepted (r : Reply)
  | crcFault
  | refused
  deriving DecidableEq, Repr

/-- Does a reply end with a good CRC-16: its last two characters are that of the characters between its lead byte and
them? One of fewer than three characters carries no CRC-16. -/
def endsWithCrc (codes : List Byte) : Bool :=
  let n := codes.length - 2
  2 < codes.length && be16 (crc16 ((codes.take n).drop 1)) == codes.drop n

/-- The judgement of a reply's characters (R153): with its CRC-16 at fault, however many they are; refused for any other
fault; or accepted: seven characters with the lead byte of a status reply (assumption 15), none bad, with the head's
address. -/
def judgeReply (address : Nat) (reply : List Received) : Judgement :=
  let codes := reply.map (·.code)
  if !endsWithCrc codes then .crcFault
  else if reply.any badCharacter then .refused
  else match codes with
    | [lead, a, flags, tag, ambient, _, _] =>
      if lead = 0xD0 ∧ a = ch address then
        .accepted { fault := flags.getLsbD 0, service := flags.getLsbD 1, busy := flags.getLsbD 2,
                    lasterr := flags.getLsbD 3, tag := tag.toNat, ambient := ambient.toNat }
      else .refused
    | _ => .refused

end Sys2Proof.Machine
end

