-- ==== Sys2Proof/Machine/Trunks.lean ====
section
/-!
DEFINITION. The Trunk Controllers (10, 11): turns and their ends, replies, the scheduler, broadcasts, link states,
line shuts, failover, recovery, and the enabling and disabling of trunks.
-/

namespace Sys2Proof.Machine

/-- Changes a trunk. -/
def State.modTrunk (s : State) (t : Nat) (f : Trunk → Trunk) : State := s.setTrunk t (f (s.trunk t))

/-- The flight of a trunk becomes `f`. -/
def setFlight (t : Nat) (f : Flight) (s : State) : State := s.modTrunk t (fun x => { x with flight := f })

/-- The parts of a trunk whose change sets TRUNK (R172). -/
def Trunk.news (x : Trunk) : TrunkState × Option LineId × Option ShutCause × Option ShutCause :=
  (x.state, x.active, x.lineA.shut, x.lineB.shut)

/-- Runs `f` and sets TRUNK when it changed the trunk's state, active line, or a line's state or cause (R172). -/
def noteTrunk (t : Nat) (f : State → State) (s : State) : State :=
  let s' := f s
  if (s.trunk t).news = (s'.trunk t).news then s' else attend 9 s'

/-- Milliseconds of a trunk's recovery interval; 0 stands for the default of 5 s (R25). -/
def recoveryMs (s : State) (t : Nat) : Nat :=
  let r := (s.conf.trunk t).recovery
  1000 * (if r = 0 then 5 else r)

/-- The head keys of a trunk that have a record, by address. -/
def trunkHeads (s : State) (t : Nat) : List Nat := (s.heads.map (·.1)).filter (fun k => keyTrunk k == t)

/-! ### The lines' pins (R149) -/

/-- The levels that a trunk's flight still puts on line `l`, character after character, from its beginning: the frame
being sent, or the break; nothing in a reply window, in a gap or between a broadcast's copies. -/
def Flight.levels (f : Flight) (l : LineId) : List Bool :=
  match f with
  | .sending u => if u.line = l then u.frame.flatMap characterLevels else []
  | .breaking m => if m = l then breakLevels else []
  | _ => []

/-- The driver-enable pin of a line: asserted while the trunk puts a frame or a break on it. -/
def Flight.drives (f : Flight) (l : LineId) : Bool :=
  match f with
  | .sending u => u.line == l
  | .breaking m => m == l
  | _ => false

/-- The driver-enable pin of line `l` of trunk `t`. -/
def driverEnable (s : State) (t : Nat) (l : LineId) : Bool := (s.trunk t).flight.drives l

/-- The levels at the transmit pin of line `l` of trunk `t` from the frame's or the break's beginning on; with none left
the pin idles. -/
def transmitLevels (s : State) (t : Nat) (l : LineId) : List Bool := (s.trunk t).flight.levels l

/-! ### Broadcast requests (R160 to R162) -/

/-- The list with a request joined, or merged at the end with one pending for its line (R160). -/
def joinRequest (l : List Request) (r : Request) : List Request :=
  match l.find? (fun q => q.line == r.line) with
  | none => l ++ [r]
  | some q => l.filter (fun q => !(q.line == r.line)) ++ [{ r with zones := q.zones ||| r.zones }]

/-- The list with an abandoned broadcast's request returned: at its head, or merged into one pending for its line, which
keeps its texts and its place (R162). -/
def returnRequest (l : List Request) (r : Request) : List Request :=
  if l.any (fun q => q.line == r.line) then
    l.map (fun q => if q.line == r.line then { q with zones := q.zones ||| r.zones } else q)
  else r :: l

/-- What a cut or abandoned turn leaves of its head: a POLL leaves the poll due (R161). -/
def cutHead (t : Nat) (u : Turn) (s : State) : State :=
  if u.kind = .poll ∧ u.orphan = false then s.modHead (headKey t u.address) (fun h => { h with pollDue := true }) else s

/-- What a joining request does to the turn in flight (R161). A turn past its frame is ended early, in the window or the reply
of its retry too (assumption 58). A cut content turn ends here, and not with its break (assumption 62). -/
def interrupt (t : Nat) (s : State) : State :=
  match (s.trunk t).flight with
  | .sending u => if u.kind = .override then s else setFlight t (.breaking u.line) (cutHead t u s)
  | .window u => setFlight t (.window { u with early := true }) s
  | .receiving u => setFlight t (.receiving { u with early := true }) s
  | _ => s

/-- A broadcast request handed to a trunk (R160): discarded unless the trunk is RUNNING with RUN at 1. -/
def takeRequest (t : Nat) (r : Request) (s : State) : State :=
  if (s.trunk t).state = .running ∧ s.run then
    interrupt t (s.modTrunk t (fun x => { x with requests := joinRequest x.requests r }))
  else s

/-! ### Shutting a line (R172) -/

/-- A broadcast's request returns to the list (R162). -/
def giveBack (t : Nat) (u : Turn) (s : State) : State :=
  match u.request with
  | some r => s.modTrunk t (fun x => { x with requests := returnRequest x.requests r })
  | none => s

/-- A turn abandoned by a failover: a broadcast's request returns to the list, and the gap follows (R162, R163). -/
def abandonTurn (t : Nat) (s : State) : State :=
  match (s.trunk t).flight with
  | .idle => s
  | .gap => s
  | .breaking _ => setFlight t .gap s
  | .sending u => setFlight t .gap (cutHead t u (giveBack t u s))
  | .window u => setFlight t .gap (cutHead t u s)
  | .receiving u => setFlight t .gap (cutHead t u s)
  | .copyGap u => setFlight t .gap (giveBack t u s)

/-- A turn abandoned by a trunk that can send nothing further (R163). No gap follows, and one that runs ends: the trunk's
next turn may begin as soon as the trunk is RUNNING again (assumption 63). -/
def dropTurn (t : Nat) (s : State) : State :=
  setFlight t .idle (match (s.trunk t).flight.turn? with
    | some u => cutHead t u s
    | none => s)

/-- The line is SHUT with its cause and the present hub time (R172). One that stands SHUT with cause WATCHDOG takes the shut
time of its watchdog's new act also on a RUNNING or OFF trunk, which is the model's choice (assumption 68). -/
def markShut (t : Nat) (l : LineId) (cause : ShutCause) (s : State) : State :=
  s.modTrunk t (fun x => x.setLine l { x.line l with shut := some cause, shutTime := s.hubTime })

/-- Is some line of a trunk shut for a cause other than ORDERED? -/
def recoverable (x : Trunk) : Bool := !(x.lineA.shut == some .ordered) || !(x.lineB.shut == some .ordered)

/-- Is the trunk's recovery probe of line `l` in flight, or its line chosen and not yet probed? -/
def probing (x : Trunk) (l : LineId) : Bool :=
  x.chosen == some l || (match x.flight.turn? with
    | some u => u.recovery && u.line == l
    | none => false)

/-- A DOWN trunk's probed line is shut by an order or its watchdog (R173): the probe is abandoned, and the timer
restarts while a line is not ORDERED. -/
def abandonProbe (t : Nat) (s : State) : State :=
  (dropTurn t s).modTrunk t (fun x => { x with
    chosen := none,
    recovery := if recoverable x then some (expiryAfter s.hubTime (recoveryMs s t)) else none })

/-- Failover to line `m`: it becomes active with a loop error run of 0. -/
def failover (t : Nat) (m : LineId) (s : State) : State :=
  (abandonTurn t s).modTrunk t (fun x => { x.setLine m { x.line m with loopRun := 0 } with active := some m })

/-- The trunk becomes DOWN: the turn is abandoned, the list emptied and the recovery timer started. -/
def goDown (t : Nat) (s : State) : State :=
  (dropTurn t s).modTrunk t (fun x => { x with
    state := .down, active := none, requests := [], chosen := none,
    recovery := some (expiryAfter s.hubTime (recoveryMs s t)) })

/-- R172: a line becomes SHUT. -/
def shutLine (t : Nat) (l : LineId) (cause : ShutCause) (s : State) : State :=
  noteTrunk t (fun s =>
    let x := s.trunk t
    let s' := markShut t l cause s
    match x.state with
    | .off => s'
    | .running =>
      if x.active = some l then
        if (x.line (LineId.other l)).shut = none then failover t (LineId.other l) s' else goDown t s'
      else s'
    | .down => if probing x l then abandonProbe t s' else s') s

/-! ### Lines made READY (R172, R173) -/

/-- A line becomes READY with a loop error run of 0. -/
def Trunk.ready (x : Trunk) (l : LineId) : Trunk := x.setLine l { x.line l with shut := none, loopRun := 0 }

/-- A DOWN trunk becomes RUNNING on line `l`. A recovery probe in flight on the same line goes on as an ordinary turn
whose missing reply is no miss; one on the other line is abandoned. -/
def resume (t : Nat) (l : LineId) (s : State) : State :=
  let goOn (u : Turn) : Turn := { u with recovery := false, noMiss := true }
  let s := match (s.trunk t).flight with
    | .sending u => if u.line = l then setFlight t (.sending (goOn u)) s else abandonTurn t s
    | .window u => if u.line = l then setFlight t (.window (goOn u)) s else abandonTurn t s
    | .receiving u => if u.line = l then setFlight t (.receiving (goOn u)) s else abandonTurn t s
    | _ => s
  s.modTrunk t (fun x => { x with state := .running, active := some l, recovery := none, chosen := none })

/-- Lines made READY in one piece of work, A before B; those that stand SHUT change. -/
def readyLines (t : Nat) (ls : List LineId) (s : State) : State :=
  noteTrunk t (fun s =>
    let shut := ls.filter (fun l => ((s.trunk t).line l).shut.isSome)
    let s' := s.modTrunk t (fun x => shut.foldl Trunk.ready x)
    match (s.trunk t).state, shut with
    | .down, l :: _ => resume t l s'
    | _, _ => s') s

/-! ### Link states (R165 to R167) -/

/-- The link state after an accepted reply (R165). -/
def linkAfter (fault : Bool) : LinkState := if fault then .failed else .online

/-- Was the head out of reach? -/
def away (h : Head) : Bool := h.link == .unknown || h.link == .lost

/-- The health part of an accepted reply (R154 step 2, R165, R166). -/
def Head.health (h : Head) (kind : FrameKind) (r : Reply) : Head :=
  let h' := { h with
    link := linkAfter r.fault, missRun := 0, everFailed := h.everFailed || (r.fault && !(h.link == .failed)),
    busyCount := if r.busy then saturate 65535 (h.busyCount + 1) else h.busyCount,
    probeAt := none, probeDue := false }
  if away h || r.service || (kind == .setup && (r.lasterr || r.service)) then h'.reload else h'

/-- Confirmation by the tag echo (R155): LASTERR clear, echo equal to the sent tag, pending, no reload needed. -/
def Head.confirmTag (h : Head) (r : Reply) : Head :=
  let h' := { h with echo := BitVec.ofNat 4 r.tag }
  if !h.needsReload && !r.lasterr && r.tag == h.sentTag.toNat && h.pending then
    { h' with pending := false }.confirm h.sentTag
  else h'

/-- A reply to a SETUP with LASTERR and SERVICE clear ends the need for reload (R154 step 5). It ends that need also where a
generation changed the head's kind, zone or immunity while this SETUP, with the old values, was in flight: R31 lets the next
turn of such a head send SETUP, and whether the old SETUP's reply clears the new need is open (assumption 69). -/
def Head.endReload (h : Head) (kind : FrameKind) (r : Reply) : Head :=
  if kind = .setup ∧ r.lasterr = false ∧ r.service = false then { h with needsReload := false } else h

/-- An accepted reply handed on to its head (R154). -/
def Head.accept (h : Head) (kind : FrameKind) (r : Reply) : Head :=
  let h := { h with ambient := some r.ambient }
  let h := { h.health kind r with busy := r.busy }
  (h.confirmTag r).endReload kind r

/-- Does an accepted reply make its head enter FAILED? -/
def entersFailed (h : Head) (r : Reply) : Bool := r.fault && !(h.link == .failed)

/-- A miss of a head that is not LOST (R166). -/
def Head.miss (h : Head) (now : Time) : Head :=
  let h := { h with missRun := saturate 4 (h.missRun + 1), misses := saturate 65535 (h.misses + 1) }
  if h.missRun = 4 then
    { h with link := .lost, busy := false, everLost := true, probeAt := some (expiryAfter now 2000), probeDue := false }
  else h

/-- A miss handed to the head at key `k` (R166). -/
def missHead (k : Nat) (s : State) : State :=
  match tableFind s.heads k with
  | none => s
  | some h =>
    if h.link = .lost then s
    else
      let s := s.modHead k (fun h => h.miss s.hubTime)
      if h.missRun + 1 < 4 then s else attend 9 s

/-! ### Ends of a turn (R153, R154, R166, R173) -/

/-- A recovery probe drew no accepted reply: its line is SHUT again with cause LOOP, and the timer restarts. -/
def probeFailed (t : Nat) (u : Turn) (s : State) : State :=
  noteTrunk t (fun s => (markShut t u.line .loop s).modTrunk t (fun x => { x with
    recovery := some (expiryAfter s.hubTime (recoveryMs s t)) })) s

/-- A reply missing or not accepted, at the end of a window or of the bad reply: the retry follows, or the turn ends,
with a miss where it is one. A turn ended early is none, also after its retry (R161, R166, assumption 58). -/
def noReply (t : Nat) (u : Turn) (s : State) : State :=
  if !u.second && !u.early then setFlight t (.sending { u with second := true }) s
  else
    let s := setFlight t .gap s
    if u.recovery then probeFailed t u s
    else if u.early || u.noMiss || u.orphan then s
    else missHead (headKey t u.address) s

/-- The CRC-error count of the head served rises, but not in a turn ended early (R153, R161, assumption 58). -/
def countCrcError (t : Nat) (u : Turn) (s : State) : State :=
  if u.early || u.orphan then s
  else s.modHead (headKey t u.address) (fun h => { h with crcErrors := saturate 65535 (h.crcErrors + 1) })

/-- The head's part of an accepted reply, with TRUNK where it enters FAILED. -/
def acceptReply (t : Nat) (u : Turn) (r : Reply) (s : State) : State :=
  if u.orphan then s
  else
    let k := headKey t u.address
    match tableFind s.heads k with
    | none => s
    | some h =>
      let s := s.modHead k (fun h => h.accept u.kind r)
      if entersFailed h r then attend 9 s else s

/-- An accepted reply ends its turn; that of a recovery probe makes its line READY and the trunk RUNNING on it. -/
def replyAccepted (t : Nat) (u : Turn) (r : Reply) (s : State) : State :=
  let s := setFlight t .gap s
  acceptReply t u r (if u.recovery then readyLines t [u.line] s else s)

/-- A reply ends (R153). -/
def replyEnded (t : Nat) (u : Turn) (reply : List Received) (s : State) : State :=
  match judgeReply u.address reply with
  | .accepted r => replyAccepted t u r s
  | .crcFault => noReply t u (countCrcError t u s)
  | .refused => noReply t u s

/-! ### The end of a frame copy (R153, R162, R170) -/

/-- The loop check's result for a line: an error sets LOOPERR and raises the run, a clean copy returns it to 0. -/
def TrunkLine.checked (x : TrunkLine) (bad : Bool) : TrunkLine :=
  if bad then { x with loopErr := true, loopRun := saturate 255 (x.loopRun + 1) } else { x with loopRun := 0 }

/-- What follows a copy that the loop check leaves standing: the reply window, the broadcast's gap, or its end. -/
def afterCopy (u : Turn) : Flight :=
  if u.kind = .override then (if u.second then .gap else .copyGap u) else .window u

/-- A frame copy ends: the loop check, a shut at a run of 3 (not in a recovery probe, R173), and what follows if the
shut does not abandon the turn. -/
def copyEnded (t : Nat) (u : Turn) (echo : List Received) (s : State) : State :=
  let bad := loopError u.kind u.frame echo
  let s := s.modTrunk t (fun x => x.setLine u.line ((x.line u.line).checked bad))
  if bad && !u.recovery && 3 ≤ ((s.trunk t).line u.line).loopRun then
    let s := shutLine t u.line .loop s
    if (s.trunk t).flight = .sending u then setFlight t (afterCopy u) s else s
  else setFlight t (afterCopy u) s

/-! ### The scheduler (R157 to R159) -/

/-- ONLINE or FAILED. -/
def present (h : Head) : Bool := h.link == .online || h.link == .failed

/-- An ONLINE or FAILED DIRTY head that needs no reload and is not busy: in a content class (R157). -/
def wantsContent (h : Head) : Bool := present h && h.differs && !h.needsReload && !h.busy

/-- Is a head with its row in class `n`? (R157) -/
def inClass (n : Nat) (row : HeadRow) (h : Head) : Bool :=
  let lantern := row.kind? == some .lantern
  match n with
  | 2 => present h && h.needsReload
  | 3 => wantsContent h && h.handed == .override
  | 4 => wantsContent h && !(h.handed == .override) && lantern
  | 5 => wantsContent h && !(h.handed == .override) && !lantern
  | 6 => (present h || h.link == .unknown) && h.pollDue
  | 7 => h.link == .lost && h.probeDue
  | _ => false

/-- The keys of a trunk's heads in a class, by address. -/
def classHeads (s : State) (t n : Nat) : List Nat :=
  (trunkHeads s t).filter (fun k => match tableFind s.heads k, s.conf.head k with
    | some h, some row => inClass n row h
    | _, _ => false)

/-- Round robin: the lowest address above the position, else the lowest (R158). -/
def roundRobin (keys : List Nat) (position : Nat) : Option Nat :=
  match keys.find? (fun k => position < keyAddress k) with
  | some k => some k
  | none => keys.head?

/-- The first class from 2 to 7 that holds a head, with the head it serves. -/
def scheduled (s : State) (t : Nat) : Option (Nat × Nat) :=
  [2, 3, 4, 5, 6, 7].findSome? (fun n =>
    (roundRobin (classHeads s t n) (tableGet 0 (s.trunk t).positions n)).map (fun k => (n, k)))

/-- The frame a class sends to a head of a kind. -/
def classFrame (n : Nat) (row : HeadRow) : FrameKind :=
  match n with
  | 2 => .setup
  | 6 => .poll
  | 7 => .probe
  | _ => if row.kind? = some .lantern then .quick else .content

/-- A head at the beginning of a turn that sends it a frame (R143, R146, R151, R153, R159). Every frame pushes the head's poll
back; that a recovery PROBE does so for an UNKNOWN head too, whose poll R159 lets be due until a POLL, is the model's choice
(assumption 70). -/
def Head.begin (h : Head) (kind : FrameKind) (now : Time) (poll : Nat) : Head :=
  let h := { h with lastFrame := some now, pollAt := some (expiryAfter now poll), pollDue := false }
  match kind with
  | .setup => { h with sentTag := 0, pending := false }
  | .poll => h.handLevel
  | .probe =>
    if h.link = .lost then { h with probeAt := some (expiryAfter now 2000), probeDue := false } else h
  | .content => Head.takeSnapshot { h.handLevel with sentTag := h.sentTag + 1, pending := true }
  | .quick => Head.takeSnapshot { h.handLevel with sentTag := h.sentTag + 1, pending := true }
  | .override => h

/-- The frame of a turn to a head, from the head as the beginning left it. -/
def headFrame (s : State) (k : Nat) (row : HeadRow) (h : Head) (kind : FrameKind) : List Byte :=
  let a := keyAddress k
  match kind with
  | .content => contentFrame a (row.kind?.getD .textPanel) h.sentTag h.level h.next h.presented
  | .quick => quickFrame a (quickWord h.next h.level) h.sentTag
  | .setup => setupFrame a row (kindSettings s.conf row).poll
  | .poll => pollFrame a h.level
  | .probe => probeFrame a
  | .override => []

/-- A turn to the head at key `k` begins on a line. -/
def beginHeadTurn (t k : Nat) (kind : FrameKind) (l : LineId) (recovery : Bool) (s : State) : State :=
  match tableFind s.heads k, s.conf.head k with
  | some h, some row =>
    let h := h.begin kind s.hubTime (kindSettings s.conf row).poll
    let u : Turn := { kind := kind, address := keyAddress k, line := l, frame := headFrame s k row h kind,
                      recovery := recovery, speed := (s.conf.trunk t).speed, window := (s.conf.trunk t).window }
    setFlight t (.sending u) (s.modHead k (fun _ => h))
  | _, _ => s

/-- A broadcast turn begins with the oldest request (R162). -/
def beginBroadcast (t : Nat) (r : Request) (rest : List Request) (l : LineId) (s : State) : State :=
  s.modTrunk t (fun x => { x with
    requests := rest,
    flight := .sending { kind := .override, address := 0, line := l, frame := overrideFrame r, request := some r,
                         speed := (s.conf.trunk t).speed, window := (s.conf.trunk t).window } })

/-- May a trunk begin a turn now? (R157) -/
def mayBegin (s : State) (t : Nat) : Bool :=
  s.run && (s.trunk t).state == .running && (s.trunk t).flight == .idle

/-- The scheduler's choice (R157). -/
def beginTurn (t : Nat) (s : State) : State :=
  let x := s.trunk t
  let l := x.active.getD .a
  match x.requests with
  | r :: rest => beginBroadcast t r rest l s
  | [] => match scheduled s t with
    | none => s
    | some (n, k) => match s.conf.head k with
      | none => s
      | some row =>
        beginHeadTurn t k (classFrame n row) l false
          (s.modTrunk t (fun x => { x with positions := tableSet x.positions n (keyAddress k) }))

/-! ### Recovery (R173) -/

/-- The line to try: not ORDERED, the older shut time, A when equal. Shut times are compared by their age modulo 2^32
(assumption 55). -/
def recoveryLine (x : Trunk) (now : Time) : Option LineId :=
  match x.lineA.shut == some .ordered, x.lineB.shut == some .ordered with
  | true, true => none
  | true, false => some .b
  | false, true => some .a
  | false, false => if elapsed x.lineA.shutTime now < elapsed x.lineB.shutTime now then some .b else some .a

/-- The recovery timer expires. -/
def recoveryExpired (t : Nat) (s : State) : State :=
  let s := s.modTrunk t (fun x => { x with recovery := none })
  match recoveryLine (s.trunk t) s.hubTime with
  | none => s
  | some l =>
    if (trunkHeads s t).isEmpty then readyLines t [l] s else s.modTrunk t (fun x => { x with chosen := some l })

/-- The head a recovery probe addresses: an ONLINE or FAILED one, else any, above the previous one's address. -/
def recoveryHead (s : State) (t : Nat) : Option Nat :=
  let keys := trunkHeads s t
  let up := keys.filter (fun k => match tableFind s.heads k with
    | some h => present h
    | none => false)
  roundRobin (if up.isEmpty then keys else up) (s.trunk t).lastProbe

/-- The recovery probe begins on the chosen line; a trunk that has lost its last head since makes the line READY. The poll of
the head it addresses is pushed back, an UNKNOWN one's too (assumption 70). -/
def beginRecovery (t : Nat) (l : LineId) (s : State) : State :=
  let s := s.modTrunk t (fun x => { x with chosen := none })
  match recoveryHead s t with
  | none => readyLines t [l] s
  | some k => beginHeadTurn t k .probe l true (s.modTrunk t (fun x => { x with lastProbe := keyAddress k }))

/-! ### Enabling and disabling (R164, R169) -/

/-- A line as the standing orders give it at an enabling. One that the OFF trunk already shows SHUT with cause ORDERED has
not become SHUT by it and keeps its shut time (assumption 66). -/
def orderedLine (s : State) (t : Nat) (l : LineId) (x : TrunkLine) : TrunkLine :=
  if tableGet false s.orders.lines (2 * t + lineIdCode l) then
    { x with shut := some .ordered, loopRun := 0,
             shutTime := if x.shut = some .ordered then x.shutTime else s.hubTime }
  else { x with shut := none, loopRun := 0 }

/-- A head of a trunk newly enabled (R164): its tags are dropped, and with them what it confirmed (assumption 16). -/
def Head.rejoin (h : Head) : Head :=
  { h with sentTag := 0, pending := false, busy := false, lastFrame := none, pollAt := none, pollDue := true,
           probeAt := none, probeDue := false, link := .unknown, confirmed := none, snapshot := none }.compare

/-- Changes every head of a trunk. -/
def mapTrunkHeads (t : Nat) (f : Head → Head) (s : State) : State :=
  { s with heads := s.heads.map (fun e => (e.1, if keyTrunk e.1 = t then f e.2 else e.2)) }

/-- R169: a trunk is enabled. -/
def enableTrunk (t : Nat) (s : State) : State :=
  let x := s.trunk t
  let a := orderedLine s t .a x.lineA
  let b := orderedLine s t .b x.lineB
  let active : Option LineId := if a.shut = none then some .a else if b.shut = none then some .b else none
  (mapTrunkHeads t Head.rejoin s).setTrunk t
    { state := if active = none then .down else .running, active := active, lineA := a, lineB := b,
      recovery := if active = none then some (expiryAfter s.hubTime (recoveryMs s t)) else none }

/-- A head of a trunk disabled: UNKNOWN, its run of misses 0 and its busy flag clear. -/
def Head.leave (h : Head) : Head :=
  { h with link := .unknown, missRun := 0, busy := false, pollDue := true, probeAt := none, probeDue := false }

/-- R163, R169: a trunk is disabled. A frame being sent is cut by a break; a turn in its reply window, in a reply or between
a broadcast's copies ends in its gap, with no break (assumption 64). The loop error run of each line returns to 0, that of a
line that stood READY too (assumption 65). -/
def disableTrunk (t : Nat) (s : State) : State :=
  let flight : Flight := match (s.trunk t).flight with
    | .idle => .idle
    | .breaking l => .breaking l
    | .sending u => .breaking u.line
    | _ => .gap
  (mapTrunkHeads t Head.leave s).modTrunk t (fun x => { x with
    state := .off, active := none, lineA := { x.lineA with shut := none, loopRun := 0 },
    lineB := { x.lineB with shut := none, loopRun := 0 }, recovery := none, chosen := none, requests := [],
    flight := flight })

/-! ### The watchdog (R171) -/

/-- The driver of line `l` is forced off: a break that still stands on it ends in its gap (assumption 56). -/
def forceOff (l : LineId) (f : Flight) : Flight := if f = .breaking l then .gap else f

/-- A line's watchdog acts: the driver is forced off, the history is set and the line is SHUT; a turn on it is abandoned
with the shut. -/
def watchdogActs (t : Nat) (l : LineId) (s : State) : State :=
  shutLine t l .watchdog (s.modTrunk t (fun x =>
    { x.setLine l { x.line l with watchdog := true } with flight := forceOff l x.flight }))

end Sys2Proof.Machine
end

