-- ==== Sys2Proof/Machine/Override.lean ====
section
/-!
DEFINITION. The Override Unit (08): assertion, line states, effective zone sets, broadcast requests and the side-band
receiver.
-/

namespace Sys2Proof.Machine

/-- Changes an override line. -/
def State.modLine (s : State) (l : Nat) (f : OverrideLine → OverrideLine) : State := s.setLine l (f (s.line l))

/-- The assertion of a line (R123): its pin low, or its test assert raised in the orders copy. -/
def asserted (s : State) (l : Nat) : Bool := (s.line l).pin || (l < 4 && s.orders.tests.getLsbD l)

/-- On time and off time: 20 ms while UNCONFIGURED (R125). -/
def onTime (s : State) (l : Nat) : Nat := if s.configured then (s.conf.line l).onTime else 20
def offTime (s : State) (l : Nat) : Nat := if s.configured then (s.conf.line l).offTime else 20

/-- R124: an assert event. -/
def assertLine (onMs : Nat) (now : Time) (x : OverrideLine) : OverrideLine :=
  match x.state with
  | .idle => { x with state := .pendingOn, expiry := some (expiryAfter now onMs) }
  | .pendingOff => { x with state := .active, expiry := none }
  | _ => x

/-- R124: a deassert event. -/
def deassertLine (offMs : Nat) (now : Time) (x : OverrideLine) : OverrideLine :=
  match x.state with
  | .pendingOn => { x with state := .idle, expiry := none }
  | .active => { x with state := .pendingOff, expiry := some (expiryAfter now offMs) }
  | _ => x

/-- A line's state machine moves; a change of its state sets OVERRIDE (R124). -/
def moveLine (l : Nat) (f : OverrideLine → OverrideLine) (s : State) : State :=
  let x := s.line l
  let s' := s.setLine l (f x)
  if (f x).state = x.state then s' else attend 10 s'

/-- A change of a line's inputs (R123): `f` makes it, and the assert or deassert event follows. -/
def takeInputs (l : Nat) (f : State → State) (s : State) : State :=
  let s' := f s
  match asserted s l, asserted s' l with
  | false, true => moveLine l (assertLine (onTime s' l) s'.hubTime) s'
  | true, false => moveLine l (deassertLine (offTime s' l) s'.hubTime) s'
  | _, _ => s'

/-! ### Effective zone sets (R128) -/

def effectiveZones (s : State) (l : Nat) : BitVec 16 :=
  if !s.configured then 0
  else
    let g := s.conf.line l
    if s.sben ∧ g.sideBand = 1 then
      match (s.line l).word with
      | none => 0
      | some z => z &&& g.permitted
    else g.zones

/-! ### Broadcasts (R131) -/

/-- The zones of the lower-numbered lines that are ACTIVE or PENDING_OFF. -/
def lowerZones (s : State) (l : Nat) : BitVec 16 :=
  (List.range l).foldl (fun z m => if (s.line m).qualifies then z ||| (s.line m).zones else z) 0

/-- Does a trunk have an affected head: one in the broadcast zones that line `l` decides? -/
def affected (s : State) (t l : Nat) (zones : BitVec 16) : Bool :=
  s.conf.heads.any (fun e => keyTrunk e.1 == t && inZone zones e.2.zone && decidingLine s e.2 == some l)

/-- A line in kill mode IMMEDIATE requests a broadcast for an event's zones, less those of lower lines (R131); one in
BOUNDARY requests none (R132). -/
def requestBroadcast (l : Nat) (zones : BitVec 16) (s : State) : State :=
  if s.configured ∧ (s.conf.line l).kill = 0 then
    let z := zones &&& ~~~ lowerZones s l
    if z = 0 then s
    else
      let t := overrideText s.conf l
      let r : Request := { line := l, zones := z, short := t.short, long := t.long }
      ((List.range 16).filter (fun n => affected s n l z)).foldl (fun s n => takeRequest n r s) s
  else s

/-- The debounce timer of a line expires (R124): entry into ACTIVE broadcasts the whole effective zone set. -/
def debounceExpired (l : Nat) (s : State) : State :=
  match (s.line l).state with
  | .pendingOn =>
    requestBroadcast l (s.line l).zones (moveLine l (fun x => { x with state := .active, expiry := none }) s)
  | .pendingOff => moveLine l (fun x => { x with state := .idle, expiry := none }) s
  | _ => s

/-- The effective zone sets are computed again (R128); then every ACTIVE line acts on the zones it gained (R131). Of several
lines that one event gains zones for, the lower requests first, which is the model's choice (assumption 67). -/
def recomputeZones (s : State) : State :=
  let s' := (List.range 4).foldl (fun s l => s.modLine l (fun x => { x with zones := effectiveZones s l })) s
  (List.range 4).foldl (fun a l =>
    let gained := (s'.line l).zones &&& ~~~ (s.line l).zones
    if (s'.line l).state = .active ∧ gained ≠ 0 then requestBroadcast l gained a else a) s'

/-! ### The side-band receiver (R126, R127) -/

/-- A word ends and is judged (R127). -/
def endWord (bits : List Bool) (s : State) : State :=
  match judgeSideBand bits with
  | none => { s with badWords := saturate 65535 (s.badWords + 1) }
  | some (l, z) => recomputeZones (s.modLine l (fun x => { x with word := some z }))

end Sys2Proof.Machine
end

