-- ==== Sys2Proof/Machine/Validation.lean ====
section
/-!
DEFINITION. The checks of a building generation (R20 to R26), in the order in which they are made; the first that fails
names the first offending item (R27).
-/

namespace Sys2Proof.Machine

/-- A check: none when it passes, else its item. -/
def ensure (ok : Bool) (part : ConfigPart) (check : Nat) (entry : Option Nat) : Option Offence :=
  if ok then none else some { part := part, check := BitVec.ofNat 8 check, entry := entry.map (BitVec.ofNat 16) }

/-- The first failure of a run of checks. -/
def firstFailure (l : List (Option Offence)) : Option Offence := l.findSome? id

/-- The first failure of a check over entries 0 to n − 1. -/
def overEntries (n : Nat) (f : Nat → Option Offence) : Option Offence := (List.range n).findSome? f

/-- A number between two bounds, both included. -/
def between (lo hi v : Nat) : Bool := lo ≤ v && v ≤ hi

/-- A label (R21, R22): one or more printable codes in its first places, then code 0. -/
def labelOk (l : List Byte) : Bool :=
  let used := l.takeWhile (fun b => !(b == 0))
  !used.isEmpty && used.all isPrintable && (l.drop used.length).all (fun b => b == 0)

/-- R20. -/
def checkHeader (g : BuildingConfig) : Option Offence :=
  firstFailure [ensure (between 5 100 g.sweepPeriod) .header 1 none, ensure (between 0 63 g.dayCeiling) .header 2 none,
    ensure (between 0 63 g.nightCeiling) .header 3 none, ensure (between 2 192 g.floorCount) .header 4 none]

/-- R21 for landing `i`. -/
def checkFloor (g : BuildingConfig) (i : Nat) : Option Offence :=
  firstFailure [ensure (g.height i ≤ 800000) .floor 5 (some i),
    ensure (i == 0 || g.height (i - 1) < g.height i) .floor 6 (some i),
    ensure (labelOk (g.floor i).label) .floor 7 (some i)]

/-- R22 for car `c`. -/
def checkCar (g : BuildingConfig) (c : Nat) : Option Offence :=
  let r := g.car c
  if r.present = 0 then none
  else firstFailure [ensure (r.present == 1) .car 8 (some c), ensure (labelOk r.label) .car 7 (some c),
    ensure (between 1 2 r.deckCount) .car 9 (some c),
    ensure (r.deckCount == 1 || between 2000 8000 r.spacing) .car 10 (some c),
    ensure (between 300 1500 r.deceleration) .car 11 (some c), ensure (between 0 1000 r.reaction) .car 12 (some c),
    ensure (between 500 12000 r.vmax) .car 13 (some c)]

/-- A landing that exists, and a car that is present. -/
def landingExists (g : BuildingConfig) (l : Nat) : Bool := l < g.floorCount
def carExists (g : BuildingConfig) (c : Nat) : Bool := c < 64 && (g.car c).present == 1

/-- A failure of a head's row: the head as trunk × 256 + address. -/
def ensureHead (ok : Bool) (k check : Nat) : Option Offence :=
  ensure ok .head check (some (256 * keyTrunk k + keyAddress k))

/-- The binding checks of a row by field. -/
def bindLanding (g : BuildingConfig) (k : Nat) (r : HeadRow) : Option Offence :=
  ensureHead (landingExists g r.landing) k 18
def bindCar (g : BuildingConfig) (k : Nat) (r : HeadRow) : Option Offence := ensureHead (carExists g r.car) k 19
def bindDeck (g : BuildingConfig) (k : Nat) (r : HeadRow) : Option Offence :=
  ensureHead (r.deck < (g.car r.car).deckCount) k 20
def bindOwner (k : Nat) (r : HeadRow) : Option Offence := ensureHead (r.owner < 8) k 21

/-- Exactly one of landing and car; which of the two fields a failure names is open (assumption 21). -/
def bindText (g : BuildingConfig) (k : Nat) (r : HeadRow) : Option Offence :=
  match r.landing == 255, r.car == 255 with
  | false, true => bindLanding g k r
  | true, false => bindCar g k r
  | _, _ => some { part := .head, check := Config.textPanelBindingCheck r.landing r.car,
                   entry := some (BitVec.ofNat 16 (256 * keyTrunk k + keyAddress k)) }

/-- The binding of a row by its kind (R23). -/
def checkBinding (g : BuildingConfig) (k : Nat) (r : HeadRow) : HeadKind → Option Offence
  | .positionIndicator => firstFailure [bindCar g k r, bindDeck g k r, bindLanding g k r]
  | .lantern => firstFailure [bindLanding g k r, bindCar g k r, bindDeck g k r]
  | .landingDestination => firstFailure [bindLanding g k r, bindCar g k r, bindDeck g k r]
  | .kioskPrompt => firstFailure [bindLanding g k r, bindOwner k r]
  | .carPanel => firstFailure [bindCar g k r, bindDeck g k r]
  | .textPanel => firstFailure [bindOwner k r, bindText g k r]

/-- R23 for a row that holds a head. -/
def checkHead (g : BuildingConfig) (k : Nat) (r : HeadRow) : Option Offence :=
  match r.kind? with
  | none => ensureHead false k 14
  | some kind => firstFailure [ensureHead (r.zone < 16) k 15, ensureHead (r.immunity.toNat < 16) k 16,
      ensureHead (r.layerMask.toNat < 16) k 17, checkBinding g k r kind]

/-- R24 for tenant `t`. -/
def checkGrant (g : BuildingConfig) (t : Nat) : Option Offence :=
  let r := g.grant t
  firstFailure [ensure (r.landings >>> g.floorCount == 0) .grant 22 (some t),
    ensure ((List.range 64).all (fun c => !r.cars.getLsbD c || carExists g c)) .grant 23 (some t),
    ensure (r.quota ≤ 384) .grant 24 (some t)]

/-- The tenants that a car is granted to. -/
def grantees (g : BuildingConfig) (c : Nat) : List Nat := (List.range 8).filter (fun t => grantsCar g t c)

/-- One tenant per car (R24); how one entry field names the car and the second tenant is open (assumption 20). -/
def checkOneTenant (g : BuildingConfig) (c : Nat) : Option Offence :=
  match grantees g c with
  | _ :: t :: _ => some { part := .grant, check := 25, entry := some (Config.carAndTenantEntry c t) }
  | _ => none

/-- The sum of the board quotas (R24). -/
def quotaSum (g : BuildingConfig) : Nat := ((List.range 8).map (fun t => (g.grant t).quota)).sum

/-- R25 for trunk `t` and for head kind `i + 1`. -/
def checkTrunk (g : BuildingConfig) (t : Nat) : Option Offence :=
  let r := g.trunk t
  firstFailure [ensure (between 0 1 r.enabled) .trunk 27 (some t), ensure (between 0 2 r.speed) .trunk 28 (some t),
    ensure (between 0 3 r.window) .trunk 29 (some t), ensure (between 0 60 r.recovery) .trunk 30 (some t)]

def checkKind (g : BuildingConfig) (i : Nat) : Option Offence :=
  let r := g.kinds.getD i {}
  firstFailure [ensure (between 100 2000 r.poll) .kind 31 (some (i + 1)),
    ensure (-63 ≤ r.offset && r.offset ≤ 63) .kind 32 (some (i + 1)),
    ensure (between 0 255 r.gain) .kind 33 (some (i + 1)), ensure (between 0 63 r.lmin) .kind 34 (some (i + 1)),
    ensure (between r.lmin 63 r.lmax) .kind 35 (some (i + 1))]

/-- R26 for Restriction List entry `i`, override line `l` and Override Text `i`. -/
def checkRestriction (g : BuildingConfig) (i : Nat) : Option Offence :=
  let r := g.restrictions.getD i {}
  if r.landing = 255 then none
  else firstFailure [ensure (landingExists g r.landing) .restriction 18 (some i),
    ensure (r.mode == 1) .restriction 36 (some i)]

def checkLine (g : BuildingConfig) (l : Nat) : Option Offence :=
  let r := g.line l
  firstFailure [ensure (between 0 1 r.sideBand) .overrideLine 37 (some l),
    ensure (between 0 15 r.text) .overrideLine 38 (some l), ensure (between 0 1 r.kill) .overrideLine 39 (some l),
    ensure (between 20 2000 r.onTime) .overrideLine 40 (some l),
    ensure (between 20 2000 r.offTime) .overrideLine 41 (some l)]

/-- A place of an Override Text: printable or a glyph. -/
def isDisplayable (b : Byte) : Bool := isPrintable b || isGlyph b

def checkText (g : BuildingConfig) (i : Nat) : Option Offence :=
  firstFailure [ensure ((g.text i).long.all isDisplayable) .overrideText 42 (some i),
    ensure ((g.text i).short.all isDisplayable) .overrideText 43 (some i)]

/-- R20 to R26 in their order: the first offending item of a generation, none when it passes. Of several cars granted
twice the lowest is the first offending item (assumption 46). -/
def validate (g : BuildingConfig) : Option Offence :=
  firstFailure [checkHeader g, overEntries g.floorCount (checkFloor g), overEntries 64 (checkCar g),
    g.heads.findSome? (fun e => checkHead g e.1 e.2), overEntries 8 (checkGrant g), overEntries 64 (checkOneTenant g),
    ensure (quotaSum g ≤ 384) .grant 26 none, overEntries 16 (checkTrunk g), overEntries 6 (checkKind g),
    overEntries 64 (checkRestriction g), overEntries 4 (checkLine g), overEntries 16 (checkText g)]

end Sys2Proof.Machine
end

