-- ==== Sys2Proof/Machine/Tenants.lean ====
section
/-!
DEFINITION. What the sweeps hand to the Resolution Unit (03): the Tenant Header, enabling, disabling and restart, the
mark-set request, the Tenant Map and its faults; and the seen stamps and sweeps of an area (01).
-/

namespace Sys2Proof.Machine

/-! ### Sweeps of an area (R8 to R11) -/

def State.areaSweep (s : State) : Area → AreaSweep
  | .building => s.sweep
  | .tenant t => (s.tenant t.val).sweep

def State.setAreaSweep (s : State) (a : Area) (x : AreaSweep) : State :=
  match a with
  | .building => { s with sweep := x }
  | .tenant t => s.modTenant t.val (fun ten => { ten with sweep := x })

/-- Is an area swept while RUN is 1? The tenant areas only while CONFIGURED (R9). -/
def admitted (s : State) : Area → Bool
  | .building => true
  | .tenant _ => s.configured

/-- The first record of a sweep: while a validation is in flight a building sweep goes straight to the Building Orders
(R16). -/
def firstRecord (s : State) : Area → Nat
  | .building => if s.config.validating.isSome then 1 else 0
  | .tenant _ => 0

/-- The number past an area's last record. -/
def lastRecord : Area → Nat
  | .building => 2
  | .tenant _ => 90

/-- A sweep begins: the flag is clear and the timer's new expiry is the start time plus P (R9). -/
def beginSweep (a : Area) (s : State) : State :=
  s.setAreaSweep a { timer := some (expiryAfter s.hubTime (sweepPeriod s)), nudge := false,
                     next := some (firstRecord s a) }

/-- An expiry or a nudge reaches an area (R9's table): a sweep begins, or the flag is set. -/
def sweepEvent (a : Area) (s : State) : State :=
  let x := s.areaSweep a
  if x.next.isSome then s.setAreaSweep a { x with nudge := true } else beginSweep a s

/-- The areas in order. -/
def allAreas : List Area :=
  .building :: (List.finRange 8).map Area.tenant

/-- An area starts as when RUN becomes 1 (R11): a sweep of it begins. A sweep still in flight from before goes on, and
the new one follows it at once (assumption 6). -/
def startArea (a : Area) (s : State) : State := sweepEvent a s

/-- RUN becomes 0: the timer stops and the flag is cleared; a sweep in flight goes on (R11). -/
def stopArea (a : Area) (s : State) : State :=
  s.setAreaSweep a { s.areaSweep a with timer := none, nudge := false }

/-- A sweep goes on to record `n`. -/
def nextRecord (a : Area) (n : Nat) (s : State) : State := s.setAreaSweep a { s.areaSweep a with next := some n }

/-- Is the record numbered `n` the one that the area's sweep in flight reads next? -/
def atRecord (s : State) (a : Area) (n : Nat) : Bool := (s.areaSweep a).next == some n

/-- A torn record (R7). -/
def countTorn (a : Area) (s : State) : State :=
  match a with
  | .building => { s with torn := saturate 65535 (s.torn + 1) }
  | .tenant t => s.modTenant t.val (fun ten => { ten with torn := saturate 65535 (ten.torn + 1) })

/-- Every seen stamp of a tenant area is "none accepted", except the slots' (R7, R8, R38). -/
def forgetSeen (t : Nat) (s : State) : State :=
  s.modTenant t (fun ten => { ten with headerSeen := none, mapSeen := none, reportSeen := [], controlSeen := [] })

/-! ### Disabling and restart (R38, R39) -/

/-- What the units do at a disabling and, first, at a restart: slots retired, programs IDLE, the map's cars ACQUIRING
with marks clear, the map discarded, the fault counters and the restart baseline dropped. -/
def takeDown (t : Nat) (s : State) : State :=
  let cars := usableCars (s.tenant t)
  let s := emptyTenantLayers t cars (idlePrograms t (retireTenant t s))
  let s := cars.foldl (fun s c => toAcquiring true c s) s
  clearFaultCounts t (s.modTenant t (fun ten => { ten with map := none, rangeCount := 0, grantCount := 0 }))

/-- DISABLED to ACTIVE. -/
def enableTenant (t : Nat) (s : State) : State :=
  forgetSeen t (s.modTenant t (fun ten => { ten with active := true, restartBase := none, markBase := none }))

/-- ACTIVE to DISABLED. -/
def disableTenant (t : Nat) (s : State) : State :=
  forgetSeen t ((takeDown t s).modTenant t (fun ten => { ten with
    active := false, restartBase := none, markBase := none }))

/-- A tenant restart (R39); the baseline takes the header's value. -/
def restartTenant (t : Nat) (stamp : Stamp) (s : State) : State :=
  forgetSeen t ((takeDown t s).modTenant t (fun ten => { ten with restartBase := some stamp }))

/-! ### The Tenant Header (R37) -/

/-- Step 1: the enable flag (R38). -/
def headerEnable (t : Nat) (h : HeaderRecord) (s : State) : State :=
  let active := (s.tenant t).active
  if h.enable = 0 then (if active then disableTenant t s else s) else (if active then s else enableTenant t s)

/-- Did an option change that a position layer presents? -/
def presentationChanged (a b : Options) : Bool :=
  !(a.park == b.park && a.parkText == b.parkText && a.oosText == b.oosText)

/-- Step 2: the options (R40); changed park or out-of-service options write the position layers of the tenant's cars
anew (R41). -/
def headerOptions (t : Nat) (h : HeaderRecord) (s : State) : State :=
  let o := effectiveOptions h
  let before := (s.tenant t).options
  let s := s.modTenant t (fun ten => { ten with options := o })
  if presentationChanged before o then
    ((List.range 64).filter (grantsCar s.conf t)).foldl (fun s c => s.modCar c (fun car => car.mapDecks Deck.rewrite)) s
  else s

/-- Step 3: the restart stamp (R39). -/
def headerRestart (t : Nat) (h : HeaderRecord) (s : State) : State :=
  match (s.tenant t).restartBase with
  | none => s.modTenant t (fun ten => { ten with restartBase := some h.restart })
  | some b => if h.restart = b then s else restartTenant t h.restart s

/-- The mark of a request whose stamp changed (R42). The car is resolved first: one that fails raises its fault whatever the
mark code is (assumption 57). -/
def setRequestedMark (t : Nat) (h : HeaderRecord) (s : State) : State :=
  match resolveCar (s.tenant t) h.markCar with
  | .error f => raiseFailure t .header none none h.markCar f s
  | .ok c => match markOf h.markMark with
    | some m => setMark c m s
    | none => s

/-- Step 4: the mark-set request (R42). -/
def headerMark (t : Nat) (h : HeaderRecord) (s : State) : State :=
  let base := (s.tenant t).markBase
  let s := s.modTenant t (fun ten => { ten with markBase := some h.markStamp })
  match base with
  | none => s
  | some b => if h.markStamp = b then s else setRequestedMark t h s

/-- R37: an accepted Tenant Header. Steps 3 and 4 act while the tenant is ACTIVE at the end of step 1. -/
def handHeader (t : Nat) (stamp : Stamp) (h : HeaderRecord) (s : State) : State :=
  let s := s.modTenant t (fun ten => { ten with headerStamp := some stamp })
  let s := headerOptions t h (headerEnable t h s)
  if (s.tenant t).active then headerMark t h (headerRestart t h s) else s

/-! ### The Tenant Map (R44 to R48) -/

/-- The fault of a map's first failing entry, with the count of its kind (R47). -/
def mapFault (t : Nat) (m : ResolvedMap) (failures : List (Nat × Nat × Standing)) (s : State) : State :=
  match failures with
  | [] => s
  | (table, i, st) :: _ =>
    let cause := match st with
      | .badGrant c => c
      | _ => Cause.entryRange
    raise { tenant := some t, cause := cause, source := .map, indexA := some table, indexB := none, logical := i,
            building := if classCode cause = 2 then some (m.buildingValue table i) else none,
            count := some failures.length } s

/-- A resolved copy comes in force with its counts, and its MAP fault and then its GRANT fault are raised (R44, R47). -/
def installMap (t : Nat) (m : ResolvedMap) (s : State) : State :=
  let s := s.modTenant t (fun ten => { ten with
    map := some m, rangeCount := m.rangeFailures.length, grantCount := m.grantFailures.length })
  mapFault t m m.grantFailures (mapFault t m m.rangeFailures s)

/-- R44: an accepted map. -/
def handMap (t : Nat) (stamp : Stamp) (b : TenantMap) (s : State) : State :=
  attend t (installMap t (resolveMap s.conf t stamp b) s)

/-- R48: a map checked again against the configuration in force (the tenants' order: assumption 47). -/
def recheckMap (s : State) (t : Nat) : State :=
  if !(s.tenant t).active then s
  else match (s.tenant t).map with
    | none => s
    | some m => installMap t (resolveMap s.conf t m.stamp m.body) s

end Sys2Proof.Machine
end

