-- ==== Sys2Proof/Machine/Configuration.lean ====
section
/-!
DEFINITION. The Configuration Unit (02): handing over, locked refusal, refusal, putting in force with its effects on
every unit, and the Building Orders.
-/

namespace Sys2Proof.Machine

/-! ### Hand-over and lock (R17, R18) -/

/-- HOLD or FIXED. -/
def locked (s : State) : Bool := s.hold || s.fixed

/-- R18: a generation refused for the lock. -/
def refuseLocked (stamp : Stamp) (seenBefore : Option Stamp) (s : State) : State :=
  let s := { s with configSeen := seenBefore }
  if s.config.lockedStamp = some stamp then s
  else
    attend 11 (raise { tenant := none, cause := .lockedChange, source := .configuration, indexA := none, indexB := none,
                       logical := stamp.toNat, building := none, count := none }
      { s with config := { s.config with lockedStamp := some stamp } })

/-- R17: a handed generation. -/
def handConfiguration (stamp : Stamp) (body : BuildingConfig) (seenBefore : Option Stamp) (s : State) : State :=
  if s.configured ∧ s.config.accepted = some stamp then s
  else if locked s then refuseLocked stamp seenBefore s
  else { s with config := { s.config with
    validating := some { stamp := stamp, body := body, seenBefore := seenBefore } } }

/-- R27: a generation refused as failing. -/
def refuseFailing (stamp : Stamp) (o : Offence) (s : State) : State :=
  raise { tenant := none, cause := .configRefused, source := .configuration, indexA := some (partCode o.part),
          indexB := o.entry.map (·.toNat), logical := stamp.toNat, building := none, count := none }
    { s with config := { s.config with refused := some (stamp, o) } }

/-! ### Differences of two generations (R29 to R31) -/

/-- Has the Floor Table's geometry changed? Every part counts as changed from UNCONFIGURED (R29). -/
def geometryChanged (old : Option BuildingConfig) (g : BuildingConfig) : Bool :=
  match old with
  | none => true
  | some o => !(o.floorCount == g.floorCount) || (List.range g.floorCount).any (fun i => !(o.height i == g.height i))

/-- Has a car's deck count or deck spacing changed (R29)? A car not present in a generation has neither (R22): one newly
present counts as changed, and one no longer present does not (assumption 17). -/
def deckChanged (old : Option BuildingConfig) (g : BuildingConfig) (c : Nat) : Bool :=
  match old with
  | none => false
  | some o =>
    (g.car c).present == 1 &&
    (!((o.car c).present == 1) || !((o.car c).deckCount == (g.car c).deckCount) ||
      !((o.car c).spacing == (g.car c).spacing))

/-- A live slot's one outcome at an acceptance (R29, R30): RECONFIGURED if any cause of it applies, else REVOKED. -/
def slotCause (old : Option BuildingConfig) (g : BuildingConfig) (overQuota : List Nat) (t : Nat) (x : Slot) :
    Option Outcome :=
  if !x.live then none
  else match x.car with
    | none => none
    | some c =>
      if geometryChanged old g || deckChanged old g c || (x.state == .taken && overQuota.contains t)
      then some .reconfigured
      else if grantsCar g t c then none else some .revoked

/-- The tenants that hold more board entries than their new quotas (R30). -/
def overQuota (s : State) (g : BuildingConfig) : List Nat :=
  (List.range 8).filter (fun t => (g.grant t).quota < chargedEntries s t)

/-- The retirements of an acceptance, each slot once. -/
def retireAtAcceptance (old : Option BuildingConfig) (g : BuildingConfig) (s : State) : State :=
  let excess := overQuota s g
  let due := (allSlots s).filterMap (fun ti => (slotCause old g excess ti.1 (s.slot ti.1 ti.2)).map (fun o => (ti, o)))
  let s := due.foldl (fun s e => retire e.1.1 e.1.2 e.2 none s) s
  boardEmpty (fun e => excess.contains e.tenant) s

/-- R29: the disturbance of a geometry change, and of the cars whose decks changed. -/
def disturbCars (old : Option BuildingConfig) (g : BuildingConfig) (s : State) : State :=
  if geometryChanged old g then
    let s := { s with board := [], aboard := [], heads := s.heads.map (fun e => (e.1, { e.2 with prompts := [] })) }
    (List.range 64).foldl (fun s c => toAcquiring false c s) s
  else
    ((List.range 64).filter (deckChanged old g)).foldl
      (fun s c => toAcquiring false c (emptyAboard c (boardEmpty (fun e => e.car == c) s))) s

/-- R104: the announcements of a car no longer granted to the tenant that last applied a report to it. -/
def darkenRevoked (g : BuildingConfig) (s : State) : State :=
  ((List.range 64).filter (fun c => match (s.car c).tenant with
    | some t => !grantsCar g t c
    | none => false)).foldl (fun s c => darkenCar c s) s

/-- A label change rewrites what the TRACKING decks present (R29, R65). -/
def relabelDeck (g : BuildingConfig) (d : Deck) : Deck :=
  if d.mode = .none ∨ d.mode = .outOfService then d else { d with lastShown := sourcePlaces g d.shown }

def relabel (g : BuildingConfig) (s : State) : State :=
  { s with cars := s.cars.map (fun e => (e.1,
      if e.2.tracking = .tracking then e.2.mapDecks (relabelDeck g) else e.2)) }

/-! ### Heads and trunks (R31) -/

/-- A head added to the Head Table (R148, R164, R168): its next content is the blank of its kind, and it is DIRTY. -/
def newHead (row : HeadRow) : Head :=
  let h : Head := { next := match row.kind? with
    | some k => nextContent k row {} .idle
    | none => .lantern false .none false 0 }
  h.compare

/-- Did a field change that needs a reload? -/
def reloadChanged (a b : HeadRow) : Bool := !(a.kind == b.kind && a.zone == b.zone && a.immunity == b.immunity)

/-- The binding of a row: landing, car, deck and owner, each only where the row's kind uses it (R23). -/
def usedBinding (r : HeadRow) : List Nat :=
  match r.kind? with
  | some .positionIndicator | some .lantern | some .landingDestination => [r.landing, r.car, r.deck]
  | some .kioskPrompt => [r.landing, r.owner]
  | some .carPanel => [r.car, r.deck]
  | some .textPanel => [r.landing, r.car, r.owner]
  | none => []

/-- Did a field change that empties every layer? A kind change counts as a binding change (R138), and a field that the
kind does not use has no effect (R23). -/
def bindingChanged (a b : HeadRow) : Bool :=
  !(a.kind == b.kind && usedBinding a == usedBinding b && a.layerMask == b.layerMask)

/-- A head whose row stays, under the old and the new generation. Its layers are written again when the event ends; a
layer emptied here is written anew. A Prompt List goes with its tenant or its kind. A reload is reported here, before the
layers are written again: its comparison hands the layer presented until then (assumption 61). A SETUP in flight stays as
it is, and its clean reply will end the need for reload set here (assumption 69). -/
def keepHead (o g : BuildingConfig) (a b : HeadRow) (h : Head) : Head :=
  let moved := !(headTenant o a == headTenant g b)
  let h := if bindingChanged a b || moved then h.emptyLayers .empty none else h
  let h := if moved || !(a.kind == b.kind) then { h with prompts := [] } else h
  if reloadChanged a b then h.reload else h

/-- The record of the head at key `k` after an acceptance, none when its row is NONE. -/
def headAfter (old : Option BuildingConfig) (g : BuildingConfig) (s : State) (k : Nat) (row : HeadRow) : Head :=
  match old, old.bind (fun o => o.head k), tableFind s.heads k with
  | some o, some a, some h => keepHead o g a row h
  | _, _, _ => newHead row

/-- A turn in flight whose head's row is now NONE runs to its end with nothing handed for the head (R163). -/
def orphanTurn (u : Turn) : Turn := { u with orphan := true }

def orphanFlight : Flight → Flight
  | .sending u => .sending (orphanTurn u)
  | .window u => .window (orphanTurn u)
  | .receiving u => .receiving (orphanTurn u)
  | f => f

/-- Is a trunk's turn in flight serving a head with no row now? -/
def servesRemoved (g : BuildingConfig) (s : State) (t : Nat) : Bool :=
  match (s.trunk t).flight.turn? with
  | some u => !(u.kind == .override) && (g.head (headKey t u.address)).isNone
  | none => false

/-- The Head Table of the new generation takes effect (R31). -/
def changeHeads (old : Option BuildingConfig) (g : BuildingConfig) (s : State) : State :=
  let s := ((List.range 16).filter (servesRemoved g s)).foldl
    (fun s t => s.modTrunk t (fun x => { x with flight := orphanFlight x.flight })) s
  { s with heads := g.heads.map (fun e => (e.1, headAfter old g s e.1 e.2)) }

/-- Was a trunk enabled? -/
def wasEnabled (old : Option BuildingConfig) (t : Nat) : Bool :=
  match old with
  | none => false
  | some o => (o.trunk t).enabled == 1

/-- Trunks enabled and disabled by the new generation (R31, R169). -/
def changeTrunk (old : Option BuildingConfig) (g : BuildingConfig) (s : State) (t : Nat) : State :=
  match wasEnabled old t, (g.trunk t).enabled == 1 with
  | false, true => noteTrunk t (enableTrunk t) s
  | true, false => noteTrunk t (disableTrunk t) s
  | _, _ => s

/-! ### Putting in force (R28) -/

/-- A generation that passed every check is put in force. Trunks are enabled before the zones are recomputed, so a trunk
that the generation enables takes the broadcast request of a line that gains zones by it (assumption 48). The maps are
checked again in the order of their tenants, which orders the Supervisor Fault List's entries (assumption 47). -/
def putInForce (stamp : Stamp) (g : BuildingConfig) (s : State) : State :=
  let old := s.config.inForce
  let s := attend 8 { s with config := { s.config with inForce := some g, accepted := some stamp, lockedStamp := none } }
  let s := darkenRevoked g (disturbCars old g (retireAtAcceptance old g s))
  let s := changeHeads old g (relabel g s)
  let s := (List.range 16).foldl (changeTrunk old g) s
  let s := recomputeZones ((List.range 8).foldl recheckMap s)
  if old.isNone ∧ s.run then (List.finRange 8).foldl (fun s t => startArea (.tenant t) s) s else s

/-- Validation completes (R19, R27, R28). -/
def completeValidation (v : Validation) (s : State) : State :=
  let s := { s with config := { s.config with validating := none } }
  match validate v.body with
  | some o => refuseFailing v.stamp o s
  | none => if locked s then refuseLocked v.stamp v.seenBefore s else putInForce v.stamp v.body s

/-! ### Building Orders (R33, R34) -/

/-- The line of order number `n`: trunk n / 2, line A when even. -/
def orderTrunk (n : Nat) : Nat := n / 2
def orderLine (n : Nat) : LineId := if n % 2 = 0 then .a else .b

/-- The line orders that change, as (number, SHUT); an unknown code changes nothing (R33). -/
def changedLines (s : State) (r : OrdersRecord) : List (Nat × Bool) :=
  (List.range 32).filterMap (fun n =>
    let now := tableGet false s.orders.lines n
    match r.lines.getD n 2 with
    | 0 => if now then some (n, false) else none
    | 1 => if now then none else some (n, true)
    | _ => none)

/-- The changed line orders enter the copy, and every SHUT among them takes effect (R34). -/
def orderShuts (changed : List (Nat × Bool)) (s : State) : State :=
  let s := { s with orders := { s.orders with
    lines := changed.foldl (fun tbl e => tableSet tbl e.1 e.2) s.orders.lines } }
  (changed.filter (·.2)).foldl (fun s e => shutLine (orderTrunk e.1) (orderLine e.1) .ordered s) s

/-- The lines of trunk `t` that an Orders record makes READY (R34): one SHUT with cause ORDERED by a RUN order that
changed, one SHUT with cause LOOP or WATCHDOG by a restore stamp that acts. -/
def readiedLines (s : State) (changed : List (Nat × Bool)) (restores : Bool) (t : Nat) : List LineId :=
  [LineId.a, LineId.b].filter (fun l => match ((s.trunk t).line l).shut with
    | none => false
    | some .ordered => changed.contains (2 * t + lineIdCode l, false)
    | some .loop => restores
    | some .watchdog => restores)

/-- Does a one-time stamp act: a baseline is present and differs from it? (R33) -/
def stampActs (base : Option Stamp) (stamp : Stamp) : Bool := base.isSome && !(base == some stamp)

/-- Trunk `t`'s RUN orders and its restore stamp, whose baseline takes the stamp: both lines become READY in one piece of
work (R34, R172). -/
def orderReady (r : OrdersRecord) (changed : List (Nat × Bool)) (s : State) (t : Nat) : State :=
  let stamp := r.restore.getD t 0
  let acts := stampActs (tableGet none s.orders.restore t) stamp
  readyLines t (readiedLines s changed acts t)
    { s with orders := { s.orders with restore := tableSet s.orders.restore t (some stamp) } }

/-- The test asserts take effect, line by line (R123). -/
def orderTests (r : OrdersRecord) (s : State) : State :=
  (List.range 4).foldl (fun s l =>
    if s.orders.tests.getLsbD l = r.tests.getLsbD l then s
    else takeInputs l (fun s => { s with orders := { s.orders with
      tests := s.orders.tests ^^^ BitVec.ofNat 4 (2 ^ l) } }) s) s

/-- Every head and line history is cleared (R34). -/
def clearHistories (s : State) : State :=
  let quiet (x : TrunkLine) : TrunkLine := { x with loopErr := false, watchdog := false }
  { s with heads := s.heads.map (fun e => (e.1, { e.2 with everLost := false, everFailed := false })),
           trunks := s.trunks.map (fun e => (e.1, { e.2 with lineA := quiet e.2.lineA, lineB := quiet e.2.lineB })) }

/-- The history-clear stamp (R33, R34). -/
def orderHistory (r : OrdersRecord) (s : State) : State :=
  let acts := stampActs s.orders.historyClear r.historyClear
  let s := { s with orders := { s.orders with historyClear := some r.historyClear } }
  if acts then clearHistories s else s

/-- R33: an accepted Orders record (its orders' order: assumption 18). -/
def handOrders (stamp : Stamp) (r : OrdersRecord) (s : State) : State :=
  let changed := changedLines s r
  let s := { s with orders := { s.orders with night := !(r.night == 0), stamp := some stamp } }
  let s := (List.range 16).foldl (orderReady r changed) (orderShuts changed s)
  let s := orderTests r s
  orderHistory r { s with orders := { s.orders with closed := r.closed } }

end Sys2Proof.Machine
end

