-- ==== Sys2Proof/Machine/Resets.lean ====
section
/-!
DEFINITION. The states that the resets leave (R3, R15 with its table, R134, R164, R148): shared by the reset commands.
-/

namespace Sys2Proof.Machine

/-- Is the shared RAM open to the port? (R3, R15) -/
def ramOpen (s : State) : Bool := s.phase == .ready || s.phase == .portReset

/-- The state in reset with what no reset touches: the shared RAM, the pins, the word last read and the commands that
wait. -/
def heldState (s : State) : State :=
  { State.reset with ram := s.ram, ovrLow := s.ovrLow, sben := s.sben, sbfr := s.sbfr, readData := s.readData,
                     pending := s.pending }

/-- An override line at a reset's completion (R134): IDLE with the zones of R128, and PENDING_ON at once where its pin
is low, with no attention. -/
def resetLine (s : State) (l : Nat) : OverrideLine :=
  let low := s.ovrLow.getLsbD l
  let x : OverrideLine := { pin := low, zones := effectiveZones s l }
  if low then assertLine (onTime s l) s.hubTime x else x

/-- The four lines at a reset's completion. -/
def resetLines (s : State) : State :=
  { s with lines := (List.range 4).map (fun l => (l, resetLine { s with lines := [] } l)) }

/-- A fault list after a port reset: counters 0, entries as they stand (R55). -/
def FaultList.restart (l : FaultList) : FaultList := { l with sequence := 0, dropped := 0 }

/-- A slot at a port reset: TAKEN and BOARDED become RETIRED with outcome RESET, and no timer runs (R97). -/
def resetSlot (x : Slot) : Slot :=
  if x.live then { x with state := .retired, outcome := some .reset, reason := none, limit := none }
  else { x with limit := none }

/-- A tenant at a port reset: DISABLED, with only its slots and its fault entries kept. -/
def resetTenant (x : Tenant) : Tenant :=
  { faults := x.faults.restart, slots := x.slots.map (fun e => (e.1, resetSlot e.2)) }

/-- The Configuration Unit at a port reset: the configuration kept if FIXED is 1, else discarded (R36). -/
def resetConfig (s : State) : ConfigUnit :=
  if s.fixed then { inForce := s.config.inForce, accepted := s.config.accepted } else {}

/-- Every record of the Head Table in force rebuilt (R148, R164). -/
def rebuildHeads (s : State) : State := { s with heads := s.conf.heads.map (fun e => (e.1, newHead e.2)) }

/-- The trunks that the kept configuration enables (R169). -/
def rebuildTrunks (s : State) : State :=
  ((List.range 16).filter (fun t => (s.conf.trunk t).enabled == 1)).foldl (fun s t => enableTrunk t s) s

/-- The state at port reset completion before the published writes (R15 steps 1 to 3). -/
def resetUnits (s : State) : State :=
  let s : State :=
    { s with phase := .ready, run := false, attention := 0, mask := 0, hold := false, hubTime := 0, word := none,
             badWords := 0, sweep := {}, configSeen := none, ordersSeen := none, torn := 0, config := resetConfig s,
             orders := {}, faults := s.faults.restart, tenants := s.tenants.map (fun e => (e.1, resetTenant e.2)),
             cars := [], board := [], boardCreated := 0, aboard := [], lines := [], heads := [], trunks := [] }
  settleHeads (rebuildTrunks (rebuildHeads (resetLines s)))

/-- A sweep abandoned: no timer, no flag, no record to come. -/
def dropSweep : AreaSweep := {}

/-- Every timer of a slot, program, car, line, head or trunk cancelled, and every turn cut (R15). -/
def cancelSlot (x : Slot) : Slot := { x with limit := none }
def cancelProgram (x : Program) : Program := { x with expiry := none }
def cancelTenant (x : Tenant) : Tenant :=
  { x with sweep := dropSweep, slots := x.slots.map (fun e => (e.1, cancelSlot e.2)),
           programs := x.programs.map (fun e => (e.1, cancelProgram e.2)) }
def cancelHead (h : Head) : Head :=
  { h with pollAt := none, probeAt := none, prompts := h.prompts.map (fun p => { p with expiry := none }) }
def cancelTrunk (x : Trunk) : Trunk := { x with recovery := none, chosen := none, requests := [], flight := .idle }

/-- What a port reset does at the write (R15). -/
def beginPortReset (s : State) : State :=
  { s with phase := .portReset, run := false, attention := 0, mask := 0, hold := false, sweep := dropSweep, word := none,
           config := { s.config with validating := none },
           tenants := s.tenants.map (fun e => (e.1, cancelTenant e.2)),
           cars := s.cars.map (fun e => (e.1, { e.2 with freshness := none })),
           lines := s.lines.map (fun e => (e.1, { e.2 with expiry := none })),
           heads := s.heads.map (fun e => (e.1, cancelHead e.2)),
           trunks := s.trunks.map (fun e => (e.1, cancelTrunk e.2)) }

/-- Every hub-owned record but the slots and the fault entries. -/
def resetRecords : List RecordId := buildingRecords ++ (List.range 8).flatMap tenantRecords

/-- The slots whose hub half changed from `s` to `s'`. -/
def changedSlots (s s' : State) : List RecordId :=
  (((List.range 8).map slotRecords).flatten).filter (fun r => !(recordView s r == recordView s' r))

end Sys2Proof.Machine
end

