-- ==== Sys2Proof/Machine/Expiries.lean ====
section
/-!
DEFINITION. The meanings of the end of a validation and of the expiries of the cars, slots, prompts and notice programs.
An expiry acts only while its timer runs and hub time has reached it (R14).
-/

namespace Sys2Proof.Machine

/-- R27, R28: the validation in flight completes. -/
def execValidationCompletion (s : State) : Host.Outcome State Fault Refusal :=
  .next (match s.config.validating with
    | some v => if ready s then finish s (completeValidation v s) else s
    | none => s)

/-- R59: a car's freshness timer. -/
def execFreshnessExpiry (car : Fin 64) (s : State) : Host.Outcome State Fault Refusal :=
  .next (if ready s && reached s.hubTime (s.car car).freshness then finish s (freshnessExpired car s) else s)

/-- R87: a TAKEN slot's boarding limit. -/
def execBoardingLimitExpiry (t : Fin 8) (i : Fin 64) (s : State) : Host.Outcome State Fault Refusal :=
  .next (if ready s && (s.slot t i).state == .taken && reached s.hubTime (s.slot t i).limit then
    finish s (retire t i .expired none s)
  else s)

/-- R87: a BOARDED slot's ride limit. -/
def execRideLimitExpiry (t : Fin 8) (i : Fin 64) (s : State) : Host.Outcome State Fault Refusal :=
  .next (if ready s && (s.slot t i).state == .boarded && reached s.hubTime (s.slot t i).limit then
    finish s (retire t i .expired none s)
  else s)

/-- The prompts without the first of them whose hold expiry has been reached. -/
def dropExpired (now : Time) : List Prompt → List Prompt
  | [] => []
  | p :: l => if reached now p.expiry then l else p :: dropExpired now l

/-- R92: a prompt leaves its kiosk's Prompt List at its hold expiry. -/
def execPromptHoldExpiry (trunk : Fin 16) (address : Nat) (s : State) : Host.Outcome State Fault Refusal :=
  .next (match s.headAt trunk address with
    | none => s
    | some h =>
      if ready s && h.prompts.any (fun p => reached s.hubTime p.expiry) then
        finish s (s.modHead (headKey trunk address) (fun h => { h with prompts := dropExpired s.hubTime h.prompts }))
      else s)

/-- R111 to R113: a SHOW or BLANK step expires. -/
def execStepExpiry (t : Fin 8) (p : Fin 8) (s : State) : Host.Outcome State Fault Refusal :=
  .next (if ready s && (s.program t p).state == .running && reached s.hubTime (s.program t p).expiry then
    finish s (advance t p s)
  else s)

/-- R118: a WAIT step's timeout expires. -/
def execWaitTimeout (t : Fin 8) (p : Fin 8) (s : State) : Host.Outcome State Fault Refusal :=
  .next (if ready s && (s.program t p).state == .waiting && reached s.hubTime (s.program t p).expiry then
    finish s (waitExpired t p s)
  else s)

end Sys2Proof.Machine
end

