-- ==== Sys2Proof/Machine/Lines.lean ====
section
/-!
DEFINITION. The meanings of the override and side-band commands (R123, R124, R126 to R128). A pin's level is kept at all
times; the Override Unit takes its changes while READY is 1.
-/

namespace Sys2Proof.Machine

/-- The override pins with pin `l` low or high. -/
def pinLevels (pins : BitVec 4) (l : Fin 4) (low : Bool) : BitVec 4 :=
  if low then pins ||| BitVec.ofNat 4 (2 ^ l.val) else pins &&& ~~~ BitVec.ofNat 4 (2 ^ l.val)

/-- R123: a change of a pin's level. -/
def execOverridePinChange (line : Fin 4) (low : Bool) (s : State) : Host.Outcome State Fault Refusal :=
  let s' := { s with ovrLow := pinLevels s.ovrLow line low }
  .next (if ready s then
    finish s (takeInputs line (fun s => s.modLine line (fun x => { x with pin := low })) s')
  else s')

/-- R124: a line's debounce timer. -/
def execDebounceExpiry (line : Fin 4) (s : State) : Host.Outcome State Fault Refusal :=
  .next (if ready s && reached s.hubTime (s.line line).expiry then finish s (debounceExpired line s) else s)

/-- R126, R128: SBEN changes; a word in reception is cut, and the effective zone sets are computed again. -/
def execSbenChange (high : Bool) (s : State) : Host.Outcome State Fault Refusal :=
  let s' := { s with sben := high }
  .next (if ready s && !(s.sben == high) then finish s (recomputeZones { s' with word := none }) else s')

/-- R127: SBFR falls; the word in reception ends and is judged, and Building Status is published. -/
def execSideBandWord (s : State) : Host.Outcome State Fault Refusal :=
  let s' := { s with sbfr := false, word := none }
  .next (match s.word with
    | some bits => if ready s && s.sben then finishWith [.buildingStatus] s (endWord bits s') else s'
    | none => s')

/-- R126: SBFR rises; a word with no bits begins while SBEN is high. -/
def execSideBandWordStart (s : State) : Host.Outcome State Fault Refusal :=
  .next { s with sbfr := true, word := if ready s && s.sben && !s.sbfr then some [] else s.word }

/-- R126: a rising edge of SBCK takes the level of SBDA as the word's next bit. -/
def execSideBandClockEdge (bit : Bool) (s : State) : Host.Outcome State Fault Refusal :=
  .next (match s.word with
    | some bits => if ready s && s.sben && s.sbfr then { s with word := some (bits ++ [bit]) } else s
    | none => s)

end Sys2Proof.Machine
end

