-- ==== Sys2Proof/Machine/Port.lean ====
section
/-!
DEFINITION. The meanings of the port's commands: resets, shared RAM accesses, register writes and hub time (01).
-/

namespace Sys2Proof.Machine

/-- R3: registers 0, whatever the hub was doing ended, and the hub held in reset. -/
def execPowerOnResetAssert (s : State) : Host.Outcome State Fault Refusal := .next (heldState s)

/-- R3: zero-fill begins when the input is released. -/
def execPowerOnResetRelease (s : State) : Host.Outcome State Fault Refusal :=
  .next (if s.phase = .held then { s with phase := .zeroFill } else s)

/-- R3: READY is 1, hub time 0, the shared RAM holds the zero pattern, every unit its power-on state (R134 for the
override lines), and every hub-owned record is published. -/
def execZeroFillCompletion (s : State) : Host.Outcome State Fault Refusal :=
  .next (if s.phase = .zeroFill then
    publishList (resetLines { heldState s with phase := .ready, ram := [] })
      (resetRecords ++ (List.range 8).flatMap slotRecords)
  else s)

/-- R1, R3: a write of one word; ignored in reset and during zero-fill. -/
def execSharedRamWrite (addr : BitVec 16) (value : Word32) (s : State) : Host.Outcome State Fault Refusal :=
  .next (if ramOpen s then { s with ram := memWrite s.ram (4 * addr.toNat) (u32 value.toNat) } else s)

/-- R1, R3: a read of one word; 0 in reset and during zero-fill. -/
def execSharedRamRead (addr : BitVec 16) (s : State) : Host.Outcome State Fault Refusal :=
  .next { s with readData := if ramOpen s then memWord s.ram addr else 0 }

/-- R15: a port reset begins, while READY is 1. -/
def execPortReset (s : State) : Host.Outcome State Fault Refusal :=
  .next (if ready s then beginPortReset s else s)

/-- R15: every unit takes its port-reset state and its records are published; of the slots, those retired. -/
def execPortResetCompletion (s : State) : Host.Outcome State Fault Refusal :=
  .next (if s.phase = .portReset then
    publishList (resetUnits s) (resetRecords ++ changedSlots s (resetUnits s))
  else s)

/-- R11: RUN becomes 1 and every admitted area starts. -/
def execRunSet (s : State) : Host.Outcome State Fault Refusal :=
  .next (if ready s && !s.run then
    (allAreas.filter (admitted s)).foldl (fun s a => startArea a s) { s with run := true }
  else s)

/-- R11, R160: RUN becomes 0; sweep timers stop, flags clear, pending broadcasts are dropped. -/
def execRunClear (s : State) : Host.Outcome State Fault Refusal :=
  .next (if ready s && s.run then
    let s := { s with run := false, trunks := s.trunks.map (fun e => (e.1, { e.2 with requests := [] })) }
    allAreas.foldl (fun s a => stopArea a s) s
  else s)

/-- R10: a nudge of a tenant area. -/
def execNudgeTenant (t : Fin 8) (s : State) : Host.Outcome State Fault Refusal :=
  .next (if ready s && s.run && s.configured then sweepEvent (.tenant t) s else s)

/-- R10: a nudge of the building area. -/
def execNudgeBuilding (s : State) : Host.Outcome State Fault Refusal :=
  .next (if ready s && s.run then sweepEvent .building s else s)

/-- R12: every bit written as 1 is cleared. -/
def execAttentionClear (value : Word32) (s : State) : Host.Outcome State Fault Refusal :=
  .next (if ready s then { s with attention := s.attention &&& ~~~ (value.truncate 12) } else s)

/-- R12: the mask is written. -/
def execAttentionMaskWrite (value : Word32) (s : State) : Host.Outcome State Fault Refusal :=
  .next (if ready s then { s with mask := value.truncate 12 } else s)

/-- R13, R35: HOLD is set, and a change is copied into Building Status. -/
def execLockSetHold (s : State) : Host.Outcome State Fault Refusal :=
  .next (if ready s && !s.hold then publish { s with hold := true } .buildingStatus else s)

/-- R13, R35: HOLD is cleared. -/
def execLockClearHold (s : State) : Host.Outcome State Fault Refusal :=
  .next (if ready s && s.hold then publish { s with hold := false } .buildingStatus else s)

/-- R13, R35: FIXED is set. -/
def execLockSetFixed (s : State) : Host.Outcome State Fault Refusal :=
  .next (if ready s && !s.fixed then publish { s with fixed := true } .buildingStatus else s)

/-- R2, R10, R11, R13: a register write that changes nothing. -/
def execRegisterWriteIgnored (_select : BitVec 3) (_value : Word32) (s : State) : Host.Outcome State Fault Refusal :=
  .next s

/-- R14: hub time rises by 1 and its word is rewritten; it does not count while READY is 0. -/
def execHubTimeTick (s : State) : Host.Outcome State Fault Refusal :=
  .next (if ready s then
    { s with hubTime := s.hubTime + 1, ram := memWrite s.ram 0 (u32 (s.hubTime + 1).toNat) }
  else s)

end Sys2Proof.Machine
end

