-- ==== Sys2Proof/Machine/Sweeps.lean ====
section
/-!
DEFINITION. The meanings of the sweep commands: timers, ends, and the read of each host-owned record (R6 to R9, R16, R33,
R37, R44, R56, R78, R108). A read acts only where the area's sweep in flight stands at that record.
-/

namespace Sys2Proof.Machine

/-- R9: the area's timer has expired. -/
def execSweepTimerExpiry (area : Area) (s : State) : Host.Outcome State Fault Refusal :=
  .next (if ready s && s.run && reached s.hubTime (s.areaSweep area).timer then
    sweepEvent area (s.setAreaSweep area { s.areaSweep area with timer := none })
  else s)

/-- The end of a sweep: the sweep count of a tenant area rises (R8). -/
def countSweep (a : Area) (s : State) : State :=
  match a with
  | .building => s
  | .tenant t => s.modTenant t.val (fun ten => { ten with sweepCount := ten.sweepCount + 1 })

/-- R8, R9: a sweep whose last record has been read ends; a set flag begins a new sweep at once. -/
def execSweepCompletion (area : Area) (s : State) : Host.Outcome State Fault Refusal :=
  .next (if ready s && atRecord s area (lastRecord area) then
    let x := s.areaSweep area
    let s' := countSweep area (s.setAreaSweep area { x with next := none })
    finish s (if x.nudge && s.run then beginSweep area s' else s')
  else s)

/-- R16, R17: the Building Configuration, which is not read while a validation is in flight. -/
def readConfigurationRecord (s : State) : State :=
  if s.config.validating.isSome then s
  else match judge (configStamps s.ram) s.configSeen with
  | .torn => countTorn .building s
  | .skipped => s
  | .accepted st => handConfiguration st (readConfiguration s.ram) s.configSeen { s with configSeen := some st }

def execSweepReadConfiguration (s : State) : Host.Outcome State Fault Refusal :=
  .next (if ready s && atRecord s .building 0 then
    finish s (readConfigurationRecord (nextRecord .building 1 s))
  else s)

/-- R33: the Building Orders. -/
def readOrdersRecord (s : State) : State :=
  match judge (ordersStamps s.ram) s.ordersSeen with
  | .torn => countTorn .building s
  | .skipped => s
  | .accepted st => handOrders st (readOrders s.ram) { s with ordersSeen := some st }

def execSweepReadOrders (s : State) : Host.Outcome State Fault Refusal :=
  .next (if ready s && atRecord s .building 1 then
    finish s (readOrdersRecord (nextRecord .building 2 s))
  else s)

/-- R37: the Tenant Header; with the record that its acceptance publishes. -/
def readHeaderRecord (t : Fin 8) (s : State) : State × List RecordId :=
  match judge (headerStamps s.ram t) (s.tenant t).headerSeen with
  | .torn => (countTorn (.tenant t) s, [])
  | .skipped => (s, [])
  | .accepted st =>
    (handHeader t st (readHeader s.ram t) (s.modTenant t (fun ten => { ten with headerSeen := some st })),
     [.tenantStatus t])

/-- R8: after the header the sweep of an enabled area goes on with the map, and that of a disabled area ends. -/
def execSweepReadTenantHeader (t : Fin 8) (s : State) : Host.Outcome State Fault Refusal :=
  .next (if ready s && atRecord s (.tenant t) 0 then
    let r := readHeaderRecord t s
    finishWith r.2 s (nextRecord (.tenant t) (if (r.1.tenant t).active then 1 else 90) r.1)
  else s)

/-- R44: the Tenant Map. -/
def readMapRecord (t : Fin 8) (s : State) : State :=
  match judge (mapStamps s.ram t) (s.tenant t).mapSeen with
  | .torn => countTorn (.tenant t) s
  | .skipped => s
  | .accepted st =>
    handMap t st (readMap s.ram t) (s.modTenant t (fun ten => { ten with mapSeen := some st }))

def execSweepReadTenantMap (t : Fin 8) (s : State) : Host.Outcome State Fault Refusal :=
  .next (if ready s && atRecord s (.tenant t) 1 then
    finish s (readMapRecord t (nextRecord (.tenant t) 2 s))
  else s)

/-- R56, R58: a Car Report; a report handed publishes its car's Car State. -/
def readReportRecord (t : Fin 8) (i : Fin 16) (s : State) : State × List RecordId :=
  match judge (reportStamps s.ram t i) (tableGet none (s.tenant t).reportSeen i) with
  | .torn => (countTorn (.tenant t) s, [])
  | .skipped => (s, [])
  | .accepted st =>
    let s := s.modTenant t (fun ten => { ten with reportSeen := tableSet ten.reportSeen i (some st) })
    (handReport t i st (readReport s.ram t i) s,
     match reportCar s t i with
     | some c => [.carState c]
     | none => [])

def execSweepReadCarReport (t : Fin 8) (i : Fin 16) (s : State) : Host.Outcome State Fault Refusal :=
  .next (if ready s && atRecord s (.tenant t) (2 + i) then
    let r := readReportRecord t i (nextRecord (.tenant t) (3 + i) s)
    finishWith r.2 s r.1
  else s)

/-- R78: a slot's host half; its seen stamp stands in the slot. -/
def readSlotRecord (t : Fin 8) (i : Fin 64) (s : State) : State :=
  match judge (slotStamps s.ram t i) (s.slot t i).seen with
  | .torn => countTorn (.tenant t) s
  | .skipped => s
  | .accepted st =>
    handRequest t i (readSlotRequest s.ram t i) (s.modSlot t i (fun x => { x with seen := some st }))

def execSweepReadSlot (t : Fin 8) (i : Fin 64) (s : State) : Host.Outcome State Fault Refusal :=
  .next (if ready s && atRecord s (.tenant t) (18 + i) then
    finish s (readSlotRecord t i (nextRecord (.tenant t) (19 + i) s))
  else s)

/-- R108: a notice program's control. -/
def readControlRecord (t : Fin 8) (p : Fin 8) (s : State) : State :=
  match judge (controlStamps s.ram t p) (tableGet none (s.tenant t).controlSeen p) with
  | .torn => countTorn (.tenant t) s
  | .skipped => s
  | .accepted st =>
    handControl t p (readControl s.ram t p)
      (s.modTenant t (fun ten => { ten with controlSeen := tableSet ten.controlSeen p (some st) }))

def execSweepReadProgramControl (t : Fin 8) (p : Fin 8) (s : State) : Host.Outcome State Fault Refusal :=
  .next (if ready s && atRecord s (.tenant t) (82 + p) then
    finish s (readControlRecord t p (nextRecord (.tenant t) (83 + p) s))
  else s)

end Sys2Proof.Machine
end

