-- ==== Sys2Proof/Machine/Turns.lean ====
section
/-!
DEFINITION. The meanings of the display trunks' commands (R153, R157, R159, R161, R171, R173). Each acts only in the phase
of the trunk's turn that its event ends; the moment at which it comes is the sender's (assumption 3).
-/

namespace Sys2Proof.Machine

/-- R157: a trunk begins a turn. -/
def execTurnBegin (trunk : Fin 16) (s : State) : Host.Outcome State Fault Refusal :=
  .next (if ready s && mayBegin s trunk then finish s (beginTurn trunk s) else s)

/-- R153, R162, R170: a frame copy ends. -/
def execFrameEnd (trunk : Fin 16) (echo : List Received) (s : State) : Host.Outcome State Fault Refusal :=
  .next (match (s.trunk trunk).flight with
    | .sending u => if ready s then finish s (copyEnded trunk u echo s) else s
    | _ => s)

/-- R161: the break ends, and the gap follows. -/
def execBreakEnd (trunk : Fin 16) (s : State) : Host.Outcome State Fault Refusal :=
  .next (match (s.trunk trunk).flight with
    | .breaking _ => if ready s then setFlight trunk .gap s else s
    | _ => s)

/-- R153 to R155: a reply ends. -/
def execReplyEnd (trunk : Fin 16) (reply : List Received) (s : State) : Host.Outcome State Fault Refusal :=
  .next (match (s.trunk trunk).flight with
    | .receiving u => if ready s then finish s (replyEnded trunk u reply s) else s
    | _ => s)

/-- R153, R166: a reply window expires with no character begun. -/
def execReplyWindowExpiry (trunk : Fin 16) (s : State) : Host.Outcome State Fault Refusal :=
  .next (match (s.trunk trunk).flight with
    | .window u => if ready s then finish s (noReply trunk u s) else s
    | _ => s)

/-- R153, R162: a gap runs out: the trunk stands ready for its next turn, or the broadcast's second copy begins. -/
def execGapExpiry (trunk : Fin 16) (s : State) : Host.Outcome State Fault Refusal :=
  .next (match (s.trunk trunk).flight with
    | .gap => if ready s then setFlight trunk .idle s else s
    | .copyGap u => if ready s then setFlight trunk (.sending { u with second := true }) s else s
    | _ => s)

/-- R159: a head's poll falls due. -/
def execPollDue (trunk : Fin 16) (address : Nat) (s : State) : Host.Outcome State Fault Refusal :=
  .next (match s.headAt trunk address with
    | none => s
    | some h =>
      if ready s && reached s.hubTime h.pollAt then
        s.modHead (headKey trunk address) (fun h => { h with pollDue := true, pollAt := none })
      else s)

/-- R159: a LOST head's probe falls due. -/
def execProbeDue (trunk : Fin 16) (address : Nat) (s : State) : Host.Outcome State Fault Refusal :=
  .next (match s.headAt trunk address with
    | none => s
    | some h =>
      if ready s && h.link == .lost && reached s.hubTime h.probeAt then
        s.modHead (headKey trunk address) (fun h => { h with probeDue := true, probeAt := none })
      else s)

/-- R171: a line's watchdog acts. -/
def execWatchdogExpiry (trunk : Fin 16) (line : LineId) (s : State) : Host.Outcome State Fault Refusal :=
  .next (if ready s then finish s (watchdogActs trunk line s) else s)

/-- R173: a DOWN trunk's recovery timer. -/
def execRecoveryExpiry (trunk : Fin 16) (s : State) : Host.Outcome State Fault Refusal :=
  .next (if ready s && (s.trunk trunk).state == .down && reached s.hubTime (s.trunk trunk).recovery then
    finish s (recoveryExpired trunk s)
  else s)

/-- R173: the recovery probe begins on the chosen line once RUN and READY are 1. -/
def execRecoveryProbeBegin (trunk : Fin 16) (s : State) : Host.Outcome State Fault Refusal :=
  .next (match (s.trunk trunk).chosen with
    | none => s
    | some l =>
      if ready s && s.run && (s.trunk trunk).state == .down && (s.trunk trunk).flight == .idle then
        finish s (beginRecovery trunk l s)
      else s)

/-- R153: a reply's first character begins within the window, so the reply is taken. -/
def execReplyFirstCharacter (trunk : Fin 16) (s : State) : Host.Outcome State Fault Refusal :=
  .next (match (s.trunk trunk).flight with
    | .window u => if ready s then setFlight trunk (.receiving u) s else s
    | _ => s)

end Sys2Proof.Machine
end

