-- ==== Sys2Proof/Machine/Dispatch.lean ====
section
/-!
DEFINITION. One arm per command, each a direct call of its meaning.
-/

namespace Sys2Proof.Machine

def exec (i : Instr) (s : State) : Host.Outcome State Fault Refusal :=
  match i with
  | .powerOnResetAssert => Sys2Proof.Machine.execPowerOnResetAssert s
  | .powerOnResetRelease => Sys2Proof.Machine.execPowerOnResetRelease s
  | .zeroFillCompletion => Sys2Proof.Machine.execZeroFillCompletion s
  | .sharedRamWrite addr value => Sys2Proof.Machine.execSharedRamWrite addr value s
  | .sharedRamRead addr => Sys2Proof.Machine.execSharedRamRead addr s
  | .portReset => Sys2Proof.Machine.execPortReset s
  | .portResetCompletion => Sys2Proof.Machine.execPortResetCompletion s
  | .runSet => Sys2Proof.Machine.execRunSet s
  | .runClear => Sys2Proof.Machine.execRunClear s
  | .nudgeTenant t => Sys2Proof.Machine.execNudgeTenant t s
  | .nudgeBuilding => Sys2Proof.Machine.execNudgeBuilding s
  | .attentionClear value => Sys2Proof.Machine.execAttentionClear value s
  | .attentionMaskWrite value => Sys2Proof.Machine.execAttentionMaskWrite value s
  | .lockSetHold => Sys2Proof.Machine.execLockSetHold s
  | .lockClearHold => Sys2Proof.Machine.execLockClearHold s
  | .lockSetFixed => Sys2Proof.Machine.execLockSetFixed s
  | .registerWriteIgnored select value => Sys2Proof.Machine.execRegisterWriteIgnored select value s
  | .hubTimeTick => Sys2Proof.Machine.execHubTimeTick s
  | .sweepTimerExpiry area => Sys2Proof.Machine.execSweepTimerExpiry area s
  | .sweepCompletion area => Sys2Proof.Machine.execSweepCompletion area s
  | .sweepReadConfiguration => Sys2Proof.Machine.execSweepReadConfiguration s
  | .sweepReadOrders => Sys2Proof.Machine.execSweepReadOrders s
  | .sweepReadTenantHeader t => Sys2Proof.Machine.execSweepReadTenantHeader t s
  | .sweepReadTenantMap t => Sys2Proof.Machine.execSweepReadTenantMap t s
  | .sweepReadCarReport t n => Sys2Proof.Machine.execSweepReadCarReport t n s
  | .sweepReadSlot t n => Sys2Proof.Machine.execSweepReadSlot t n s
  | .sweepReadProgramControl t p => Sys2Proof.Machine.execSweepReadProgramControl t p s
  | .validationCompletion => Sys2Proof.Machine.execValidationCompletion s
  | .freshnessExpiry car => Sys2Proof.Machine.execFreshnessExpiry car s
  | .boardingLimitExpiry t n => Sys2Proof.Machine.execBoardingLimitExpiry t n s
  | .rideLimitExpiry t n => Sys2Proof.Machine.execRideLimitExpiry t n s
  | .promptHoldExpiry trunk address => Sys2Proof.Machine.execPromptHoldExpiry trunk address s
  | .stepExpiry t p => Sys2Proof.Machine.execStepExpiry t p s
  | .waitTimeout t p => Sys2Proof.Machine.execWaitTimeout t p s
  | .overridePinChange line low => Sys2Proof.Machine.execOverridePinChange line low s
  | .debounceExpiry line => Sys2Proof.Machine.execDebounceExpiry line s
  | .sbenChange high => Sys2Proof.Machine.execSbenChange high s
  | .sideBandWord => Sys2Proof.Machine.execSideBandWord s
  | .turnBegin trunk => Sys2Proof.Machine.execTurnBegin trunk s
  | .frameEnd trunk echo => Sys2Proof.Machine.execFrameEnd trunk echo s
  | .breakEnd trunk => Sys2Proof.Machine.execBreakEnd trunk s
  | .replyEnd trunk reply => Sys2Proof.Machine.execReplyEnd trunk reply s
  | .replyWindowExpiry trunk => Sys2Proof.Machine.execReplyWindowExpiry trunk s
  | .gapExpiry trunk => Sys2Proof.Machine.execGapExpiry trunk s
  | .pollDue trunk address => Sys2Proof.Machine.execPollDue trunk address s
  | .probeDue trunk address => Sys2Proof.Machine.execProbeDue trunk address s
  | .watchdogExpiry trunk line => Sys2Proof.Machine.execWatchdogExpiry trunk line s
  | .recoveryExpiry trunk => Sys2Proof.Machine.execRecoveryExpiry trunk s
  | .recoveryProbeBegin trunk => Sys2Proof.Machine.execRecoveryProbeBegin trunk s
  | .sideBandWordStart => Sys2Proof.Machine.execSideBandWordStart s
  | .sideBandClockEdge b => Sys2Proof.Machine.execSideBandClockEdge b s
  | .replyFirstCharacter trunk => Sys2Proof.Machine.execReplyFirstCharacter trunk s

end Sys2Proof.Machine
end

