-- ==== Sys2Proof/Safety.lean ====
section
/-!
DEFINITION. What a safe run of the hub is, in the terms that the statements use: which parts of the state an event
touches, which bytes of the shared RAM are the hub's, and the conditions that every step keeps.
-/

namespace Sys2Proof.Safety

open Sys2Proof.Machine

/-! ### The parts of the state -/

/-- The fields of the state, by name. -/
inductive Field where
  | phase | run | attention | mask | hold | fixed | readData | ram | stamps | hubTime | ovrLow | sben | sbfr | word
  | badWords | sweep | configSeen | ordersSeen | torn | config | orders | faults | tenants | cars | board
  | boardCreated | aboard | lines | heads | trunks | pending
  deriving DecidableEq, Repr

/-- A field is the same in two states. -/
def sameField (s t : State) : Field → Prop
  | .phase => t.phase = s.phase
  | .run => t.run = s.run
  | .attention => t.attention = s.attention
  | .mask => t.mask = s.mask
  | .hold => t.hold = s.hold
  | .fixed => t.fixed = s.fixed
  | .readData => t.readData = s.readData
  | .ram => t.ram = s.ram
  | .stamps => t.stamps = s.stamps
  | .hubTime => t.hubTime = s.hubTime
  | .ovrLow => t.ovrLow = s.ovrLow
  | .sben => t.sben = s.sben
  | .sbfr => t.sbfr = s.sbfr
  | .word => t.word = s.word
  | .badWords => t.badWords = s.badWords
  | .sweep => t.sweep = s.sweep
  | .configSeen => t.configSeen = s.configSeen
  | .ordersSeen => t.ordersSeen = s.ordersSeen
  | .torn => t.torn = s.torn
  | .config => t.config = s.config
  | .orders => t.orders = s.orders
  | .faults => t.faults = s.faults
  | .tenants => t.tenants = s.tenants
  | .cars => t.cars = s.cars
  | .board => t.board = s.board
  | .boardCreated => t.boardCreated = s.boardCreated
  | .aboard => t.aboard = s.aboard
  | .lines => t.lines = s.lines
  | .heads => t.heads = s.heads
  | .trunks => t.trunks = s.trunks
  | .pending => t.pending = s.pending

/-- From `s` to `t` nothing changed outside the fields of `fs`. -/
def Touches (fs : List Field) (s t : State) : Prop := ∀ f, f ∈ fs ∨ sameField s t f

/-! ### Ownership of the shared RAM (R4, 12_layouts.md section 2) -/

/-- The hub's bytes of a tenant area, by offset in the area: Tenant Status, the hub halves of the slots, the run states,
the fault list and the Aboard mirror. -/
def hubOffset (o : Nat) : Bool :=
  (0x80 ≤ o && o < 0x100) || (0x800 ≤ o && o < 0x1800 && 32 ≤ (o - 0x800) % 64) ||
  (0x1800 ≤ o && o < 0x2000 && 160 ≤ (o - 0x1800) % 256) || (0x3400 ≤ o && o < 0x4800)

/-- A byte that the hub writes: the hub-time word and Building Status, the Supervisor Fault List, Car State, Head
Status, the Board Table mirror, and the hub's parts of the tenant areas. -/
def hubByte (a : Nat) : Bool :=
  a < 4 + 608 || (0x6400 ≤ a && a < 0x6C00) || (0x8000 ≤ a && a < 0xCE00) || (0xD000 ≤ a && a < 0x10000) ||
  (0x10000 ≤ a && a < 0x40000 && hubOffset ((a - 0x10000) % 0x6000))

/-! ### Conditions that every step keeps -/

/-- The keys of a table rise, so that each is listed once, and are below a bound. -/
def KeysBelow {α : Type} (n : Nat) (t : Table α) : Prop := t.Pairwise (fun a b => a.1 < b.1) ∧ ∀ e ∈ t, e.1 < n

/-- The tables hold only numbers that the hub has (00_scope.md 6.6), in rising order: tenants, slots, programs, heads and
board places. -/
structure KeysOk (s : State) : Prop where
  tenants : KeysBelow 8 s.tenants
  slots : ∀ e ∈ s.tenants, KeysBelow 64 e.2.slots
  programs : ∀ e ∈ s.tenants, KeysBelow 8 e.2.programs
  heads : KeysBelow 992 s.heads
  headTable : ∀ g, s.config.inForce = some g → KeysBelow 992 g.heads
  validating : ∀ v, s.config.validating = some v → KeysBelow 992 v.body.heads
  board : KeysBelow 384 s.board

/-- The shared RAM has its canonical form, and the tables hold only numbers that the hub has. -/
structure Sound (s : State) : Prop where
  keys : KeysOk s
  ram : memWf s.ram = true

/-- While READY is 0 the registers read as the resets leave them (R2, R3, R15): RUN, Attention, Attention Mask and HOLD
0; and FIXED is 0 from a power-on reset to the end of its zero-fill. -/
structure Quiet (s : State) : Prop where
  registers : s.phase ≠ .ready → s.run = false ∧ s.attention = 0 ∧ s.mask = 0 ∧ s.hold = false
  fixed : s.phase = .held ∨ s.phase = .zeroFill → s.fixed = false

/-- While RUN is 0 no sweep timer runs and no nudge is pending (R11, R15). -/
def TimersNeedRun (s : State) : Prop :=
  s.run = false → ∀ a : Area, (s.areaSweep a).timer = none ∧ (s.areaSweep a).nudge = false

/-- While READY is 1 an override line's debounce timer runs exactly in its two pending states (R124, R133). -/
def DebounceOk (s : State) : Prop :=
  s.phase = .ready → ∀ l < 4, (s.line l).expiry.isSome = true ↔
    ((s.line l).state = .pendingOn ∨ (s.line l).state = .pendingOff)

/-- A deck with no mode: no commit landing and no announcement. -/
def DeckStill (d : Deck) : Prop := d.mode = .none ∧ d.commit = none ∧ d.announcement.landing = none

/-- A deck's commit landing is present only in RUNNING mode, and it is in the served set in use (R68). -/
def DeckCommit (d : Deck) : Prop := ∀ j, d.commit = some j → d.mode = .running ∧ inSet d.served j = true

/-- The cars (R60, R61, R68, R99): one that is not TRACKING has neither mode nor commit nor announcement on either deck,
and a commit landing is a served landing of a RUNNING deck. -/
structure CarsOk (s : State) : Prop where
  still : ∀ c, (s.car c).tracking ≠ .tracking → DeckStill (s.car c).deck0 ∧ DeckStill (s.car c).deck1
  commit : ∀ c, DeckCommit (s.car c).deck0 ∧ DeckCommit (s.car c).deck1

/-- A trunk's state follows its lines (11 section 4, R172, R173): RUNNING has an active line and that line is READY;
otherwise there is no active line; DOWN has both lines SHUT; a recovery probe is in flight only while DOWN, and while DOWN
no other turn is; and only a broadcast has a second copy. -/
structure TrunkLegal (x : Trunk) : Prop where
  running : x.state = .running → ∃ l, x.active = some l ∧ (x.line l).shut = none
  inactive : x.state ≠ .running → x.active = none
  down : x.state = .down → x.lineA.shut ≠ none ∧ x.lineB.shut ≠ none
  probe : ∀ u, x.flight.turn? = some u → u.recovery = true → x.state = .down ∧ u.kind = .probe
  only : x.state = .down → ∀ u, x.flight.turn? = some u → u.recovery = true
  copies : ∀ u, x.flight = .copyGap u → u.kind = .override

/-- Every trunk is legal. -/
def TrunksLegal (s : State) : Prop := ∀ t, TrunkLegal (s.trunk t)

/-- A list of destinations with counts: rising landing indices, no count of 0, at most `n` of them (R89, R90). -/
def ListOk (n : Nat) (l : List (Nat × Nat)) : Prop :=
  l.Pairwise (fun a b => a.1 < b.1) ∧ (∀ d ∈ l, 0 < d.2) ∧ l.length ≤ n

/-- A board entry's key (R89). -/
def entryKey (e : BoardEntry) : Nat × Nat × Nat × Dir := (e.landing, e.car, e.deck, e.direction)

/-- The guidance books (R82, R89, R90): the Board Table's places are in order with one entry for a key at most, no board
entry is empty, every board entry and Aboard List is in order with counts above 0 and within its size, and every live slot
has a party and its resolved values. -/
structure BooksOk (s : State) : Prop where
  places : KeysBelow 384 s.board
  keys : s.board.Pairwise (fun a b => entryKey a.2 ≠ entryKey b.2)
  board : ∀ e ∈ s.board, ListOk 6 e.2.destinations ∧ e.2.destinations ≠ []
  aboard : ∀ c k, ListOk 24 (s.aboardList c k)
  parties : ∀ t i, (s.slot t i).live = true → 0 < (s.slot t i).party
  whole : ∀ t i, (s.slot t i).live = true → ∃ c k o d dir, (s.slot t i).car = some c ∧ (s.slot t i).deck = some k ∧
    (s.slot t i).origin = some o ∧ (s.slot t i).destination = some d ∧ (s.slot t i).direction = some dir

/-- The count of a destination in a list, 0 where it is not listed. -/
def countOf (l : List (Nat × Nat)) (x : Nat) : Nat := ((l.find? (fun e => e.1 == x)).map (·.2)).getD 0

/-- The waiting count of a key's destination (R89). -/
def waiting (s : State) (l c k : Nat) (d : Dir) (x : Nat) : Nat :=
  match boardFind s l c k d with
  | some e => countOf e.2.destinations x
  | none => 0

/-- The rider count of a car deck's destination (R90). -/
def riding (s : State) (c k x : Nat) : Nat := countOf (s.aboardList c k) x

/-- The sum of the party sizes of the slots that a test picks. -/
def partySum (s : State) (f : Nat → Nat → Bool) : Nat :=
  ((List.range 512).map (fun n => if f (n / 64) (n % 64) then (s.slot (n / 64) (n % 64)).party else 0)).sum

/-- A TAKEN slot that waits in the board entry of a key for destination `x`, and a BOARDED slot that rides on deck `k` of
car `c` to `x` (R89, R90). -/
abbrev WaitsFor (l c k : Nat) (dir : Dir) (x : Nat) (y : Slot) : Prop :=
  y.state = .taken ∧ y.origin = some l ∧ y.car = some c ∧ y.deck = some k ∧ y.direction = some dir ∧
    y.destination = some x
abbrev RidesTo (c k x : Nat) (y : Slot) : Prop :=
  y.state = .boarded ∧ y.car = some c ∧ y.deck = some k ∧ y.destination = some x

/-- Every live slot is on deck 0 or deck 1 (R80). -/
def LiveDecks (s : State) : Prop := ∀ n i k, (s.slot n i).live = true → (s.slot n i).deck = some k → k < 2

/-- From `s` to `t` no board entry is new and none changed but for its destinations: place, key, owner and order of
creation stay (R89). -/
def EntriesStay (s t : State) : Prop :=
  ∀ e ∈ t.board, ∃ o ∈ s.board, o.1 = e.1 ∧ e.2 = { o.2 with destinations := e.2.destinations }

/-- What the sums of the guidance books rest on (R24, R44, R48, R80, R82, R97): a car is granted to one tenant at most and
the quotas sum to at most 384; a tenant's map stands only while it is ACTIVE, resolved under the configuration in force,
and a DISABLED tenant's sweep is past no record but its header; and the car of every live slot is granted to the slot's
tenant, that of every board entry to the entry's owner. -/
structure OwnersOk (s : State) : Prop where
  oneTenant : ∀ c, ∀ m < 8, ∀ n < 8, grantsCar s.conf m c = true → grantsCar s.conf n c = true → m = n
  quotaSum : ((List.range 8).map (fun n => (s.conf.grant n).quota)).sum ≤ 384
  maps : ∀ n < 8, ∀ m, (s.tenant n).map = some m →
    (s.tenant n).active = true ∧ m = resolveMap s.conf n m.stamp m.body
  sweeps : ∀ n < 8, (s.tenant n).active = false → ∀ r, (s.tenant n).sweep.next = some r → r = 0 ∨ 90 ≤ r
  slots : ∀ n < 8, ∀ i < 64, (s.slot n i).live = true → ∀ c, (s.slot n i).car = some c → grantsCar s.conf n c = true
  entries : ∀ e ∈ s.board, e.2.tenant < 8 ∧ grantsCar s.conf e.2.tenant e.2.car = true

/-- The sums of the guidance books (R24, R81, R89, R90): the waiting count of a key's destination is the sum of the parties
of the TAKEN slots of that key and destination, the rider count of a deck's destination that of the BOARDED slots of that
deck and destination, and a tenant is charged with at most its quota of board entries; with what that rests on. -/
structure TalliesOk (s : State) : Prop where
  waits : ∀ l c k dir x, waiting s l c k dir x = partySum s (fun n i => decide (WaitsFor l c k dir x (s.slot n i)))
  rides : ∀ c, ∀ k < 2, ∀ x, riding s c k x = partySum s (fun n i => decide (RidesTo c k x (s.slot n i)))
  quota : ∀ n < 8, chargedEntries s n ≤ (s.conf.grant n).quota
  decks : LiveDecks s
  owners : OwnersOk s

/-- Does a line qualify for the head of a row? ACTIVE or PENDING_OFF, the head's zone in its effective zone set, and not
in the head's immunity set (R129). -/
abbrev Qualifies (s : State) (row : HeadRow) (l : Nat) : Prop :=
  ((s.line l).state = .active ∨ (s.line l).state = .pendingOff) ∧ row.zone < 16 ∧
    (s.line l).zones.getLsbD row.zone = true ∧ row.immunity.getLsbD l = false

/-- The settings in force of a head's kind, and the ceiling in force (R145). -/
def kindOf (s : State) (row : HeadRow) : KindSettings := s.conf.kinds.getD (row.kind - 1) {}
def ceilingOf (s : State) : Nat := if s.orders.night then s.conf.nightCeiling else s.conf.dayCeiling

/-! ### A DOWN trunk's recovery (R173) -/

/-- Is a line being probed: its recovery turn in flight, or the line chosen and not yet probed? (assumption 29) -/
def Probed (x : Trunk) (l : LineId) : Prop :=
  x.chosen = some l ∨ ∃ u, u.recovery = true ∧ u.line = l ∧
    (x.flight = .sending u ∨ x.flight = .window u ∨ x.flight = .receiving u ∨ x.flight = .copyGap u)

/-- A head that a trunk's recovery probe may address: an ONLINE or FAILED head of the trunk, or any head of it while none
is. -/
def ProbedHead (s : State) (n k : Nat) : Prop :=
  let up (j : Nat) := ∃ h, tableFind s.heads j = some h ∧ (h.link = .online ∨ h.link = .failed)
  keyTrunk k = n ∧ tableFind s.heads k ≠ none ∧ (up k ∨ ∀ j, keyTrunk j = n → ¬ up j)

/-- The key of `C` with the lowest address above `p`, or the lowest of all where none is above. -/
def NextAbove (C : Nat → Prop) (p k : Nat) : Prop :=
  C k ∧ ((p < keyAddress k ∧ ∀ j, C j → p < keyAddress j → keyAddress k ≤ keyAddress j) ∨
    ((∀ j, C j → keyAddress j ≤ p) ∧ ∀ j, C j → keyAddress k ≤ keyAddress j))

/-- What becomes of a recovery probe in flight when an order makes its trunk RUNNING on line `l` (R173): on that line it goes
on in its phase as an ordinary turn whose missing reply is no miss; on the other line it is abandoned, and the gap follows. -/
def ProbeSettled (l : LineId) (f g : Flight) : Prop :=
  ∀ u, u.recovery = true →
    let v : Turn := { u with recovery := false, noMiss := true }
    (f = .sending u → g = if u.line = l then .sending v else .gap) ∧
    (f = .window u → g = if u.line = l then .window v else .gap) ∧
    (f = .receiving u → g = if u.line = l then .receiving v else .gap)

/-- A command that ends a send of trunk `n`'s turn `u` with no accepted reply (R153): its window expires, or its reply is bad
or refused; `crc` tells that the reply's CRC-16 is the fault. -/
def Unanswered (s : State) (n : Fin 16) (u : Turn) (c : Instr) (crc : Bool) : Prop :=
  (c = .replyWindowExpiry n ∧ (s.trunk n).flight = .window u ∧ crc = false) ∨
  ∃ reply, c = .replyEnd n reply ∧ (s.trunk n).flight = .receiving u ∧
    ((judgeReply u.address reply = .crcFault ∧ crc = true) ∨ (judgeReply u.address reply = .refused ∧ crc = false))

/-! ### What a turn hands to the heads (R154, R163, R165 to R167) -/

/-- The parts of a head's record that only a turn's beginning or end, a reload, a history clear or a fallen due poll writes,
but for the histories and the poll's falling due: the same in `h` and `h'`. -/
structure TurnPartKept (h h' : Head) : Prop where
  link : h'.link = h.link ∧ h'.needsReload = h.needsReload ∧ h'.busy = h.busy
  counts : h'.missRun = h.missRun ∧ h'.misses = h.misses ∧ h'.busyCount = h.busyCount ∧ h'.crcErrors = h.crcErrors
  tags : h'.sentTag = h.sentTag ∧ h'.pending = h.pending ∧ h'.echo = h.echo
  times : h'.lastFrame = h.lastFrame ∧ h'.pollAt = h.pollAt ∧ h'.probeAt = h.probeAt ∧ h'.probeDue = h.probeDue
  contents : h'.confirmed = h.confirmed ∧ h'.snapshot = h.snapshot
  levels : h'.level = h.level ∧ h'.jump = h.jump ∧ h'.ambient = h.ambient
  prompts : h'.prompts = h.prompts

/-- From `s` to `t` every head outside `served` keeps its part of turns and its histories, and its poll falls due exactly
where `cut` holds of it; and no head outside `served` is new. -/
def HeadsKept (served cut : Nat → Prop) (s t : State) : Prop :=
  ∀ k, ¬ served k → (tableFind s.heads k = none → tableFind t.heads k = none) ∧
    ∀ h, tableFind s.heads k = some h → ∃ h', tableFind t.heads k = some h' ∧ TurnPartKept h h' ∧
      h'.everLost = h.everLost ∧ h'.everFailed = h.everFailed ∧ (h'.pollDue = true ↔ h.pollDue = true ∨ cut k)

/-- From `s` to `t` nothing of a turn's beginning or end was handed to a head outside `served`, and no record is new. -/
def NothingHanded (served : Nat → Prop) (s t : State) : Prop := HeadsKept served (fun _ => False) s t

/-- The turn in flight `f` of trunk `n`, in its frame or past it, serves the head of key `k` with a POLL: a turn whose
abandoning leaves that head's poll due (R163, R161; assumption 14). One whose head's row was set to NONE serves no head. -/
def CutPoll (f : Flight) (n k : Nat) : Prop :=
  ∃ u, (f = .sending u ∨ f = .window u ∨ f = .receiving u) ∧ u.kind = .poll ∧ u.orphan = false ∧ headKey n u.address = k

/-- An accepted reply finds its head away, or asks for a reload (R154, R165, R167). -/
abbrev Reloads (u : Turn) (r : Reply) (h : Head) : Prop :=
  h.link = .unknown ∨ h.link = .lost ∨ r.service = true ∨ (u.kind = .setup ∧ r.lasterr = true)

/-- It ends the need for reload (R154; assumption 24), that of a SETUP sent before a generation changed the head's row too
(assumption 69). -/
abbrev EndsReload (u : Turn) (r : Reply) : Prop := u.kind = .setup ∧ r.lasterr = false ∧ r.service = false

/-- It confirms the pending content frame by its tag echo (R155), whose snapshot is held. -/
abbrev Confirms (u : Turn) (r : Reply) (h : Head) : Prop :=
  h.needsReload = false ∧ ¬ Reloads u r h ∧ r.lasterr = false ∧ r.tag = h.sentTag.toNat ∧ h.pending = true
abbrev HoldsTag (h : Head) : Prop := ∃ x, h.snapshot = some x ∧ x.tag = h.sentTag

/-- A head after an accepted reply of turn `u` was handed on to it (R142, R143, R154, R155, R165 to R167). The echo is the low
four bits of the reply's tag byte (assumption 36), and a reload's contents are compared also where the confirmed content was
none (assumption 54). The level and the times that the turn's beginning set stay (R146, R159). -/
structure HeadAfterReply (u : Turn) (r : Reply) (h h' : Head) : Prop where
  link : h'.link = if r.fault then .failed else .online
  misses : h'.missRun = 0 ∧ h'.misses = h.misses ∧ h'.crcErrors = h.crcErrors
  busy : h'.busy = r.busy ∧ h'.busyCount = if r.busy then min 65535 (h.busyCount + 1) else h.busyCount
  ambient : h'.ambient = some r.ambient
  tags : h'.echo = BitVec.ofNat 4 r.tag ∧ h'.sentTag = h.sentTag
  histories : h'.everLost = h.everLost ∧
    (h'.everFailed = true ↔ h.everFailed = true ∨ (r.fault = true ∧ h.link ≠ .failed))
  probes : h'.probeAt = none ∧ h'.probeDue = false
  begun : h'.level = h.level ∧ h'.lastFrame = h.lastFrame ∧ h'.pollAt = h.pollAt ∧ h'.pollDue = h.pollDue
  prompts : h'.prompts = h.prompts
  reload : h'.needsReload = if EndsReload u r then false else if Reloads u r h then true else h.needsReload
  confirmed : Confirms u r h → h'.pending = false ∧ h'.snapshot = h.snapshot ∧
    (∀ x, h.snapshot = some x → x.tag = h.sentTag → h'.confirmed = some x.content) ∧
    (¬ HoldsTag h → h'.confirmed = h.confirmed)
  pending : ¬ Confirms u r h → h'.pending = h.pending
  kept : ¬ Confirms u r h → ¬ Reloads u r h → h'.confirmed = h.confirmed ∧ h'.snapshot = h.snapshot
  dropped : Reloads u r h → h'.confirmed = none ∧ h'.snapshot = none ∧ h'.jump = true
  jump : ¬ Reloads u r h → h'.jump = h.jump
  compared : (Confirms u r h ∧ HoldsTag h) ∨ Reloads u r h → (h'.differs = true ↔ h'.confirmed ≠ some h'.next)
  uncompared : ¬ (Confirms u r h ∧ HoldsTag h) → ¬ Reloads u r h → h'.next = h.next → h'.differs = h.differs

/-- What a head keeps when its turn draws no accepted reply, also as it becomes LOST (R166): all but its link state, its
counts, its busy flag, its EVER_LOST history and its probe. Its content state follows the Compositor's results. -/
structure KeptAtMiss (h h' : Head) : Prop where
  tags : h'.sentTag = h.sentTag ∧ h'.pending = h.pending ∧ h'.echo = h.echo
  contents : h'.confirmed = h.confirmed ∧ h'.snapshot = h.snapshot ∧ h'.needsReload = h.needsReload
  content : h'.next = h.next → h'.differs = h.differs
  levels : h'.level = h.level ∧ h'.jump = h.jump ∧ h'.ambient = h.ambient
  times : h'.lastFrame = h.lastFrame ∧ h'.pollAt = h.pollAt ∧ h'.pollDue = h.pollDue
  others : h'.busyCount = h.busyCount ∧ h'.everFailed = h.everFailed ∧ h'.prompts = h.prompts

/-- A turn as its beginning leaves it (R153): its first send, of a turn that nothing has yet ended early, orphaned or freed
from its miss, under the trunk's speed and reply window in force (R163). -/
structure JustBegun (s : State) (n : Nat) (u : Turn) : Prop where
  first : u.second = false
  ordinary : u.early = false ∧ u.orphan = false ∧ u.noMiss = false
  settings : u.speed = (s.conf.trunk n).speed ∧ u.window = (s.conf.trunk n).window

/-! ### A failover (R162, R163) -/

/-- R162: the pending list `l` with the request of an abandoned broadcast returned, as `l'`: at the head, or merged into the
one pending for its line, which keeps its texts and its place. -/
def Returned (r : Request) (l l' : List Request) : Prop :=
  ((∀ q ∈ l, q.line ≠ r.line) → l' = r :: l) ∧
  ∀ pre q post, l = pre ++ q :: post → q.line = r.line → (∀ p ∈ pre ++ post, p.line ≠ r.line) →
    l' = pre ++ { q with zones := q.zones ||| r.zones } :: post

/-- What a failover leaves of a trunk's turn and of its pending list: the turn is abandoned and the gap follows; the request
of a broadcast, in either copy or between them, returns to the list. -/
structure FailedOver (x y : Trunk) : Prop where
  flight : y.flight = if x.flight = .idle then .idle else .gap
  returned : ∀ u r, x.flight = .sending u ∨ x.flight = .copyGap u → u.request = some r →
    Returned r x.requests y.requests
  kept : (∀ u, x.flight = .sending u ∨ x.flight = .copyGap u → u.request = none) → y.requests = x.requests

/-! ### What the Resolution Unit answers (R49 to R51), and the Restriction List (R26, R81) -/

/-- R49's table for number `i` of a kind of entry with numbers below `bound`: what it resolves to, `x`. Of a tenant's map in
force, `standing` is the standing of the entry, `building` its building value, and `object` holds of what a usable entry
gives. A failure has its fault's cause, and the building value for a GRANT fault. -/
structure ResolvesBy {α : Type} (ten : Tenant) (bound i : Nat) (unmapped : Cause) (standing : ResolvedMap → Standing)
    (building : ResolvedMap → Nat) (object : ResolvedMap → α → Prop) (x : Except Failure α) : Prop where
  outside : bound ≤ i → x = .error ⟨.entryRange, none⟩
  noMap : i < bound → ten.map = none → x = .error ⟨unmapped, none⟩
  absent : ∀ m, i < bound → ten.map = some m → standing m = .unmapped → x = .error ⟨unmapped, none⟩
  range : ∀ m, i < bound → ten.map = some m → standing m = .badRange → x = .error ⟨.entryRange, none⟩
  grant : ∀ m c, i < bound → ten.map = some m → standing m = .badGrant c → x = .error ⟨c, some (building m)⟩
  usable : ∀ m, i < bound → ten.map = some m → standing m = .usable → ∃ o, x = .ok o ∧ object m o

/-- A usable floor entry of a tenant's map reaches landing `l` with a deck attribute that is deck `k`'s or BOTH (R50). -/
def ReachedBy (ten : Tenant) (k l : Nat) : Prop :=
  ∃ (m : ResolvedMap) (i : Nat) (e : FloorEntry), ten.map = some m ∧ m.body.floors[i]? = some e ∧
    m.floors[i]? = some .usable ∧ e.landing = l ∧ ∀ a, attrOf e.attr = some a → attrCovers a k = true

/-- R51's table: the head of a row belongs to tenant `n`, by the codes of the head kinds (12_layouts.md section 4). A text
panel is bound to its landing, or to its car where the landing is absent (R23). -/
def BelongsTo (g : BuildingConfig) (row : HeadRow) (n : Nat) : Prop :=
  n < 8 ∧ (((row.kind = 1 ∨ row.kind = 2 ∨ row.kind = 3 ∨ row.kind = 5) ∧ grantsCar g n row.car = true) ∨
    (row.kind = 4 ∧ row.owner = n ∧ grantsLanding g n row.landing = true) ∨
    (row.kind = 6 ∧ row.owner = n ∧
      ((row.landing ≠ 255 ∧ grantsLanding g n row.landing = true) ∨ (row.landing = 255 ∧ grantsCar g n row.car = true))))

/-- A label as its places show it (R65): its characters up to the first code 0, then spaces. -/
def LabelShows (n : Nat) (label shown : List Byte) : Prop :=
  shown.length = n ∧ ∀ j < n,
    ((∀ m, m ≤ j → label.getD m 0 ≠ 0) → shown.getD j 0 = label.getD j 0) ∧
    (∀ m, m ≤ j → label.getD m 0 = 0 → shown.getD j 0 = 32)

/-! ### What the layers and the next content hold -/

/-- The content that a line gives a head of a kind (R129): the forms of its Override Text that the kind takes, with the
line's number; a lantern is dark and holds no number. -/
def overrideOf (k : HeadKind) (l : Nat) (text : TwoForms) : OverrideContent :=
  match k with
  | .lantern => ⟨none, [], []⟩
  | .positionIndicator => ⟨some l, text.short, []⟩
  | .carPanel => ⟨some l, text.short, text.long⟩
  | .landingDestination | .kioskPrompt | .textPanel => ⟨some l, [], text.long⟩

/-- Is the head of a row a target head of a program of tenant `n` with this resolved target (R110)? -/
def TargetHead (g : BuildingConfig) (n : Nat) (target : Target) (row : HeadRow) : Prop :=
  headTenant g row = some n ∧ ∃ k, row.kind? = some k ∧ k ≠ .lantern ∧
    match target with
    | .empty => False
    | .landings set kinds => k ≠ .carPanel ∧ kinds.getLsbD (kindCode k) = true ∧ inSet set row.landing = true
    | .car c => k ≠ .kioskPrompt ∧ row.car = c

/-- Program `p` of tenant `n` has a share on the head of a row (R121). -/
def BearsOn (s : State) (n p : Nat) (row : HeadRow) : Prop :=
  (s.program n p).share ≠ .none ∧ TargetHead s.conf n (s.program n p).target row

/-- The notice layer of the head of a row (R112, R121): the lowest-numbered program with a share on it decides, and its text
shows in the form that the kind takes; a blank share, or none at all, leaves the layer empty. -/
structure NoticeIs (s : State) (row : HeadRow) (x : Option (List Byte)) : Prop where
  decided : ∀ n p, p < 8 → BearsOn s n p row → (∀ q < p, ¬ BearsOn s n q row) →
    (∀ f, (s.program n p).share = .text f →
      x = some (if row.kind? = some .positionIndicator then f.short else f.long)) ∧
    ((s.program n p).share = .blank → x = none)
  empty : (∀ n p, p < 8 → ¬ BearsOn s n p row) → x = none

/-- The park presentation of a deck of tenant `n` (R72). -/
structure ParkIs (n : Nat) (o : Options) (d : Deck) (x : PosDesc) : Prop where
  marked : o.park = 1 → x = .label ⟨d.lastShown, .none, .parked⟩
  text : o.park = 2 → ∀ i, o.parkText = some i → x = .store n i d.writes
  blank : o.park ≠ 1 → (o.park = 2 → o.parkText = none) → x = .empty

/-- Heads that take a position layer, of a car that an ACTIVE tenant has (R71). -/
def PositionFor (s : State) (row : HeadRow) (n : Nat) : Prop :=
  (row.kind? = some .positionIndicator ∨ row.kind? = some .carPanel) ∧ carTenant s.conf row.car = some n ∧
    (s.tenant n).active = true

/-- What the position layer of the head of a row presents (R71, R72): the shown label with arrow and mark of a TRACKING
deck, the out-of-service text, or the park presentation. -/
structure PositionIs (s : State) (row : HeadRow) (x : PosDesc) : Prop where
  shown : ∀ n, PositionFor s row n → (s.car row.car).tracking = .tracking →
    (s.deck row.car row.deck).mode ≠ .outOfService →
    x = .label ⟨(s.deck row.car row.deck).lastShown, (s.deck row.car row.deck).arrow, (s.deck row.car row.deck).mark⟩
  outOfService : ∀ n, PositionFor s row n → (s.car row.car).tracking = .tracking →
    (s.deck row.car row.deck).mode = .outOfService → ∀ i, (s.tenant n).options.oosText = some i →
    x = .store n i (s.deck row.car row.deck).writes
  park : ∀ n, PositionFor s row n → ((s.car row.car).tracking = .tracking →
    (s.deck row.car row.deck).mode = .outOfService ∧ (s.tenant n).options.oosText = none) →
    ParkIs n (s.tenant n).options (s.deck row.car row.deck) x
  empty : (∀ n, ¬ PositionFor s row n) → x = .empty

/-- A position layer holds what it was last written from (R72: a text has neither arrow nor mark), or it was emptied
since (R38, R39, R138). -/
def PositionHolds (x : PosDesc) (layer : Option PosText) : Prop :=
  layer = none ∨ ∃ text, layer = some text ∧
    match x with
    | .empty => False
    | .label shown => text = shown
    | .store _ _ _ => text.arrow = .none ∧ text.mark = .none

/-- The destinations of a board entry, each with the entry's direction. -/
def shownOf (l : List (Nat × Nat)) (d : Dir) : List (Nat × Dir) := l.map (fun x => (x.1, d))

/-- The destinations that a landing destination head shows, in ascending landing index (R94): those of both entries where
they are six at most, and otherwise those of the entry created earlier with the nearest of the other, which are the lowest
above the landing and the highest below it. -/
def LandingShown (s : State) (row : HeadRow) (shown : List (Nat × Dir)) : Prop :=
  shown.Pairwise (fun a b => a.1 ≤ b.1) ∧
  shown.Perm (match boardFind s row.landing row.car row.deck .up, boardFind s row.landing row.car row.deck .down with
    | none, none => []
    | some (_, u), none => shownOf u.destinations .up
    | none, some (_, d) => shownOf d.destinations .down
    | some (_, u), some (_, d) =>
      if u.destinations.length + d.destinations.length ≤ 6 then
        shownOf u.destinations .up ++ shownOf d.destinations .down
      else if d.created < u.created then
        shownOf d.destinations .down ++ shownOf (u.destinations.take (6 - d.destinations.length)) .up
      else shownOf u.destinations .up ++ shownOf (d.destinations.reverse.take (6 - u.destinations.length)) .down)

/-- How a landing destination head shows a destination (R94): the wheelchair mark stands while an ACCESSIBLE slot that is
TAKEN feeds it. -/
structure LandingItem (s : State) (row : HeadRow) (x : Nat × Dir) (i : DestItem) : Prop where
  label : i.label = landingLabel s.conf x.1
  arrow : i.arrow = dirArrow x.2
  closed : i.closed = s.closed x.1
  wheelchair : i.wheelchair = true ↔ ∃ n < 8, ∃ j < 64, (s.slot n j).state = .taken ∧ (s.slot n j).accessible = true ∧
    (s.slot n j).car = some row.car ∧ (s.slot n j).deck = some row.deck ∧ (s.slot n j).origin = some row.landing ∧
    (s.slot n j).direction = some x.2 ∧ (s.slot n j).destination = some x.1

/-- What the guidance layer of the head of a row presents (R93 to R95, R105): a lantern's announcement with its flash and
its chimes, a landing's destinations, a car panel's Aboard List, or a kiosk's two newest prompts, newest first. -/
structure GuidanceIs (s : State) (row : HeadRow) (prompts : List Prompt) (x : Option Guide) : Prop where
  empty : (∀ n, headTenant s.conf row = some n → (s.tenant n).active = false) ∨
    row.kind? = some .positionIndicator ∨ row.kind? = some .textPanel → x = none
  lantern : row.kind? = some .lantern → ∀ n, headTenant s.conf row = some n → (s.tenant n).active = true →
    x = if (s.deck row.car row.deck).announcement.landing = some row.landing then
        some (.lit (s.deck row.car row.deck).announcement.arrow (decide ((s.deck row.car row.deck).mode = .running))
          (chimes (s.deck row.car row.deck).announcement.arrow (s.deck row.car row.deck).announcement.accessible))
      else none
  landing : row.kind? = some .landingDestination → ∀ n, headTenant s.conf row = some n → (s.tenant n).active = true →
    ∃ shown items, LandingShown s row shown ∧ List.Forall₂ (LandingItem s row) shown items ∧
      x = if items = [] then none else some (.destinations items)
  panel : row.kind? = some .carPanel → ∀ n, headTenant s.conf row = some n → (s.tenant n).active = true →
    x = if s.aboardList row.car row.deck = [] then none
      else some (.destinations ((s.aboardList row.car row.deck).map
        (fun e => ⟨landingLabel s.conf e.1, .none, s.closed e.1, false⟩)))
  kiosk : row.kind? = some .kioskPrompt → ∀ n, headTenant s.conf row = some n → (s.tenant n).active = true →
    (prompts = [] → x = none) ∧ (∀ p, prompts = [p] → x = some (.prompts [promptItem p])) ∧
    ∀ older q p, prompts = older ++ [q, p] → x = some (.prompts [promptItem p, promptItem q])

/-- The blank of a position region: four spaces, no arrow, no mark. -/
def regionBlank : PosText := ⟨[32, 32, 32, 32], .none, .none⟩

/-- The main region, and the line's number, of a head that shows text (R140, R141). -/
structure MainIs (h : Head) (m : Main) (line : Option Nat) : Prop where
  override : h.presented = .override → ∀ o, h.override = some o → m = .text o.long ∧ line = o.line
  notice : h.presented = .notice → ∀ l, h.notice = some l → m = .text l
  destinations : h.presented = .guidance → ∀ l, h.guidance = some (.destinations l) → m = .destinations l
  prompts : h.presented = .guidance → ∀ l, h.guidance = some (.prompts l) → m = .prompts l
  blank : h.presented = .position ∨ h.presented = .idle → m = .blank
  line : h.presented ≠ .override → line = none

/-- The position region of a car panel (R140): the override's short form; else the position layer where the layer mask
admits it and it is non-empty; else blank. -/
structure RegionIs (row : HeadRow) (h : Head) (r : PosText) : Prop where
  override : h.presented = .override → ∀ o, h.override = some o → r = ⟨o.short, .none, .none⟩
  position : h.presented ≠ .override → row.layerMask.getLsbD 3 = true → ∀ x, h.position = some x → r = x
  blank : h.presented ≠ .override → (row.layerMask.getLsbD 3 = false ∨ h.position = none) → r = regionBlank

/-- What a position indicator shows (R141). -/
structure IndicatorIs (h : Head) (x : PosText) (line : Option Nat) : Prop where
  override : h.presented = .override → ∀ o, h.override = some o → x = ⟨o.short, .none, .none⟩ ∧ line = o.line
  notice : h.presented = .notice → ∀ l, h.notice = some l → x = ⟨l, .none, .none⟩
  position : h.presented = .position → h.position = some x
  blank : h.presented = .guidance ∨ h.presented = .idle → x = regionBlank
  line : h.presented ≠ .override → line = none

/-- The next content of a head of a kind (R140, R141). -/
def NextIs (k : HeadKind) (row : HeadRow) (h : Head) : Prop :=
  match k with
  | .positionIndicator => ∃ x line, h.next = .indicator x line ∧ IndicatorIs h x line
  | .lantern =>
    (h.presented = .guidance → ∀ a f n, h.guidance = some (.lit a f n) → h.next = .lantern true a f n) ∧
    (h.presented ≠ .guidance → h.next = .lantern false .none false 0)
  | .carPanel => ∃ r m line, h.next = .carPanel r m line ∧ RegionIs row h r ∧ MainIs h m line
  | .landingDestination | .kioskPrompt | .textPanel => ∃ m line, h.next = .panel m line ∧ MainIs h m line

/-- A head's layers and what follows from them: each layer holds what its unit writes (R71, R72, R93 to R95, R105, R121,
R129), where a position or guidance layer may have been emptied since (R38, R39, R138, assumption 50); the presented layer
is the highest non-empty one that the layer mask admits, or IDLE (R139); the next content is formed from it (R140, R141)
and compared (R142); and the brightness target is the one that the kind, the ceiling and the ambient reading give (R145).
`guidanceDesc` and `positionDesc` are the MODEL's own: what the two layers were last written from (assumption 27). -/
structure HeadLayersOk (s : State) (row : HeadRow) (h : Head) : Prop where
  override : h.override.isSome = true ↔ ∃ l < 4, Qualifies s row l
  overrideContent : ∀ l < 4, Qualifies s row l → (∀ m < l, ¬ Qualifies s row m) → ∀ k, row.kind? = some k →
    h.override = some (overrideOf k l (s.conf.text (s.conf.line l).text))
  notice : NoticeIs s row h.notice
  guidanceDesc : GuidanceIs s row h.prompts h.guidanceDesc
  guidance : h.guidance = h.guidanceDesc ∨ h.guidance = none
  positionDesc : PositionIs s row h.positionDesc
  position : PositionHolds h.positionDesc h.position
  presented : h.presented =
    if h.override.isSome ∧ row.layerMask.getLsbD 0 then .override
    else if h.notice.isSome ∧ row.layerMask.getLsbD 1 then .notice
    else if h.guidance.isSome ∧ row.layerMask.getLsbD 2 then .guidance
    else if h.position.isSome ∧ row.layerMask.getLsbD 3 then .position
    else .idle
  next : ∀ k, row.kind? = some k → NextIs k row h
  differs : h.differs = true ↔ h.confirmed ≠ some h.next
  target : (h.target : Int) =
    if h.presented = .override then (ceilingOf s : Int)
    else max 0 (min (max ((kindOf s row).lmin : Int) ((kindOf s row).offset +
      (((kindOf s row).gain * h.ambient.getD 128 / 64 : Nat) : Int))) (min (kindOf s row).lmax (ceilingOf s) : Nat))

/-- Every head whose row in the Head Table in force has one of the six kinds has its layers right. -/
def LayersOk (s : State) : Prop :=
  ∀ k h row, tableFind s.heads k = some h → s.conf.head k = some row → row.kind? ≠ none → HeadLayersOk s row h

/-- From `s` to `t`, a position layer newly written from a Text Store entry holds the entry's short form as it reads at the
write, with neither arrow nor mark (R72); a tenant's header may have emptied the layer (R38, R39, assumption 50). -/
def TextsRead (s t : State) : Prop :=
  ∀ k x row, tableFind t.heads k = some x → t.conf.head k = some row → row.kind? ≠ none →
    ∀ n < 8, ∀ i < 64, ∀ w, x.positionDesc = .store n i w →
      (∀ h, tableFind s.heads k = some h → h.positionDesc ≠ .store n i w) →
      x.position = some ⟨(readText t.ram n i).short, .none, .none⟩ ∨
      (x.position = none ∧ ∃ m rest, s.pending = .sweepReadTenantHeader m :: rest)

/-! ### Published records (R5) -/

/-- A record that the hub has. -/
def RecordOk : RecordId → Prop
  | .buildingStatus => True
  | .carState c => c < 64
  | .headStatus k => k < 992
  | .boardPlace i => i < 384
  | .tenantStatus t => t < 8
  | .slotHalf t i => t < 8 ∧ i < 64
  | .runState t p => t < 8 ∧ p < 8
  | .aboardRow t i k => t < 8 ∧ i < 16 ∧ k < 2

/-- The bytes of a record from its lead stamp to the end of its tail stamp's word (12_layouts.md section 3): Building
Status has two unused bytes there. -/
def recordSize : RecordId → Nat
  | .buildingStatus => 608
  | .carState _ => 64
  | .headStatus _ => 16
  | .boardPlace _ => 32
  | .tenantStatus _ => 128
  | .slotHalf _ _ => 32
  | .runState _ _ => 96
  | .aboardRow _ _ _ => 128

/-- A byte of a record. -/
def InRecord (r : RecordId) (a : Nat) : Prop := leadAddress r ≤ a ∧ a < leadAddress r + recordSize r

/-- The record's bytes are its stamp, the body as the hub holds it, the stamp again, and 0 in the unused bytes of the tail
stamp's word (R174). -/
def ShowsRecord (t : State) (r : RecordId) : Prop :=
  memBytes t.ram (leadAddress r) (recordSize r) =
    u16 (tableGet 0 t.stamps (leadAddress r)).toNat ++ recordBody t r ++
      u16 (tableGet 0 t.stamps (leadAddress r)).toNat ++ List.replicate (if r = .buildingStatus then 2 else 0) 0

/-- From `s` to `t` the record had one published write: its stamp rose by 1, and its bytes show it as `t` holds it. -/
def Published (s t : State) (r : RecordId) : Prop :=
  tableGet 0 t.stamps (leadAddress r) = tableGet 0 s.stamps (leadAddress r) + 1 ∧ ShowsRecord t r

/-- The Lock register's copy in Building Status (R13, R35): a change of HOLD or FIXED makes one published write of the
record and no other byte changes; no change leaves the state as it was. -/
def LockCopied (s t : State) : Prop :=
  (if t.hold = s.hold ∧ t.fixed = s.fixed then t = s
   else Published s t .buildingStatus ∧ ∀ a, ¬ InRecord .buildingStatus a → memGet t.ram a = memGet s.ram a) ∧
  ((recordBody t .buildingStatus).getD 1 0).getLsbD 3 = t.hold ∧
  ((recordBody t .buildingStatus).getD 1 0).getLsbD 4 = t.fixed

/-- Commands whose event ends with one published write of each record that it changed (R5): all but the two resets with the
zero-fill, which publish by R3 and R15, and the host's own write. -/
def publishesChanges : Instr → Bool
  | .powerOnResetAssert | .powerOnResetRelease | .zeroFillCompletion | .portReset | .portResetCompletion => false
  | .sharedRamWrite _ _ => false
  | _ => true

/-- The records that a command may publish though they read as before: a header's Tenant Status (R37), a report's Car State
(R58), and Building Status at the end of a side-band word (R127). -/
def Republishes (s : State) : Instr → RecordId → Prop
  | .sweepReadTenantHeader n, r => r = .tenantStatus n
  | .sweepReadCarReport n i, r => ∃ c, reportCar s n i = some c ∧ r = .carState c
  | .sideBandWord, r => r = .buildingStatus
  | _, _ => False

/-- A byte of a fault list's entries: the Supervisor Fault List's, or a tenant area's (R54). -/
def faultByte (a : Nat) : Bool :=
  (0x6400 ≤ a && a < 0x6C00) ||
  (0x10000 ≤ a && a < 0x40000 && 0x3400 ≤ (a - 0x10000) % 0x6000 && (a - 0x10000) % 0x6000 < 0x3800)

/-! ### The layouts of the records (R174, 12_layouts.md) -/

/-- The first byte of the record whose offsets the tables of 12_layouts.md section 3 count: of a slot and of a program it is
the first byte of the host half. -/
def recordStart : RecordId → Nat
  | .buildingStatus => 0x4
  | .carState c => 0x8000 + 64 * c
  | .headStatus k => 0x9000 + 16 * k
  | .boardPlace i => 0xD000 + 32 * i
  | .tenantStatus t => 0x10000 + 0x6000 * t + 0x80
  | .slotHalf t i => 0x10000 + 0x6000 * t + 0x800 + 64 * i
  | .runState t p => 0x10000 + 0x6000 * t + 0x1800 + 256 * p
  | .aboardRow t i k => 0x10000 + 0x6000 * t + 0x3800 + 256 * i + 128 * k

/-- The offset of the first byte of a record's body, after its lead stamp. -/
def bodyOffset : RecordId → Nat
  | .slotHalf _ _ => 34
  | .runState _ _ => 162
  | _ => 2

/-- The number that a run of bytes holds at the `n` bytes from offset `o`, where the run's first byte is at offset `first`:
the least significant byte first. -/
def fieldIn (bytes : List Byte) (first o n : Nat) : Nat :=
  (List.range n).foldr (fun i v => (bytes.getD (o + i - first) 0).toNat + 256 * v) 0

/-- The field of `n` bytes at offset `o` of a record, as the hub holds it. -/
def field (s : State) (r : RecordId) (o n : Nat) : Nat := fieldIn (recordBody s r) (bodyOffset r) o n

/-- An optional 8-bit field, and a stamp or hub time: 0 where it is absent (R174). -/
def byteOr (o : Option Nat) : Nat :=
  match o with
  | none => 0xFF
  | some v => v % 256
def stampOr (o : Option Stamp) : Nat :=
  match o with
  | none => 0
  | some v => v.toNat
def timeOr (o : Option Time) : Nat :=
  match o with
  | none => 0
  | some v => v.toNat

/-- The flag bits of one byte, from bit 0; the bits beyond are 0. -/
def FlagsAt (v : Nat) (l : List Bool) : Prop := ∀ i < 8, v.testBit i = l.getD i false

/-- A head with a content turn in flight (R156). A cut turn is in flight no more while its break is sent (assumption 62). -/
def ContentInFlight (s : State) (k : Nat) : Prop :=
  let f := (s.trunk (keyTrunk k)).flight
  ∃ u, (f = .sending u ∨ f = .window u ∨ f = .receiving u ∨ f = .copyGap u) ∧ u.address = keyAddress k ∧
    u.orphan = false ∧ (u.kind = .content ∨ u.kind = .quick)

/-- One deck of Car State at offset `o` (12_layouts.md 3.4). The parts of deck 1 of a car that has none read NONE and absent
(R76); its label, arrow and mark are those the deck keeps (assumption 51). A car that is not TRACKING shows the arrow and mark
of its park presentation (assumption 9), and a TRACKING deck in OUT_OF_SERVICE the label that R65 chooses (assumption 25). -/
structure DeckFields (s : State) (c k o : Nat) : Prop where
  shows : k = 0 ∨ ((s.conf.car c).present = 1 ∧ (s.conf.car c).deckCount = 2) →
    field s (.carState c) o 1 = modeCode (s.deck c k).mode ∧
    field s (.carState c) (o + 1) 1 = byteOr (s.deck c k).landing ∧
    field s (.carState c) (o + 2) 1 = byteOr (s.deck c k).commit ∧
    field s (.carState c) (o + 3) 1 = byteOr (s.deck c k).announcement.landing
  without : k ≠ 0 → ¬ ((s.conf.car c).present = 1 ∧ (s.conf.car c).deckCount = 2) →
    field s (.carState c) o 1 = 0 ∧ field s (.carState c) (o + 1) 3 = 0xFFFFFF
  label : ∀ j < 4, field s (.carState c) (o + 4 + j) 1 =
    ((if (s.car c).tracking = .tracking ∧ (s.deck c k).mode = .outOfService then sourcePlaces s.conf (s.deck c k).shown
      else (s.deck c k).lastShown).getD j 32).toNat
  tracking : (s.car c).tracking = .tracking →
    field s (.carState c) (o + 8) 1 = arrowCode (s.deck c k).arrow ∧
    field s (.carState c) (o + 9) 1 = posMarkCode (s.deck c k).mark
  park : (s.car c).tracking ≠ .tracking → field s (.carState c) (o + 8) 1 = 0 ∧
    field s (.carState c) (o + 9) 1 = match carTenant s.conf c with
      | some n => if (s.tenant n).active = true ∧ (s.tenant n).options.park = 1 then 0x85 else 0
      | none => 0
  unused : field s (.carState c) (o + 10) 6 = 0

/-- Car State (12_layouts.md 3.4). -/
structure CarFields (s : State) (c : Nat) : Prop where
  state : field s (.carState c) 2 1 = trackingCode (s.car c).tracking
  anchor : FlagsAt (field s (.carState c) 3 1) [(s.car c).anchor]
  runCount : field s (.carState c) 4 1 = (s.car c).runCount % 256
  reporter : field s (.carState c) 5 1 = byteOr (s.car c).tenant ∧ field s (.carState c) 6 1 = byteOr (s.car c).tenantCar
  marks : FlagsAt (field s (.carState c) 7 1)
    [(s.car c).arriveMark, (s.car c).doorMark, (s.car c).departMark, (s.car c).parkMark]
  stamp : field s (.carState c) 8 2 = if (s.car c).tenant = none then 0 else (s.car c).stamp.toNat
  overrun : FlagsAt (field s (.carState c) 10 1) [(s.car c).overrun]
  time : field s (.carState c) 12 4 = (s.car c).time.toNat
  decks : DeckFields s c 0 16 ∧ DeckFields s c 1 32
  unused : field s (.carState c) 11 1 = 0 ∧ field s (.carState c) 48 14 = 0

/-- Head Status (12_layouts.md 3.8); every field of an ABSENT head reads 0 (R168). -/
structure HeadFields (s : State) (k : Nat) : Prop where
  absent : tableFind s.heads k = none → field s (.headStatus k) 2 12 = 0
  link : ∀ h, tableFind s.heads k = some h → field s (.headStatus k) 2 1 % 16 = linkCode (some h.link)
  content : ∀ h, tableFind s.heads k = some h → field s (.headStatus k) 2 1 / 16 ≤ 2 ∧
    (field s (.headStatus k) 2 1 / 16 = 2 ↔ ContentInFlight s k) ∧
    (¬ ContentInFlight s k → (field s (.headStatus k) 2 1 / 16 = 1 ↔ h.differs = true))
  flags : ∀ h, tableFind s.heads k = some h → FlagsAt (field s (.headStatus k) 3 1)
    [h.needsReload, h.busy, decide (h.ambient ≠ none), h.everLost, h.everFailed]
  counts : ∀ h, tableFind s.heads k = some h → field s (.headStatus k) 4 1 = h.missRun % 256 ∧
    field s (.headStatus k) 8 2 = h.misses % 65536 ∧ field s (.headStatus k) 10 2 = h.busyCount % 65536 ∧
    field s (.headStatus k) 12 2 = h.crcErrors % 65536
  tags : ∀ h, tableFind s.heads k = some h → field s (.headStatus k) 5 1 % 16 = h.sentTag.toNat ∧
    field s (.headStatus k) 5 1 / 16 = h.echo.toNat
  light : ∀ h, tableFind s.heads k = some h → field s (.headStatus k) 6 1 = h.ambient.getD 0 % 256 ∧
    field s (.headStatus k) 7 1 = h.level % 256

/-- Tenant Status (12_layouts.md 3.2). -/
structure TenantFields (s : State) (n : Nat) : Prop where
  flags : FlagsAt (field s (.tenantStatus n) 2 1) [(s.tenant n).active] ∧
    FlagsAt (field s (.tenantStatus n) 3 1) [(s.tenant n).map.isSome] ∧
    FlagsAt (field s (.tenantStatus n) 12 1) [(s.tenant n).headerStamp.isSome, (s.tenant n).markBase.isSome]
  stamps : field s (.tenantStatus n) 4 2 = stampOr (s.tenant n).headerStamp ∧
    field s (.tenantStatus n) 6 2 = stampOr ((s.tenant n).map.map (·.stamp)) ∧
    field s (.tenantStatus n) 10 2 = stampOr (s.tenant n).markBase
  counts : field s (.tenantStatus n) 8 1 = (s.tenant n).rangeCount % 256 ∧
    field s (.tenantStatus n) 9 1 = (s.tenant n).grantCount % 256 ∧
    field s (.tenantStatus n) 34 2 = (s.tenant n).torn % 65536 ∧
    field s (.tenantStatus n) 36 4 = (s.tenant n).sweepCount.toNat ∧
    field s (.tenantStatus n) 40 4 = (s.tenant n).faults.sequence.toNat ∧
    field s (.tenantStatus n) 44 2 = (s.tenant n).faults.dropped % 65536
  options : let o := (s.tenant n).options
    field s (.tenantStatus n) 13 1 = o.express % 256 ∧ field s (.tenantStatus n) 14 2 = o.landingZone % 65536 ∧
    field s (.tenantStatus n) 16 2 = o.hysteresis % 65536 ∧ field s (.tenantStatus n) 18 2 = o.freshness % 65536 ∧
    field s (.tenantStatus n) 20 2 = o.promptHold % 65536 ∧ field s (.tenantStatus n) 22 2 = o.boardingLimit % 65536 ∧
    field s (.tenantStatus n) 24 2 = o.rideLimit % 65536 ∧
    (∀ j < 4, field s (.tenantStatus n) (26 + j) 1 = (o.glyph.getD j 32).toNat) ∧
    field s (.tenantStatus n) 30 1 = o.park % 256 ∧ field s (.tenantStatus n) 31 1 = byteOr o.parkText ∧
    field s (.tenantStatus n) 32 1 = byteOr o.oosText ∧ FlagsAt (field s (.tenantStatus n) 33 1) [o.refuseClosed]
  unused : field s (.tenantStatus n) 46 80 = 0

/-- The hub half of a slot (12_layouts.md 3.5). -/
structure SlotFields (s : State) (n i : Nat) : Prop where
  seen : field s (.slotHalf n i) 34 2 = stampOr (s.slot n i).seen ∧
    FlagsAt (field s (.slotHalf n i) 47 1) [(s.slot n i).seen.isSome]
  state : field s (.slotHalf n i) 36 1 = slotCode (s.slot n i).state ∧
    field s (.slotHalf n i) 37 1 = byteOr ((s.slot n i).outcome.map outcomeCode) ∧
    field s (.slotHalf n i) 38 1 = byteOr ((s.slot n i).reason.map refusedCode) ∧
    field s (.slotHalf n i) 39 1 = byteOr ((s.slot n i).result.map resultCode)
  resolved : field s (.slotHalf n i) 40 1 = byteOr (s.slot n i).car ∧
    field s (.slotHalf n i) 41 1 = byteOr (s.slot n i).deck ∧ field s (.slotHalf n i) 42 1 = byteOr (s.slot n i).origin ∧
    field s (.slotHalf n i) 43 1 = byteOr (s.slot n i).destination ∧
    field s (.slotHalf n i) 44 1 = byteOr ((s.slot n i).direction.map dirCode)
  party : field s (.slotHalf n i) 45 1 = (s.slot n i).party % 256 ∧
    FlagsAt (field s (.slotHalf n i) 46 1) [(s.slot n i).accessible]
  times : field s (.slotHalf n i) 48 4 = (s.slot n i).takeTime.toNat ∧
    field s (.slotHalf n i) 52 4 = (s.slot n i).boardTime.toNat
  unused : field s (.slotHalf n i) 56 6 = 0

/-- The number of the entries of a Head Table that are target heads of a program of tenant `n` (R110, R122). -/
def TargetHeads (g : BuildingConfig) (n : Nat) (target : Target) (count : Nat) : Prop :=
  ∃ marks : List Bool, List.Forall₂ (fun e b => b = true ↔ TargetHead g n target e.2) g.heads marks ∧
    count = marks.count true

/-- The run state of a notice program (12_layouts.md 3.7, R122). -/
structure RunFields (s : State) (n p : Nat) : Prop where
  state : field s (.runState n p) 162 1 = programCode (s.program n p).state ∧
    field s (.runState n p) 163 1 = byteOr (s.program n p).current ∧
    field s (.runState n p) 164 1 = (s.program n p).zeroTime % 256 ∧
    field s (.runState n p) 165 1 = byteOr ((s.program n p).cause.map causeCode)
  waiting : field s (.runState n p) 166 1 = byteOr ((s.program n p).waiting.map (fun w => markCode w.2)) ∧
    field s (.runState n p) 167 1 = byteOr ((s.program n p).waiting.map (·.1))
  times : field s (.runState n p) 168 4 = timeOr (s.program n p).expiry ∧
    field s (.runState n p) 172 4 = (s.program n p).start.toNat
  targets : ∃ count, TargetHeads s.conf n (s.program n p).target count ∧
    field s (.runState n p) 176 2 = count % 65536
  baselines : field s (.runState n p) 178 2 = stampOr (s.program n p).runBase ∧
    field s (.runState n p) 180 2 = stampOr (s.program n p).stopBase ∧
    FlagsAt (field s (.runState n p) 182 1)
      [(s.program n p).expiry.isSome, (s.program n p).runBase.isSome, (s.program n p).stopBase.isSome]
  counters : ∀ i < 12, field s (.runState n p) (184 + i) 1 = tableGet 0 (s.program n p).counters i % 256
  unused : field s (.runState n p) 183 1 = 0 ∧ field s (.runState n p) 196 58 = 0

/-- The destinations and counts of a mirror from offsets `o` and `c`, room for `n`; the places beyond the list's end hold 0
(assumption 59). -/
def ListFields (s : State) (r : RecordId) (n o c : Nat) (l : List (Nat × Nat)) : Prop :=
  ∀ j < n, field s r (o + j) 1 = (l.getD j (0, 0)).1 % 256 ∧ field s r (c + 2 * j) 2 = (l.getD j (0, 0)).2 % 65536

/-- A Board Table mirror place (12_layouts.md 3.11). -/
structure BoardFields (s : State) (i : Nat) : Prop where
  free : tableFind s.board i = none → field s (.boardPlace i) 2 28 = 0
  entry : ∀ e, tableFind s.board i = some e → field s (.boardPlace i) 2 1 = 1 ∧
    field s (.boardPlace i) 3 1 = e.landing % 256 ∧ field s (.boardPlace i) 4 1 = e.car % 256 ∧
    field s (.boardPlace i) 5 1 = e.deck % 256 ∧ field s (.boardPlace i) 6 1 = dirCode e.direction ∧
    field s (.boardPlace i) 7 1 = e.tenant % 256 ∧ field s (.boardPlace i) 8 1 = e.destinations.length % 256 ∧
    ListFields s (.boardPlace i) 6 10 16 e.destinations
  unused : field s (.boardPlace i) 9 1 = 0 ∧ field s (.boardPlace i) 28 2 = 0

/-- An Aboard mirror row (12_layouts.md 3.11): the Aboard List of the car that the tenant car resolves to, or an empty list
(R91). -/
structure AboardFields (s : State) (n i k : Nat) : Prop where
  list : let l := match resolveCar (s.tenant n) i with
      | .ok c => s.aboardList c k
      | .error _ => []
    field s (.aboardRow n i k) 2 1 = l.length % 256 ∧ ListFields s (.aboardRow n i k) 24 4 28 l
  unused : field s (.aboardRow n i k) 3 1 = 0 ∧ field s (.aboardRow n i k) 76 50 = 0

/-- One line of a trunk in Building Status at offset `o` (12_layouts.md 3.9). -/
structure LineFields (s : State) (o : Nat) (x : TrunkLine) : Prop where
  state : field s .buildingStatus o 1 = (if x.shut = none then 0 else 1) ∧
    field s .buildingStatus (o + 1) 1 = byteOr (x.shut.map shutCode)
  run : field s .buildingStatus (o + 2) 1 = x.loopRun % 256 ∧
    FlagsAt (field s .buildingStatus (o + 3) 1) [x.loopErr, x.watchdog]
  time : field s .buildingStatus (o + 4) 4 = if x.shut = none then 0 else x.shutTime.toNat

/-- Building Status (12_layouts.md 3.9, R35). With no refused generation its stamp reads 0 and its item's fields read absent
(assumption 8). -/
structure BuildingFields (s : State) : Prop where
  flags : FlagsAt (field s .buildingStatus 2 1) [s.configured] ∧
    FlagsAt (field s .buildingStatus 3 1) [s.config.validating.isSome, s.config.refused.isSome,
      s.config.lockedStamp.isSome, s.hold, s.fixed, s.config.accepted.isSome, s.orders.stamp.isSome]
  stamps : field s .buildingStatus 4 2 = stampOr s.config.accepted ∧
    field s .buildingStatus 6 2 = stampOr (s.config.refused.map (·.1)) ∧
    field s .buildingStatus 12 2 = stampOr s.config.lockedStamp ∧ field s .buildingStatus 14 2 = stampOr s.orders.stamp
  item : (s.config.refused = none → field s .buildingStatus 8 4 = 0xFFFFFFFF) ∧
    ∀ st o, s.config.refused = some (st, o) → field s .buildingStatus 8 1 = partCode o.part ∧
      field s .buildingStatus 9 1 = o.check.toNat ∧
      field s .buildingStatus 10 2 = match o.entry with
        | none => 0xFFFF
        | some e => e.toNat
  counts : field s .buildingStatus 16 2 = s.torn % 65536 ∧ field s .buildingStatus 18 2 = s.badWords % 65536 ∧
    field s .buildingStatus 20 4 = s.faults.sequence.toNat ∧ field s .buildingStatus 24 2 = s.faults.dropped % 65536
  overrideLines : ∀ l < 4, let o := 28 + 16 * l
    field s .buildingStatus o 1 = lineStateCode (s.line l).state ∧
    FlagsAt (field s .buildingStatus (o + 1) 1) [(s.line l).pin, s.orders.tests.getLsbD l, (s.line l).expiry.isSome,
      (s.line l).word.isSome] ∧
    field s .buildingStatus (o + 2) 2 = (s.line l).zones.toNat ∧
    field s .buildingStatus (o + 4) 2 = (match (s.line l).word with
      | none => 0
      | some z => z.toNat) ∧
    field s .buildingStatus (o + 6) 2 = 0 ∧ field s .buildingStatus (o + 8) 4 = timeOr (s.line l).expiry ∧
    field s .buildingStatus (o + 12) 4 = 0
  trunks : ∀ n < 16, let o := 92 + 32 * n
    field s .buildingStatus o 1 = trunkCode (s.trunk n).state ∧
    field s .buildingStatus (o + 1) 1 =
      (if (s.trunk n).state = .running then byteOr ((s.trunk n).active.map lineIdCode) else 0xFF) ∧
    FlagsAt (field s .buildingStatus (o + 2) 1) [(s.trunk n).recovery.isSome] ∧
    field s .buildingStatus (o + 3) 1 = 0 ∧ field s .buildingStatus (o + 4) 4 = timeOr (s.trunk n).recovery ∧
    LineFields s (o + 8) (s.trunk n).lineA ∧ LineFields s (o + 16) (s.trunk n).lineB ∧
    field s .buildingStatus (o + 24) 8 = 0
  unused : field s .buildingStatus 26 2 = 0

/-- A fault entry's record (12_layouts.md 3.6, R52): its body begins at offset 6. The stage is present for a MAP and a GRANT
fault. -/
structure FaultFields (r : FaultRecord) : Prop where
  length : (faultBody r).length = 24
  owner : fieldIn (faultBody r) 6 6 1 = byteOr r.tenant
  cause : fieldIn (faultBody r) 6 7 1 = classCode r.cause ∧ fieldIn (faultBody r) 6 12 1 = causeCode r.cause ∧
    fieldIn (faultBody r) 6 13 1 = (if classCode r.cause = 1 then 1 else if classCode r.cause = 2 then 2 else 0xFF)
  sequence : fieldIn (faultBody r) 6 8 4 = r.sequence.toNat
  source : fieldIn (faultBody r) 6 14 1 = sourceCode r.source ∧ fieldIn (faultBody r) 6 15 1 = byteOr r.indexA ∧
    fieldIn (faultBody r) 6 16 2 = (match r.indexB with
      | none => 0xFFFF
      | some v => v % 65536)
  values : fieldIn (faultBody r) 6 18 2 = r.logical % 65536 ∧
    fieldIn (faultBody r) 6 20 2 = (match r.building with
      | none => 0xFFFF
      | some v => v % 65536) ∧
    fieldIn (faultBody r) 6 22 2 = (match r.count with
      | none => 0xFFFF
      | some v => v % 65536)
  time : fieldIn (faultBody r) 6 24 4 = r.time.toNat
  unused : fieldIn (faultBody r) 6 28 2 = 0

/-- The codes that the hub writes (12_layouts.md section 4). -/
def CodesWritten : Prop :=
  [Tracking.acquiring, .tracking, .parked].map trackingCode = [0, 1, 2] ∧
  [DeckMode.none, .at, .running, .between, .inspection, .outOfService].map modeCode = [0, 1, 2, 3, 4, 5] ∧
  [Arrow.none, .up, .down].map arrowCode = [0, 1, 2] ∧ [Dir.up, .down].map dirCode = [0, 1] ∧
  [PosMark.none, .parked, .inspection].map posMarkCode = [0, 0x85, 0x86] ∧
  [Mark.arrive, .door, .depart, .park].map markCode = [0, 1, 2, 3] ∧
  [none, some LinkState.unknown, some .online, some .failed, some .lost].map linkCode = [0, 1, 2, 3, 4] ∧
  [SlotState.idle, .taken, .boarded, .retired].map slotCode = [0, 1, 2, 3] ∧
  [Outcome.refused, .cancelled, .delivered, .listFull, .expired, .reconfigured, .revoked, .reset, .restart].map
    outcomeCode = [1, 2, 3, 4, 5, 6, 7, 8, 9] ∧
  [Refused.map, .grant, .sameLanding, .notServed, .restricted, .boardFull, .quota].map refusedCode =
    [1, 2, 3, 4, 5, 6, 7] ∧
  [RequestResult.accepted, .conflict, .late].map resultCode = [0, 1, 2] ∧
  [ProgramState.idle, .running, .waiting, .done, .faulted].map programCode = [0, 1, 2, 3, 4] ∧
  [Cause.floorUnmapped, .carUnmapped, .kioskUnmapped, .entryRange, .textIndex, .stepKind, .stepRange, .loop,
    .requestConflict, .landingNotGranted, .carNotGranted, .headNotGranted, .configRefused, .lockedChange].map causeCode =
    [1, 2, 3, 4, 5, 6, 7, 8, 9, 10, 11, 12, 13, 14] ∧
  [Cause.floorUnmapped, .carUnmapped, .kioskUnmapped, .entryRange, .textIndex, .stepKind, .stepRange, .loop,
    .requestConflict, .landingNotGranted, .carNotGranted, .headNotGranted, .configRefused, .lockedChange].map classCode =
    [1, 1, 1, 1, 3, 3, 3, 3, 3, 2, 2, 2, 4, 4] ∧
  [SourceKind.carReport, .slot, .program, .map, .header, .configuration].map sourceCode = [1, 2, 3, 4, 5, 6] ∧
  [ConfigPart.header, .floor, .car, .head, .grant, .trunk, .kind, .restriction, .overrideLine, .overrideText].map
    partCode = [1, 2, 3, 4, 5, 6, 7, 8, 9, 10] ∧
  [LineState.idle, .pendingOn, .active, .pendingOff].map lineStateCode = [0, 1, 2, 3] ∧
  [TrunkState.off, .running, .down].map trunkCode = [0, 1, 2] ∧ [LineId.a, .b].map lineIdCode = [0, 1] ∧
  [ShutCause.loop, .watchdog, .ordered].map shutCode = [1, 2, 3] ∧
  [HeadKind.positionIndicator, .lantern, .landingDestination, .kioskPrompt, .carPanel, .textPanel].map kindCode =
    [1, 2, 3, 4, 5, 6]

/-! ### The reads of the host's records (R174, 12_layouts.md sections 2 and 3) -/

/-- The numbers of one, two and four bytes at an address, the least significant byte first, and bit `i` of a set there. -/
def byteAt (m : Memory) (a : Nat) : Nat := (memGet m a).toNat
def pairAt (m : Memory) (a : Nat) : Nat := byteAt m a + 256 * byteAt m (a + 1)
def quadAt (m : Memory) (a : Nat) : Nat := pairAt m a + 65536 * pairAt m (a + 2)
def bitAt (m : Memory) (a i : Nat) : Bool := (memGet m (a + i / 8)).getLsbD (i % 8)

/-- The bytes of a list are those from an address. -/
def BytesAt (m : Memory) (a n : Nat) (l : List Byte) : Prop := l.length = n ∧ ∀ i < n, l.getD i 0 = memGet m (a + i)

/-- A two's complement number of `n` bits. -/
def signedOf (n v : Nat) : Int := if v < 2 ^ (n - 1) then v else v - 2 ^ n

/-- A code of display text as it shows: a space where it is neither printable nor a glyph. -/
def shownByte (b : Byte) : Byte :=
  if (32 ≤ b.toNat ∧ b.toNat ≤ 126) ∨ (128 ≤ b.toNat ∧ b.toNat ≤ 143) then b else 32

/-- The lead and tail stamps of a record are the pairs at these addresses. -/
def TwinAt (m : Memory) (lead tail : Nat) (x : Stamps) : Prop :=
  x.lead.toNat = pairAt m lead ∧ x.tail.toNat = pairAt m tail

/-- A Head Table row as the shared RAM holds it (12_layouts.md 3.8). -/
def RowAt (m : Memory) (a : Nat) (r : HeadRow) : Prop :=
  r.kind = byteAt m a ∧ r.zone = byteAt m (a + 1) ∧ r.immunity = memGet m (a + 2) ∧ r.layerMask = memGet m (a + 3) ∧
  r.landing = byteAt m (a + 4) ∧ r.car = byteAt m (a + 5) ∧ r.deck = byteAt m (a + 6) ∧ r.owner = byteAt m (a + 7)

/-- The Building Configuration as the shared RAM holds it (12_layouts.md section 2); the Head Table lists the rows whose kind
is not NONE (R23). -/
structure ConfigurationAt (m : Memory) (g : BuildingConfig) : Prop where
  header : g.floorCount = byteAt m 0x1002 ∧ g.dayCeiling = byteAt m 0x1003 ∧ g.nightCeiling = byteAt m 0x1004 ∧
    g.sweepPeriod = pairAt m 0x1006
  lengths : g.floors.length = 192 ∧ g.cars.length = 64 ∧ g.grants.length = 8 ∧ g.trunks.length = 16 ∧
    g.kinds.length = 6 ∧ g.restrictions.length = 64 ∧ g.lines.length = 4 ∧ g.texts.length = 16
  floors : ∀ i < 192, let a := 0x1040 + 16 * i
    (g.floor i).height = quadAt m a ∧ BytesAt m (a + 4) 4 (g.floor i).label
  cars : ∀ c < 64, let a := 0x1C40 + 16 * c
    (g.car c).present = byteAt m a ∧ (g.car c).deckCount = byteAt m (a + 1) ∧ BytesAt m (a + 2) 2 (g.car c).label ∧
    (g.car c).spacing = pairAt m (a + 4) ∧ (g.car c).deceleration = pairAt m (a + 6) ∧
    (g.car c).reaction = pairAt m (a + 8) ∧ (g.car c).vmax = pairAt m (a + 10)
  heads : KeysBelow 992 g.heads ∧ ∀ n < 16, ∀ x, 1 ≤ x → x ≤ 62 → let a := 0x2040 + 8 * (62 * n + x - 1)
    (byteAt m a = 0 → g.head (headKey n x) = none) ∧
    (byteAt m a ≠ 0 → ∃ r, g.head (headKey n x) = some r ∧ RowAt m a r)
  grants : ∀ t < 8, let a := 0x3F40 + 64 * t
    (∀ l < 192, (g.grant t).landings.getLsbD l = bitAt m a l) ∧
    (∀ c < 64, (g.grant t).cars.getLsbD c = bitAt m (a + 24) c) ∧ (g.grant t).quota = pairAt m (a + 32) ∧
    ∀ b < 16, (g.grant t).routing.getLsbD b = bitAt m (a + 34) b
  trunks : ∀ n < 16, let a := 0x4140 + 16 * n
    (g.trunk n).enabled = byteAt m a ∧ (g.trunk n).speed = byteAt m (a + 1) ∧ (g.trunk n).window = byteAt m (a + 2) ∧
    (g.trunk n).recovery = pairAt m (a + 4)
  kinds : ∀ i < 6, let a := 0x4240 + 16 * i
    let k := g.kinds.getD i {}
    k.poll = pairAt m a ∧ k.offset = signedOf 8 (byteAt m (a + 2)) ∧ k.gain = byteAt m (a + 3) ∧
    k.lmin = byteAt m (a + 4) ∧ k.lmax = byteAt m (a + 5)
  restrictions : ∀ i < 64, let a := 0x42A0 + 16 * i
    let r := g.restrictions.getD i {}
    r.landing = byteAt m a ∧ r.mode = byteAt m (a + 1) ∧ ∀ c < 64, r.cars.getLsbD c = bitAt m (a + 8) c
  lines : ∀ l < 4, let a := 0x46A0 + 16 * l
    (∀ z < 16, (g.line l).zones.getLsbD z = bitAt m a z ∧ (g.line l).permitted.getLsbD z = bitAt m (a + 2) z) ∧
    (g.line l).sideBand = byteAt m (a + 4) ∧ (g.line l).text = byteAt m (a + 5) ∧ (g.line l).kill = byteAt m (a + 6) ∧
    (g.line l).onTime = pairAt m (a + 8) ∧ (g.line l).offTime = pairAt m (a + 10)
  texts : ∀ i < 16, let a := 0x46E0 + 80 * i
    BytesAt m a 72 (g.text i).long ∧ BytesAt m (a + 72) 4 (g.text i).short

/-- The Building Orders (12_layouts.md 3.10), with the code of each line order as written. -/
structure OrdersAt (m : Memory) (r : OrdersRecord) : Prop where
  night : r.night = byteAt m 0x6002
  tests : ∀ l < 4, r.tests.getLsbD l = bitAt m 0x6003 l
  lines : r.lines.length = 32 ∧ ∀ n < 16, ∀ l, r.lines.getD (2 * n + lineIdCode l) 2 =
    byteAt m (match l with
      | .a => 0x6004 + 2 * n
      | .b => 0x6005 + 2 * n)
  closed : ∀ l < 192, r.closed.getLsbD l = bitAt m 0x6024 l
  restore : r.restore.length = 16 ∧ ∀ n < 16, (r.restore.getD n 0).toNat = pairAt m (0x603C + 2 * n)
  historyClear : r.historyClear.toNat = pairAt m 0x605C

/-- The Tenant Header of tenant `n` (12_layouts.md 3.1). -/
structure HeaderAt (m : Memory) (n : Nat) (h : HeaderRecord) : Prop where
  flags : let a := 0x10000 + 0x6000 * n
    h.enable = byteAt m (a + 2) ∧ h.express = byteAt m (a + 3) ∧ h.park = byteAt m (a + 20) ∧
    h.parkText = byteAt m (a + 21) ∧ h.oosText = byteAt m (a + 22) ∧ h.refuseClosed = byteAt m (a + 23)
  values : let a := 0x10000 + 0x6000 * n
    h.landingZone = pairAt m (a + 4) ∧ h.hysteresis = pairAt m (a + 6) ∧ h.freshness = pairAt m (a + 8) ∧
    h.promptHold = pairAt m (a + 10) ∧ h.boardingLimit = pairAt m (a + 12) ∧ h.rideLimit = pairAt m (a + 14) ∧
    BytesAt m (a + 16) 4 h.glyph
  stamps : let a := 0x10000 + 0x6000 * n
    h.restart.toNat = pairAt m (a + 24) ∧ h.markStamp.toNat = pairAt m (a + 26) ∧ h.markCar = byteAt m (a + 28) ∧
    h.markMark = byteAt m (a + 29)

/-- The Tenant Map of tenant `n` (12_layouts.md section 2). -/
structure MapAt (m : Memory) (n : Nat) (x : TenantMap) : Prop where
  floors : x.floors.length = 192 ∧ ∀ i < 192, let a := 0x10304 + 0x6000 * n + 4 * i
    x.floors.getD i {} = { landing := byteAt m a, attr := byteAt m (a + 1), usable := byteAt m (a + 2) }
  cars : x.cars.length = 16 ∧ ∀ i < 16, x.cars.getD i 0 = byteAt m (0x10604 + 0x6000 * n + 4 * i)
  kiosks : x.kiosks.length = 32 ∧ ∀ i < 32, let a := 0x10644 + 0x6000 * n + 4 * i
    x.kiosks.getD i {} = { trunk := byteAt m a, address := byteAt m (a + 1) }

/-- Car report `i` of tenant `n` (12_layouts.md 3.3, R56): a motion of no code is none, a door of no code CLOSED, and a service
direction of no code absent. -/
structure ReportAt (m : Memory) (n i : Nat) (r : ReportRecord) : Prop where
  codes : let a := 0x10100 + 0x6000 * n + 32 * i
    let doors := [Door.closed, .opening, .opened, .closing]
    r.motion = [Motion.stopped, .running, .levelling, .inspection, .outOfService][byteAt m (a + 2)]? ∧
    r.door0 = doors.getD (byteAt m (a + 3)) .closed ∧ r.door1 = doors.getD (byteAt m (a + 10)) .closed ∧
    r.service = [Dir.up, .down][byteAt m (a + 11)]?
  values : let a := 0x10100 + 0x6000 * n + 32 * i
    r.position = quadAt m (a + 4) ∧ r.velocity = signedOf 16 (pairAt m (a + 8)) ∧
    r.stop = if byteAt m (a + 12) = 0xFF then none else some (byteAt m (a + 12))

/-- The request of slot `i` of tenant `n` (12_layouts.md 3.5, R78). -/
structure RequestAt (m : Memory) (n i : Nat) (r : SlotRequest) : Prop where
  numbers : let a := 0x10800 + 0x6000 * n + 64 * i
    r.kind = byteAt m (a + 2) ∧ r.car = byteAt m (a + 3) ∧ r.origin = byteAt m (a + 4) ∧
    r.destination = byteAt m (a + 5) ∧ r.kiosk = if byteAt m (a + 6) = 0xFF then none else some (byteAt m (a + 6))
  lenient : let a := 0x10800 + 0x6000 * n + 64 * i
    r.party = (if byteAt m (a + 7) = 0 then 1 else if 15 < byteAt m (a + 7) then 15 else byteAt m (a + 7)) ∧
    r.hold = (if pairAt m (a + 8) = 0xFFFF then none else some (pairAt m (a + 8))) ∧
    (r.accessible = true ↔ byteAt m (a + 10) ≠ 0)

/-- The control and the steps of program `p` of tenant `n` (12_layouts.md 3.7). -/
structure ProgramAt (m : Memory) (n p : Nat) (r : ControlRecord) (steps : List Step) : Prop where
  control : let a := 0x11800 + 0x6000 * n + 256 * p
    r.run.toNat = pairAt m (a + 2) ∧ r.stop.toNat = pairAt m (a + 4) ∧ r.desc.kind = byteAt m (a + 6) ∧
    r.desc.first = byteAt m (a + 7) ∧ r.desc.last = byteAt m (a + 8) ∧ r.desc.kinds = memGet m (a + 9) ∧
    r.desc.car = byteAt m (a + 10)
  steps : steps.length = 12 ∧ ∀ i < 12, let a := 0x11800 + 0x6000 * n + 256 * p + 16 + 12 * i
    steps.getD i {} = { kind := byteAt m a, p1 := byteAt m (a + 1), p2 := byteAt m (a + 2), p3 := byteAt m (a + 3),
                        time := quadAt m (a + 4) }

/-- Entry `i` of tenant `n`'s Text Store (12_layouts.md section 2): a code that does not show is a space (R72, R112). -/
def TextAt (m : Memory) (n i : Nat) (x : TwoForms) : Prop :=
  let a := 0x12000 + 0x6000 * n + 80 * i
  x.long.length = 72 ∧ x.short.length = 4 ∧ (∀ j < 72, x.long.getD j 0 = shownByte (memGet m (a + j))) ∧
    ∀ j < 4, x.short.getD j 0 = shownByte (memGet m (a + 72 + j))

/-- The twin stamps of the host's records (12_layouts.md sections 2 and 3). -/
structure StampsAt (m : Memory) : Prop where
  building : TwinAt m 0x1000 0x5FFC (configStamps m) ∧ TwinAt m 0x6000 0x63FE (ordersStamps m)
  tenant : ∀ n, let a := 0x10000 + 0x6000 * n
    TwinAt m a (a + 126) (headerStamps m n) ∧ TwinAt m (a + 0x300) (a + 0x6C4) (mapStamps m n)
  records : ∀ n i, let a := 0x10000 + 0x6000 * n
    TwinAt m (a + 0x100 + 32 * i) (a + 0x11E + 32 * i) (reportStamps m n i) ∧
    TwinAt m (a + 0x800 + 64 * i) (a + 0x81E + 64 * i) (slotStamps m n i) ∧
    TwinAt m (a + 0x1800 + 256 * i) (a + 0x180E + 256 * i) (controlStamps m n i)

/-! ### The sweep's commands by area and record (R8) -/

/-- The nudge of an area (R10). -/
def nudgeOf : Area → Instr
  | .building => .nudgeBuilding
  | .tenant t => .nudgeTenant t

/-- The area and the record number that a sweep command reads. -/
def sweepRead : Instr → Option (Area × Nat)
  | .sweepReadConfiguration => some (.building, 0)
  | .sweepReadOrders => some (.building, 1)
  | .sweepReadTenantHeader t => some (.tenant t, 0)
  | .sweepReadTenantMap t => some (.tenant t, 1)
  | .sweepReadCarReport t i => some (.tenant t, 2 + i)
  | .sweepReadSlot t i => some (.tenant t, 18 + i)
  | .sweepReadProgramControl t p => some (.tenant t, 82 + p)
  | _ => none

/-- The twin stamps of the record that a sweep command reads. -/
def sweepStamps (m : Memory) : Instr → Stamps
  | .sweepReadConfiguration => configStamps m
  | .sweepReadOrders => ordersStamps m
  | .sweepReadTenantHeader t => headerStamps m t
  | .sweepReadTenantMap t => mapStamps m t
  | .sweepReadCarReport t i => reportStamps m t i
  | .sweepReadSlot t i => slotStamps m t i
  | .sweepReadProgramControl t p => controlStamps m t p
  | _ => ⟨0, 0⟩

/-- The seen stamp of that record. -/
def sweepSeen (s : State) : Instr → Option Stamp
  | .sweepReadConfiguration => s.configSeen
  | .sweepReadOrders => s.ordersSeen
  | .sweepReadTenantHeader t => (s.tenant t).headerSeen
  | .sweepReadTenantMap t => (s.tenant t).mapSeen
  | .sweepReadCarReport t i => tableGet none (s.tenant t).reportSeen i
  | .sweepReadSlot t i => (s.slot t i).seen
  | .sweepReadProgramControl t p => tableGet none (s.tenant t).controlSeen p
  | _ => none

/-- An area's torn count. -/
def tornCount (s : State) : Area → Nat
  | .building => s.torn
  | .tenant t => (s.tenant t).torn

/-- The number of the record that follows record `n` in a sweep: a disabled tenant's sweep ends after its header (R8). -/
def followingRecord (s : State) : Area → Nat → Nat
  | .building, n => n + 1
  | .tenant t, n => if n = 0 ∧ (s.tenant t).active = false then 90 else n + 1

/-- A sweep command reads its record now: READY is 1, the area's sweep in flight stands at the record, and, for the
Building Configuration, no validation is in flight (R16). -/
def ReadsNow (s : State) (c : Instr) (a : Area) (n : Nat) : Prop :=
  sweepRead c = some (a, n) ∧ s.phase = .ready ∧ (s.areaSweep a).next = some n ∧
    (c = .sweepReadConfiguration → s.config.validating = none)

/-! ### Faults that an event raises (R52 to R55) -/

/-- From `s` to `t` the event raised exactly the faults `fs`, in that order: every fault list, the bytes of every fault
entry, and the Attention bits of the lists are what `raise` leaves of each in turn. -/
def FaultsRaised (fs : List Raised) (s t : State) : Prop :=
  let u := fs.foldl (fun s f => raise f s) s
  (∀ o : ListOwner, (∀ n, o = some n → n < 8) → t.faultList o = u.faultList o ∧
    ∀ i < faultEntries o, memBytes t.ram (faultBase o + 32 * i) 32 = memBytes u.ram (faultBase o + 32 * i) 32) ∧
  ∀ b, u.attention.getLsbD b = true → t.attention.getLsbD b = true

/-- R18: a LOCKED_CHANGE fault of the configuration, with no source index and the refused stamp as its value, is raised to
the Supervisor Fault List, and LOCKED is set. -/
def LockedChangeRaised (stamp : Stamp) (s t : State) : Prop :=
  t.attention.getLsbD 11 = true ∧
    FaultsRaised [{ tenant := none, cause := .lockedChange, source := .configuration, indexA := none, indexB := none,
                    logical := stamp.toNat, building := none, count := none }] s t

/-- The fault of tenant `n`'s failed resolution of its own number (R49). -/
def failureOf (n : Nat) (source : SourceKind) (a b : Option Nat) (number : Nat) (f : Failure) : Raised :=
  { tenant := some n, cause := f.cause, source := source, indexA := a, indexB := b, logical := number,
    building := f.building, count := none }

/-- The entries of a resolved map that failed stage one, and those that failed stage two, by table (1 floor, 2 car,
3 kiosk) and number, in the order of R45. -/
def rangeFailed (m : ResolvedMap) : List (Nat × Nat × Standing) := m.entries.filter (fun e => e.2.2 = .badRange)
def grantFailed (m : ResolvedMap) : List (Nat × Nat × Standing) :=
  m.entries.filter (fun e => e.2.2 ≠ .badRange ∧ e.2.2 ≠ .unmapped ∧ e.2.2 ≠ .usable)

/-- The faults of a map acceptance (R47): MAP for the first entry unusable for range, then GRANT for the first unusable
for grant, with its building value, each with the count of its kind. -/
def mapFaults (n : Nat) (m : ResolvedMap) : List Raised :=
  (match rangeFailed m with
   | [] => []
   | (table, i, _) :: _ =>
     [{ tenant := some n, cause := .entryRange, source := .map, indexA := some table, indexB := none, logical := i,
        building := none, count := some (rangeFailed m).length }]) ++
  (match grantFailed m with
   | (table, i, .badGrant cause) :: _ =>
     let head := m.body.kiosks.getD i {}
     [{ tenant := some n, cause := cause, source := .map, indexA := some table, indexB := none, logical := i,
        building := if classCode cause = 2 then some (if table = 1 then (m.body.floors.getD i {}).landing
          else if table = 2 then m.body.cars.getD i 255 else 256 * head.trunk + head.address) else none,
        count := some (grantFailed m).length }]
   | _ => [])

/-! ### The checks of a generation (R20 to R26), as the rules' tables state them -/

/-- A label (R21, R22): one or more printable codes in its first places and code 0 in the others. -/
abbrev LabelGood (l : List Byte) : Prop :=
  ∃ n ∈ List.range (l.length + 1), 0 < n ∧ (∀ b ∈ l.take n, 32 ≤ b.toNat ∧ b.toNat ≤ 126) ∧ ∀ b ∈ l.drop n, b = 0

/-- Every place of an Override Text form is printable or a glyph (R26). -/
abbrev TextGood (l : List Byte) : Prop :=
  ∀ b ∈ l, (32 ≤ b.toNat ∧ b.toNat ≤ 126) ∨ (128 ≤ b.toNat ∧ b.toNat ≤ 143)

/-- The first check that the header (R20), a landing (R21) or a car (R22) fails, by its code (12_layouts.md section 4). -/
def headerFault (g : BuildingConfig) : Option (BitVec 8) :=
  if g.sweepPeriod < 5 ∨ 100 < g.sweepPeriod then some 1
  else if 63 < g.dayCeiling then some 2
  else if 63 < g.nightCeiling then some 3
  else if g.floorCount < 2 ∨ 192 < g.floorCount then some 4
  else none

def floorFault (g : BuildingConfig) (i : Nat) : Option (BitVec 8) :=
  if 800000 < g.height i then some 5
  else if 0 < i ∧ g.height i ≤ g.height (i - 1) then some 6
  else if ¬ LabelGood (g.floor i).label then some 7
  else none

def carFault (g : BuildingConfig) (c : Nat) : Option (BitVec 8) :=
  let r := g.car c
  if r.present = 0 then none
  else if r.present ≠ 1 then some 8
  else if ¬ LabelGood r.label then some 7
  else if r.deckCount ≠ 1 ∧ r.deckCount ≠ 2 then some 9
  else if r.deckCount = 2 ∧ (r.spacing < 2000 ∨ 8000 < r.spacing) then some 10
  else if r.deceleration < 300 ∨ 1500 < r.deceleration then some 11
  else if 1000 < r.reaction then some 12
  else if r.vmax < 500 ∨ 12000 < r.vmax then some 13
  else none

/-- The first check that a head's row fails (R23); a text panel names exactly one of landing and car, and which field a
row that does not fails by is open (assumption 21). -/
def rowFault (g : BuildingConfig) (r : HeadRow) : Option (BitVec 8) :=
  let noLanding : Prop := g.floorCount ≤ r.landing
  let noCar : Prop := 64 ≤ r.car ∨ (g.car r.car).present ≠ 1
  let noDeck : Prop := (g.car r.car).deckCount ≤ r.deck
  if r.kind = 0 ∨ 6 < r.kind then some 14
  else if 15 < r.zone then some 15
  else if 15 < r.immunity.toNat then some 16
  else if 15 < r.layerMask.toNat then some 17
  else if r.kind = 1 then
    if noCar then some 19 else if noDeck then some 20 else if noLanding then some 18 else none
  else if r.kind = 2 ∨ r.kind = 3 then
    if noLanding then some 18 else if noCar then some 19 else if noDeck then some 20 else none
  else if r.kind = 4 then
    if noLanding then some 18 else if 7 < r.owner then some 21 else none
  else if r.kind = 5 then
    if noCar then some 19 else if noDeck then some 20 else none
  else if 7 < r.owner then some 21
  else if r.landing ≠ 255 ∧ r.car = 255 then (if noLanding then some 18 else none)
  else if r.landing = 255 ∧ r.car ≠ 255 then (if noCar then some 19 else none)
  else some (Config.textPanelBindingCheck r.landing r.car)

/-- The first check that a Tenant Grant fails (R24), and the second tenant, in tenant order, that a car is granted to. -/
def grantFault (g : BuildingConfig) (n : Nat) : Option (BitVec 8) :=
  let r := g.grant n
  if ∃ l ∈ List.range 192, g.floorCount ≤ l ∧ r.landings.getLsbD l = true then some 22
  else if ∃ c ∈ List.range 64, r.cars.getLsbD c = true ∧ (g.car c).present ≠ 1 then some 23
  else if 384 < r.quota then some 24
  else none

def secondTenant (g : BuildingConfig) (c : Nat) : Option Nat :=
  ((List.range 8).filter (fun n => (g.grant n).cars.getLsbD c))[1]?

/-- The first check that a trunk's or a head kind's settings fail (R25). -/
def trunkFault (g : BuildingConfig) (n : Nat) : Option (BitVec 8) :=
  let r := g.trunk n
  if 1 < r.enabled then some 27
  else if 2 < r.speed then some 28
  else if 3 < r.window then some 29
  else if 60 < r.recovery then some 30
  else none

def kindFault (g : BuildingConfig) (i : Nat) : Option (BitVec 8) :=
  let r := g.kinds.getD i {}
  if r.poll < 100 ∨ 2000 < r.poll then some 31
  else if r.offset < -63 ∨ 63 < r.offset then some 32
  else if 255 < r.gain then some 33
  else if 63 < r.lmin then some 34
  else if r.lmax < r.lmin ∨ 63 < r.lmax then some 35
  else none

/-- The first check that a Restriction List entry, an override line's settings or an Override Text fails (R26). -/
def restrictionFault (g : BuildingConfig) (i : Nat) : Option (BitVec 8) :=
  let r := g.restrictions.getD i {}
  if r.landing = 255 then none
  else if g.floorCount ≤ r.landing then some 18
  else if r.mode ≠ 1 then some 36
  else none

def lineFault (g : BuildingConfig) (l : Nat) : Option (BitVec 8) :=
  let r := g.line l
  if 1 < r.sideBand then some 37
  else if 15 < r.text then some 38
  else if 1 < r.kill then some 39
  else if r.onTime < 20 ∨ 2000 < r.onTime then some 40
  else if r.offTime < 20 ∨ 2000 < r.offTime then some 41
  else none

def textFault (g : BuildingConfig) (i : Nat) : Option (BitVec 8) :=
  if ¬ TextGood (g.text i).long then some 42
  else if ¬ TextGood (g.text i).short then some 43
  else none

/-- Every part and entry of a generation in the order of R20 to R26, each with the first check it fails. Of the cars
granted twice the lower comes first (assumption 46). -/
def checksInOrder (g : BuildingConfig) : List (ConfigPart × Option (BitVec 16) × Option (BitVec 8)) :=
  let part (p : ConfigPart) (n : Nat) (f : Nat → Option (BitVec 8)) :=
    (List.range n).map (fun i => (p, some (BitVec.ofNat 16 i), f i))
  List.flatten [
    [(.header, none, headerFault g)], part .floor g.floorCount (floorFault g), part .car 64 (carFault g),
    g.heads.map (fun e => (.head, some (BitVec.ofNat 16 (256 * keyTrunk e.1 + keyAddress e.1)), rowFault g e.2)),
    part .grant 8 (grantFault g),
    (List.range 64).map (fun c => match secondTenant g c with
      | some n => (.grant, some (Config.carAndTenantEntry c n), some 25)
      | none => (.grant, none, none)),
    [(.grant, none, if 384 < ((List.range 8).map (fun n => (g.grant n).quota)).sum then some 26 else none)],
    part .trunk 16 (trunkFault g),
    (List.range 6).map (fun i => (.kind, some (BitVec.ofNat 16 (i + 1)), kindFault g i)),
    part .restriction 64 (restrictionFault g), part .overrideLine 4 (lineFault g),
    part .overrideText 16 (textFault g)]

/-! ### What a generation put in force does (R28 to R32) -/

/-- The Floor Table's geometry changes (R29); every part has changed where nothing was in force. -/
def GeometryChanges (old : Option BuildingConfig) (g : BuildingConfig) : Prop :=
  ∀ o, old = some o → o.floorCount ≠ g.floorCount ∨ ∃ i < g.floorCount, o.height i ≠ g.height i

/-- A present car's deck count or deck spacing changes (R29), or it is newly present (assumption 17). -/
def DecksChange (old : Option BuildingConfig) (g : BuildingConfig) (c : Nat) : Prop :=
  ∃ o, old = some o ∧ (g.car c).present = 1 ∧
    ((o.car c).present ≠ 1 ∨ (o.car c).deckCount ≠ (g.car c).deckCount ∨ (o.car c).spacing ≠ (g.car c).spacing)

/-- A car that the new generation disturbs. -/
def Disturbed (old : Option BuildingConfig) (g : BuildingConfig) (c : Nat) : Prop :=
  GeometryChanges old g ∨ DecksChange old g c

/-- A tenant holds more board entries than its new quota (R30). -/
def QuotaShort (s : State) (g : BuildingConfig) (n : Nat) : Prop := (g.grant n).quota < chargedEntries s n

/-- The one outcome of a live slot (R29, R30): RECONFIGURED by any cause of it, else REVOKED where its car is no longer
granted; none where it stays. -/
def SlotOutcome (s : State) (g : BuildingConfig) (n : Nat) (x : Slot) (o : Option Outcome) : Prop :=
  ∀ c, x.car = some c →
    let again := Disturbed s.config.inForce g c ∨ (x.state = .taken ∧ QuotaShort s g n)
    (again → o = some .reconfigured) ∧ (¬ again → o = if grantsCar g n c = true then none else some .revoked)

/-- A deck of a car that goes to ACQUIRING (R61, R104): no mode, commit, served set, announcement or door due. -/
def acquired (d : Deck) : Deck :=
  { d with mode := .none, commit := none, doorDue := false, served := 0, announcement := {}, writes := d.writes + 1 }

/-- The label that a deck of a car which stays shows under new labels (R29). -/
def relabelled (g : BuildingConfig) (x : Car) (d : Deck) : List Byte :=
  if x.tracking = .tracking ∧ d.mode ≠ .none ∧ d.mode ≠ .outOfService then sourcePlaces g d.shown else d.lastShown

/-- A head in the state of a row newly present (R31, R148, R164): UNKNOWN, counts and histories 0, DIRTY, poll due. -/
def FreshHead (h : Head) : Prop :=
  h.link = .unknown ∧ h.needsReload = false ∧ h.busy = false ∧ h.missRun = 0 ∧ h.misses = 0 ∧ h.busyCount = 0 ∧
  h.crcErrors = 0 ∧ h.sentTag = 0 ∧ h.pending = false ∧ h.echo = 0 ∧ h.everLost = false ∧ h.everFailed = false ∧
  h.lastFrame = none ∧ h.pollAt = none ∧ h.pollDue = true ∧ h.probeAt = none ∧ h.probeDue = false ∧
  h.confirmed = none ∧ h.snapshot = none ∧ h.differs = true ∧ h.level = 0 ∧ h.jump = false ∧ h.ambient = none ∧
  h.prompts = []

/-- A trunk is enabled by a configuration, where one is in force. -/
def enabledBy (g : Option BuildingConfig) (n : Nat) : Bool :=
  match g with
  | some g => (g.trunk n).enabled == 1
  | none => false

/-- A line of a trunk newly enabled: SHUT by a standing order, else READY (R169). One already shown SHUT with cause ORDERED
keeps its shut time (assumption 66). -/
def lineEnabled (s : State) (n : Nat) (l : LineId) (x : TrunkLine) : TrunkLine :=
  if tableGet false s.orders.lines (2 * n + lineIdCode l) = true then
    { x with shut := some .ordered, loopRun := 0, shutTime := if x.shut = some .ordered then x.shutTime else s.hubTime }
  else { x with shut := none, loopRun := 0 }

/-- A trunk newly enabled (R31, R169): RUNNING on line A, else on line B, else DOWN with its recovery timer. -/
def trunkEnabled (s : State) (g : BuildingConfig) (n : Nat) : Trunk :=
  let a := lineEnabled s n .a (s.trunk n).lineA
  let b := lineEnabled s n .b (s.trunk n).lineB
  let ms := 1000 * (if (g.trunk n).recovery = 0 then 5 else (g.trunk n).recovery)
  { state := if a.shut = none ∨ b.shut = none then .running else .down,
    active := if a.shut = none then some .a else if b.shut = none then some .b else none, lineA := a, lineB := b,
    recovery := if a.shut = none ∨ b.shut = none then none else some (expiryAfter s.hubTime ms) }

/-- A trunk newly disabled (R31, R163, R169): OFF, its lines READY, the frame being sent cut by a break, any other turn in
its gap with no break (assumption 64), and every line's loop error run 0 (assumption 65). -/
def trunkDisabled (x : Trunk) : Trunk :=
  { x with
    state := .off
    active := none
    lineA := { x.lineA with shut := none, loopRun := 0 }
    lineB := { x.lineB with shut := none, loopRun := 0 }
    recovery := none
    chosen := none
    requests := []
    flight := match x.flight with
      | .idle => .idle
      | .sending u => .breaking u.line
      | .breaking l => .breaking l
      | _ => .gap }

/-- A turn in flight whose head's row is now NONE goes on with nothing handed for the head (R163). -/
def flightWithout (g : BuildingConfig) (n : Nat) (f : Flight) : Flight :=
  let mark (u : Turn) : Turn :=
    if u.kind ≠ .override ∧ g.head (headKey n u.address) = none then { u with orphan := true } else u
  match f with
  | .sending u => .sending (mark u)
  | .window u => .window (mark u)
  | .receiving u => .receiving (mark u)
  | f => f

/-! ### Effective zones and broadcasts (R128, R131, R160, R161) -/

/-- R128's effective zone set of a line. -/
def zonesOf (t : State) (l : Nat) : BitVec 16 :=
  if t.configured = false then 0
  else if t.sben = true ∧ (t.conf.line l).sideBand = 1 then
    (match (t.line l).word with
     | none => 0
     | some z => z &&& (t.conf.line l).permitted)
  else (t.conf.line l).zones

/-- The zones of the lower-numbered lines that are ACTIVE or PENDING_OFF. -/
def zonesBelow (t : State) (l : Nat) : BitVec 16 :=
  ((List.range l).filter (fun m => (t.line m).state = .active ∨ (t.line m).state = .pendingOff)).foldl
    (fun z m => z ||| (t.line m).zones) 0

/-- A head of trunk `n` is affected: its zone is in the broadcast zones and line `l` decides it (R129, R131). -/
abbrev Affected (t : State) (n l : Nat) (zones : BitVec 16) : Prop :=
  ∃ e ∈ t.conf.heads, keyTrunk e.1 = n ∧ e.2.zone < 16 ∧ zones.getLsbD e.2.zone = true ∧ Qualifies t e.2 l ∧
    ∀ m < l, ¬ Qualifies t e.2 m

/-- The request that an event of line `l` with these zones hands to trunk `n` (R131): none in kill mode BOUNDARY, with
no zone left by the lower lines, or with no affected head. -/
def requestFor (t : State) (n l : Nat) (zones : BitVec 16) : Option Request :=
  let z := zones &&& ~~~ zonesBelow t l
  let text := t.conf.text (t.conf.line l).text
  if t.configured = true ∧ (t.conf.line l).kill = 0 ∧ z ≠ 0 ∧ Affected t n l z then
    some { line := l, zones := z, short := text.short, long := text.long }
  else none

/-- The requests of an event that computes the zone sets again: those of the ACTIVE lines that gained zones, the lower line
first (assumption 67). -/
def gainRequests (s t : State) (n : Nat) : List Request :=
  (List.range 4).filterMap (fun l =>
    let gained := (t.line l).zones &&& ~~~ (s.line l).zones
    if (t.line l).state = .active ∧ gained ≠ 0 then requestFor t n l gained else none)

/-- R160's list with a request: merged with the one pending for its line, at the end. -/
def listWith (l : List Request) (r : Request) : List Request :=
  l.filter (fun q => q.line ≠ r.line) ++
    [match l.find? (fun q => q.line = r.line) with
     | none => r
     | some q => { r with zones := q.zones ||| r.zones }]

/-- What R161 does to a flight: a frame being sent is cut by a break, a turn past its frame ends early, and a broadcast
turn, a gap and a break go on. -/
def flightCut : Flight → Flight
  | .sending u => if u.kind = .override then .sending u else .breaking u.line
  | .window u => .window { u with early := true }
  | .receiving u => .receiving { u with early := true }
  | f => f

/-- A trunk handed a request (R160, R161): only a RUNNING one with RUN at 1 takes it. -/
def withRequest (run : Bool) (x : Trunk) (r : Request) : Trunk :=
  if x.state = .running ∧ run = true then { x with requests := listWith x.requests r, flight := flightCut x.flight }
  else x

/-- A trunk handed several requests, one after another. -/
def withRequests (run : Bool) (x : Trunk) (rs : List Request) : Trunk := rs.foldl (withRequest run) x

/-- A line with the pin level and the test assert given (R123, R124): an assert or deassert event where its assertion
changes; on and off times are 20 ms while UNCONFIGURED (R125). -/
def lineWithInputs (s : State) (l : Nat) (pin test : Bool) : OverrideLine :=
  let x := s.line l
  let was := x.pin || s.orders.tests.getLsbD l
  let now := pin || test
  let onMs := if s.configured then (s.conf.line l).onTime else 20
  let offMs := if s.configured then (s.conf.line l).offTime else 20
  if was = false ∧ now = true ∧ x.state = .idle then
    { x with pin := pin, state := .pendingOn, expiry := some (expiryAfter s.hubTime onMs) }
  else if was = false ∧ now = true ∧ x.state = .pendingOff then { x with pin := pin, state := .active, expiry := none }
  else if was = true ∧ now = false ∧ x.state = .pendingOn then { x with pin := pin, state := .idle, expiry := none }
  else if was = true ∧ now = false ∧ x.state = .active then
    { x with pin := pin, state := .pendingOff, expiry := some (expiryAfter s.hubTime offMs) }
  else { x with pin := pin }

/-! ### Building Orders (R33, R34) -/

/-- The line order number `i` of a record changes to SHUT, and to RUN; a code of neither kind changes nothing. -/
def ShutOrder (s : State) (r : OrdersRecord) (i : Nat) : Prop :=
  r.lines.getD i 2 = 1 ∧ tableGet false s.orders.lines i = false
def RunOrder (s : State) (r : OrdersRecord) (i : Nat) : Prop :=
  r.lines.getD i 2 = 0 ∧ tableGet false s.orders.lines i = true

/-- A one-time stamp acts: its baseline is present and differs (R33). -/
abbrev Acts (base : Option Stamp) (stamp : Stamp) : Prop := base ≠ none ∧ base ≠ some stamp

/-- An Orders record makes line `l` of trunk `n` READY (R34): one SHUT with cause ORDERED by its RUN order, one with
cause LOOP or WATCHDOG by the trunk's restore stamp, and none that the record itself shuts. -/
def Readied (s : State) (r : OrdersRecord) (n : Nat) (l : LineId) : Prop :=
  let i := 2 * n + lineIdCode l
  let cause := ((s.trunk n).line l).shut
  ¬ ShutOrder s r i ∧ ((RunOrder s r i ∧ cause = some .ordered) ∨
    (Acts (tableGet none s.orders.restore n) (r.restore.getD n 0) ∧ (cause = some .loop ∨ cause = some .watchdog)))

/-! ### Tenants taken down (R38, R39) -/

/-- Some live slot of tenant `n` holds car `c`. -/
def HoldsCar (s : State) (n c : Nat) : Prop := ∃ i < 64, (s.slot n i).live = true ∧ (s.slot n i).car = some c

/-- Car `c` stands as in `s`, but that changed options of tenant `n` count as a write of its position layers where the car
is granted to it (R41; `Deck.writes`, assumption 27). -/
def CarReread (n : Nat) (s : State) (x : Car) (c : Nat) : Prop :=
  ∃ u v, x = { s.car c with deck0 := { (s.car c).deck0 with writes := u },
                            deck1 := { (s.car c).deck1 with writes := v } } ∧
    (grantsCar s.conf n c = false → u = (s.car c).deck0.writes ∧ v = (s.car c).deck1.writes)

/-- What a restart and a disabling of tenant `n` leave: its map gone, its slots retired RESTART, its programs IDLE with no
share and no baseline, the lists of its riders and prompts empty, and the cars that its map reached ACQUIRING with their
marks clear; and what they leave alone (R97): the board entries charged to other tenants but for the counts of its slots,
the Aboard Lists of the cars that no live slot of it holds, the Prompt Lists of the kiosks that are not its own, and every
other car, but for an announcement at a landing that its slots left (R103). -/
structure TakenDown (s t : State) (n : Fin 8) : Prop where
  map : (t.tenant n).map = none ∧ (t.tenant n).rangeCount = 0 ∧ (t.tenant n).grantCount = 0
  slots : ∀ i < 64, ((s.slot n i).live = true →
    t.slot n i = { s.slot n i with state := .retired, outcome := some .restart, reason := none, limit := none } ∧
    t.attention.getLsbD n = true) ∧ ((s.slot n i).live = false → t.slot n i = s.slot n i)
  programs : ∀ p, (t.program n p).state = .idle ∧ (t.program n p).share = .none ∧ (t.program n p).current = none ∧
    (t.program n p).expiry = none ∧ (t.program n p).waiting = none ∧ (t.program n p).cause = none ∧
    (t.program n p).counters = [] ∧ (t.program n p).zeroTime = 0 ∧ (t.program n p).target = .empty ∧
    (t.program n p).runBase = none ∧ (t.program n p).stopBase = none ∧ (t.program n p).start = (s.program n p).start
  board : ∀ e ∈ t.board, e.2.tenant ≠ n.val
  aboard : ∀ i < 64, (s.slot n i).live = true → ∀ c k, (s.slot n i).car = some c → k < 2 → t.aboardList c k = []
  prompts : ∀ k h row, tableFind t.heads k = some h → s.conf.head k = some row → row.kind = 4 →
    headTenant s.conf row = some n.val → h.prompts = []
  cars : ∀ c ∈ usableCars (s.tenant n), (t.car c).tracking = .acquiring ∧ (t.car c).anchor = false ∧
    (t.car c).runCount = 0 ∧ (t.car c).overrun = false ∧ (t.car c).freshness = none ∧
    (t.car c).arriveMark = false ∧ (t.car c).doorMark = false ∧ (t.car c).departMark = false ∧
    (t.car c).parkMark = false ∧ DeckStill (t.car c).deck0 ∧ DeckStill (t.car c).deck1
  kept : (t.tenant n).torn = (s.tenant n).torn ∧ (t.tenant n).sweepCount = (s.tenant n).sweepCount
  entries : EntriesStay s t
  waits : KeysOk s → BooksOk s → ∀ l c k dir x,
    (∀ p e, boardFind s l c k dir = some (p, e) → e.tenant ≠ n.val) →
    waiting t l c k dir x = waiting s l c k dir x -
      partySum s (fun m i => decide (m = n.val ∧ WaitsFor l c k dir x (s.slot m i)))
  riders : KeysOk s → LiveDecks s → ∀ c, ¬ HoldsCar s n c → ∀ k < 2, t.aboardList c k = s.aboardList c k
  otherPrompts : ∀ k h, tableFind s.heads k = some h →
    (∀ row, s.conf.head k = some row → ¬ (row.kind = 4 ∧ headTenant s.conf row = some n.val)) →
    ∃ h', tableFind t.heads k = some h' ∧ h'.prompts = h.prompts
  otherCars : ∀ c ∉ usableCars (s.tenant n), ∃ x a b, CarReread n s x c ∧
    t.car c = { x with deck0 := { x.deck0 with announcement := a }, deck1 := { x.deck1 with announcement := b } } ∧
    (KeysOk s → ¬ HoldsCar s n c → t.car c = x)

/-- A mark of a car, by its name. -/
def markIs (x : Car) : Mark → Bool
  | .arrive => x.arriveMark
  | .door => x.doorMark
  | .depart => x.departMark
  | .park => x.parkMark

/-! ### An applied report (R62 to R69, R73 to R75, R101, R102, R106, R107) -/

/-- R62's direction of motion of a report of car `c`, from the clamped velocity (R57). -/
def reportMotion (s : State) (c : Nat) (r : ReportRecord) : Option Dir :=
  let v := max (-((s.conf.car c).vmax : Int)) (min r.velocity (s.conf.car c).vmax)
  if 50 ≤ v then some .up else if v ≤ -50 then some .down else none

/-- The decks of a car: deck 1 only where its deck count is 2. -/
def HasDeck (s : State) (c k : Nat) : Prop := k = 0 ∨ (k = 1 ∧ (s.conf.car c).deckCount = 2)

/-- The mode of R63's first row that a report meets, at the deck position `p`. -/
def reportMode (s : State) (n c : Nat) (r : ReportRecord) (p : Nat) : DeckMode :=
  let near := s.conf.height (nearest s.conf p)
  if r.motion = some .outOfService then .outOfService
  else if r.motion = some .inspection then .inspection
  else if (r.motion = some .stopped ∨ r.motion = some .levelling) ∧
      (p - near) + (near - p) ≤ (s.tenant n).options.landingZone then .at
  else if r.motion = some .running ∧ reportMotion s c r ≠ none then .running
  else .between

/-- One deck of a car after an applied report: mode and indicated landing (R63, R64), held landing and shown label (R65),
arrow and mark (R66), commit (R67, R68) and served set (R70). A change of the mode writes the deck's position layer anew,
so that a text which it presents is read again (R71, R72; `Deck.writes`, assumption 27). -/
structure DeckApplied (s : State) (n c k : Nat) (r : ReportRecord) (old d : Deck) : Prop where
  mode : d.mode = reportMode s n c r (r.position + k * (s.conf.car c).spacing)
  still : d.mode = .at ∨ d.mode = .between ∨ reportMotion s c r = none →
    let near := nearest s.conf (r.position + k * (s.conf.car c).spacing)
    d.landing = some near ∧ d.held = if inSet (servedSet s.conf (s.tenant n) c k) near then some near else none
  moving : ∀ dir, reportMotion s c r = some dir → d.mode ≠ .at → d.mode ≠ .between →
    let p := r.position + k * (s.conf.car c).spacing
    let x := runningRules s.conf (s.tenant n).options.hysteresis p (servedSet s.conf (s.tenant n) c k) dir
      { landing := old.landing.getD (nearest s.conf p), held := old.held }
    d.landing = some x.landing ∧ d.held = x.held
  shown : ∀ l, d.landing = some l → d.shown =
    (if (s.tenant n).options.express = 1 then
       .landing (d.held.getD (nearest s.conf (r.position + k * (s.conf.car c).spacing)))
     else if (s.tenant n).options.express = 2 ∧ inSet (servedSet s.conf (s.tenant n) c k) l = false then
       .codes (places 4 (s.tenant n).options.glyph)
     else .landing l)
  lastShown : d.lastShown = if d.mode = .outOfService then old.lastShown else sourcePlaces s.conf d.shown
  arrow : d.arrow = match d.mode with
    | .at => optArrow r.service
    | .running => optArrow (reportMotion s c r)
    | .inspection => optArrow (reportMotion s c r)
    | _ => .none
  mark : d.mark = if d.mode = .inspection then .inspection else .none
  commit : d.commit = match d.mode, reportMotion s c r, d.landing with
    | .running, some dir, some l =>
      commitLanding s.conf (servedSet s.conf (s.tenant n) c k) dir l (r.position + k * (s.conf.car c).spacing)
        (stoppingDistance (s.conf.car c) (max (-((s.conf.car c).vmax : Int)) (min r.velocity (s.conf.car c).vmax)))
    | _, _, _ => none
  served : d.served = servedSet s.conf (s.tenant n) c k
  writes : d.writes = if d.mode = old.mode then old.writes else old.writes + 1

/-- R73's events of a deck, from its mode and landing before the report and after it, and R74's DOOR. -/
abbrev Arrives (old d : Deck) : Prop := d.mode = .at ∧ (old.mode ≠ .at ∨ old.landing ≠ d.landing)
abbrev Departs (old d : Deck) : Prop := old.mode = .at ∧ (d.mode ≠ .at ∨ old.landing ≠ d.landing)
abbrev Opens (r : ReportRecord) (k : Nat) (old d : Deck) : Prop :=
  d.mode = .at ∧ (Arrives old d ∨ old.doorDue = true) ∧
    ((if k = 0 then r.door0 else r.door1) = .opening ∨ (if k = 0 then r.door0 else r.door1) = .opened)

/-- The deck's collections hold a landing (R100, R102): its Aboard List, or a board entry with it as origin. -/
def Holds (s : State) (c k x : Nat) : Prop :=
  (∃ e ∈ s.aboardList c k, e.1 = x) ∨ ∃ e ∈ s.board, e.2.landing = x ∧ e.2.car = c ∧ e.2.deck = k

/-- The declared stop of a report, resolved; absent where it does not resolve (R56). -/
def declaredStopOf (s : State) (n : Nat) (r : ReportRecord) : Option (Nat × DeckAttr) :=
  match r.stop with
  | none => none
  | some f => match resolveFloor (s.tenant n) f with
    | .ok e => some e
    | .error _ => none

/-- What a car keeps of a report for later events (R56, R62): the declared stop, the direction of motion, the service
direction and the doors. -/
def KeepsReport (s : State) (n c : Nat) (r : ReportRecord) (x : Car) : Prop :=
  x.stop = declaredStopOf s n r ∧ x.motionDir = reportMotion s c r ∧ x.service = r.service ∧
    x.door0 = r.door0 ∧ x.door1 = r.door1

/-- The declared stop of a report, resolved, when it names deck `k` (R56, R100). -/
def declaredFor (s : State) (n k : Nat) (r : ReportRecord) : Option Nat :=
  match r.stop with
  | none => none
  | some f => match resolveFloor (s.tenant n) f with
    | .ok (l, a) => if attrCovers a k then some l else none
    | .error _ => none

/-- The fault of a declared stop that does not resolve (R56). -/
def declaredFaults (s : State) (n i : Nat) (r : ReportRecord) : List Raised :=
  match r.stop with
  | none => []
  | some m => match resolveFloor (s.tenant n) m with
    | .ok _ => []
    | .error f => [failureOf n .carReport (some i) none m f]

/-- Landing `x` passes the next-stop test with a report's declared stop (R100). -/
def PassesTest (s : State) (n c k : Nat) (r : ReportRecord) (x : Nat) : Prop :=
  (∀ l, declaredFor s n k r = some l → x = l) ∧ (declaredFor s n k r = none → Holds s c k x)

/-- R106's arrow: the service direction's, else that of the motion, else `old`. -/
def arrowOf (service motion : Option Dir) (old : Arrow) : Arrow :=
  match service, motion with
  | some d, _ => dirArrow d
  | none, some d => dirArrow d
  | none, none => old

/-- Some TAKEN slot of the deck with origin `x` is ACCESSIBLE and has a direction that the arrow admits (R107). -/
def AccessibleAt (s : State) (c k x : Nat) (a : Arrow) : Prop :=
  ∃ n < 8, ∃ i < 64, (s.slot n i).state = .taken ∧ (s.slot n i).accessible = true ∧ (s.slot n i).car = some c ∧
    (s.slot n i).deck = some k ∧ (s.slot n i).origin = some x ∧ (a = .none ∨ optArrow (s.slot n i).direction = a)

/-- An announcement lit at `x`: afresh, its accessible field judged; or kept from `old`, once accessible staying so. -/
def LitAt (s : State) (c k x : Nat) (by_ : LitBy) (a : Arrow) (old : Bool) (y : Announcement) : Prop :=
  y.landing = some x ∧ y.litBy = some by_ ∧ y.arrow = a ∧
    (y.accessible = true ↔ old = true ∨ AccessibleAt s c k x a)

/-- R103: the deck is RUNNING to its commit landing `x`, its car is tracked, and no declared stop names the deck. -/
abbrev OnTheWay (s : State) (c k x : Nat) : Prop :=
  (s.car c).tracking = .tracking ∧ (s.deck c k).mode = .running ∧ declaredStop s c k = none ∧ (s.deck c k).commit = some x

/-- R103: a deck's announcement after an event that may have removed a landing of its collections at `x` (`gone`). A removal
for a deck on its way to `x` takes an announcement lit there by COMMIT dark with the last business, and lights an absent one
where business stays; else the announcement is as before. -/
structure Resettled (gone : Prop) (s t : State) (c k x : Nat) : Prop where
  dark : gone → OnTheWay s c k x → (s.deck c k).announcement.landing = some x →
    (s.deck c k).announcement.litBy = some .commit → ¬ Holds t c k x → (t.deck c k).announcement = {}
  lit : gone → OnTheWay s c k x → (s.deck c k).announcement.landing = none → Holds t c k x →
    LitAt t c k x .commit (arrowOf (s.car c).service (s.car c).motionDir .none) false (t.deck c k).announcement
  kept : (¬ gone ∨ ¬ OnTheWay s c k x ∨
      (∃ y, (s.deck c k).announcement.landing = some y ∧
        (y ≠ x ∨ (s.deck c k).announcement.litBy ≠ some .commit ∨ Holds t c k x)) ∨
      ((s.deck c k).announcement.landing = none ∧ ¬ Holds t c k x)) →
    (t.deck c k).announcement = (s.deck c k).announcement

/-- R101 and R102: a deck's announcement after an applied report, from the deck before and after it. One that moves to
another landing is lit afresh there, its accessible field and its arrow with it (assumption 60). -/
structure AnnouncedAfter (s : State) (n c k : Nat) (r : ReportRecord) (old d : Deck) : Prop where
  running : d.mode = .running → ∀ x, d.commit = some x → PassesTest s n c k r x →
    if old.announcement.landing = some x then
      LitAt s c k x .commit (arrowOf r.service (reportMotion s c r) old.announcement.arrow) old.announcement.accessible
        d.announcement
    else LitAt s c k x .commit (arrowOf r.service (reportMotion s c r) .none) false d.announcement
  noStop : d.mode = .running → (∀ x, d.commit = some x → ¬ PassesTest s n c k r x) → d.announcement = {}
  arrived : ∀ x, d.mode = .at → d.landing = some x → old.announcement.landing = some x →
    LitAt s c k x (old.announcement.litBy.getD .commit)
      (arrowOf r.service (reportMotion s c r) old.announcement.arrow) old.announcement.accessible d.announcement
  door : ∀ x, d.mode = .at → d.landing = some x → old.announcement.landing ≠ some x → Opens r k old d → Holds s c k x →
    LitAt s c k x .door (arrowOf r.service (reportMotion s c r) .none) false d.announcement
  stands : ∀ x, d.mode = .at → d.landing = some x → old.announcement.landing ≠ some x →
    ¬ (Opens r k old d ∧ Holds s c k x) → d.announcement = {}
  other : d.mode ≠ .running → d.mode ≠ .at → d.announcement = {}

/-! ### DOOR (R85, R86) -/

/-- A slot that a DOOR at landing `x` delivers, and one that it boards under the report's service direction. -/
def DeliversAt (c k x : Nat) (y : Slot) : Prop :=
  y.state = .boarded ∧ y.car = some c ∧ y.deck = some k ∧ y.destination = some x
abbrev BoardsAt (c k x : Nat) (service : Option Dir) (y : Slot) : Prop :=
  y.state = .taken ∧ y.car = some c ∧ y.deck = some k ∧ y.origin = some x ∧
    (service = none ∨ y.direction = service)

/-- The boarding order of R86: the earlier take time first, then the slot index, and of equal ones the lower tenant
(assumption 37). -/
def BoardsBefore (s : State) (u v : Nat × Nat) : Prop :=
  let age (w : Nat × Nat) := elapsed (s.slot w.1 w.2).takeTime s.hubTime
  age v < age u ∨ (age v = age u ∧ (u.1 < v.1 ∨ (u.1 = v.1 ∧ u.2 < v.2)))

/-! ### Prompts (R78, R92) -/

/-- A kiosk's Prompt List gained a prompt at its end, the oldest leaving a full one; every other list is as before. -/
def PromptAdded (s t : State) (key : Nat) (p : Prompt) : Prop :=
  ∀ k h, tableFind s.heads k = some h → ∃ h', tableFind t.heads k = some h' ∧
    h'.prompts = if k = key then h.prompts.drop (if h.prompts.length < 4 then 0 else 1) ++ [p] else h.prompts

/-- Every Prompt List is as before. -/
def PromptsKept (s t : State) : Prop :=
  ∀ k h, tableFind s.heads k = some h → ∃ h', tableFind t.heads k = some h' ∧ h'.prompts = h.prompts

/-- A refused slot's prompt at its kiosk, when that resolved (R92), from the car, landings and direction that did. -/
def RefusedPrompt (s t : State) (n : Nat) (r : SlotRequest) (kiosk : Option Nat) (car origin destination : Option Nat) :
    Prop :=
  match kiosk with
  | none => PromptsKept s t
  | some key => PromptAdded s t key
      { carLabel := match car with
          | some c => carLabel s.conf c
          | none => [32, 32],
        arrow := match origin, destination with
          | some o, some d => dirArrow (slotDirection o d)
          | _, _ => .none,
        destination := match destination with
          | some d => landingLabel s.conf d
          | none => [32, 32, 32, 32],
        refused := true,
        closed := match destination with
          | some d => s.closed d
          | none => false,
        wheelchair := r.accessible,
        expiry := some (expiryAfter s.hubTime (promptHoldOf (s.tenant n).options r)) }

/-! ### Steps of a notice program (R111 to R116) -/

/-- A program at the beginning of step `i`, with a zero-time count. -/
def beginsStep (x : Program) (i count : Nat) : Program :=
  { x with state := .running, current := some i, expiry := none, waiting := none, zeroTime := count }

/-- A program FAULTED at step `i` (R120), and one that has ended (R115). -/
def faultedAt (x : Program) (i count : Nat) (cause : Cause) : Program :=
  { x with state := .faulted, current := some i, expiry := none, waiting := none, share := .none, zeroTime := count,
           cause := some cause }
def endedAt (x : Program) (i : Nat) : Program :=
  { x with state := .done, current := some i, expiry := none, waiting := none, share := .none }

/-- A stopped program (R119): IDLE, with its cause clear; a run, ended or not, leaves its counters and target behind (R115),
and an IDLE or FAULTED program keeps what it holds of them. -/
def stopped (x : Program) : Program :=
  let keeps := x.state = .idle ∨ x.state = .faulted
  { x with state := .idle, current := none, expiry := none, waiting := none, share := .none, cause := none,
           counters := if keeps then x.counters else [], target := if keeps then x.target else .empty }

/-- The tenant floors of a LANDINGS target, those above 191 left out (R110, assumption 49). -/
def rangeFloors (d : TargetDesc) : List Nat :=
  (List.range 192).filter (fun f => min d.first d.last ≤ f ∧ f ≤ max d.first d.last)

/-- A LANDINGS target's floors that are unusable for grant, with their failures (R50). -/
def grantFailures (s : State) (n : Nat) (d : TargetDesc) : List (Nat × Failure) :=
  (rangeFloors d).filterMap (fun f => match resolveFloor (s.tenant n) f with
    | .ok _ => none
    | .error e => if classCode e.cause = 2 then some (f, e) else none)

/-- The faults that the resolution of a target raises at a program's start (R50, R110). -/
def targetFaults (s : State) (n p : Nat) (d : TargetDesc) : List Raised :=
  if d.kind = 1 then
    (match grantFailures s n d with
     | [] => []
     | (f, e) :: _ =>
       [{ tenant := some n, cause := e.cause, source := .program, indexA := some p, indexB := some 0, logical := f,
          building := e.building, count := some (grantFailures s n d).length }])
  else if d.kind = 2 then
    (match resolveCar (s.tenant n) d.car with
     | .ok _ => []
     | .error e => [failureOf n .program (some p) (some 0) d.car e])
  else []

/-- A target resolved at a program's start (R110). -/
def TargetIs (s : State) (n : Nat) (d : TargetDesc) (x : Target) : Prop :=
  (d.kind = 1 → ∃ set, x = .landings set d.kinds ∧
    ∀ l < 192, set.getLsbD l = true ↔ ∃ f ∈ rangeFloors d, ∃ a, resolveFloor (s.tenant n) f = .ok (l, a)) ∧
  (d.kind = 2 → x = match resolveCar (s.tenant n) d.car with
    | .ok c => .car c
    | .error _ => .empty) ∧
  (d.kind ≠ 1 → d.kind ≠ 2 → x = .empty)

/-- The CONTENT fault of a program's step (R120). -/
def stepFaultOf (n p i : Nat) (cause : Cause) (logical : Nat) : Raised :=
  { tenant := some n, cause := cause, source := .program, indexA := some p, indexB := some i, logical := logical,
    building := none, count := none }

/-! ### The scheduler's classes (R157) -/

/-- A head with its row is in class `c`. -/
def InClass (c : Nat) (row : HeadRow) (h : Head) : Prop :=
  let up := h.link = .online ∨ h.link = .failed
  let dirty := up ∧ h.differs = true ∧ h.needsReload = false ∧ h.busy = false
  (c = 2 ∧ up ∧ h.needsReload = true) ∨
  (c = 3 ∧ dirty ∧ h.handed = .override) ∨
  (c = 4 ∧ dirty ∧ h.handed ≠ .override ∧ row.kind = 2) ∨
  (c = 5 ∧ dirty ∧ h.handed ≠ .override ∧ row.kind ≠ 2) ∨
  (c = 6 ∧ (up ∨ h.link = .unknown) ∧ h.pollDue = true) ∨
  (c = 7 ∧ h.link = .lost ∧ h.probeDue = true)

/-! ### Status replies (R150, R153) -/

/-- A reply's characters end with a good CRC-16: its last two are that of those after the lead byte. -/
def EndsGood (codes : List Byte) : Prop :=
  ∃ lead body hi lo, codes = lead :: body ++ [hi, lo] ∧
    crc16 body = ((hi.zeroExtend 16 : BitVec 16) <<< 8) ||| (lo.zeroExtend 16 : BitVec 16)

/-! ### What a command may change -/

/-- The fields that each command may change (besides the shared RAM's bytes, which `hubByte` bounds). -/
def commandFields : Instr → List Field
  | .powerOnResetAssert =>
    [.phase, .run, .attention, .mask, .hold, .fixed, .stamps, .hubTime, .word, .badWords, .sweep, .configSeen,
     .ordersSeen, .torn, .config, .orders, .faults, .tenants, .cars, .board, .boardCreated, .aboard, .lines, .heads,
     .trunks]
  | .powerOnResetRelease => [.phase]
  | .zeroFillCompletion =>
    [.phase, .run, .attention, .mask, .hold, .fixed, .ram, .stamps, .hubTime, .word, .badWords, .sweep, .configSeen,
     .ordersSeen, .torn, .config, .orders, .faults, .tenants, .cars, .board, .boardCreated, .aboard, .lines, .heads,
     .trunks]
  | .sharedRamWrite _ _ => [.ram]
  | .sharedRamRead _ => [.readData]
  | .portReset =>
    [.phase, .run, .attention, .mask, .hold, .word, .sweep, .config, .tenants, .cars, .lines, .heads, .trunks]
  | .portResetCompletion =>
    [.phase, .run, .attention, .mask, .hold, .ram, .stamps, .hubTime, .word, .badWords, .sweep, .configSeen,
     .ordersSeen, .torn, .config, .orders, .faults, .tenants, .cars, .board, .boardCreated, .aboard, .lines, .heads,
     .trunks]
  | .runSet => [.run, .sweep, .tenants]
  | .runClear => [.run, .sweep, .tenants, .trunks]
  | .nudgeTenant _ => [.tenants]
  | .nudgeBuilding => [.sweep]
  | .attentionClear _ => [.attention]
  | .attentionMaskWrite _ => [.mask]
  | .lockSetHold | .lockClearHold => [.hold, .ram, .stamps]
  | .lockSetFixed => [.fixed, .ram, .stamps]
  | .registerWriteIgnored _ _ => []
  | .hubTimeTick => [.hubTime, .ram]
  | .sweepTimerExpiry _ => [.sweep, .tenants]
  | .sweepCompletion _ => [.ram, .stamps, .sweep, .tenants, .heads]
  | .sweepReadConfiguration =>
    [.ram, .stamps, .attention, .sweep, .configSeen, .torn, .config, .faults, .heads]
  | .sweepReadOrders => [.ram, .stamps, .attention, .sweep, .ordersSeen, .torn, .orders, .lines, .trunks, .heads]
  | .sweepReadTenantHeader _ =>
    [.ram, .stamps, .attention, .tenants, .faults, .cars, .board, .aboard, .heads]
  | .sweepReadTenantMap _ => [.ram, .stamps, .attention, .tenants, .faults, .heads]
  | .sweepReadCarReport _ _ =>
    [.ram, .stamps, .attention, .tenants, .faults, .cars, .board, .aboard, .heads]
  | .sweepReadSlot _ _ =>
    [.ram, .stamps, .attention, .tenants, .faults, .cars, .board, .boardCreated, .aboard, .heads]
  | .sweepReadProgramControl _ _ => [.ram, .stamps, .attention, .tenants, .faults, .cars, .heads]
  | .validationCompletion =>
    [.ram, .stamps, .attention, .sweep, .configSeen, .config, .faults, .tenants, .cars, .board, .aboard, .lines,
     .heads, .trunks]
  | .freshnessExpiry _ => [.ram, .stamps, .attention, .tenants, .faults, .cars, .heads]
  | .boardingLimitExpiry _ _ | .rideLimitExpiry _ _ =>
    [.ram, .stamps, .attention, .tenants, .cars, .board, .aboard, .heads]
  | .promptHoldExpiry _ _ => [.ram, .stamps, .heads]
  | .stepExpiry _ _ | .waitTimeout _ _ => [.ram, .stamps, .attention, .tenants, .faults, .cars, .heads]
  | .overridePinChange _ _ => [.ram, .stamps, .attention, .ovrLow, .lines, .heads]
  | .debounceExpiry _ => [.ram, .stamps, .attention, .lines, .heads, .trunks]
  | .sbenChange _ => [.ram, .stamps, .sben, .word, .lines, .heads, .trunks]
  | .sideBandWord => [.ram, .stamps, .sbfr, .word, .badWords, .lines, .heads, .trunks]
  | .turnBegin _ => [.ram, .stamps, .heads, .trunks]
  | .frameEnd _ _ => [.ram, .stamps, .attention, .heads, .trunks]
  | .breakEnd _ | .gapExpiry _ | .replyFirstCharacter _ => [.trunks]
  | .replyEnd _ _ | .replyWindowExpiry _ => [.ram, .stamps, .attention, .heads, .trunks]
  | .pollDue _ _ | .probeDue _ _ => [.heads]
  | .watchdogExpiry _ _ => [.ram, .stamps, .attention, .heads, .trunks]
  | .recoveryExpiry _ | .recoveryProbeBegin _ => [.ram, .stamps, .attention, .heads, .trunks]
  | .sideBandWordStart => [.sbfr, .word]
  | .sideBandClockEdge _ => [.word]

/-- Does a command replace host-owned bytes of the shared RAM? Only the host's own write, and the end of a zero-fill. -/
def writesHostBytes : Instr → Bool
  | .sharedRamWrite _ _ => true
  | .zeroFillCompletion => true
  | _ => false

end Sys2Proof.Safety
end

