-- ==== Sys2Proof/Certificates/Slice0/Obligations.lean ====
section
/-!
DEFINITION. The statements for the provers, one `def Obligations.<Name> : Prop` each. `∃ t, exec c s = .next t ∧ …` says
that the command completes from `s` and what the state `t` then is; `Touches fs s t` is the frame: nothing outside the
fields `fs` changed.
-/

open Sys2Proof Sys2Proof.Machine Sys2Proof.Safety

/-! ### The machine -/

/-- A step runs the command at the front of the queue on the state with the queue's rest. On an empty queue the hub idles,
which is the model's choice (assumption 3). -/
def Obligations.StepRunsTheFrontCommand : Prop :=
  ∀ s : State,
    (∀ (c : Instr) (rest : List Instr), s.pending = c :: rest → step s = exec c { s with pending := rest }) ∧
    (s.pending = [] → step s = .next s)

/-- The state of the model's start (assumption 1): held in power-on reset, every register field 0, the building
UNCONFIGURED with no orders, every tenant DISABLED, every car ACQUIRING, every program and slot IDLE, every line IDLE, every
trunk OFF, no head, every list empty and every fault count 0. Control reads 0 because SBEN starts low (assumption 2), and
every byte of the shared RAM reads 0 in the held reset (assumption 40). -/
def Obligations.ResetState : Prop :=
  State.reset.phase = .held ∧ (∀ sel : BitVec 3, sel ≠ 0 → readRegister State.reset sel = 0) ∧
  attentionOutput State.reset = false ∧ State.reset.config = {} ∧ State.reset.orders = {} ∧ State.reset.faults = {} ∧
  (∀ t, State.reset.tenant t = {}) ∧
  (∀ t, (State.reset.tenant t).active = false ∧ (State.reset.tenant t).map = none ∧
    (State.reset.tenant t).faults.sequence = 0 ∧ (State.reset.tenant t).faults.dropped = 0) ∧
  (∀ c, (State.reset.car c).tracking = .acquiring) ∧ (∀ c k, State.reset.aboardList c k = []) ∧
  (∀ t i, (State.reset.slot t i).state = .idle ∧ (State.reset.slot t i).seen = none) ∧
  (∀ t p, (State.reset.program t p).state = .idle) ∧ (∀ l, (State.reset.line l).state = .idle) ∧
  (∀ t, (State.reset.trunk t).state = .off) ∧ State.reset.heads = [] ∧ State.reset.board = [] ∧
  (∀ a, memGet State.reset.ram a = 0) ∧ State.reset.pending = []

/-- Every condition that a step keeps holds at the model's start. -/
def Obligations.InvariantsHoldAtReset : Prop :=
  Sound State.reset ∧ Quiet State.reset ∧ TimersNeedRun State.reset ∧ DebounceOk State.reset ∧ CarsOk State.reset ∧
  TrunksLegal State.reset ∧ BooksOk State.reset ∧ TalliesOk State.reset ∧ LayersOk State.reset

/-! ### The port's registers (01) -/

/-- R2: Identity and SBEN at all times, and the registers while READY is 0. -/
def Obligations.IdentityAndClosedRegisters : Prop :=
  ∀ (s : State) (sel : BitVec 3) (v : Word32),
    readRegister s 0 = 0x5A010970#32 ∧
    registerWriteCommand s 0 v = .registerWriteIgnored 0 v ∧ exec (.registerWriteIgnored 0 v) s = .next s ∧
    (readRegister s 1).getLsbD 3 = s.sben ∧ (∀ high, ∃ t, exec (.sbenChange high) s = .next t ∧ t.sben = high) ∧
    (s.phase ≠ .ready →
      registerWriteCommand s sel v = .registerWriteIgnored sel v ∧ exec (.registerWriteIgnored sel v) s = .next s) ∧
    (Quiet s → s.phase = .held ∨ s.phase = .zeroFill → sel ≠ 0 →
      readRegister s sel = if sel = 1 then BitVec.ofNat 32 (8 * bit s.sben) else 0) ∧
    (Quiet s → s.phase = .portReset → sel ≠ 0 →
      readRegister s sel = if sel = 1 then BitVec.ofNat 32 (8 * bit s.sben)
        else if sel = 5 then BitVec.ofNat 32 (2 * bit s.fixed) else 0)

/-- The command that a register write is (R2, R10 to R13), and that the ignored write changes nothing. A Lock write is
judged by its whole word (assumption 22). -/
def Obligations.RegisterWritesChooseTheCommand : Prop :=
  ∀ (s : State) (v : Word32),
    (∀ sel, exec (.registerWriteIgnored sel v) s = .next s) ∧
    (s.phase = .ready →
      (∀ sel : BitVec 3, sel = 0 ∨ 6 ≤ sel.toNat → registerWriteCommand s sel v = .registerWriteIgnored sel v) ∧
      (v.getLsbD 1 = true → registerWriteCommand s 1 v = .portReset) ∧
      (v.getLsbD 1 = false → registerWriteCommand s 1 v =
        if v.getLsbD 0 = s.run then .registerWriteIgnored 1 v else if v.getLsbD 0 then .runSet else .runClear) ∧
      (∀ t : Fin 8, v.toNat % 256 = t.val → registerWriteCommand s 2 v =
        if s.run ∧ s.configured then .nudgeTenant t else .registerWriteIgnored 2 v) ∧
      (v.toNat % 256 = 8 → registerWriteCommand s 2 v =
        if s.run then .nudgeBuilding else .registerWriteIgnored 2 v) ∧
      (8 < v.toNat % 256 → registerWriteCommand s 2 v = .registerWriteIgnored 2 v) ∧
      registerWriteCommand s 3 v = .attentionClear v ∧ registerWriteCommand s 4 v = .attentionMaskWrite v ∧
      registerWriteCommand s 5 v =
        if v = 1 then .lockSetHold else if v = 2 then .lockClearHold else if v = 3 then .lockSetFixed
        else .registerWriteIgnored 5 v)

/-- R12: an Attention bit is set by an event whatever the mask and stays set until the host clears it or a reset begins or
ends; a host's clear takes exactly the bits written 1, so the later of a clear and a set decides; a mask write leaves
Attention alone; the output is asserted while a set bit has its mask bit at 1; and both resets set both registers to 0. -/
def Obligations.AttentionCommands : Prop :=
  ∀ (s : State) (v : Word32),
    (∀ b < 12, (attend b s).attention.getLsbD b = true ∧ (attend b s).mask = s.mask ∧
      (∀ i, i ≠ b → (attend b s).attention.getLsbD i = s.attention.getLsbD i) ∧
      (s.attention.getLsbD b = true → attend b s = s)) ∧
    (∀ (c : Instr) (t : State) (i : Nat), exec c s = .next t → (∀ w, c ≠ .attentionClear w) → c ≠ .powerOnResetAssert →
      c ≠ .zeroFillCompletion → c ≠ .portReset → c ≠ .portResetCompletion → s.attention.getLsbD i = true →
      t.attention.getLsbD i = true) ∧
    (s.phase = .ready →
      (∃ t, exec (.attentionClear v) s = .next t ∧ Touches [.attention] s t ∧
        ∀ i < 12, t.attention.getLsbD i = (s.attention.getLsbD i && !v.getLsbD i)) ∧
      (∃ t, exec (.attentionMaskWrite v) s = .next t ∧ Touches [.mask] s t ∧
        ∀ i < 12, t.mask.getLsbD i = v.getLsbD i)) ∧
    (attentionOutput s = true ↔ ∃ i < 12, s.attention.getLsbD i = true ∧ s.mask.getLsbD i = true) ∧
    readRegister s 3 = s.attention.zeroExtend 32 ∧ readRegister s 4 = s.mask.zeroExtend 32 ∧
    (∃ t, exec .powerOnResetAssert s = .next t ∧ t.attention = 0 ∧ t.mask = 0) ∧
    (s.phase = .zeroFill → ∃ t, exec .zeroFillCompletion s = .next t ∧ t.attention = 0 ∧ t.mask = 0) ∧
    (s.phase = .ready → ∃ t, exec .portReset s = .next t ∧ t.attention = 0 ∧ t.mask = 0) ∧
    (s.phase = .portReset → ∃ t, exec .portResetCompletion s = .next t ∧ t.attention = 0 ∧ t.mask = 0)

/-- R13, R35: the Lock register's codes, what the resets leave of it, and its published copy in Building Status. A write is
judged by its whole word (assumption 22). That a write leaves the words of the Building Status region beyond its record as they
were is the model's choice between R174 and 01 section 1 (assumption 45). -/
def Obligations.LockCommands : Prop :=
  ∀ s : State,
    (s.phase = .ready →
      (∃ t, exec .lockSetHold s = .next t ∧ t.hold = true ∧ Touches [.hold, .ram, .stamps] s t ∧ LockCopied s t) ∧
      (∃ t, exec .lockClearHold s = .next t ∧ t.hold = false ∧ Touches [.hold, .ram, .stamps] s t ∧ LockCopied s t) ∧
      (∃ t, exec .lockSetFixed s = .next t ∧ t.fixed = true ∧ Touches [.fixed, .ram, .stamps] s t ∧ LockCopied s t) ∧
      (∀ v : Word32, registerWriteCommand s 5 v =
        if v = 1 then .lockSetHold else if v = 2 then .lockClearHold else if v = 3 then .lockSetFixed
        else .registerWriteIgnored 5 v) ∧
      (∃ t, exec .portReset s = .next t ∧ t.hold = false ∧ t.fixed = s.fixed)) ∧
    (∃ t, exec .powerOnResetAssert s = .next t ∧ t.hold = false ∧ t.fixed = false) ∧
    (∀ sel v, exec (.registerWriteIgnored sel v) s = .next s)

/-- R14: a millisecond of hub time; and a timer of length at most 2^31 ms is reached at its expiry and not before. -/
def Obligations.HubTimeAndTimers : Prop :=
  (∀ s : State, s.phase = .ready →
    ∃ t, exec .hubTimeTick s = .next t ∧ t.hubTime = s.hubTime + 1 ∧ memNat t.ram 0 4 = t.hubTime.toNat ∧
      (∀ a, 4 ≤ a → memGet t.ram a = memGet s.ram a) ∧ Touches [.hubTime, .ram] s t) ∧
  (∀ s : State, s.phase ≠ .ready → exec .hubTimeTick s = .next s) ∧
  (∀ (start : Time) (len k : Nat), len ≤ 2 ^ 31 → k ≤ len →
    (reached (start + BitVec.ofNat 32 k) (some (expiryAfter start len)) = true ↔ k = len))

/-- R1, R3, R15: the host's reads and writes of the shared RAM. -/
def Obligations.SharedRamAccesses : Prop :=
  ∀ (s : State) (addr : BitVec 16) (v : Word32),
    (s.phase = .ready ∨ s.phase = .portReset →
      (∃ t, exec (.sharedRamWrite addr v) s = .next t ∧ Touches [.ram] s t ∧
        (∀ a, a < 4 * addr.toNat ∨ 4 * addr.toNat + 4 ≤ a → memGet t.ram a = memGet s.ram a) ∧
        ∃ u, exec (.sharedRamRead addr) t = .next u ∧ u.readData = v) ∧
      (∃ t, exec (.sharedRamRead addr) s = .next t ∧ Touches [.readData] s t ∧
        t.readData.toNat = memNat s.ram (4 * addr.toNat) 4)) ∧
    (s.phase = .held ∨ s.phase = .zeroFill →
      exec (.sharedRamWrite addr v) s = .next s ∧
      ∃ t, exec (.sharedRamRead addr) s = .next t ∧ Touches [.readData] s t ∧ t.readData = 0)

/-! ### Resets (R3, R15) -/

/-- R3, R98, R134: the power-on reset input asserted and released, and zero-fill completion. Asserted, every unit has its
power-on state and the registers read 0; what the pins show, the shared RAM (assumption 40) and the waiting commands are
left alone. At the completion every byte outside the hub-owned records reads 0, the fault entries and the hub-time word
among them, every hub-owned record is published once, and a line whose pin
is low is PENDING_ON with 20 ms to run. Each command changes nothing outside its moment (assumption 3). -/
def Obligations.PowerOnReset : Prop :=
  ∀ s : State,
    (∃ t, exec .powerOnResetAssert s = .next t ∧ t.phase = .held ∧
      (∀ sel : BitVec 3, sel ≠ 0 →
        readRegister t sel = if sel = 1 then BitVec.ofNat 32 (8 * bit s.sben) else 0) ∧
      (∀ a, t.areaSweep a = {}) ∧ t.word = none ∧ t.config = {} ∧ t.orders = {} ∧ t.hubTime = 0 ∧ t.stamps = [] ∧
      t.faults = {} ∧ t.tenants = [] ∧ t.cars = [] ∧ t.board = [] ∧ t.aboard = [] ∧ t.lines = [] ∧ t.heads = [] ∧
      t.trunks = [] ∧ t.badWords = 0 ∧ t.torn = 0 ∧ t.configSeen = none ∧ t.ordersSeen = none ∧
      Touches (commandFields .powerOnResetAssert) s t ∧
      ∃ u, exec .powerOnResetRelease t = .next u ∧ u.phase = .zeroFill ∧ Touches [.phase] t u) ∧
    (s.phase ≠ .held → exec .powerOnResetRelease s = .next s) ∧
    (s.phase = .zeroFill →
      ∃ t, exec .zeroFillCompletion s = .next t ∧ t.phase = .ready ∧ t.hubTime = 0 ∧ t.run = false ∧ t.attention = 0 ∧
        t.mask = 0 ∧ t.hold = false ∧ t.fixed = false ∧ (∀ a, hubByte a = false → memGet t.ram a = 0) ∧
        (∀ a, (∀ r, RecordOk r → ¬ InRecord r a) → memGet t.ram a = 0) ∧
        (∀ r, RecordOk r → tableGet 0 t.stamps (leadAddress r) = 1 ∧ ShowsRecord t r) ∧
        (∀ a, t.areaSweep a = {}) ∧ t.word = none ∧ t.configSeen = none ∧ t.ordersSeen = none ∧ t.torn = 0 ∧
        t.badWords = 0 ∧ t.config = {} ∧ t.orders = {} ∧ t.faults = {} ∧ t.tenants = [] ∧ t.cars = [] ∧ t.board = [] ∧
        t.aboard = [] ∧ t.heads = [] ∧ t.trunks = [] ∧
        (∀ l < 4, t.line l =
          if s.ovrLow.getLsbD l then { state := .pendingOn, pin := true, expiry := some (expiryAfter 0 20) } else {}) ∧
        Touches (commandFields .zeroFillCompletion) s t) ∧
    (s.phase ≠ .zeroFill → exec .zeroFillCompletion s = .next s)

/-- R15, R19, R36, R126, R160, R163: what a port reset does at its write. The validation in flight and the word in reception
are dropped, every timer is cancelled, every turn is cut and every broadcast list emptied; all else of each unit stays. -/
def Obligations.PortResetBegins : Prop :=
  ∀ s : State,
    (s.phase = .ready →
      ∃ t, exec .portReset s = .next t ∧ t.phase = .portReset ∧ t.run = false ∧ t.attention = 0 ∧ t.mask = 0 ∧
        t.hold = false ∧ attentionOutput t = false ∧ Touches (commandFields .portReset) s t ∧
        (∀ a, t.areaSweep a = {}) ∧ t.config = { s.config with validating := none } ∧ t.word = none ∧
        (∀ n, t.tenant n = { s.tenant n with sweep := {}, slots := (t.tenant n).slots,
                                             programs := (t.tenant n).programs }) ∧
        (∀ c, t.car c = { s.car c with freshness := none }) ∧
        (∀ n i, t.slot n i = { s.slot n i with limit := none }) ∧
        (∀ n p, t.program n p = { s.program n p with expiry := none }) ∧
        (∀ l, t.line l = { s.line l with expiry := none }) ∧
        (∀ n, t.trunk n = { s.trunk n with flight := .idle, recovery := none, chosen := none, requests := [] }) ∧
        (∀ k, tableFind t.heads k = (tableFind s.heads k).map (fun h =>
          { h with pollAt := none, probeAt := none, prompts := h.prompts.map (fun p => { p with expiry := none }) }))) ∧
    (s.phase ≠ .ready → exec .portReset s = .next s)

/-- R15, R36, R55, R97, R134, R148, R164, R169: port reset completion. The configuration is kept where FIXED is 1; every unit
has its reset state under it, the heads and trunks that it gives in service again; every slot keeps its hub half, a live one
retired with outcome RESET; and each hub-owned record but an unchanged slot is published. The command changes nothing outside
a port reset (assumption 3). That the words of the hub's regions beyond its records stay as they were is the model's choice
between R174 and 01 section 1 (assumption 45). -/
def Obligations.PortResetCompletes : Prop :=
  ∀ s : State,
    (s.phase = .portReset →
      ∃ t, exec .portResetCompletion s = .next t ∧ t.phase = .ready ∧ t.hubTime = 0 ∧ t.run = false ∧ t.attention = 0 ∧
        t.mask = 0 ∧ t.hold = false ∧ t.fixed = s.fixed ∧ t.word = none ∧ t.badWords = 0 ∧ t.configSeen = none ∧
        t.ordersSeen = none ∧ t.torn = 0 ∧ (∀ a, t.areaSweep a = {}) ∧
        t.config = (if s.fixed then { inForce := s.config.inForce, accepted := s.config.accepted } else {}) ∧
        t.orders = {} ∧ t.faults = { s.faults with sequence := 0, dropped := 0 } ∧
        (∀ n, t.tenant n = { faults := { (s.tenant n).faults with sequence := 0, dropped := 0 },
                             slots := (t.tenant n).slots }) ∧
        (∀ n i, t.slot n i = { s.slot n i with
          limit := none,
          state := if (s.slot n i).live then .retired else (s.slot n i).state,
          outcome := if (s.slot n i).live then some .reset else (s.slot n i).outcome,
          reason := if (s.slot n i).live then none else (s.slot n i).reason }) ∧
        (∀ n p, t.program n p = {}) ∧ (∀ c, t.car c = {}) ∧ t.board = [] ∧ t.aboard = [] ∧
        (∀ l < 4, t.line l =
          let low := s.ovrLow.getLsbD l
          { state := if low then .pendingOn else .idle
            pin := low
            expiry := if low then some (expiryAfter 0 (if t.configured then (t.conf.line l).onTime else 20)) else none
            zones := if t.configured = false ∨ (s.sben = true ∧ (t.conf.line l).sideBand = 1) then 0
                     else (t.conf.line l).zones
            word := none }) ∧
        (∀ n, t.trunk n = if n < 16 ∧ (t.conf.trunk n).enabled = 1 then { state := .running, active := some .a } else {}) ∧
        (∀ k, t.conf.head k = none → tableFind t.heads k = none) ∧
        (∀ k row, t.conf.head k = some row → ∃ h, tableFind t.heads k = some h ∧ FreshHead h ∧ h.presented = .idle ∧
          h.override = none ∧ h.notice = none ∧ h.guidance = none ∧ h.position = none ∧
          (row.kind? ≠ none → HeadLayersOk t row h)) ∧
        (∀ r, RecordOk r → (∀ n i, r ≠ .slotHalf n i) → Published s t r) ∧
        (∀ n < 8, ∀ i < 64, (s.slot n i).live = true → Published s t (.slotHalf n i)) ∧
        (∀ a, hubByte a = false → memGet t.ram a = memGet s.ram a) ∧
        Touches (commandFields .portResetCompletion) s t) ∧
    (s.phase ≠ .portReset → exec .portResetCompletion s = .next s)

/-! ### Sweeps (R7 to R11) -/

/-- R11, R16, R160: RUN becomes 1 with no sweep in flight, and every admitted area (the building area, and while CONFIGURED the
tenant areas) starts, the building area at the Orders while a validation is in flight; RUN becomes 0, and sweeps and turns in
flight go on. Where some areas still have a sweep in flight, each other admitted area starts as before, and what RUN set does
to the sweep in flight is the model's reading (assumption 6): its area is flagged. -/
def Obligations.RunSetAndRunClear : Prop :=
  ∀ s : State,
    (s.phase = .ready → s.run = false → (∀ a, (s.areaSweep a).next = none) →
      ∃ t, exec .runSet s = .next t ∧ t.run = true ∧ Touches [.run, .sweep, .tenants] s t ∧
        t.areaSweep .building = { timer := some (expiryAfter s.hubTime (sweepPeriod s)), nudge := false,
                                  next := some (if s.config.validating.isSome then 1 else 0) } ∧
        (∀ n : Fin 8, t.areaSweep (.tenant n) =
          if s.configured then { timer := some (expiryAfter s.hubTime (sweepPeriod s)), nudge := false, next := some 0 }
          else s.areaSweep (.tenant n)) ∧
        ∀ n, t.tenant n = { s.tenant n with sweep := (t.tenant n).sweep }) ∧
    (s.phase = .ready → s.run = false → ∃ t, exec .runSet s = .next t ∧ t.run = true ∧
      Touches [.run, .sweep, .tenants] s t ∧ (∀ n, t.tenant n = { s.tenant n with sweep := (t.tenant n).sweep }) ∧
      ∀ a, t.areaSweep a =
        if a = .building ∨ s.configured = true then
          (if (s.areaSweep a).next ≠ none then { s.areaSweep a with nudge := true }
           else { timer := some (expiryAfter s.hubTime (sweepPeriod s)), nudge := false,
                  next := some (if a = .building ∧ s.config.validating.isSome then 1 else 0) })
        else s.areaSweep a) ∧
    (s.phase = .ready → s.run = true → exec .runSet s = .next s) ∧
    (s.phase = .ready → s.run = true →
      ∃ t, exec .runClear s = .next t ∧ t.run = false ∧ Touches [.run, .sweep, .tenants, .trunks] s t ∧
        (∀ a, t.areaSweep a = { s.areaSweep a with timer := none, nudge := false }) ∧
        (∀ n, t.trunk n = { s.trunk n with requests := [] }) ∧
        ∀ n, t.tenant n = { s.tenant n with sweep := (t.tenant n).sweep }) ∧
    (s.phase = .ready → s.run = false → exec .runClear s = .next s)

/-- R9's table and R10: nudges and sweep timer expiries of an admitted area; P is 20 ms while UNCONFIGURED, and a building
sweep begins at the Orders while a validation is in flight (R16). An expiry command that comes late still acts
(assumption 4). -/
def Obligations.NudgesAndSweepTimers : Prop :=
  ∀ (s : State) (a : Area), s.phase = .ready → s.run = true → (a = .building ∨ s.configured = true) →
    let begun : AreaSweep :=
      { timer := some (expiryAfter s.hubTime (if s.configured then s.conf.sweepPeriod else 20)), nudge := false,
        next := some (if a = .building ∧ s.config.validating.isSome then 1 else 0) }
    (∃ t, exec (nudgeOf a) s = .next t ∧ Touches [.sweep, .tenants] s t ∧
      t.areaSweep a = (if (s.areaSweep a).next = none then begun else { s.areaSweep a with nudge := true }) ∧
      (∀ b, b ≠ a → t.areaSweep b = s.areaSweep b) ∧ ∀ n, t.tenant n = { s.tenant n with sweep := (t.tenant n).sweep }) ∧
    (reached s.hubTime (s.areaSweep a).timer = true →
      ∃ t, exec (.sweepTimerExpiry a) s = .next t ∧ Touches [.sweep, .tenants] s t ∧
        t.areaSweep a = (if (s.areaSweep a).next = none then begun
                         else { s.areaSweep a with nudge := true, timer := none }) ∧
        (∀ b, b ≠ a → t.areaSweep b = s.areaSweep b) ∧
        ∀ n, t.tenant n = { s.tenant n with sweep := (t.tenant n).sweep }) ∧
    (reached s.hubTime (s.areaSweep a).timer = false → exec (.sweepTimerExpiry a) s = .next s)

/-- R8, R9: a sweep ends after its last record; a tenant's sweep count rises; a set flag begins a new sweep at once, a
building sweep at the Orders while a validation is in flight (R16). Of every tenant nothing changes but its sweep and its
sweep count. -/
def Obligations.SweepCompletes : Prop :=
  ∀ (s : State) (a : Area), s.phase = .ready → (s.areaSweep a).next = some (if a = .building then 2 else 90) →
    ∃ t, exec (.sweepCompletion a) s = .next t ∧ Touches [.sweep, .tenants, .ram, .stamps, .heads] s t ∧
      (if (s.areaSweep a).nudge ∧ s.run then
        (t.areaSweep a).timer = some (expiryAfter s.hubTime (sweepPeriod s)) ∧ (t.areaSweep a).nudge = false ∧
        (t.areaSweep a).next = some (if a = .building ∧ s.config.validating.isSome then 1 else 0)
       else t.areaSweep a = { s.areaSweep a with next := none }) ∧
      (∀ n : Fin 8, (t.tenant n).sweepCount = (s.tenant n).sweepCount + (if a = .tenant n then 1 else 0)) ∧
      (∀ b, b ≠ a → t.areaSweep b = s.areaSweep b) ∧
      ∀ m, t.tenant m = { s.tenant m with sweep := (t.tenant m).sweep, sweepCount := (t.tenant m).sweepCount }

/-- R7's table; a torn record is counted and skipped, and a record not yet published or unchanged is skipped. Of every tenant
nothing changes but its sweep and, for a torn record of its area, its torn count. -/
def Obligations.SweepJudgement : Prop :=
  (∀ (st : Stamps) (seen : Option Stamp),
    (st.lead ≠ st.tail → judge st seen = .torn) ∧
    (st.lead = st.tail → seen = none → judge st seen = if st.lead = 0 then .skipped else .accepted st.lead) ∧
    (∀ v, st.lead = st.tail → seen = some v → judge st seen = if st.lead = v then .skipped else .accepted st.lead)) ∧
  ∀ (s : State) (c : Instr) (a : Area) (n : Nat), ReadsNow s c a n →
    (judge (sweepStamps s.ram c) (sweepSeen s c) = .torn →
      ∃ t, exec c s = .next t ∧ tornCount t a = min (tornCount s a + 1) 65535 ∧ sweepSeen t c = sweepSeen s c ∧
        (t.areaSweep a).next = some (followingRecord s a n) ∧
        Touches [.sweep, .torn, .tenants, .ram, .stamps, .heads] s t ∧ (∀ b, b ≠ a → tornCount t b = tornCount s b) ∧
        (∀ b, b ≠ a → t.areaSweep b = s.areaSweep b) ∧
        ∀ m, t.tenant m = { s.tenant m with sweep := (t.tenant m).sweep, torn := (t.tenant m).torn }) ∧
    (judge (sweepStamps s.ram c) (sweepSeen s c) = .skipped →
      ∃ t, exec c s = .next t ∧ (∀ b, tornCount t b = tornCount s b) ∧ sweepSeen t c = sweepSeen s c ∧
        (t.areaSweep a).next = some (followingRecord s a n) ∧
        Touches [.sweep, .tenants, .ram, .stamps, .heads] s t ∧ (∀ b, b ≠ a → t.areaSweep b = s.areaSweep b) ∧
        ∀ m, t.tenant m = { s.tenant m with sweep := (t.tenant m).sweep })

/-! ### The building configuration and its orders (02) -/

/-- R16, R17, R18: a Building Configuration accepted at a sweep is taken as the one in force, refused for the lock, or put
into validation. A refusal whose stamp differs from the locked stamp raises a LOCKED_CHANGE fault with the refused stamp as its
value, and sets LOCKED; one whose stamp equals it changes nothing. -/
def Obligations.ConfigurationHandOver : Prop :=
  ∀ (s : State) (st : Stamp), ReadsNow s .sweepReadConfiguration .building 0 →
    judge (configStamps s.ram) s.configSeen = .accepted st →
    ∃ t, exec .sweepReadConfiguration s = .next t ∧ t.sweep.next = some 1 ∧ t.config.inForce = s.config.inForce ∧
      t.config.accepted = s.config.accepted ∧ Touches (commandFields .sweepReadConfiguration) s t ∧
      (s.configured = true ∧ s.config.accepted = some st →
        t.config = s.config ∧ t.configSeen = some st ∧ t.attention = s.attention ∧ t.faults = s.faults) ∧
      (¬ (s.configured = true ∧ s.config.accepted = some st) → (s.hold = true ∨ s.fixed = true) →
        t.configSeen = s.configSeen ∧ t.config = { s.config with lockedStamp := some st } ∧
        (if s.config.lockedStamp = some st then t.attention = s.attention ∧ t.faults = s.faults ∧ FaultsRaised [] s t
         else t.faults.sequence = s.faults.sequence + 1 ∧ LockedChangeRaised st s t)) ∧
      (¬ (s.configured = true ∧ s.config.accepted = some st) → s.hold = false → s.fixed = false →
        t.configSeen = some st ∧ t.attention = s.attention ∧ t.config = { s.config with
          validating := some { stamp := st, body := readConfiguration s.ram, seenBefore := s.configSeen } })

/-- R18 to R28: the checks of a generation, made in the order of R20 to R26 (checksInOrder), whose first failure names the
first offending item, and the end of a validation. A generation that fails a check is refused with that item and a fault; one
that passes is refused for the lock, with a LOCKED_CHANGE fault for its stamp if none was raised, or put in force with
SUPERVISOR set. Of the cars granted twice the lower is named (assumption 46), and how an entry names what two fields could
name is free (assumptions 20 and 21). That a Car Record's PRESENT check comes before its label and every other field is the
model's reading: R22 does not say its place in the order (assumption 35). -/
def Obligations.ValidationOutcomes : Prop :=
  (∀ g : BuildingConfig, (validate g = none ↔ ∀ x ∈ checksInOrder g, x.2.2 = none) ∧
    ∀ o, validate g = some o ↔
      (checksInOrder g).find? (fun x => x.2.2.isSome) = some (o.part, o.entry, some o.check)) ∧
  ∀ (s : State) (v : Validation), s.phase = .ready → s.config.validating = some v →
    ∃ t, exec .validationCompletion s = .next t ∧ t.config.validating = none ∧
      Touches (commandFields .validationCompletion) s t ∧
      (∀ o, validate v.body = some o →
        t.config = { s.config with validating := none, refused := some (v.stamp, o) } ∧ t.configSeen = s.configSeen ∧
        FaultsRaised [{ tenant := none, cause := .configRefused, source := .configuration,
                        indexA := some (partCode o.part), indexB := o.entry.map (·.toNat), logical := v.stamp.toNat,
                        building := none, count := none }] s t ∧
        t.faults.sequence = s.faults.sequence + 1 ∧ t.tenants = s.tenants ∧ t.cars = s.cars ∧ t.board = s.board ∧
        t.lines = s.lines ∧ t.trunks = s.trunks) ∧
      (validate v.body = none → (s.hold = true ∨ s.fixed = true) →
        t.config = { s.config with validating := none, lockedStamp := some v.stamp } ∧ t.configSeen = v.seenBefore ∧
        (s.config.lockedStamp ≠ some v.stamp → LockedChangeRaised v.stamp s t) ∧
        (s.config.lockedStamp = some v.stamp → FaultsRaised [] s t ∧ t.attention = s.attention) ∧ t.tenants = s.tenants ∧
        t.cars = s.cars ∧ t.board = s.board ∧ t.lines = s.lines ∧ t.trunks = s.trunks) ∧
      (validate v.body = none → s.hold = false → s.fixed = false →
        t.config = { s.config with validating := none, inForce := some v.body, accepted := some v.stamp,
                                   lockedStamp := none } ∧
        t.attention.getLsbD 8 = true ∧ t.configSeen = s.configSeen)

/-- R28 to R32, R48, R104, R163, R169: what a generation put in force does. Disturbed cars go to ACQUIRING with their marks,
and their slots are RECONFIGURED; a live slot whose car is no longer granted is REVOKED; heads are added, removed, reloaded
or kept by their rows, and trunks enabled, disabled or kept; each ACTIVE tenant's map is checked again and its faults raised,
in tenant order (assumption 47); the zone sets are computed again, and a gain's request reaches a trunk that the same
generation enables (assumption 48); and the first generation starts the tenants' sweeps. A car newly present counts as
changed and one no longer present does not (assumption 17); the heads of a trunk newly enabled have confirmed nothing
(assumption 16). The model's choices: the quota and the causes of retirement are judged from the state before the acceptance
(assumption 34), a deck in OUT_OF_SERVICE keeps the label it last presented (assumption 25), a trunk disabled past its frame
ends its turn in the gap with no break (assumption 64) and its lines' loop error runs are 0 (assumption 65), a SETUP in
flight to a head that is reloaded goes on as it is (assumption 69), a line that a
trunk already shows SHUT ORDERED keeps its shut time at the enabling (assumption 66), and of several lines that gain zones
the lower one's request comes first (assumption 67). The board entries and the Aboard Lists that nothing empties lose the
counts of the retired slots and nothing else. -/
def Obligations.GenerationPutInForce : Prop :=
  ∀ (s : State) (v : Validation), s.phase = .ready → s.config.validating = some v → validate v.body = none →
    s.hold = false → s.fixed = false → KeysOk s →
    let old := s.config.inForce
    let g := v.body
    ∃ t, exec .validationCompletion s = .next t ∧ Touches (commandFields .validationCompletion) s t ∧
      t.config.inForce = some g ∧
      (∀ c < 64,
        (Disturbed old g c → t.car c = { s.car c with
          tracking := .acquiring, anchor := false, overrun := false, freshness := none, runCount := 0,
          deck0 := acquired (s.car c).deck0, deck1 := acquired (s.car c).deck1 }) ∧
        (¬ Disturbed old g c → ∃ a b, t.car c = { s.car c with
            deck0 := { (s.car c).deck0 with lastShown := relabelled g (s.car c) (s.car c).deck0, announcement := a },
            deck1 := { (s.car c).deck1 with lastShown := relabelled g (s.car c) (s.car c).deck1, announcement := b } } ∧
          ((∃ n, (s.car c).tenant = some n ∧ grantsCar g n c = false) → a = {} ∧ b = {}) ∧
          ((∀ n, (s.car c).tenant = some n → grantsCar g n c = true) →
            (∀ n < 8, ∀ i < 64, (s.slot n i).live = true → (s.slot n i).car = some c → t.slot n i = s.slot n i) →
            a = (s.car c).deck0.announcement ∧ b = (s.car c).deck1.announcement))) ∧
      (∀ n < 8, ∀ i < 64,
        ((s.slot n i).live = false ∨ (s.slot n i).car = none → t.slot n i = s.slot n i) ∧
        (∀ o, (s.slot n i).live = true → (s.slot n i).car ≠ none → SlotOutcome s g n (s.slot n i) o →
          (o = none → t.slot n i = s.slot n i) ∧
          ∀ r, o = some r → t.attention.getLsbD n = true ∧ t.slot n i = { s.slot n i with
            state := .retired, outcome := some r, reason := none, limit := none })) ∧
      (GeometryChanges old g → t.board = [] ∧ t.aboard = [] ∧ ∀ k h, tableFind t.heads k = some h → h.prompts = []) ∧
      (∀ e ∈ t.board, (e.2.car < 64 → ¬ DecksChange old g e.2.car) ∧ (e.2.tenant < 8 → ¬ QuotaShort s g e.2.tenant)) ∧
      EntriesStay s t ∧
      (BooksOk s → ∀ l c k dir x, c < 64 → ¬ Disturbed old g c →
        (∀ p e, boardFind s l c k dir = some (p, e) → e.tenant < 8 → ¬ QuotaShort s g e.tenant) →
        waiting t l c k dir x = waiting s l c k dir x - partySum s (fun n i =>
          decide (WaitsFor l c k dir x (s.slot n i) ∧ (t.slot n i).state = .retired))) ∧
      (BooksOk s → LiveDecks s → ∀ c < 64, ¬ Disturbed old g c → ∀ k < 2, ∀ x,
        riding t c k x = riding s c k x - partySum s (fun n i =>
          decide (RidesTo c k x (s.slot n i) ∧ (t.slot n i).state = .retired))) ∧
      (∀ c < 64, DecksChange old g c → ∀ k < 2, t.aboardList c k = []) ∧
      (∀ n p, t.program n p = s.program n p) ∧
      (∀ k, g.head k = none → tableFind t.heads k = none) ∧
      (∀ k < 992, ∀ b, g.head k = some b →
        ∃ h', tableFind t.heads k = some h' ∧
        (old.bind (·.head k) = none ∨ tableFind s.heads k = none → FreshHead h') ∧
        (∀ a h, old.bind (·.head k) = some a → tableFind s.heads k = some h →
          let reloads := a.kind ≠ b.kind ∨ a.zone ≠ b.zone ∨ a.immunity ≠ b.immunity
          let was := enabledBy old (keyTrunk k)
          let now := enabledBy (some g) (keyTrunk k)
          h'.misses = h.misses ∧ h'.busyCount = h.busyCount ∧ h'.crcErrors = h.crcErrors ∧ h'.echo = h.echo ∧
          h'.everLost = h.everLost ∧ h'.everFailed = h.everFailed ∧ h'.ambient = h.ambient ∧ h'.level = h.level ∧
          (reloads → h'.needsReload = true ∧ h'.confirmed = none ∧ h'.snapshot = none ∧ h'.jump = true) ∧
          (¬ reloads → h'.needsReload = h.needsReload ∧ h'.jump = h.jump) ∧
          (was = now → h'.link = h.link ∧ h'.missRun = h.missRun ∧ h'.busy = h.busy ∧ h'.sentTag = h.sentTag ∧
            h'.pending = h.pending ∧ h'.lastFrame = h.lastFrame ∧ h'.pollAt = h.pollAt ∧ h'.probeAt = h.probeAt ∧
            h'.probeDue = h.probeDue ∧
            (¬ reloads → h'.confirmed = h.confirmed ∧ h'.snapshot = h.snapshot)) ∧
          (was = false → now = true → h'.link = .unknown ∧ h'.busy = false ∧ h'.sentTag = 0 ∧ h'.pending = false ∧
            h'.confirmed = none ∧ h'.snapshot = none ∧ h'.pollDue = true ∧ h'.probeDue = false ∧ h'.probeAt = none) ∧
          (was = true → now = false → h'.link = .unknown ∧ h'.missRun = 0 ∧ h'.busy = false ∧ h'.pollDue = true ∧
            h'.probeDue = false ∧ h'.probeAt = none) ∧
          (GeometryChanges old g ∨ a.kind ≠ b.kind ∨ (∀ o, old = some o → headTenant o a ≠ headTenant g b) →
            h'.prompts = []) ∧
          (¬ GeometryChanges old g → a.kind = b.kind → (∀ o, old = some o → headTenant o a = headTenant g b) →
            h'.prompts = h.prompts))) ∧
      (∀ n < 16,
        let was := enabledBy old n
        let now := enabledBy (some g) n
        let x := s.trunk n
        t.trunk n = withRequests s.run
          (if was = false ∧ now = true then trunkEnabled s g n
           else if was = true ∧ now = false then trunkDisabled x
           else { x with flight := flightWithout g n x.flight }) (gainRequests s t n) ∧
        ((t.trunk n).state ≠ x.state → t.attention.getLsbD 9 = true)) ∧
      (∀ n < 8, t.tenant n = { s.tenant n with
        map := (t.tenant n).map, rangeCount := (t.tenant n).rangeCount, grantCount := (t.tenant n).grantCount,
        faults := (t.tenant n).faults, slots := (t.tenant n).slots, sweep := (t.tenant n).sweep }) ∧
      (∀ n < 8, ∀ m, (s.tenant n).active = true → (s.tenant n).map = some m →
        let m' := resolveMap g n m.stamp m.body
        (t.tenant n).map = some m' ∧ (t.tenant n).rangeCount = (rangeFailed m').length ∧
        (t.tenant n).grantCount = (grantFailed m').length) ∧
      (∀ n < 8, (s.tenant n).active = false ∨ (s.tenant n).map = none →
        (t.tenant n).map = (s.tenant n).map ∧ (t.tenant n).rangeCount = (s.tenant n).rangeCount ∧
        (t.tenant n).grantCount = (s.tenant n).grantCount) ∧
      FaultsRaised ((List.range 8).flatMap (fun n =>
        match (s.tenant n).active, (s.tenant n).map with
        | true, some m => mapFaults n (resolveMap g n m.stamp m.body)
        | _, _ => [])) { s with config := t.config } t ∧
      (∀ l < 4, t.line l = { s.line l with zones := zonesOf t l }) ∧
      t.sweep = s.sweep ∧
      (∀ n : Fin 8, t.areaSweep (.tenant n) =
        if s.configured = false ∧ s.run = true then
          (if (s.areaSweep (.tenant n)).next = none then
             { timer := some (expiryAfter s.hubTime g.sweepPeriod), nudge := false, next := some 0 }
           else { s.areaSweep (.tenant n) with nudge := true })
        else s.areaSweep (.tenant n))

/-- R18: while FIXED is set the accepted building configuration does not change, and FIXED itself stays until a power-on
reset. -/
def Obligations.FixedKeepsTheConfiguration : Prop :=
  ∀ (c : Instr) (s t : State), exec c s = .next t → c ≠ .powerOnResetAssert → c ≠ .zeroFillCompletion →
    s.fixed = true →
    t.fixed = true ∧ t.config.inForce = s.config.inForce ∧ t.config.accepted = s.config.accepted

/-- R33, R34, R123, R172, R173: an accepted Orders record. The copy takes each standing order, a line order of neither code
leaves its line's as it was, and each one-time baseline takes the accepted value; a one-time stamp acts only where its
baseline is present and differs. A SHUT order that changes shuts its line ORDERED, and the active line's shut is followed by
failover or DOWN; a RUN order and a restore stamp make lines READY, and a DOWN trunk RUNNING on line A where both are; a DOWN
trunk's recovery timer keeps its expiry, but a SHUT order for the line being probed, or chosen and not yet probed (assumption
29), abandons the probe and starts the timer anew while a line is not ORDERED; the test asserts move the override lines; and
the history clear takes every head and line history. The SHUT orders come before the lines made READY, and A before B
(assumption 18); a failover abandons the turn, and the request of a broadcast returns to the list, while RUN is 0 too
(assumption 41); a turn that a DOWN trunk gives up is followed by no gap (assumption 63). The head served by a turn so
abandoned is as for a cut frame with no miss, and only its POLL leaves the poll due (assumption 14); that nothing else of any
head's part of turns changes is stated of legal trunks, on which nothing but a recovery probe goes out while DOWN. -/
def Obligations.OrdersAccepted : Prop :=
  ∀ (s : State) (st : Stamp), ReadsNow s .sweepReadOrders .building 1 →
    judge (ordersStamps s.ram) s.ordersSeen = .accepted st →
    let r := readOrders s.ram
    let clears := Acts s.orders.historyClear r.historyClear
    ∃ t, exec .sweepReadOrders s = .next t ∧ t.sweep.next = some 2 ∧ t.ordersSeen = some st ∧
      Touches (commandFields .sweepReadOrders) s t ∧ t.orders.stamp = some st ∧ t.orders.night = !(r.night == 0) ∧
      t.orders.closed = r.closed ∧ t.orders.tests = r.tests ∧
      (∀ n < 32, tableGet false t.orders.lines n =
        match r.lines.getD n 2 with
        | 0 => false
        | 1 => true
        | _ => tableGet false s.orders.lines n) ∧
      (∀ n < 16, tableGet none t.orders.restore n = some (r.restore.getD n 0)) ∧
      t.orders.historyClear = some r.historyClear ∧
      (∀ k h, tableFind s.heads k = some h → ∃ h', tableFind t.heads k = some h' ∧
        (¬ clears → h'.everLost = h.everLost ∧ h'.everFailed = h.everFailed) ∧
        (clears → h'.everLost = false ∧ h'.everFailed = false)) ∧
      (TrunksLegal s → ∀ k h, tableFind s.heads k = some h → ∃ h', tableFind t.heads k = some h' ∧ TurnPartKept h h' ∧
        (h'.pollDue = true ↔ h.pollDue = true ∨ ∃ n < 16, ∃ l, (s.trunk n).state = .running ∧
          (s.trunk n).active = some l ∧ ShutOrder s r (2 * n + lineIdCode l) ∧ CutPoll (s.trunk n).flight n k)) ∧
      (∀ n < 16, ∀ l,
        let x := (s.trunk n).line l
        let y := (t.trunk n).line l
        (clears → y.loopErr = false ∧ y.watchdog = false) ∧
        (¬ clears → y.loopErr = x.loopErr ∧ y.watchdog = x.watchdog) ∧
        (ShutOrder s r (2 * n + lineIdCode l) → y.shut = some .ordered ∧ y.shutTime = s.hubTime) ∧
        (¬ ShutOrder s r (2 * n + lineIdCode l) → y.shutTime = x.shutTime ∧
          (Readied s r n l → y.shut = none ∧ y.loopRun = 0) ∧ (¬ Readied s r n l → y.shut = x.shut)) ∧
        (y.shut ≠ x.shut → t.attention.getLsbD 9 = true)) ∧
      (∀ n < 16,
        let x := s.trunk n
        let y := t.trunk n
        (x.state = .off → y.state = .off ∧ y.active = x.active ∧ y.flight = x.flight) ∧
        (∀ l, x.state = .running → x.active = some l →
          let other := LineId.other l
          (¬ ShutOrder s r (2 * n + lineIdCode l) →
            y.state = .running ∧ y.active = some l ∧ y.flight = x.flight ∧ y.requests = x.requests) ∧
          (ShutOrder s r (2 * n + lineIdCode l) →
            (((x.line other).shut = none ∧ ¬ ShutOrder s r (2 * n + lineIdCode other)) ∨ Readied s r n other →
              y.state = .running ∧ y.active = some other ∧ t.attention.getLsbD 9 = true) ∧
            ((x.line other).shut = none → ¬ ShutOrder s r (2 * n + lineIdCode other) →
              FailedOver x y ∧ (y.line other).loopRun = 0) ∧
            (¬ ((x.line other).shut = none ∧ ¬ ShutOrder s r (2 * n + lineIdCode other)) → ¬ Readied s r n other →
              y.state = .down ∧ y.active = none ∧ y.requests = [] ∧ y.flight = .idle ∧
              y.recovery = some (expiryAfter s.hubTime (recoveryMs s n)) ∧ t.attention.getLsbD 9 = true))) ∧
        (x.state = .down →
          (Readied s r n .a → y.state = .running ∧ y.active = some .a ∧ y.recovery = none) ∧
          (¬ Readied s r n .a → Readied s r n .b → y.state = .running ∧ y.active = some .b ∧ y.recovery = none) ∧
          (¬ Readied s r n .a → ¬ Readied s r n .b → y.state = .down ∧ y.active = x.active) ∧
          (∀ l, Probed x l → ShutOrder s r (2 * n + lineIdCode l) → ¬ Probed x (LineId.other l) →
            y.chosen = none ∧ y.flight = .idle ∧
            (¬ Readied s r n .a → ¬ Readied s r n .b →
              let bothOrdered := (x.line (LineId.other l)).shut = some .ordered ∨
                (l = .b ∧ ShutOrder s r (2 * n + lineIdCode .a))
              (bothOrdered → y.recovery = none) ∧
              (¬ bothOrdered → y.recovery = some (expiryAfter s.hubTime (recoveryMs s n))))) ∧
          ((∀ l, Probed x l → ¬ ShutOrder s r (2 * n + lineIdCode l)) → ¬ Readied s r n .a → ¬ Readied s r n .b →
            y.chosen = x.chosen ∧ y.flight = x.flight ∧ y.recovery = x.recovery))) ∧
      (∀ l < 4, t.line l = lineWithInputs s l (s.line l).pin (r.tests.getLsbD l) ∧
        ((t.line l).state ≠ (s.line l).state → t.attention.getLsbD 10 = true))

/-! ### Tenants (03) -/

/-- R37 to R39, R42: an accepted header that enables its tenant, that disables it, and one of a tenant that stays ACTIVE:
with its restart stamp changed it takes the tenant down as a disabling does and the tenant stays ACTIVE, its layers emptied
and the cars' park presentation written (R39); and with its mark-set stamp changed it sets a mark, or raises the fault of the
car that fails (R42). The header's own seen stamp is set to none with the area's others at an enabling, a restart and a
disabling (assumption 23). A mark-set stamp that acts together with a restart finds no map, so that its car fails. Which
layers a restart empties, the lantern of a TRACKING car outside the tenant's map among them, is the model's choice
(assumption 50), and so is that a car which fails raises its fault whatever the mark code is (assumption 57). What a
disabling and a restart leave alone is in TakenDown; an enabling, and a header of a tenant that stays DISABLED or ACTIVE with
no restart, changes no board entry, no Aboard List and no Prompt List. -/
def Obligations.HeaderTurnsTenantOnAndOff : Prop :=
  ∀ (s : State) (n : Fin 8) (st : Stamp), ReadsNow s (.sweepReadTenantHeader n) (.tenant n) 0 →
    judge (headerStamps s.ram n) (s.tenant n).headerSeen = .accepted st →
    let h := readHeader s.ram n
    let restarts := (s.tenant n).active = true ∧ Acts (s.tenant n).restartBase h.restart
    let marks := (s.tenant n).active = true ∧ Acts (s.tenant n).markBase h.markStamp
    ∃ t, exec (.sweepReadTenantHeader n) s = .next t ∧ Touches (commandFields (.sweepReadTenantHeader n)) s t ∧
      (t.tenant n).headerStamp = some st ∧ (t.tenant n).options = effectiveOptions h ∧
      (t.tenant n).torn = (s.tenant n).torn ∧
      (h.enable ≠ 0 → (s.tenant n).active = false →
        (t.tenant n).active = true ∧
        (t.tenant n).restartBase = some h.restart ∧ (t.tenant n).markBase = some h.markStamp ∧
        (t.tenant n).mapSeen = none ∧ (t.tenant n).reportSeen = [] ∧ (t.tenant n).controlSeen = [] ∧
        (t.tenant n).headerSeen = none ∧ (t.tenant n).slots = (s.tenant n).slots ∧
        (t.tenant n).sweep.next = some 1 ∧ t.board = s.board ∧ t.aboard = s.aboard ∧ PromptsKept s t ∧
        (∀ c, CarReread n s (t.car c) c) ∧ ∀ m, m ≠ n.val → t.tenant m = s.tenant m) ∧
      (h.enable = 0 → (s.tenant n).active = true →
        TakenDown s t n ∧ (t.tenant n).active = false ∧ (t.tenant n).restartBase = none ∧
        (t.tenant n).markBase = none ∧ (t.tenant n).mapSeen = none ∧ (t.tenant n).reportSeen = [] ∧
        (t.tenant n).controlSeen = [] ∧ (t.tenant n).headerSeen = none ∧
        (t.tenant n).faults.sequence = 0 ∧ (t.tenant n).faults.dropped = 0 ∧ (t.tenant n).sweep.next = some 90 ∧
        (∀ k x row, tableFind t.heads k = some x → s.conf.head k = some row → row.kind? ≠ none →
          headTenant s.conf row = some n.val → x.position = none ∧ x.guidance = none ∧ x.notice = none) ∧
        ∀ m, m ≠ n.val → t.tenant m = s.tenant m) ∧
      (h.enable = 0 → (s.tenant n).active = false → (t.tenant n).active = false ∧ (t.tenant n).sweep.next = some 90 ∧
        (t.tenant n).restartBase = (s.tenant n).restartBase ∧ (t.tenant n).markBase = (s.tenant n).markBase ∧
        t.board = s.board ∧ t.aboard = s.aboard ∧ PromptsKept s t ∧ (∀ c, CarReread n s (t.car c) c) ∧
        (t.tenant n).slots = (s.tenant n).slots ∧ (t.tenant n).map = (s.tenant n).map ∧
        ∀ m, m ≠ n.val → t.tenant m = s.tenant m) ∧
      (h.enable ≠ 0 → (s.tenant n).active = true →
        (t.tenant n).active = true ∧ (t.tenant n).restartBase = some h.restart ∧
        (t.tenant n).markBase = some h.markStamp ∧ (t.tenant n).sweep.next = some 1 ∧
        (restarts →
          TakenDown s t n ∧ (t.tenant n).mapSeen = none ∧ (t.tenant n).reportSeen = [] ∧
          (t.tenant n).controlSeen = [] ∧ (t.tenant n).headerSeen = none ∧
          (¬ marks → (t.tenant n).faults.sequence = 0 ∧ (t.tenant n).faults.dropped = 0) ∧
          (marks → FaultsRaised
            [failureOf n .header none none h.markCar ⟨if 16 ≤ h.markCar then .entryRange else .carUnmapped, none⟩]
            (s.modTenant n (fun ten => { ten with faults := { ten.faults with sequence := 0, dropped := 0 } })) t) ∧
          (∀ k x row, tableFind t.heads k = some x → s.conf.head k = some row → row.kind? ≠ none →
            headTenant s.conf row = some n.val → x.guidance = none ∧ x.notice = none ∧
            ((row.kind? = some .positionIndicator ∨ row.kind? = some .carPanel) →
              row.car ∈ usableCars (s.tenant n) →
              x.position = match (effectiveOptions h).park, (effectiveOptions h).parkText with
                | 1, _ => some { places := ((s.car row.car).deck row.deck).lastShown, arrow := .none, mark := .parked }
                | 2, some i => some { places := (readText s.ram n i).short, arrow := .none, mark := .none }
                | _, _ => none))) ∧
        (¬ restarts →
          (t.tenant n).headerSeen = some st ∧ (t.tenant n).mapSeen = (s.tenant n).mapSeen ∧
          (t.tenant n).reportSeen = (s.tenant n).reportSeen ∧ (t.tenant n).controlSeen = (s.tenant n).controlSeen ∧
          (t.tenant n).map = (s.tenant n).map ∧ (t.tenant n).slots = (s.tenant n).slots ∧
          t.board = s.board ∧ t.aboard = s.aboard ∧ PromptsKept s t ∧
          (¬ marks → FaultsRaised [] s t ∧ (∀ m p, t.program m p = s.program m p) ∧ (∀ c, CarReread n s (t.car c) c) ∧
            ∀ c m, markIs (t.car c) m = markIs (s.car c) m) ∧
          (marks →
            (∀ c m, resolveCar (s.tenant n) h.markCar = .ok c → markOf h.markMark = some m →
              markIs (t.car c) m = (waiters s c m).isEmpty ∧
              (waiters s c m = [] → FaultsRaised [] s t ∧ (∀ i p, t.program i p = s.program i p) ∧
                ∀ d k, (d, k) ≠ (c, m) → markIs (t.car d) k = markIs (s.car d) k)) ∧
            (∀ c, resolveCar (s.tenant n) h.markCar = .ok c → markOf h.markMark = none →
              FaultsRaised [] s t ∧ ∀ d k, markIs (t.car d) k = markIs (s.car d) k) ∧
            (∀ f, resolveCar (s.tenant n) h.markCar = .error f →
              FaultsRaised [failureOf n .header none none h.markCar f] s t ∧
              ∀ d k, markIs (t.car d) k = markIs (s.car d) k))))

/-- R40's table of effective options, and their values for an all-zero header. -/
def Obligations.EffectiveOptionsTable : Prop :=
  (∀ v d lo hi, lo ≤ hi → clampOption v d lo hi = if v = 0 then d else if v < lo then lo else if hi < v then hi else v) ∧
  ∀ h : HeaderRecord,
    let o := effectiveOptions h
    o.landingZone = (if h.landingZone = 0 then 150 else if h.landingZone < 20 then 20
      else if h.landingZone ≤ 400 then h.landingZone else 400) ∧
    o.hysteresis = (if h.hysteresis = 0 then 100 else if h.hysteresis = 65535 then 0
      else if h.hysteresis ≤ 500 then h.hysteresis else 500) ∧
    o.freshness = (if h.freshness = 0 then 1000 else if h.freshness < 200 then 200
      else if h.freshness ≤ 5000 then h.freshness else 5000) ∧
    o.promptHold = (if h.promptHold = 0 then 6000 else if h.promptHold < 1000 then 1000
      else if h.promptHold ≤ 30000 then h.promptHold else 30000) ∧
    o.boardingLimit = (if h.boardingLimit = 0 then 600 else if h.boardingLimit < 10 then 10
      else if h.boardingLimit ≤ 1800 then h.boardingLimit else 1800) ∧
    o.rideLimit = (if h.rideLimit = 0 then 900 else if h.rideLimit < 10 then 10
      else if h.rideLimit ≤ 1800 then h.rideLimit else 1800) ∧
    o.express = (if h.express ≤ 2 then h.express else 0) ∧ o.park = (if h.park ≤ 2 then h.park else 0) ∧
    o.parkText = (if h.parkText ≤ 63 then some h.parkText else none) ∧
    o.oosText = (if h.oosText ≤ 63 then some h.oosText else none) ∧ (o.refuseClosed = true ↔ h.refuseClosed ≠ 0) ∧
    o.glyph = h.glyph.map (fun b =>
      if (32 ≤ b.toNat ∧ b.toNat ≤ 126) ∨ (128 ≤ b.toNat ∧ b.toNat ≤ 143) then b else 32) ∧
    ({} : Options) = effectiveOptions (readHeader [] 0)

/-- R44 to R47: an accepted map's resolved copy comes in force with its counts, its MAP fault and then its GRANT fault, and
TENANTt set; and each entry's standing is by the two stages. A kiosk entry is absent where its trunk is 0xFF
(assumption 5). R49 to R51: what the Resolution Unit then answers: for a floor, a car and a kiosk number, a request's kiosk
among them, the row of R49's table that applies; the served set of a deck; and the tenant to which a head belongs, where a
car is granted to one tenant at most, which R24 checks and TalliesOk keeps. -/
def Obligations.MapAccepted : Prop :=
  (∀ (s : State) (n : Fin 8) (st : Stamp), ReadsNow s (.sweepReadTenantMap n) (.tenant n) 1 →
    judge (mapStamps s.ram n) (s.tenant n).mapSeen = .accepted st →
    let m := resolveMap s.conf n st (readMap s.ram n)
    ∃ t, exec (.sweepReadTenantMap n) s = .next t ∧ Touches (commandFields (.sweepReadTenantMap n)) s t ∧
      (t.tenant n).map = some m ∧ (t.tenant n).mapSeen = some st ∧
      (t.tenant n).rangeCount = (rangeFailed m).length ∧ (t.tenant n).grantCount = (grantFailed m).length ∧
      FaultsRaised (mapFaults n m) s t ∧
      (t.tenant n).sweep.next = some 2 ∧ t.attention.getLsbD n = true ∧
      (t.tenant n).slots = (s.tenant n).slots ∧ (t.tenant n).programs = (s.tenant n).programs ∧
      ∀ k, k ≠ n.val → t.tenant k = s.tenant k) ∧
  (∀ (g : BuildingConfig) (n : Nat) (st : Stamp) (b : TenantMap) (i : Nat), n < 8 →
    (∀ e : FloorEntry, b.floors[i]? = some e → (resolveMap g n st b).floors[i]? = some (
      if e.landing = 255 ∨ e.usable = 0 then .unmapped
      else if e.landing < g.floorCount ∧ (e.attr = 0 ∨ e.attr = 1 ∨ e.attr = 2) then
        (if grantsLanding g n e.landing then .usable else .badGrant .landingNotGranted)
      else .badRange)) ∧
    (∀ c : Nat, b.cars[i]? = some c → (resolveMap g n st b).cars[i]? = some (
      if c = 255 then .unmapped
      else if c < 64 ∧ (g.car c).present = 1 ∧ (∀ j < i, b.cars[j]? ≠ some c) then
        (if grantsCar g n c then .usable else .badGrant .carNotGranted)
      else .badRange)) ∧
    (∀ e : KioskEntry, b.kiosks[i]? = some e → (resolveMap g n st b).kiosks[i]? = some (
      if e.trunk = 255 then .unmapped
      else if e.trunk < 16 ∧ 1 ≤ e.address ∧ e.address ≤ 62 ∧ (∀ j < i, b.kiosks[j]? ≠ some e) then
        (match g.head (headKey e.trunk e.address) with
         | none => .badRange
         | some row =>
           if row.kind ≠ 4 then .badRange
           else if row.owner = n ∧ grantsLanding g n row.landing = true then .usable
           else .badGrant .headNotGranted)
      else .badRange)) ∧
    (resolveMap g n st b).body = b ∧ (resolveMap g n st b).stamp = st) ∧
  (∀ (ten : Tenant) (i : Nat),
    ResolvesBy ten 192 i .floorUnmapped (fun m => m.floors.getD i .unmapped)
      (fun m => (m.body.floors.getD i {}).landing)
      (fun m o => o.1 = (m.body.floors.getD i {}).landing ∧ ∀ a, attrOf (m.body.floors.getD i {}).attr = some a → o.2 = a)
      (resolveFloor ten i) ∧
    ResolvesBy ten 16 i .carUnmapped (fun m => m.cars.getD i .unmapped) (fun m => m.body.cars.getD i 255)
      (fun m c => c = m.body.cars.getD i 255) (resolveCar ten i) ∧
    ResolvesBy ten 32 i .kioskUnmapped (fun m => m.kiosks.getD i .unmapped)
      (fun m => 256 * (m.body.kiosks.getD i {}).trunk + (m.body.kiosks.getD i {}).address)
      (fun m k => k = headKey (m.body.kiosks.getD i {}).trunk (m.body.kiosks.getD i {}).address) (resolveKiosk ten i) ∧
    ∀ r : SlotRequest,
      (r.kiosk = none → requestKiosk ten r = .ok none) ∧
      (r.kiosk = some i → (∀ k, resolveKiosk ten i = .ok k → requestKiosk ten r = .ok (some k)) ∧
        ∀ f, resolveKiosk ten i = .error f → requestKiosk ten r = .error f)) ∧
  (∀ t a, 1 ≤ a → a ≤ 62 → keyTrunk (headKey t a) = t ∧ keyAddress (headKey t a) = a) ∧
  (∀ (g : BuildingConfig) (ten : Tenant) (c k l : Nat), k < 2 →
    (inSet (servedSet g ten c k) l = true ↔ l < 192 ∧ (k = 1 → (g.car c).deckCount = 2) ∧ ReachedBy ten k l) ∧
    (attrCovers .lower k = true ↔ k = 0) ∧ (attrCovers .upper k = true ↔ k = 1) ∧ attrCovers .both k = true) ∧
  ∀ (g : BuildingConfig) (n c l : Nat),
    (grantsCar g n c = true ↔ c < 64 ∧ (g.grant n).cars.getLsbD c = true) ∧
    (grantsLanding g n l = true ↔ l < 192 ∧ (g.grant n).landings.getLsbD l = true) ∧
    ((∀ d, ∀ i < 8, ∀ j < 8, grantsCar g i d = true → grantsCar g j d = true → i = j) →
      (carTenant g c = some n ↔ n < 8 ∧ grantsCar g n c = true) ∧
      ∀ row : HeadRow, headTenant g row = some n ↔ BelongsTo g row n)

/-! ### Cars (04) -/

/-- R49, R56, R57, R58, R60: R57's velocity clamp and its tests, and an accepted report that is not applied. One whose
tenant car fails to resolve raises that fault and changes no car; an implausible one raises its car's run count, drops an
anchor, and at the third in a row parks the car. -/
def Obligations.ReportsThatDoNotApply : Prop :=
  (∀ x lo hi : Int, lo ≤ hi → clamp x lo hi = if x < lo then lo else if hi < x then hi else x) ∧
  (∀ (g : BuildingConfig) (car : Car) (vmax : Nat) (now : Time) (r : ReportRecord),
    implausible g car vmax now r = true ↔
      r.motion = none ∨ (r.position : Int) < (g.height 0 : Int) - 10000 ∨
      g.height (g.floorCount - 1) + 10000 < r.position ∨
      ((car.tracking = .tracking ∨ (car.tracking = .acquiring ∧ car.anchor = true)) ∧
        vmax * elapsed car.time now / 1000 + 500 < ((r.position : Int) - car.position).natAbs)) ∧
  ∀ (s : State) (n : Fin 8) (i : Fin 16) (st : Stamp), ReadsNow s (.sweepReadCarReport n i) (.tenant n) (2 + i) →
    judge (reportStamps s.ram n i) (tableGet none (s.tenant n).reportSeen i) = .accepted st →
    let r := readReport s.ram n i
    ∃ t, exec (.sweepReadCarReport n i) s = .next t ∧ Touches (commandFields (.sweepReadCarReport n i)) s t ∧
      (t.tenant n).sweep.next = some (3 + i.val) ∧ tableGet none (t.tenant n).reportSeen i = some st ∧
      (∀ f, resolveCar (s.tenant n) i = .error f →
        FaultsRaised [failureOf n .carReport (some i) none i f] s t ∧
        t.cars = s.cars ∧ t.board = s.board ∧ t.aboard = s.aboard) ∧
      (∀ c, resolveCar (s.tenant n) i = .ok c →
        implausible s.conf (s.car c) (s.conf.car c).vmax s.hubTime r = true →
        let x := s.car c
        let y := t.car c
        let parks := x.tracking ≠ .parked ∧ 2 ≤ x.runCount
        y.runCount = min (x.runCount + 1) 255 ∧ y.position = x.position ∧ y.stamp = x.stamp ∧ y.time = x.time ∧
        y.tenant = x.tenant ∧ y.tenantCar = x.tenantCar ∧ y.service = x.service ∧ y.stop = x.stop ∧
        y.deck0.landing = x.deck0.landing ∧ y.deck0.lastShown = x.deck0.lastShown ∧
        y.deck1.landing = x.deck1.landing ∧ y.deck1.lastShown = x.deck1.lastShown ∧
        t.board = s.board ∧ t.aboard = s.aboard ∧ (∀ m j, t.slot m j = s.slot m j) ∧
        (c < 64 → Published s t (.carState c)) ∧
        (¬ parks → y.tracking = x.tracking ∧ y.deck0 = x.deck0 ∧ y.deck1 = x.deck1 ∧ y.overrun = x.overrun ∧
          y.parkMark = x.parkMark ∧ FaultsRaised (declaredFaults s n i r) s t ∧
          (x.tracking = .acquiring → y.anchor = false ∧ y.freshness = none) ∧
          (x.tracking ≠ .acquiring → y.anchor = x.anchor ∧ y.freshness = x.freshness)) ∧
        (parks → y.tracking = .parked ∧ y.anchor = false ∧ y.overrun = false ∧ y.freshness = none ∧
          DeckStill y.deck0 ∧ DeckStill y.deck1 ∧ y.deck0.doorDue = false ∧ y.deck1.doorDue = false ∧
          y.parkMark = (waiters s c .park).isEmpty ∧
          (waiters s c .park = [] → FaultsRaised (declaredFaults s n i r) s t ∧
            ∀ m p, t.program m p = s.program m p)))

/-- R56, R58, R62, R70: a plausible report of a car that is PARKED, or ACQUIRING with no anchor, becomes its anchor: each
deck's indicated landing is the nearest one and its held landing that landing where it is served, with the served set in use;
the car keeps the report's declared stop, direction of motion, service direction and doors (KeepsReport); the modes stay
NONE, no event is raised, and the car's record is published. -/
def Obligations.ReportBecomesAnchor : Prop :=
  ∀ (s : State) (n : Fin 8) (i : Fin 16) (st : Stamp) (c : Nat),
    ReadsNow s (.sweepReadCarReport n i) (.tenant n) (2 + i) →
    judge (reportStamps s.ram n i) (tableGet none (s.tenant n).reportSeen i) = .accepted st →
    resolveCar (s.tenant n) i = .ok c →
    implausible s.conf (s.car c) (s.conf.car c).vmax s.hubTime (readReport s.ram n i) = false →
    (s.car c).tracking = .parked ∨ ((s.car c).tracking = .acquiring ∧ (s.car c).anchor = false) →
    let r := readReport s.ram n i
    ∃ t, exec (.sweepReadCarReport n i) s = .next t ∧ Touches (commandFields (.sweepReadCarReport n i)) s t ∧
      (t.car c).tracking = .acquiring ∧ (t.car c).anchor = true ∧ (t.car c).runCount = 0 ∧
      (t.car c).tenant = some n.val ∧ (t.car c).tenantCar = some i.val ∧ (t.car c).stamp = st ∧
      (t.car c).time = s.hubTime ∧ (t.car c).position = r.position ∧ KeepsReport s n c r (t.car c) ∧
      (t.car c).freshness = some (expiryAfter s.hubTime (s.tenant n).options.freshness) ∧
      (∀ k, HasDeck s c k →
        let near := nearest s.conf (r.position + k * (s.conf.car c).spacing)
        ((t.car c).deck k).landing = some near ∧ ((t.car c).deck k).served = servedSet s.conf (s.tenant n) c k ∧
        ((t.car c).deck k).held = (if inSet (servedSet s.conf (s.tenant n) c k) near then some near else none) ∧
        ((s.car c).tracking = .acquiring → ((t.car c).deck k).mode = ((s.car c).deck k).mode) ∧
        ((s.car c).tracking = .parked → ((t.car c).deck k).mode = .none)) ∧
      FaultsRaised (declaredFaults s n i r) s t ∧ (c < 64 → Published s t (.carState c)) ∧
      (∀ m, markIs (t.car c) m = markIs (s.car c) m) ∧ (∀ m j, t.slot m j = s.slot m j) ∧
      (∀ m p, t.program m p = s.program m p) ∧
      t.board = s.board ∧ t.aboard = s.aboard ∧ ∀ d, d ≠ c → t.car d = s.car d

/-- R56, R58, R62 to R70, R73 to R75, R101, R102: a plausible report of a car that is TRACKING, or ACQUIRING with its anchor,
is applied to each deck of the car (DeckApplied): its mode, landing, shown label, arrow, commit and served set, its
announcement, its door-due flag and its events; the car's OVERRUN flag; what it keeps of the report (KeepsReport); and, where
no program waits on them, the car's marks. A deck that leaves AT with its new commit at the landing it leaves stays lit there
(assumption 53), and an announcement that moves to another landing is lit afresh there (assumption 60). That a deck in
OUT_OF_SERVICE keeps the label it last presented is the model's choice (assumption 25), and so is when a text is read again
(`Deck.writes`, assumption 27). -/
def Obligations.ReportApplied : Prop :=
  ∀ (s : State) (n : Fin 8) (i : Fin 16) (st : Stamp) (c : Nat),
    ReadsNow s (.sweepReadCarReport n i) (.tenant n) (2 + i) →
    judge (reportStamps s.ram n i) (tableGet none (s.tenant n).reportSeen i) = .accepted st →
    resolveCar (s.tenant n) i = .ok c →
    implausible s.conf (s.car c) (s.conf.car c).vmax s.hubTime (readReport s.ram n i) = false →
    (s.car c).tracking = .tracking ∨ ((s.car c).tracking = .acquiring ∧ (s.car c).anchor = true) →
    let r := readReport s.ram n i
    let old := (s.car c).deck
    ∃ t, exec (.sweepReadCarReport n i) s = .next t ∧ Touches (commandFields (.sweepReadCarReport n i)) s t ∧
      (t.car c).tracking = .tracking ∧ (t.car c).anchor = false ∧ (t.car c).runCount = 0 ∧
      (t.car c).tenant = some n.val ∧ (t.car c).tenantCar = some i.val ∧ (t.car c).stamp = st ∧
      (t.car c).time = s.hubTime ∧ (t.car c).position = r.position ∧ KeepsReport s n c r (t.car c) ∧
      (t.car c).freshness = some (expiryAfter s.hubTime (s.tenant n).options.freshness) ∧
      (c < 64 → Published s t (.carState c)) ∧
      (∀ k, HasDeck s c k →
        let new := (t.car c).deck k
        DeckApplied s n c k r (old k) new ∧ AnnouncedAfter s n c k r (old k) new ∧
        new.doorDue = (if Opens r k (old k) new then false else if Arrives (old k) new then true
                       else if Departs (old k) new then false else (old k).doorDue)) ∧
      ((s.conf.car c).deckCount ≠ 2 → (t.car c).deck1 = (s.car c).deck1) ∧
      ((∃ k, HasDeck s c k ∧ ((t.car c).deck k).mode = .running ∧ ((t.car c).deck k).served ≠ 0 ∧
          ((t.car c).deck k).commit = none) → (t.car c).overrun = true) ∧
      ((∀ k, HasDeck s c k → ((t.car c).deck k).served ≠ 0 →
          ((t.car c).deck k).mode = .running → ((t.car c).deck k).commit ≠ none) →
        ((∃ k, HasDeck s c k ∧ ((t.car c).deck k).served ≠ 0 ∧
            (((t.car c).deck k).commit ≠ none ∨ ((t.car c).deck k).mode = .at)) → (t.car c).overrun = false) ∧
        ((∀ k, HasDeck s c k → ((t.car c).deck k).served ≠ 0 →
            ((t.car c).deck k).commit = none ∧ ((t.car c).deck k).mode ≠ .at) → (t.car c).overrun = (s.car c).overrun)) ∧
      ((∀ k, HasDeck s c k → ¬ Opens r k (old k) ((t.car c).deck k)) →
        t.board = s.board ∧ t.aboard = s.aboard ∧ ∀ m j, t.slot m j = s.slot m j) ∧
      (waiters s c .arrive = [] → waiters s c .door = [] → waiters s c .depart = [] →
        ((t.car c).arriveMark = true ↔ (s.car c).arriveMark = true ∨
          ∃ k, HasDeck s c k ∧ Arrives (old k) ((t.car c).deck k)) ∧
        ((t.car c).doorMark = true ↔ (s.car c).doorMark = true ∨
          ∃ k, HasDeck s c k ∧ Opens r k (old k) ((t.car c).deck k)) ∧
        ((t.car c).departMark = true ↔ (s.car c).departMark = true ∨
          ∃ k, HasDeck s c k ∧ Departs (old k) ((t.car c).deck k)) ∧
        (t.car c).parkMark = (s.car c).parkMark ∧ FaultsRaised (declaredFaults s n i r) s t ∧
        (∀ m p, t.program m p = s.program m p) ∧ ∀ d, d ≠ c → t.car d = s.car d)

/-- R74, R85, R86, R88: the DOOR that an applied report's deck raises at landing `x`. Every BOARDED slot bound there is
RETIRED DELIVERED and its destination leaves the Aboard List; then the TAKEN slots at `x` that the service direction admits
board in the order of R86, each count moving from the board entry to the Aboard List, and one whose destination finds the
list full with 24 is RETIRED LIST_FULL. The order is by elapsed hub time (assumption 37). -/
def Obligations.DoorDeliversAndBoards : Prop :=
  ∀ (s : State) (n : Fin 8) (i : Fin 16) (st : Stamp) (c : Nat),
    ReadsNow s (.sweepReadCarReport n i) (.tenant n) (2 + i) →
    judge (reportStamps s.ram n i) (tableGet none (s.tenant n).reportSeen i) = .accepted st →
    resolveCar (s.tenant n) i = .ok c →
    implausible s.conf (s.car c) (s.conf.car c).vmax s.hubTime (readReport s.ram n i) = false →
    (s.car c).tracking = .tracking ∨ ((s.car c).tracking = .acquiring ∧ (s.car c).anchor = true) → KeysOk s → BooksOk s →
    let r := readReport s.ram n i
    ∃ t, exec (.sweepReadCarReport n i) s = .next t ∧
      (∀ m j, (s.slot m j).car ≠ some c ∨ (∀ k, HasDeck s c k → (s.slot m j).deck ≠ some k) →
        t.slot m j = s.slot m j) ∧
      (∀ d, ∀ k < 2, d ≠ c → t.aboardList d k = s.aboardList d k) ∧
      (∀ e ∈ t.board, ∃ o ∈ s.board, o.1 = e.1 ∧ e.2 = { o.2 with destinations := e.2.destinations }) ∧
      ∀ k, HasDeck s c k →
        let opens := Opens r k ((s.car c).deck k) ((t.car c).deck k)
        (¬ opens → t.aboardList c k = s.aboardList c k ∧
          (∀ l dir d, waiting t l c k dir d = waiting s l c k dir d) ∧
          ∀ m j, (s.slot m j).car = some c → (s.slot m j).deck = some k → t.slot m j = s.slot m j) ∧
        ∀ x, opens → ((t.car c).deck k).landing = some x →
          let boards (u : Nat × Nat) : Prop := u.1 < 8 ∧ u.2 < 64 ∧ BoardsAt c k x r.service (s.slot u.1 u.2)
          let aboard (u : Nat × Nat) : Prop := (t.slot u.1 u.2).state = .boarded
          (∀ m j, DeliversAt c k x (s.slot m j) → t.attention.getLsbD m = true ∧
            t.slot m j = { s.slot m j with state := .retired, outcome := some .delivered, reason := none, limit := none }) ∧
          (∀ m j, boards (m, j) →
            t.slot m j = { s.slot m j with
              state := .boarded, boardTime := s.hubTime,
              limit := some (expiryAfter s.hubTime (1000 * (s.tenant m).options.rideLimit)) } ∨
            (t.attention.getLsbD m = true ∧ t.slot m j = { s.slot m j with
              state := .retired, outcome := some .listFull, reason := none, limit := none })) ∧
          (∀ u, boards u → ¬ aboard u → (t.aboardList c k).length = 24 ∧
            (∀ d ∈ t.aboardList c k, (s.slot u.1 u.2).destination ≠ some d.1) ∧
            ∀ v, boards v → aboard v → BoardsBefore s u v →
              (∃ d ∈ s.aboardList c k, d.1 ≠ x ∧ (s.slot v.1 v.2).destination = some d.1) ∨
              ∃ w, boards w ∧ aboard w ∧ BoardsBefore s w u ∧
                (s.slot w.1 w.2).destination = (s.slot v.1 v.2).destination) ∧
          (∀ m j, (s.slot m j).car = some c → (s.slot m j).deck = some k → ¬ DeliversAt c k x (s.slot m j) →
            ¬ boards (m, j) → t.slot m j = s.slot m j) ∧
          (∀ d, riding t c k d = (if d = x then 0 else riding s c k d) + partySum s (fun m j =>
            decide (BoardsAt c k x r.service (s.slot m j) ∧ (s.slot m j).destination = some d ∧
              (t.slot m j).state = .boarded))) ∧
          (∀ dir d, waiting t x c k dir d = waiting s x c k dir d - partySum s (fun m j =>
            decide (BoardsAt c k x r.service (s.slot m j) ∧ (s.slot m j).direction = some dir ∧
              (s.slot m j).destination = some d))) ∧
          ∀ l dir d, l ≠ x → waiting t l c k dir d = waiting s l c k dir d

/-- R59, R60: a freshness expiry parks a TRACKING car, and drops the anchor of an ACQUIRING one. Each deck keeps its
indicated landing, held landing and last shown label. An expiry handed late acts as one on time does (assumption 4). -/
def Obligations.FreshnessExpiry : Prop :=
  ∀ (s : State) (c : Fin 64), s.phase = .ready → reached s.hubTime (s.car c).freshness = true →
    ∃ t, exec (.freshnessExpiry c) s = .next t ∧ Touches (commandFields (.freshnessExpiry c)) s t ∧
      (t.car c).freshness = none ∧ (t.car c).runCount = (s.car c).runCount ∧
      (t.car c).deck0.landing = (s.car c).deck0.landing ∧ (t.car c).deck0.held = (s.car c).deck0.held ∧
      (t.car c).deck0.lastShown = (s.car c).deck0.lastShown ∧
      (t.car c).deck1.landing = (s.car c).deck1.landing ∧ (t.car c).deck1.held = (s.car c).deck1.held ∧
      (t.car c).deck1.lastShown = (s.car c).deck1.lastShown ∧ (∀ n i, t.slot n i = s.slot n i) ∧
      t.board = s.board ∧ t.aboard = s.aboard ∧
      ((s.car c).tracking = .tracking →
        (t.car c).tracking = .parked ∧ (t.car c).anchor = false ∧ (t.car c).overrun = false ∧
        DeckStill (t.car c).deck0 ∧ DeckStill (t.car c).deck1 ∧ (t.car c).deck0.doorDue = false ∧
        (t.car c).deck1.doorDue = false ∧ (t.car c).parkMark = (waiters s c .park).isEmpty ∧
        (waiters s c .park = [] → (∀ n p, t.program n p = s.program n p) ∧ ∀ d, d ≠ c.val → t.car d = s.car d)) ∧
      ((s.car c).tracking ≠ .tracking → t.cars = tableSet s.cars c (t.car c) ∧ t.tenants = s.tenants ∧
        (t.car c).tracking = (s.car c).tracking ∧ ((s.car c).tracking = .acquiring → (t.car c).anchor = false))

/-- R62 to R65, R67, R68: the deck positions and the direction of motion, the nearest landing, the running rules with the
held landing, the stopping distance and the commit landing, for a building of at most 192 landings (00_scope.md 6.6). The
running rules stop at the first landing whose hysteresis point is not reached and never move against the direction of
travel; the held landing is the last served one that they stand at; the commit is the first served landing at or beyond
both the indicated landing and the search point. -/
def Obligations.RunningRules : Prop :=
  (∀ (g : BuildingConfig) (c p a b : Nat), deckPosition g c 0 p = p ∧ deckPosition g c 1 p = p + (g.car c).spacing ∧
    mid g a b = (g.height a + g.height b) / 2) ∧
  (∀ v : Int, (motionDirection v = some .up ↔ 50 ≤ v) ∧ (motionDirection v = some .down ↔ v ≤ -50)) ∧
  (∀ (r : CarRecord) (v : Int), 0 < r.deceleration → ∃ a b, stoppingDistance r v = a + b ∧
    v.natAbs ^ 2 ≤ 2 * r.deceleration * a ∧ 2 * r.deceleration * a < v.natAbs ^ 2 + 2 * r.deceleration ∧
    v.natAbs * r.reaction ≤ 1000 * b ∧ 1000 * b < v.natAbs * r.reaction + 1000) ∧
  ∀ (g : BuildingConfig) (served : BitVec 192), 0 < g.floorCount → g.floorCount ≤ 192 →
    (∀ x, nearest g x < g.floorCount ∧ ∀ i < g.floorCount,
      distance x (g.height (nearest g x)) < distance x (g.height i) ∨
      (distance x (g.height (nearest g x)) = distance x (g.height i) ∧ nearest g x ≤ i)) ∧
    (∀ h p (old : Standings), old.landing < g.floorCount →
      let up := (runningRules g h p served .up old).landing
      let down := (runningRules g h p served .down old).landing
      old.landing ≤ up ∧ up < g.floorCount ∧ (∀ j, old.landing ≤ j → j < up → mid g j (j + 1) + h ≤ p) ∧
      (up + 1 < g.floorCount → p < mid g up (up + 1) + h) ∧
      down ≤ old.landing ∧ (∀ j, down < j → j ≤ old.landing → p + h ≤ mid g (j - 1) j) ∧
      (0 < down → mid g (down - 1) down < p + h) ∧
      (∀ j, old.landing ≤ j → j ≤ up → inSet served j = true → (∀ m, j < m → m ≤ up → inSet served m = false) →
        (runningRules g h p served .up old).held = some j) ∧
      ((∀ j, old.landing ≤ j → j ≤ up → inSet served j = false) →
        (runningRules g h p served .up old).held = old.held) ∧
      (∀ j, down ≤ j → j ≤ old.landing → inSet served j = true → (∀ m, down ≤ m → m < j → inSet served m = false) →
        (runningRules g h p served .down old).held = some j) ∧
      ((∀ j, down ≤ j → j ≤ old.landing → inSet served j = false) →
        (runningRules g h p served .down old).held = old.held)) ∧
    (∀ i p s,
      (∀ j, commitLanding g served .up i p s = some j ↔
        (j < g.floorCount ∧ inSet served j = true ∧ i ≤ j ∧ p + s ≤ g.height j) ∧
        ∀ m < j, ¬ (inSet served m = true ∧ i ≤ m ∧ p + s ≤ g.height m)) ∧
      (∀ j, commitLanding g served .down i p s = some j ↔
        (j < g.floorCount ∧ inSet served j = true ∧ j ≤ i ∧ g.height j + s ≤ p) ∧
        ∀ m, j < m → m < g.floorCount → ¬ (inSet served m = true ∧ m ≤ i ∧ g.height m + s ≤ p)))

/-! ### Guidance (05) -/

/-- R78, R80, R82, R89, R92, R103, R107: the reading of a request's fields, and a POST into a slot that is not live, whose
fields resolve and which meets no check of R81: the slot is TAKEN; its party is added to its destination's waiting count, in
the entry of its key or in a new entry charged to its tenant; its kiosk's prompt is added; and an announcement at its origin
is judged again, or one is lit where the deck is on its way to that landing and the entry or the destination is new; else the
deck's announcement is as before (R103, R107). -/
def Obligations.PostTaken : Prop :=
  (∀ (m : Memory) (n i : Nat),
    let r := readSlotRequest m n i
    let party := memNat m (0x10000 + 0x6000 * n + 0x800 + 64 * i + 7) 1
    r.party = (if party = 0 then 1 else if 15 < party then 15 else party) ∧
    (r.accessible = true ↔ memGet m (0x10000 + 0x6000 * n + 0x800 + 64 * i + 10) ≠ 0)) ∧
  (∀ (o : Options) (r : SlotRequest), promptHoldOf o r = (if r.accessible then 2 else 1) *
    match r.hold with
    | none => o.promptHold
    | some h => if h = 0 then o.promptHold else if h < 1000 then 1000 else if 30000 < h then 30000 else h) ∧
  ∀ (s : State) (n : Fin 8) (i : Fin 64) (st : Stamp), ReadsNow s (.sweepReadSlot n i) (.tenant n) (18 + i) →
    judge (slotStamps s.ram n i) (s.slot n i).seen = .accepted st → BooksOk s →
    let r := readSlotRequest s.ram n i
    r.kind = 1 → (s.slot n i).live = false → ∀ (kiosk : Option Nat) (c o : Nat) (a : DeckAttr) (d : Nat) (b : DeckAttr),
    let k := if a = .upper then 1 else 0
    let dir : Dir := if o < d then .up else .down
    requestKiosk (s.tenant n) r = .ok kiosk → resolveCar (s.tenant n) r.car = .ok c →
    resolveFloor (s.tenant n) r.origin = .ok (o, a) → resolveFloor (s.tenant n) r.destination = .ok (d, b) →
    refusal s n c k o d dir = none → (boardFind s o c k dir = none → freePlace s ≠ none) →
    ∃ t, exec (.sweepReadSlot n i) s = .next t ∧ Touches (commandFields (.sweepReadSlot n i)) s t ∧
      t.slot n i = { seen := some st, state := .taken, outcome := none, reason := none, car := some c, deck := some k,
                     origin := some o, destination := some d, direction := some dir, party := r.party,
                     accessible := r.accessible, takeTime := s.hubTime, boardTime := 0, result := some .accepted,
                     limit := some (expiryAfter s.hubTime (1000 * (s.tenant n).options.boardingLimit)) } ∧
      (∀ m j, (m, j) ≠ (n.val, i.val) → t.slot m j = s.slot m j) ∧ Published s t (.slotHalf n i) ∧
      (boardFind s o c k dir = none → ∀ p, freePlace s = some p →
        t.board = tableSet s.board p { landing := o, car := c, deck := k, direction := dir, tenant := n,
                                       destinations := [(d, r.party)], created := s.boardCreated }) ∧
      (∀ p e, boardFind s o c k dir = some (p, e) →
        ∃ l, t.board = tableSet s.board p { e with destinations := l } ∧
          countOf l d = countOf e.destinations d + r.party ∧ (∀ x, x ≠ d → countOf l x = countOf e.destinations x) ∧
          ListOk 6 l) ∧
      (∀ x, waiting t o c k dir x = waiting s o c k dir x + (if x = d then r.party else 0)) ∧
      t.aboard = s.aboard ∧ FaultsRaised [] s t ∧ (∀ e, e ≠ c → t.car e = s.car e) ∧
      (let was := (s.deck c k).announcement
       let now := (t.deck c k).announcement
       (was.landing = some o → now = { was with accessible := now.accessible } ∧
         (now.accessible = true ↔ was.accessible = true ∨ AccessibleAt t c k o was.arrow)) ∧
       (∀ y, was.landing = some y → y ≠ o → now = was) ∧
       (was.landing = none →
         if OnTheWay s c k o ∧ waiting s o c k dir d = 0 then
           LitAt t c k o .commit (arrowOf (s.car c).service (s.car c).motionDir .none) false now
         else now = was)) ∧
      (kiosk = none → PromptsKept s t) ∧
      ∀ key, kiosk = some key → PromptAdded s t key
          { carLabel := carLabel s.conf c, arrow := dirArrow dir, destination := landingLabel s.conf d, refused := false,
            closed := s.closed d, wheelchair := r.accessible,
            expiry := some (expiryAfter s.hubTime (promptHoldOf (s.tenant n).options r)) }

/-- R80, R81, R88, R92: a POST into a slot that is not live is refused when a field fails to resolve (kiosk, car, origin and
destination in that order), with that field's fault raised and the reason of its class, or at the first check of R81's table
that it meets, with no fault. No count is added, no car and no announcement changes, TENANTt is set, and a kiosk that resolved
takes a prompt with the refused mark. A landing is restricted for a car by a used entry of the Restriction List (R26). That the refused slot's party size and
accessible flag are the request's is the model's reading (assumption 35). -/
def Obligations.PostRefused : Prop :=
  (∀ (s : State) (n : Fin 8) (i : Fin 64) (st : Stamp), ReadsNow s (.sweepReadSlot n i) (.tenant n) (18 + i) →
    judge (slotStamps s.ram n i) (s.slot n i).seen = .accepted st →
    let r := readSlotRequest s.ram n i
    r.kind = 1 → (s.slot n i).live = false →
    let refused (reason : Refused) (car deck origin destination : Option Nat) : Slot :=
      { seen := some st, state := .retired, outcome := some .refused, reason := some reason, car := car, deck := deck,
        origin := origin, destination := destination,
        direction := match origin, destination with
          | some o, some d => some (if o < d then .up else .down)
          | _, _ => none,
        party := r.party, accessible := r.accessible, takeTime := s.hubTime, boardTime := 0, result := some .accepted,
        limit := none }
    let classOf (f : Failure) : Refused := if classCode f.cause = 2 then .grant else .map
    ∃ t, exec (.sweepReadSlot n i) s = .next t ∧ Touches (commandFields (.sweepReadSlot n i)) s t ∧
      (∀ m j, (m, j) ≠ (n.val, i.val) → t.slot m j = s.slot m j) ∧
      (∀ f, requestKiosk (s.tenant n) r = .error f →
        t.slot n i = refused (classOf f) none none none none ∧ t.board = s.board ∧ t.aboard = s.aboard ∧
        t.cars = s.cars ∧ t.attention.getLsbD n = true ∧ RefusedPrompt s t n r none none none none ∧
        ∀ number, r.kiosk = some number → FaultsRaised [failureOf n .slot (some i) none number f] s t) ∧
      (∀ kiosk f, requestKiosk (s.tenant n) r = .ok kiosk → resolveCar (s.tenant n) r.car = .error f →
        t.slot n i = refused (classOf f) none none none none ∧ t.board = s.board ∧ t.aboard = s.aboard ∧
        t.cars = s.cars ∧ t.attention.getLsbD n = true ∧ RefusedPrompt s t n r kiosk none none none ∧
        FaultsRaised [failureOf n .slot (some i) none r.car f] s t) ∧
      (∀ kiosk c f, requestKiosk (s.tenant n) r = .ok kiosk → resolveCar (s.tenant n) r.car = .ok c →
        resolveFloor (s.tenant n) r.origin = .error f →
        t.slot n i = refused (classOf f) (some c) none none none ∧ t.board = s.board ∧ t.aboard = s.aboard ∧
        t.cars = s.cars ∧ t.attention.getLsbD n = true ∧ RefusedPrompt s t n r kiosk (some c) none none ∧
        FaultsRaised [failureOf n .slot (some i) none r.origin f] s t) ∧
      (∀ kiosk c o a f, requestKiosk (s.tenant n) r = .ok kiosk → resolveCar (s.tenant n) r.car = .ok c →
        resolveFloor (s.tenant n) r.origin = .ok (o, a) → resolveFloor (s.tenant n) r.destination = .error f →
        t.slot n i = refused (classOf f) (some c) (some (slotDeck a)) (some o) none ∧ t.board = s.board ∧
        t.aboard = s.aboard ∧ t.cars = s.cars ∧ t.attention.getLsbD n = true ∧
        RefusedPrompt s t n r kiosk (some c) (some o) none ∧ FaultsRaised [failureOf n .slot (some i) none r.destination f] s t) ∧
      (∀ kiosk c o a d b reason, requestKiosk (s.tenant n) r = .ok kiosk → resolveCar (s.tenant n) r.car = .ok c →
        resolveFloor (s.tenant n) r.origin = .ok (o, a) → resolveFloor (s.tenant n) r.destination = .ok (d, b) →
        refusal s n c (slotDeck a) o d (slotDirection o d) = some reason →
        t.slot n i = refused reason (some c) (some (slotDeck a)) (some o) (some d) ∧ t.board = s.board ∧
        t.aboard = s.aboard ∧ t.cars = s.cars ∧ t.attention.getLsbD n = true ∧
        RefusedPrompt s t n r kiosk (some c) (some o) (some d) ∧ FaultsRaised [] s t)) ∧
  (∀ (g : BuildingConfig) (c l : Nat), restricted g c l = true ↔
    ∃ r ∈ g.restrictions, r.landing ≠ 255 ∧ r.landing = l ∧ r.cars.getLsbD c = true) ∧
  ∀ (s : State) (n c k o d : Nat) (dir : Dir),
    let served := servedSet s.conf (s.tenant n) c k
    (o = d → refusal s n c k o d dir = some .sameLanding) ∧
    (o ≠ d → (inSet served o = false ∨ inSet served d = false) → refusal s n c k o d dir = some .notServed) ∧
    (o ≠ d → inSet served o = true → inSet served d = true →
      (restricted s.conf c o = true ∨ restricted s.conf c d = true ∨
        (s.closed d = true ∧ (s.tenant n).options.refuseClosed = true)) → refusal s n c k o d dir = some .restricted) ∧
    (o ≠ d → inSet served o = true → inSet served d = true → restricted s.conf c o = false →
      restricted s.conf c d = false → (s.closed d = true → (s.tenant n).options.refuseClosed = false) →
      (∀ p e, boardFind s o c k dir = some (p, e) → refusal s n c k o d dir =
        if e.destinations.length = 6 ∧ (∀ x ∈ e.destinations, x.1 ≠ d) then some .boardFull else none) ∧
      (boardFind s o c k dir = none → refusal s n c k o d dir =
        if (s.conf.grant n).quota ≤ chargedEntries s n then some .quota else none))

/-- R83, R84, R103: a POST on a live slot and a request of neither kind are answered CONFLICT; a CANCEL retires a live slot
and its count leaves, with the deck's announcement settled after a removal (Resettled), and is answered LATE otherwise. -/
def Obligations.ConflictsAndCancels : Prop :=
  ∀ (s : State) (n : Fin 8) (i : Fin 64) (st : Stamp), ReadsNow s (.sweepReadSlot n i) (.tenant n) (18 + i) →
    judge (slotStamps s.ram n i) (s.slot n i).seen = .accepted st → BooksOk s →
    let r := readSlotRequest s.ram n i
    let x := s.slot n i
    ∃ t, exec (.sweepReadSlot n i) s = .next t ∧ Touches (commandFields (.sweepReadSlot n i)) s t ∧
      (∀ m j, (m, j) ≠ (n.val, i.val) → t.slot m j = s.slot m j) ∧
      ((r.kind = 1 ∧ x.live = true) ∨ (r.kind ≠ 1 ∧ r.kind ≠ 2) →
        t.slot n i = { x with seen := some st, result := some .conflict } ∧ t.board = s.board ∧ t.aboard = s.aboard ∧
        (if (s.conf.grant n).routing.getLsbD (causeCode .requestConflict - 1) then
          t.faults.sequence = s.faults.sequence + 1 ∧ (t.tenant n).faults = (s.tenant n).faults
         else (t.tenant n).faults.sequence = (s.tenant n).faults.sequence + 1 ∧ t.faults = s.faults) ∧
        FaultsRaised [{ tenant := some n, cause := .requestConflict, source := .slot, indexA := some i, indexB := none,
                        logical := i, building := none, count := none }] s t) ∧
      (r.kind = 2 → x.live = true →
        t.slot n i = { x with seen := some st, state := .retired, outcome := some .cancelled, reason := none,
                              result := some .accepted, limit := none } ∧
        t.attention.getLsbD n = true ∧
        (∀ c k o d dir, x.car = some c → x.deck = some k → x.origin = some o → x.destination = some d →
          x.direction = some dir →
          (x.state = .taken → waiting t o c k dir d = waiting s o c k dir d - x.party ∧ t.aboard = s.aboard ∧
            Resettled (0 < waiting s o c k dir d ∧ waiting t o c k dir d = 0) s t c k o) ∧
          (x.state = .boarded → riding t c k d = riding s c k d - x.party ∧ t.board = s.board ∧
            Resettled (0 < riding s c k d ∧ riding t c k d = 0) s t c k d))) ∧
      (r.kind = 2 → x.live = false →
        t.slot n i = { x with seen := some st, result := some .late } ∧ t.board = s.board ∧ t.aboard = s.aboard ∧
        t.attention = s.attention)

/-- R87, R92: a boarding or ride limit retires its slot EXPIRED and its count leaves; a prompt leaves its list at its hold
expiry, the oldest first. An expiry handed late acts as one on time does (assumption 4). -/
def Obligations.SlotAndPromptExpiries : Prop :=
  (∀ (s : State) (n : Fin 8) (i : Fin 64), s.phase = .ready →
    reached s.hubTime (s.slot n i).limit = true → BooksOk s →
    let x := s.slot n i
    (x.state = .taken → ∃ t, exec (.boardingLimitExpiry n i) s = .next t ∧
      Touches (commandFields (.boardingLimitExpiry n i)) s t ∧
      t.slot n i = { x with state := .retired, outcome := some .expired, reason := none, limit := none } ∧
      (∀ m j, (m, j) ≠ (n.val, i.val) → t.slot m j = s.slot m j) ∧ t.attention.getLsbD n = true ∧
      ∀ c k o d dir, x.car = some c → x.deck = some k → x.origin = some o → x.destination = some d →
        x.direction = some dir → waiting t o c k dir d = waiting s o c k dir d - x.party ∧
          Resettled (0 < waiting s o c k dir d ∧ waiting t o c k dir d = 0) s t c k o) ∧
    (x.state = .boarded → ∃ t, exec (.rideLimitExpiry n i) s = .next t ∧
      Touches (commandFields (.rideLimitExpiry n i)) s t ∧
      t.slot n i = { x with state := .retired, outcome := some .expired, reason := none, limit := none } ∧
      (∀ m j, (m, j) ≠ (n.val, i.val) → t.slot m j = s.slot m j) ∧ t.attention.getLsbD n = true ∧
      ∀ c k o d dir, x.car = some c → x.deck = some k → x.origin = some o → x.destination = some d →
        x.direction = some dir → riding t c k d = riding s c k d - x.party ∧
          Resettled (0 < riding s c k d ∧ riding t c k d = 0) s t c k d)) ∧
  ∀ (s : State) (trunk : Fin 16) (address : Nat) (h : Head) (pre post : List Prompt) (p : Prompt), s.phase = .ready →
    s.headAt trunk address = some h → h.prompts = pre ++ p :: post → reached s.hubTime p.expiry = true →
    (∀ q ∈ pre, reached s.hubTime q.expiry = false) →
    ∃ t h', exec (.promptHoldExpiry trunk address) s = .next t ∧ Touches [.ram, .stamps, .heads] s t ∧
      t.headAt trunk address = some h' ∧ h'.prompts = pre ++ post

/-! ### Arrival announcements (06) -/

/-- R100, R102, R103, R105 to R107: the next-stop test by the declared stop or by the deck's collections, the lighting at a
door with its arrow and its accessible field, the test re-applied after a change of the collections at the deck's commit
landing (a change at another landing changes no announcement), and a lantern's guidance layer with its flash and chimes. -/
def Obligations.Announcements : Prop :=
  ∀ (s : State) (c k x : Nat),
    let d := s.deck c k
    let n := d.announcement
    (∀ l a, (s.car c).stop = some (l, a) → attrCovers a k = true →
      declaredStop s c k = some l ∧ (nextStopTest s c k x = true ↔ x = l)) ∧
    ((s.car c).stop = none ∨ (∃ l a, (s.car c).stop = some (l, a) ∧ attrCovers a k = false) →
      declaredStop s c k = none ∧ (nextStopTest s c k x = true ↔ Holds s c k x)) ∧
    (n.landing = none → Holds s c k x →
      let t := announceAtDoor c k x s
      LitAt s c k x .door (arrowOf (s.car c).service (s.car c).motionDir .none) false (t.deck c k).announcement ∧
      (∀ d, d ≠ c → t.car d = s.car d) ∧ Touches [.cars] s t) ∧
    (n.landing ≠ none ∨ ¬ Holds s c k x → announceAtDoor c k x s = s) ∧
    (OnTheWay s c k x →
      (n.landing = some x → n.litBy = some .commit → ¬ Holds s c k x →
        resettle c k x s = s.modDeck c k (fun d => { d with announcement := {} })) ∧
      (n.landing = none → Holds s c k x →
        LitAt s c k x .commit (arrowOf (s.car c).service (s.car c).motionDir .none) false
          ((resettle c k x s).deck c k).announcement ∧
        (∀ d, d ≠ c → (resettle c k x s).car d = s.car d) ∧ Touches [.cars] s (resettle c k x s)) ∧
      (∀ y, n.landing = some y → y ≠ x ∨ Holds s c k x ∨ n.litBy ≠ some .commit → resettle c k x s = s) ∧
      (n.landing = none → ¬ Holds s c k x → resettle c k x s = s)) ∧
    (¬ OnTheWay s c k x → resettle c k x s = s) ∧
    (∀ (row : HeadRow) (prompts : List Prompt) (t : Nat), row.kind? = some .lantern → headTenant s.conf row = some t →
      (s.tenant t).active = true → row.car = c → row.deck = k →
      guidanceLayer s row prompts = if n.landing = some row.landing then
          some (.lit n.arrow (d.mode == .running)
            (match n.arrow with
             | .up => if n.accessible then 2 else 1
             | .down => if n.accessible then 3 else 2
             | .none => 0))
        else none)

/-! ### Notice programs (07) -/

/-- R50, R108 to R110, R119: an accepted control with no baselines, or with both stamps equal, sets only the baselines and the
target description; with its stop stamp changed it stops the program; with its run stamp changed it starts the program: its
steps are copied, its target resolved with the faults of that, its counts set to 0, and it runs from step 0 (ProgramSteps).
With both changed the stop comes first. A LANDINGS target's numbers above 191 are skipped (assumption 49), and what a stop
leaves of an IDLE or FAULTED program is the model's reading (assumption 10). -/
def Obligations.ProgramControls : Prop :=
  ∀ (s : State) (n p : Fin 8) (st : Stamp), ReadsNow s (.sweepReadProgramControl n p) (.tenant n) (82 + p) →
    judge (controlStamps s.ram n p) (tableGet none (s.tenant n).controlSeen p) = .accepted st →
    let r := readControl s.ram n p
    let x := { s.program n p with desc := r.desc, runBase := some r.run, stopBase := some r.stop }
    let stops := Acts (s.program n p).stopBase r.stop ∧ (s.program n p).runBase ≠ none
    let starts := Acts (s.program n p).runBase r.run ∧ (s.program n p).stopBase ≠ none
    ∃ t, exec (.sweepReadProgramControl n p) s = .next t ∧ Touches (commandFields (.sweepReadProgramControl n p)) s t ∧
      tableGet none (t.tenant n).controlSeen p = some st ∧ (t.tenant n).sweep.next = some (83 + p.val) ∧
      (¬ starts → t.program n p = (if stops then stopped x else x) ∧ FaultsRaised [] s t ∧ t.cars = s.cars ∧
        ∀ m q, (m, q) ≠ (n.val, p.val) → t.program m q = s.program m q) ∧
      (starts → ∃ u target, TargetIs s n r.desc target ∧ Touches [.ram, .stamps, .attention, .tenants, .faults] s u ∧
        u.program n p = { x with
          steps := readSteps s.ram n p, target := target, counters := [], zeroTime := 0, start := s.hubTime,
          state := .running, cause := none, share := .none, expiry := none, waiting := none,
          current := if stops then none else x.current } ∧
        (∀ m q, (m, q) ≠ (n.val, p.val) → u.program m q = s.program m q) ∧ FaultsRaised (targetFaults s n p r.desc) s u ∧
        (∀ m, (u.tenant m).map = (s.tenant m).map) ∧ (∀ m < 8, ∀ j < 64, readText u.ram m j = readText s.ram m j) ∧
        (∀ m q, t.program m q = (runFrom n p stepFuel 0 u).program m q) ∧ t.cars = (runFrom n p stepFuel 0 u).cars ∧
        ∀ o : ListOwner, (∀ m, o = some m → m < 8) → t.faultList o = (runFrom n p stepFuel 0 u).faultList o)

/-- R111 to R118, R120: a program begins a step, as a function of the step's kind: the zero-time count and its guard, SHOW,
BLANK, GOTO with its repeat counter, WAIT with its car and its mark, END, and the faults. A step at whose beginning the count
reaches 16 is not carried out (assumption 11). And the setting of a mark: with programs waiting on it, it is consumed and
they advance in program order (of several tenants, in tenant order: assumption 12); with none it stands. That a WAIT which
fails to resolve with on-timeout END ends with the WAIT as its current step is the model's reading (assumption 10). -/
def Obligations.ProgramSteps : Prop :=
  (∀ v, stepTime v = if v = 0 then 0 else if v < 100 then 100 else if 600000 < v then 600000 else v) ∧
  (∀ (s : State) (n p fuel i : Nat), 11 < i → runFrom n p (fuel + 1) i s = s.modProgram n p (fun x => endedAt x 11)) ∧
  (∀ (s : State) (n p fuel i : Nat), i ≤ 11 →
    let st := (s.program n p).steps.getD i {}
    let z := (s.program n p).zeroTime
    let run := runFrom n p fuel
    let here := runFrom n p (fuel + 1) i s
    let begun (count : Nat) : State := s.modProgram n p (fun x => beginsStep x i count)
    let faulted (count : Nat) (cause : Cause) (logical : Nat) : State :=
      raise (stepFaultOf n p i cause logical) (s.modProgram n p (fun x => faultedAt x i count cause))
    let held (share : Share) : State := s.modProgram n p (fun x =>
      { beginsStep x i 0 with share := share, expiry := some (expiryAfter s.hubTime (stepTime st.time)) })
    let shown (share : Share) : State := s.modProgram n p (fun x => { beginsStep x i (z + 1) with share := share })
    (5 ≤ st.kind ∨ (st.kind = 3 ∧ 4 ≤ st.p2) → here = faulted z .stepKind st.kind) ∧
    (z < 16 → st.kind = 0 → here = s.modProgram n p (fun x => endedAt x i)) ∧
    (st.kind = 1 ∨ st.kind = 2 → st.time = 0 → 15 ≤ z → here = faulted (z + 1) .loop i) ∧
    (st.kind = 1 → st.time ≠ 0 → here =
      if st.p1 < 64 then held (.text (readText s.ram n st.p1)) else faulted 0 .textIndex st.p1) ∧
    (st.kind = 1 → st.time = 0 → z < 15 → here =
      if st.p1 < 64 then run (i + 1) (shown (.text (readText s.ram n st.p1))) else faulted (z + 1) .textIndex st.p1) ∧
    (st.kind = 2 → st.time ≠ 0 → here = held .blank) ∧
    (st.kind = 2 → st.time = 0 → z < 15 → here = run (i + 1) (shown .blank)) ∧
    (st.kind = 4 → 15 ≤ z → here = faulted (z + 1) .loop i) ∧
    (st.kind = 4 → z < 15 →
      let count := tableGet 0 (s.program n p).counters i
      let counted (c : Nat) : State := s.modProgram n p (fun x =>
        { beginsStep x i (z + 1) with counters := tableSet x.counters i c })
      (11 < st.p1 → here = faulted (z + 1) .stepRange st.p1) ∧
      (st.p1 ≤ 11 → st.p2 = 0 → here = run st.p1 (begun (z + 1))) ∧
      (st.p1 ≤ 11 → count < st.p2 → here = run st.p1 (counted (count + 1))) ∧
      (st.p1 ≤ 11 → st.p2 ≠ 0 → st.p2 ≤ count → here = run (i + 1) (counted 0))) ∧
    (∀ c m, st.kind = 3 → markOf st.p2 = some m → resolveCar (s.tenant n) st.p1 = .ok c →
      (markIs (s.car c) m = true → here = run (i + 1) ((begun 0).modCar c (fun x => x.putMark m false))) ∧
      (markIs (s.car c) m = false → here = s.modProgram n p (fun x => { beginsStep x i 0 with
        state := .waiting, waiting := some (c, m),
        expiry := if st.time = 0 then none else some (expiryAfter s.hubTime (stepTime st.time)) }))) ∧
    (∀ f, st.kind = 3 → st.p2 < 4 → resolveCar (s.tenant n) st.p1 = .error f →
      let raised := raise (failureOf n .program (some p) (some i) st.p1 f) (begun (z + 1))
      (15 ≤ z → here = faulted (z + 1) .loop i) ∧
      (z < 15 → st.p3 = 0 → here = run (i + 1) raised) ∧
      (z < 15 → st.p3 ≠ 0 → here = raised.modProgram n p (fun x => endedAt x i)))) ∧
  ∀ (s : State) (c : Nat) (m : Mark),
    (∀ e, e ∈ waiters s c m ↔ e.1 < 8 ∧ e.2 < 8 ∧ (s.program e.1 e.2).state = .waiting ∧
      (s.program e.1 e.2).waiting = some (c, m)) ∧
    (waiters s c m).Pairwise (fun a b => a.1 < b.1 ∨ (a.1 = b.1 ∧ a.2 < b.2)) ∧
    (waiters s c m = [] → setMark c m s = s.modCar c (fun x => x.putMark m true)) ∧
    (waiters s c m ≠ [] → setMark c m s = (waiters s c m).foldl
      (fun t e => runFrom e.1 e.2 stepFuel ((t.program e.1 e.2).current.getD 0 + 1) t)
      (s.modCar c (fun x => x.putMark m false))) ∧
    ∀ (x : Car) (b : Bool) (k : Mark), markIs (x.putMark m b) k = if k = m then b else markIs x k

/-- R111, R113, R115, R118: the expiry of a SHOW or BLANK step advances to the next step, and that of a WAIT follows its
on-timeout: END (or an advance past step 11) ends the program; a SHOW or BLANK with a nonzero duration holds it. Whatever the
next step is, the program begins it (ProgramSteps). Which step an ended WAIT shows, and how a guarded step is left, are the
model's readings (assumptions 10 and 11), and an expiry handed late acts as one on time does (assumption 4). -/
def Obligations.ProgramExpiries : Prop :=
  ∀ (s : State) (n p : Fin 8) (i : Nat), s.phase = .ready → (s.program n p).current = some i →
    reached s.hubTime (s.program n p).expiry = true → (s.program n p).zeroTime < 16 →
    let x := s.program n p
    let following := x.steps.getD (i + 1) {}
    let frame : List Field := [.ram, .stamps, .tenants, .heads]
    (∀ c : Instr, (x.state = .running ∧ c = .stepExpiry n p) ∨
        (x.state = .waiting ∧ (x.steps.getD i {}).p3 = 0 ∧ c = .waitTimeout n p) →
      (∃ t, exec c s = .next t ∧ Touches (commandFields c) s t ∧
        (∀ m q, t.program m q = (runFrom n p stepFuel (i + 1) s).program m q) ∧
        t.cars = (runFrom n p stepFuel (i + 1) s).cars ∧
        ∀ o : ListOwner, (∀ m, o = some m → m < 8) → t.faultList o = (runFrom n p stepFuel (i + 1) s).faultList o) ∧
      (11 ≤ i → ∃ t, exec c s = .next t ∧ Touches frame s t ∧
        t.program n p = { x with state := .done, current := some 11, share := .none, expiry := none, waiting := none }) ∧
      (i < 11 → following.kind = 0 → ∃ t, exec c s = .next t ∧ Touches frame s t ∧
        t.program n p = { x with state := .done, current := some (i + 1), share := .none, expiry := none,
                                 waiting := none }) ∧
      (i < 11 → following.kind = 1 → following.p1 < 64 → following.time ≠ 0 →
        ∃ t, exec c s = .next t ∧ Touches frame s t ∧
        t.program n p = { x with state := .running, current := some (i + 1), zeroTime := 0, waiting := none,
                                 share := .text (readText s.ram n following.p1),
                                 expiry := some (expiryAfter s.hubTime (stepTime following.time)) }) ∧
      (i < 11 → following.kind = 2 → following.time ≠ 0 →
        ∃ t, exec c s = .next t ∧ Touches frame s t ∧
        t.program n p = { x with state := .running, current := some (i + 1), zeroTime := 0, waiting := none,
                                 share := .blank,
                                 expiry := some (expiryAfter s.hubTime (stepTime following.time)) })) ∧
    (x.state = .waiting → (x.steps.getD i {}).p3 ≠ 0 → ∃ t, exec (.waitTimeout n p) s = .next t ∧ Touches frame s t ∧
      t.program n p = { x with state := .done, current := some i, share := .none, expiry := none, waiting := none })

/-! ### Override lines and the side-band input (08) -/

/-- R123, R124: a change of a pin's level, and a debounce expiry, of line `l`. The on and off times are 20 ms while
UNCONFIGURED (R125). An expiry handed late acts as one on time does (assumption 4). -/
def Obligations.OverrideLineEvents : Prop :=
  ∀ (s : State) (l : Fin 4) (low : Bool),
    let x := s.line l
    (∃ t, exec (.overridePinChange l low) s = .next t ∧ (∀ m < 4, t.ovrLow.getLsbD m =
        if m = l then low else s.ovrLow.getLsbD m) ∧
      Touches (commandFields (.overridePinChange l low)) s t ∧
      (s.phase ≠ .ready → Touches [.ovrLow] s t) ∧
      (s.phase = .ready →
        t.line l = lineWithInputs s l low (s.orders.tests.getLsbD l) ∧
        (∀ m, m ≠ l.val → t.line m = s.line m) ∧
        ((t.line l).state ≠ x.state → t.attention.getLsbD 10 = true))) ∧
    (s.phase = .ready → reached s.hubTime x.expiry = true →
      ∃ t, exec (.debounceExpiry l) s = .next t ∧ Touches (commandFields (.debounceExpiry l)) s t ∧
        (x.state = .pendingOn → t.line l = { x with state := .active, expiry := none } ∧
          t.attention.getLsbD 10 = true) ∧
        (x.state = .pendingOff → t.line l = { x with state := .idle, expiry := none } ∧
          t.attention.getLsbD 10 = true ∧ t.trunks = s.trunks) ∧
        ∀ m, m ≠ l.val → t.line m = s.line m)

/-- R128, R131, R160, R161: a line's entry into ACTIVE from PENDING_ON requests a broadcast with its whole zone set, and a
gain of an ACTIVE line's zones at a change of SBEN or at a good side-band word one with the gained zones. Each RUNNING trunk
that has an affected head takes its request at the list's end, merged with one pending for that line; a frame being sent is
cut by a break, and a turn past its frame ends early; a cut POLL leaves the poll due (assumption 14). The zones that lower
lines hold are left out, of several gains at one event the lower line's request comes first (assumption 67), a line in kill
mode BOUNDARY asks for nothing, and a trunk OFF or DOWN, or RUN at 0, discards the request. An expiry handed late acts as one
on time does (assumption 4). -/
def Obligations.BroadcastRequests : Prop :=
  (∀ (run : Bool) (x : Trunk) (r : Request),
    (x.state ≠ .running ∨ run = false → withRequest run x r = x) ∧
    (x.state = .running → run = true → (∀ q ∈ x.requests, q.line ≠ r.line) →
      (withRequest run x r).requests = x.requests ++ [r]) ∧
    (∀ pre q post, x.state = .running → run = true → x.requests = pre ++ q :: post → q.line = r.line →
      (∀ p ∈ pre ++ post, p.line ≠ r.line) →
      (withRequest run x r).requests = pre ++ post ++ [{ r with zones := q.zones ||| r.zones }])) ∧
  (∀ (s : State) (l : Fin 4), s.phase = .ready → reached s.hubTime (s.line l).expiry = true →
    (s.line l).state = .pendingOn →
    ∃ t, exec (.debounceExpiry l) s = .next t ∧ ∀ n < 16, t.trunk n =
      match requestFor t n l (s.line l).zones with
      | none => s.trunk n
      | some r => withRequest s.run (s.trunk n) r) ∧
  (∀ (s : State) (c : Instr), s.phase = .ready →
    (c = .sbenChange (!s.sben) ∨ (c = .sideBandWord ∧ s.sben = true ∧ ∃ bits, s.word = some bits ∧
      (judgeSideBand bits).isSome = true)) →
    ∃ t, exec c s = .next t ∧ ∀ n < 16, t.trunk n = withRequests s.run (s.trunk n) (gainRequests s t n)) ∧
  ∀ (s t : State) (c : Instr), exec c s = .next t →
    ((∃ l, c = .debounceExpiry l) ∨ (∃ high, c = .sbenChange high) ∨ c = .sideBandWord) →
    ∀ k h, tableFind s.heads k = some h → ∃ h', tableFind t.heads k = some h' ∧
      (h'.pollDue = true ↔ h.pollDue = true ∨ ∃ n < 16, ∃ u l, (s.trunk n).flight = .sending u ∧
        (t.trunk n).flight = .breaking l ∧ u.kind = .poll ∧ u.orphan = false ∧ headKey n u.address = k) ∧
      h'.misses = h.misses ∧ h'.missRun = h.missRun ∧ h'.crcErrors = h.crcErrors ∧ h'.needsReload = h.needsReload ∧
      h'.pending = h.pending ∧ h'.echo = h.echo

/-- R126 to R128: the side-band receiver, which takes bits and judges a word while SBEN is high, and the effective zone sets
at a change of SBEN and at a good side-band word. A clock edge outside a word changes nothing (assumption 3). -/
def Obligations.SideBandAndZones : Prop :=
  (∀ (s : State) (b : Bool),
    (∃ t, exec .sideBandWordStart s = .next t ∧ t.sbfr = true ∧ Touches [.sbfr, .word] s t ∧
      t.word = if s.phase = .ready ∧ s.sben = true ∧ s.sbfr = false then some [] else s.word) ∧
    (s.phase = .ready → s.sben = true → s.sbfr = true → ∀ bits, s.word = some bits →
      ∃ t, exec (.sideBandClockEdge b) s = .next t ∧ t.word = some (bits ++ [b]) ∧ Touches [.word] s t) ∧
    ((s.phase ≠ .ready ∨ s.sben = false ∨ s.sbfr = false ∨ s.word = none) →
      exec (.sideBandClockEdge b) s = .next s) ∧
    (∃ t, exec .sideBandWord s = .next t ∧ t.sbfr = false ∧ t.word = none ∧
      Touches (commandFields .sideBandWord) s t ∧ t.attention = s.attention ∧
      (s.phase ≠ .ready ∨ s.sben = false ∨ s.word = none → Touches [.sbfr, .word] s t) ∧
      (s.phase = .ready → s.sben = true → ∀ bits, s.word = some bits →
        (judgeSideBand bits = none → t.badWords = min (s.badWords + 1) 65535 ∧ t.lines = s.lines ∧
          t.trunks = s.trunks) ∧
        (∀ l z, judgeSideBand bits = some (l, z) → t.badWords = s.badWords ∧ (t.line l).word = some z ∧
          ∀ m, m ≠ l → (t.line m).word = (s.line m).word)))) ∧
  ∀ (s : State) (c : Instr), s.phase = .ready →
    (c = .sbenChange (!s.sben) ∨ (c = .sideBandWord ∧ s.sben = true ∧ ∃ bits, s.word = some bits ∧
      (judgeSideBand bits).isSome = true)) →
    ∃ t, exec c s = .next t ∧ t.word = none ∧ Touches (commandFields c) s t ∧
      t.sben = (if c = .sideBandWord then s.sben else !s.sben) ∧
      ∀ l < 4, t.line l = { s.line l with word := (t.line l).word, zones := zonesOf t l }

/-! ### Display trunks (10, 11) -/

/-- R143, R146, R150 to R152, R157 to R162: a turn begins. A pending broadcast goes first, the oldest request on the active
line; otherwise the first class from 2 to 7 that holds a head serves it, round robin by address from the class's position. A
frame that carries a level moves it by at most 4, or straight to the target where the jump flag is 1. The turn's frame is
that of its kind, and the head's poll, and a LOST head's probe, fall due anew from the turn's beginning. Nothing is handed to
any other head; and a broadcast turn hands no head anything and changes the content state of none whose next content stays. A
begun turn is an ordinary first send (JustBegun), and of its trunk only the flight, and the list or the class's position,
change. -/
def Obligations.TurnBegins : Prop :=
  (∀ (s : State) (n : Fin 16) (l : LineId), s.phase = .ready → s.run = true → (s.trunk n).state = .running →
    (s.trunk n).flight = .idle → (s.trunk n).active = some l →
    (∀ r rest, (s.trunk n).requests = r :: rest →
      ∃ t, exec (.turnBegin n) s = .next t ∧ Touches (commandFields (.turnBegin n)) s t ∧ ∃ u,
        t.trunk n = { s.trunk n with flight := .sending u, requests := rest } ∧ u.kind = .override ∧ u.line = l ∧
        u.request = some r ∧ u.frame = overrideFrame r ∧ JustBegun s n u ∧ u.recovery = false ∧ u.address = 0 ∧
        (∀ m, m ≠ n.val → t.trunk m = s.trunk m) ∧ NothingHanded (fun _ => False) s t ∧
        ∀ k h h', tableFind s.heads k = some h → tableFind t.heads k = some h' → h'.next = h.next →
          contentState t k h' = contentState s k h) ∧
    (∀ c k row h, (s.trunk n).requests = [] → scheduled s n = some (c, k) → s.conf.head k = some row →
      tableFind s.heads k = some h →
      ∃ t, exec (.turnBegin n) s = .next t ∧ Touches (commandFields (.turnBegin n)) s t ∧ ∃ u h',
        t.trunk n = { s.trunk n with flight := .sending u, positions := (t.trunk n).positions } ∧
        u.address = keyAddress k ∧ u.line = l ∧ JustBegun s n u ∧ u.recovery = false ∧ u.request = none ∧
        u.kind = (if c = 2 then .setup else if c = 6 then .poll else if c = 7 then .probe
                  else if row.kind? = some .lantern then .quick else .content) ∧
        tableGet 0 (t.trunk n).positions c = keyAddress k ∧
        (∀ d, d ≠ c → tableGet 0 (t.trunk n).positions d = tableGet 0 (s.trunk n).positions d) ∧
        tableFind t.heads k = some h' ∧ h'.lastFrame = some s.hubTime ∧ h'.pollDue = false ∧
        h'.pollAt = some (expiryAfter s.hubTime (kindOf s row).poll) ∧
        u.frame = (match u.kind with
          | .setup => setupFrame (keyAddress k) row (kindOf s row).poll
          | .poll => pollFrame (keyAddress k) h'.level
          | .probe => probeFrame (keyAddress k)
          | .quick => quickFrame (keyAddress k) (quickWord h.next h'.level) h'.sentTag
          | _ => contentFrame (keyAddress k) (row.kind?.getD .textPanel) h'.sentTag h'.level h.next h.presented) ∧
        (u.kind = .content ∨ u.kind = .quick → h'.sentTag = h.sentTag + 1 ∧ h'.pending = true ∧
          h'.snapshot = some { content := h.next, tag := h'.sentTag, level := h'.level }) ∧
        (u.kind = .probe → h'.probeAt = some (expiryAfter s.hubTime 2000) ∧ h'.probeDue = false) ∧
        (u.kind ≠ .probe → h'.probeAt = h.probeAt ∧ h'.probeDue = h.probeDue) ∧
        (u.kind = .setup → h'.sentTag = 0 ∧ h'.pending = false) ∧
        (u.kind = .poll ∨ u.kind = .probe → h'.sentTag = h.sentTag ∧ h'.pending = h.pending) ∧
        (u.kind = .setup ∨ u.kind = .poll ∨ u.kind = .probe → h'.snapshot = h.snapshot) ∧
        h'.link = h.link ∧ h'.needsReload = h.needsReload ∧ h'.busy = h.busy ∧ h'.missRun = h.missRun ∧
        h'.misses = h.misses ∧ h'.busyCount = h.busyCount ∧ h'.crcErrors = h.crcErrors ∧ h'.echo = h.echo ∧
        h'.everLost = h.everLost ∧ h'.everFailed = h.everFailed ∧ h'.confirmed = h.confirmed ∧ h'.ambient = h.ambient ∧
        h'.prompts = h.prompts ∧ NothingHanded (fun j => j = k) s t ∧
        (u.kind = .setup ∨ u.kind = .probe → h'.level = h.level ∧ h'.jump = h.jump) ∧
        (u.kind = .content ∨ u.kind = .quick ∨ u.kind = .poll → h'.jump = false ∧
          (h'.level : Int) = if h.jump then (h.target : Int)
            else (h.level : Int) + max (-4) (min 4 ((h.target : Int) - h.level))) ∧ ∀ m, m ≠ n.val → t.trunk m = s.trunk m)) ∧
  (∀ (s : State) (n c k : Nat), scheduled s n = some (c, k) → 2 ≤ c ∧ c ≤ 7 ∧ k ∈ classHeads s n c ∧
    (∀ d, 2 ≤ d → d < c → classHeads s n d = []) ∧
    roundRobin (classHeads s n c) (tableGet 0 (s.trunk n).positions c) = some k) ∧
  (∀ (s : State) (n c k : Nat), k ∈ classHeads s n c ↔ keyTrunk k = n ∧ ∃ h row, tableFind s.heads k = some h ∧
    s.conf.head k = some row ∧ InClass c row h) ∧
  ∀ (keys : List Nat) (pos k : Nat), keys.Pairwise (fun a b => keyAddress a < keyAddress b) →
    roundRobin keys pos = some k → k ∈ keys ∧
    ((∃ j ∈ keys, pos < keyAddress j) →
      pos < keyAddress k ∧ ∀ j ∈ keys, pos < keyAddress j → keyAddress k ≤ keyAddress j) ∧
    ((∀ j ∈ keys, keyAddress j ≤ pos) → ∀ j ∈ keys, keyAddress k ≤ keyAddress j)

/-- R153, R162, R170, R172: the end of a frame copy. A clean copy returns the line's loop error run to 0; a loop error raises
it, and the third shuts the active line with cause LOOP, which fails over or takes the trunk DOWN. A failover abandons the
turn, also at a broadcast's second copy (assumption 32), and a broadcast's request returns to the list, while RUN is 0 too
(assumption 41); the turn of a trunk that goes DOWN is followed by no gap (assumption 63). By either the head that the turn
serves is as for a cut frame with no miss, its POLL leaving the poll due (assumption 14), and any other end of a copy hands
nothing to a head. A clean echo of a frame with a
CRC-16 is no loop error; a short echo, a bad character, an echoed CRC-16 that differs or one that differs as worked over the
echo is one, and for QUICK a word or tag that differs; a loop check of a longer echo reads as many characters as were sent
(assumption 36). The error run of a probe, which shuts nothing, stops at 255 (assumption 31). -/
def Obligations.FrameEnds : Prop :=
  (∀ (s : State) (n : Fin 16) (u : Turn) (echo : List Received), s.phase = .ready →
    (s.trunk n).flight = .sending u →
    let x := s.trunk n
    let follows : Flight :=
      if u.kind = .override then (if u.second then .gap else .copyGap u) else .window u
    ∃ t, exec (.frameEnd n echo) s = .next t ∧ Touches (commandFields (.frameEnd n echo)) s t ∧
      (∀ m, m ≠ n.val → t.trunk m = s.trunk m) ∧
      (loopError u.kind u.frame echo = false →
        (t.trunk n).flight = follows ∧ (t.trunk n).line u.line = { x.line u.line with loopRun := 0 } ∧
        (t.trunk n).state = x.state ∧ (t.trunk n).active = x.active ∧ NothingHanded (fun _ => False) s t) ∧
      (loopError u.kind u.frame echo = true → ((t.trunk n).line u.line).loopErr = true ∧
        (u.recovery = true ∨ (x.line u.line).loopRun < 2 →
          (t.trunk n).flight = follows ∧ (t.trunk n).state = x.state ∧ (t.trunk n).active = x.active ∧
          ((t.trunk n).line u.line).shut = (x.line u.line).shut ∧
          ((t.trunk n).line u.line).loopRun = min 255 ((x.line u.line).loopRun + 1) ∧
          NothingHanded (fun _ => False) s t) ∧
        (u.recovery = false → 2 ≤ (x.line u.line).loopRun → x.state = .running → x.active = some u.line →
          ((t.trunk n).line u.line).shut = some .loop ∧ ((t.trunk n).line u.line).shutTime = s.hubTime ∧
          ((x.line u.line).shut = none → t.attention.getLsbD 9 = true) ∧
          HeadsKept (fun _ => False) (CutPoll x.flight n) s t ∧
          ((x.line (LineId.other u.line)).shut = none →
            (t.trunk n).state = .running ∧ (t.trunk n).active = some (LineId.other u.line) ∧
            (t.trunk n).flight = .gap ∧ ((t.trunk n).line (LineId.other u.line)).loopRun = 0 ∧
            FailedOver x (t.trunk n)) ∧
          ((x.line (LineId.other u.line)).shut ≠ none →
            (t.trunk n).state = .down ∧ (t.trunk n).active = none ∧ (t.trunk n).flight = .idle ∧
            (t.trunk n).requests = [] ∧
            (t.trunk n).recovery = some (expiryAfter s.hubTime (recoveryMs s n)))))) ∧
  (∀ (lead : Byte) (body : List Byte) (kind : FrameKind),
    loopError kind (withCrc lead body) ((withCrc lead body).map goodCharacter) = false) ∧
  (∀ (lead : Byte) (body : List Byte) (kind : FrameKind) (echo : List Received), kind ≠ .quick →
    let frame := withCrc lead body
    let sent : List Byte := [(crc16 body).extractLsb' 8 8, (crc16 body).extractLsb' 0 8]
    (loopError kind frame echo = true ↔
      echo.length < frame.length ∨ (∃ x ∈ echo.take frame.length, badCharacter x = true) ∨
      ∃ (l : Byte) (b : List Byte) (hi lo : Byte) (more : List Byte), echo.map (·.code) = l :: b ++ [hi, lo] ++ more ∧
        b.length = body.length ∧ ([hi, lo] ≠ sent ∨ crc16 b ≠ crc16 body))) ∧
  (∀ (frame : List Byte) (echo : List Received),
    loopError .quick frame echo = true ↔
      echo.length < frame.length ∨ (∃ x ∈ echo.take frame.length, badCharacter x = true) ∨
      ((echo.take frame.length).map (·.code)).drop 2 ≠ frame.drop 2)

/-- R153, R159, R161, R162: the ends of a break, of a gap and of the gap between a broadcast's copies, a reply's first
character, and the polls and probes that fall due. One handed late acts as one on time does (assumption 4). -/
def Obligations.TurnTransitions : Prop :=
  ∀ (s : State) (n : Fin 16), s.phase = .ready →
    (∀ (c : Instr) (f g : Flight), (s.trunk n).flight = f →
      ((∃ l, c = .breakEnd n ∧ f = .breaking l ∧ g = .gap) ∨ (c = .gapExpiry n ∧ f = .gap ∧ g = .idle) ∨
        (∃ u, c = .gapExpiry n ∧ f = .copyGap u ∧ g = .sending { u with second := true }) ∨
        (∃ u, c = .replyFirstCharacter n ∧ f = .window u ∧ g = .receiving u)) →
      ∃ t, exec c s = .next t ∧ Touches [.trunks] s t ∧ t.trunk n = { s.trunk n with flight := g } ∧
        ∀ m, m ≠ n.val → t.trunk m = s.trunk m) ∧
    (∀ address h, s.headAt n address = some h → reached s.hubTime h.pollAt = true →
      ∃ t, exec (.pollDue n address) s = .next t ∧ Touches [.heads] s t ∧
        t.headAt n address = some { h with pollDue := true, pollAt := none } ∧
        ∀ k, k ≠ headKey n address → tableFind t.heads k = tableFind s.heads k) ∧
    (∀ address h, s.headAt n address = some h → h.link = .lost → reached s.hubTime h.probeAt = true →
      ∃ t, exec (.probeDue n address) s = .next t ∧ Touches [.heads] s t ∧
        t.headAt n address = some { h with probeDue := true, probeAt := none } ∧
        ∀ k, k ≠ headKey n address → tableFind t.heads k = tableFind s.heads k)

/-- R142, R143, R153 to R155, R163, R165, R167: a reply that is accepted in an ordinary turn, handed on to its head
(HeadAfterReply), and to no other; one of a head whose row was set to NONE is handed to none. It confirms the
pending content frame where its tag echo is the sent tag, LASTERR is clear and the head needs no reload, before the reply or
by it: the pending flag is cleared, and the content of the held snapshot of that tag becomes the confirmed content. Any other
reply leaves the pending flag, the snapshot and the confirmed content as they were, but a reload discards snapshot and
confirmed content and sets the jump flag. The need for reload that a SETUP reply ends is taken as R154 writes it (assumption
24), also where a generation changed the head's row while that SETUP was in flight (assumption 69), a reload's contents are compared also where the confirmed content was none (assumption 54), and the echo is the low four
bits of the reply's tag byte (assumption 36). A new FAULT sets TRUNK. -/
def Obligations.ReplyAccepted : Prop :=
  (∀ (s : State) (n : Fin 16) (u : Turn) (reply : List Received) (r : Reply) (h : Head), s.phase = .ready →
    (s.trunk n).flight = .receiving u → judgeReply u.address reply = .accepted r → u.recovery = false →
    u.orphan = false → tableFind s.heads (headKey n u.address) = some h →
    ∃ t h', exec (.replyEnd n reply) s = .next t ∧ Touches (commandFields (.replyEnd n reply)) s t ∧
      t.trunk n = { s.trunk n with flight := .gap } ∧ (∀ m, m ≠ n.val → t.trunk m = s.trunk m) ∧
      tableFind t.heads (headKey n u.address) = some h' ∧ HeadAfterReply u r h h' ∧
      NothingHanded (fun k => k = headKey n u.address) s t ∧
      (r.fault = true → h.link ≠ .failed → t.attention.getLsbD 9 = true)) ∧
  ∀ (s : State) (n : Fin 16) (u : Turn) (reply : List Received) (r : Reply), s.phase = .ready →
    (s.trunk n).flight = .receiving u → judgeReply u.address reply = .accepted r → u.recovery = false →
    u.orphan = true →
    ∃ t, exec (.replyEnd n reply) s = .next t ∧ Touches (commandFields (.replyEnd n reply)) s t ∧
      t.trunk n = { s.trunk n with flight := .gap } ∧ (∀ m, m ≠ n.val → t.trunk m = s.trunk m) ∧
      t.attention = s.attention ∧ NothingHanded (fun _ => False) s t

/-- R150, R153, R154, R161, R163, R166: a reply window that expires, and a reply that is not accepted, whether its CRC-16
fails or it is refused for a bad character, another address, another lead byte or another length (assumption 15): the frame
is sent a second time, or the turn ends and the head, unless LOST, has a miss; at the fourth it is LOST, with TRUNK set. The
head keeps its sent tag, pending flag, content state, need for reload and all that KeptAtMiss names, and its link state, run,
busy flag and probe too until the miss that makes it LOST. Only
a failed CRC-16 raises the head's CRC count: a window that expires raises none (assumption 7). A turn ended early by a
broadcast request ends with no retry and raises no count; that this holds also of one that had sent its retry is the model's
reading (assumption 58). For a head whose row was set to NONE nothing is handed, and its turn goes on to its retry or ends in
its gap. -/
def Obligations.RetriesAndMisses : Prop :=
  (∀ (a : Nat) (reply : List Received),
    let codes := reply.map (·.code)
    (judgeReply a reply = .crcFault ↔ ¬ EndsGood codes) ∧
    ∀ r, judgeReply a reply = .accepted r ↔ EndsGood codes ∧ (∀ x ∈ reply, badCharacter x = false) ∧
      ∃ flags tag ambient hi lo, codes = [0xD0, BitVec.ofNat 8 a, flags, tag, ambient, hi, lo] ∧
        r = { fault := flags.getLsbD 0, service := flags.getLsbD 1, busy := flags.getLsbD 2, lasterr := flags.getLsbD 3,
              tag := tag.toNat, ambient := ambient.toNat }) ∧
  (∀ (s : State) (n : Fin 16) (u : Turn) (h : Head) (c : Instr), s.phase = .ready → u.recovery = false → u.early = true →
    tableFind s.heads (headKey n u.address) = some h →
    ((c = .replyWindowExpiry n ∧ (s.trunk n).flight = .window u) ∨
      (∃ reply, c = .replyEnd n reply ∧ (s.trunk n).flight = .receiving u ∧
        ∀ r, judgeReply u.address reply ≠ .accepted r)) →
    ∃ t h', exec c s = .next t ∧ Touches (commandFields c) s t ∧ (∀ m, m ≠ n.val → t.trunk m = s.trunk m) ∧
      (t.trunk n).flight = .gap ∧ tableFind t.heads (headKey n u.address) = some h' ∧ h'.misses = h.misses ∧
      h'.missRun = h.missRun ∧ h'.crcErrors = h.crcErrors ∧ h'.link = h.link ∧ NothingHanded (fun _ => False) s t) ∧
  (∀ (s : State) (n : Fin 16) (u : Turn) (c : Instr) (crc : Bool), s.phase = .ready → u.recovery = false →
    u.orphan = true → Unanswered s n u c crc →
    ∃ t, exec c s = .next t ∧ Touches (commandFields c) s t ∧ (∀ m, m ≠ n.val → t.trunk m = s.trunk m) ∧
      t.trunk n = { s.trunk n with
        flight := if u.second = true ∨ u.early = true then .gap else .sending { u with second := true } } ∧
      t.attention = s.attention ∧ NothingHanded (fun _ => False) s t) ∧
  ∀ (s : State) (n : Fin 16) (u : Turn) (h : Head) (c : Instr) (crc : Bool), s.phase = .ready → u.recovery = false →
    u.early = false → u.noMiss = false → u.orphan = false → tableFind s.heads (headKey n u.address) = some h →
    ((c = .replyWindowExpiry n ∧ (s.trunk n).flight = .window u ∧ crc = false) ∨
      (∃ reply, c = .replyEnd n reply ∧ (s.trunk n).flight = .receiving u ∧
        ((judgeReply u.address reply = .crcFault ∧ crc = true) ∨
          (judgeReply u.address reply = .refused ∧ crc = false)))) →
    ∃ t h', exec c s = .next t ∧ Touches (commandFields c) s t ∧ (∀ m, m ≠ n.val → t.trunk m = s.trunk m) ∧
      tableFind t.heads (headKey n u.address) = some h' ∧ NothingHanded (fun k => k = headKey n u.address) s t ∧
      h'.crcErrors = (if crc then min 65535 (h.crcErrors + 1) else h.crcErrors) ∧ KeptAtMiss h h' ∧
      let linkKept := h'.link = h.link ∧ h'.busy = h.busy ∧ h'.everLost = h.everLost ∧ h'.probeAt = h.probeAt ∧
        h'.probeDue = h.probeDue
      (u.second = false → t.trunk n = { s.trunk n with flight := .sending { u with second := true } } ∧
        h'.misses = h.misses ∧ h'.missRun = h.missRun ∧ linkKept ∧ t.attention = s.attention) ∧
      (u.second = true → t.trunk n = { s.trunk n with flight := .gap } ∧
        (h.link = .lost → h'.misses = h.misses ∧ h'.missRun = h.missRun ∧ linkKept ∧ t.attention = s.attention) ∧
        (h.link ≠ .lost → h'.misses = min 65535 (h.misses + 1) ∧ h'.missRun = min 4 (h.missRun + 1) ∧
          (h.missRun < 3 → linkKept ∧ t.attention = s.attention) ∧
          (3 ≤ h.missRun → h'.link = .lost ∧ h'.busy = false ∧ h'.everLost = true ∧
            h'.probeAt = some (expiryAfter s.hubTime 2000) ∧ h'.probeDue = false ∧ t.attention.getLsbD 9 = true)))

/-- R162, R163, R171 to R173: a line's watchdog: its driver is forced off, so that a break on it is over, and the line is SHUT
with cause WATCHDOG, whatever state the trunk is in; an active line's shut fails over or takes the trunk DOWN. A failover
abandons the turn in flight, the gap follows, and the request of a broadcast returns to the pending list, while RUN is 0 too
(assumption 41). On a DOWN trunk the recovery timer keeps its expiry, but the
shut of the line being probed, or chosen and not yet probed (assumption 29), abandons the probe and starts the timer anew. A
turn that a DOWN trunk gives up is followed by no gap (assumption 63). That an OFF trunk's break ends in its gap is the
model's reading (assumption 56), and so is that a line which already stands SHUT WATCHDOG takes the new shut time also on a
RUNNING or OFF trunk (assumption 68). The head served by a turn that a failover or a trunk going DOWN abandons is as for a cut
frame with no miss, its POLL leaving the poll due (assumption 14), and an abandoned probe leaves its head as it was: said of a
legal trunk, on which nothing but a recovery probe goes out while DOWN. -/
def Obligations.WatchdogShutsTheLine : Prop :=
  ∀ (s : State) (n : Fin 16) (l : LineId), s.phase = .ready →
    let x := s.trunk n
    let forced : Flight := if x.flight = .breaking l then .gap else x.flight
    ∃ t, exec (.watchdogExpiry n l) s = .next t ∧ Touches (commandFields (.watchdogExpiry n l)) s t ∧
      ((t.trunk n).line l).watchdog = true ∧ ((t.trunk n).line l).shut = some .watchdog ∧
      ((t.trunk n).line l).shutTime = s.hubTime ∧ (∀ m, m ≠ n.val → t.trunk m = s.trunk m) ∧
      ((x.line l).shut ≠ some .watchdog → t.attention.getLsbD 9 = true) ∧
      (TrunkLegal x → HeadsKept (fun _ => False)
        (fun k => x.state = .running ∧ x.active = some l ∧ CutPoll x.flight n k) s t) ∧
      (x.state = .off → (t.trunk n).state = .off ∧ (t.trunk n).flight = forced) ∧
      (x.state = .running → x.active = some l → (x.line (LineId.other l)).shut = none →
        (t.trunk n).state = .running ∧ (t.trunk n).active = some (LineId.other l) ∧
        ((t.trunk n).line (LineId.other l)).loopRun = 0 ∧ FailedOver x (t.trunk n)) ∧
      (x.state = .running → x.active = some l → (x.line (LineId.other l)).shut ≠ none →
        (t.trunk n).state = .down ∧ (t.trunk n).active = none ∧ (t.trunk n).requests = [] ∧
        (t.trunk n).flight = .idle ∧ (t.trunk n).recovery = some (expiryAfter s.hubTime (recoveryMs s n))) ∧
      (x.state = .running → x.active ≠ some l →
        (t.trunk n).state = .running ∧ (t.trunk n).active = x.active ∧ (t.trunk n).flight = forced) ∧
      (x.state = .down → (t.trunk n).state = .down ∧ (t.trunk n).active = x.active) ∧
      (x.state = .down → Probed x l → (t.trunk n).chosen = none ∧ (t.trunk n).flight = .idle ∧
        (t.trunk n).recovery = some (expiryAfter s.hubTime (recoveryMs s n))) ∧
      (x.state = .down → ¬ Probed x l → (t.trunk n).chosen = x.chosen ∧ (t.trunk n).flight = forced ∧
        (t.trunk n).recovery = x.recovery)

/-- R172, R173: the recovery of a DOWN trunk. At the expiry it chooses the line with the older shut time among those not
ORDERED, line A of two equal ones; a trunk with no head becomes RUNNING on that line. The probe goes out on the chosen line
to the ONLINE or FAILED head of the lowest address above the previous probe's, wrapping to the lowest, or to any head by that
order where none is ONLINE or FAILED. It begins as a first send (JustBegun), it is sent a second time where that send draws no
accepted reply, and it has three ends: no accepted reply to the retry, which shuts the line again with no miss; an accepted
reply, which makes the trunk RUNNING on the line and is handed on to its head (R154, HeadAfterReply); and an order that makes
a line READY meanwhile, after which a probe of that line goes on as an ordinary turn whose missing reply neither shuts a line
nor is a miss, and one of the other line is abandoned. The older shut is told by elapsed hub time (assumption 55), a trunk that has lost its last
head since makes the chosen line READY (assumption 30), and an expiry handed late acts as one on time does (assumption 4). The
timer's length is the Trunk Settings' recovery interval in seconds, 0 standing for 5 (R25). The probe pushes the poll of its
head back by R159, and of its link and its misses nothing changes; that it pushes back the due poll of an UNKNOWN head too is
the model's choice (assumption 70). -/
def Obligations.RecoveryOfATrunk : Prop :=
  (∀ (s : State) (n : Nat), recoveryMs s n =
    1000 * (if (s.conf.trunk n).recovery = 0 then 5 else (s.conf.trunk n).recovery)) ∧
  (∀ (s : State) (n : Fin 16), s.phase = .ready → (s.trunk n).state = .down → KeysOk s →
    let x := s.trunk n
    let noHead := ∀ k, keyTrunk k = n → tableFind s.heads k = none
    let tried (l : LineId) := (x.line l).shut ≠ some .ordered ∧
      ((x.line (LineId.other l)).shut = some .ordered ∨
        elapsed (x.line (LineId.other l)).shutTime s.hubTime < elapsed (x.line l).shutTime s.hubTime ∨
        (l = .a ∧ elapsed x.lineA.shutTime s.hubTime = elapsed x.lineB.shutTime s.hubTime))
    (reached s.hubTime x.recovery = true →
      ∃ t, exec (.recoveryExpiry n) s = .next t ∧ Touches (commandFields (.recoveryExpiry n)) s t ∧
        (t.trunk n).recovery = none ∧
        (x.lineA.shut = some .ordered → x.lineB.shut = some .ordered →
          (t.trunk n).state = .down ∧ (t.trunk n).chosen = x.chosen) ∧
        (∀ l, ¬ noHead → tried l → (t.trunk n).state = .down ∧ (t.trunk n).chosen = some l ∧
          (t.trunk n).lineA = x.lineA ∧ (t.trunk n).lineB = x.lineB) ∧
        (∀ l, noHead → tried l → (x.line l).shut ≠ none →
          (t.trunk n).state = .running ∧ (t.trunk n).active = some l ∧ ((t.trunk n).line l).shut = none ∧
          ((t.trunk n).line l).loopRun = 0 ∧
          (t.trunk n).line (LineId.other l) = x.line (LineId.other l) ∧ t.attention.getLsbD 9 = true)) ∧
    (∀ l, x.chosen = some l → s.run = true → x.flight = .idle → noHead → (x.line l).shut ≠ none →
      ∃ t, exec (.recoveryProbeBegin n) s = .next t ∧ Touches (commandFields (.recoveryProbeBegin n)) s t ∧
        (t.trunk n).state = .running ∧ (t.trunk n).active = some l ∧ ((t.trunk n).line l).shut = none ∧
        (t.trunk n).flight = .idle ∧ (t.trunk n).recovery = none ∧ t.attention.getLsbD 9 = true) ∧
    (∀ l k row h, x.chosen = some l → s.run = true → x.flight = .idle → NextAbove (ProbedHead s n) x.lastProbe k →
      s.conf.head k = some row → tableFind s.heads k = some h →
      ∃ t u, exec (.recoveryProbeBegin n) s = .next t ∧ Touches (commandFields (.recoveryProbeBegin n)) s t ∧
        t.trunk n = { x with flight := .sending u, chosen := none, lastProbe := keyAddress k } ∧
        (∀ m, m ≠ n.val → t.trunk m = s.trunk m) ∧ u.kind = .probe ∧ u.recovery = true ∧ JustBegun s n u ∧
        u.request = none ∧ u.line = l ∧ u.address = keyAddress k ∧ u.frame = probeFrame (keyAddress k) ∧
        NothingHanded (fun j => j = k) s t ∧
        ∃ h', tableFind t.heads k = some h' ∧ h'.link = h.link ∧ h'.missRun = h.missRun ∧ h'.misses = h.misses ∧
          h'.lastFrame = some s.hubTime ∧ h'.pollDue = false ∧
          h'.pollAt = some (expiryAfter s.hubTime (kindOf s row).poll)) ∧
    (∀ u c crc, u.recovery = true → Unanswered s n u c crc →
      ∃ t, exec c s = .next t ∧ Touches (commandFields c) s t ∧ (∀ m, m ≠ n.val → t.trunk m = s.trunk m) ∧
        (∀ k h, tableFind s.heads k = some h → ∃ h', tableFind t.heads k = some h' ∧ h'.link = h.link ∧
          h'.misses = h.misses ∧ h'.missRun = h.missRun ∧
          h'.crcErrors = if crc = true ∧ k = headKey n u.address ∧ u.early = false ∧ u.orphan = false
            then min 65535 (h.crcErrors + 1) else h.crcErrors) ∧
        (u.second = false → u.early = false → t.trunk n = { x with flight := .sending { u with second := true } }) ∧
        (u.second = true →
          (t.trunk n).state = .down ∧ ((t.trunk n).line u.line).shut = some .loop ∧
          ((t.trunk n).line u.line).shutTime = s.hubTime ∧
          (t.trunk n).line (LineId.other u.line) = x.line (LineId.other u.line) ∧
          (t.trunk n).recovery = some (expiryAfter s.hubTime (recoveryMs s n)) ∧ (t.trunk n).flight = .gap ∧
          ((x.line u.line).shut ≠ some .loop → t.attention.getLsbD 9 = true))) ∧
    (∀ u reply r, x.flight = .receiving u → u.recovery = true → (x.line u.line).shut ≠ none →
      judgeReply u.address reply = .accepted r →
      ∃ t, exec (.replyEnd n reply) s = .next t ∧ Touches (commandFields (.replyEnd n reply)) s t ∧
        (∀ m, m ≠ n.val → t.trunk m = s.trunk m) ∧ (t.trunk n).state = .running ∧
        (t.trunk n).active = some u.line ∧ ((t.trunk n).line u.line).shut = none ∧
        ((t.trunk n).line u.line).loopRun = 0 ∧ (t.trunk n).line (LineId.other u.line) = x.line (LineId.other u.line) ∧
        (t.trunk n).recovery = none ∧ (t.trunk n).flight = .gap ∧ t.attention.getLsbD 9 = true ∧
        NothingHanded (fun k => k = headKey n u.address ∧ u.orphan = false) s t ∧
        ∀ h, u.orphan = false → tableFind s.heads (headKey n u.address) = some h →
          ∃ h', tableFind t.heads (headKey n u.address) = some h' ∧ HeadAfterReply u r h h') ∧
    (∀ l st, ReadsNow s .sweepReadOrders .building 1 → judge (ordersStamps s.ram) s.ordersSeen = .accepted st →
      let r := readOrders s.ram
      Readied s r n l → (l = .b → ¬ Readied s r n .a) → (∀ m, Probed x m → ¬ ShutOrder s r (2 * n + lineIdCode m)) →
      ∃ t, exec .sweepReadOrders s = .next t ∧ Touches (commandFields .sweepReadOrders) s t ∧
        (t.trunk n).state = .running ∧ (t.trunk n).active = some l ∧ ((t.trunk n).line l).shut = none ∧
        ((t.trunk n).line l).loopRun = 0 ∧ (t.trunk n).recovery = none ∧ (t.trunk n).chosen = none ∧
        ProbeSettled l x.flight (t.trunk n).flight)) ∧
  ∀ (s : State) (n : Fin 16) (u : Turn) (h : Head) (c : Instr) (crc : Bool), s.phase = .ready → u.recovery = false →
    u.noMiss = true → u.early = false → u.orphan = false → tableFind s.heads (headKey n u.address) = some h →
    Unanswered s n u c crc →
    ∃ t h', exec c s = .next t ∧ Touches (commandFields c) s t ∧ (∀ m, m ≠ n.val → t.trunk m = s.trunk m) ∧
      tableFind t.heads (headKey n u.address) = some h' ∧ h'.link = h.link ∧ h'.misses = h.misses ∧
      h'.missRun = h.missRun ∧ h'.crcErrors = (if crc then min 65535 (h.crcErrors + 1) else h.crcErrors) ∧
      t.trunk n = { s.trunk n with flight := if u.second then .gap else .sending { u with second := true } }

/-! ### Checks (12) -/

/-- R127, R149 to R152, R174, R175: the CRC-16 and the frames that end with it, character by character, with the form, the
line and the region bytes of every CONTENT payload; the fields of the quick word for every lantern content and level, with
its check; the side-band check; and the 11 bits of a character with its even parity. A lead byte is outside the CRC-16, and
the side-band fields are read from their highest bit. That an OVERRIDE frame sends its zone set's more significant byte first
is the model's reading (assumption 13). -/
def Obligations.Checks : Prop :=
  crc16 [] = 0xFFFF#16 ∧
  (∀ cs c, crc16 (cs ++ [c]) = Nat.iterate crcShift 8 (crc16 cs ^^^ (c.zeroExtend 16 <<< 8))) ∧
  (∀ r : BitVec 16, crcShift r = if r.getLsbD 15 then (r <<< 1) ^^^ 0x1021#16 else r <<< 1) ∧
  crc16 [0x31, 0x32, 0x33, 0x34, 0x35, 0x36, 0x37, 0x38, 0x39] = 0x29B1#16 ∧
  (∀ lead body, withCrc lead body = lead :: body ++
    [(crc16 body).extractLsb' 8 8, (crc16 body).extractLsb' 0 8]) ∧
  (∀ a k tag level c p, contentFrame a k tag level c p = withCrc 0xC1 ([BitVec.ofNat 8 a, BitVec.ofNat 8 (kindCode k),
    BitVec.ofNat 8 (payload c p).length, BitVec.ofNat 8 tag.toNat, BitVec.ofNat 8 level] ++ payload c p)) ∧
  (∀ a (row : HeadRow) (poll : Nat), setupFrame a row poll = withCrc 0xC2 [BitVec.ofNat 8 a, BitVec.ofNat 8 row.kind,
    BitVec.ofNat 8 row.zone, row.immunity, BitVec.ofNat 8 (poll / 256), BitVec.ofNat 8 poll, 0]) ∧
  (∀ a level, pollFrame a level = withCrc 0xC3 [BitVec.ofNat 8 a, BitVec.ofNat 8 level]) ∧
  (∀ a, probeFrame a = withCrc 0xC6 [BitVec.ofNat 8 a]) ∧
  (∀ r, overrideFrame r = withCrc 0xC5 ([0, BitVec.ofNat 8 r.line, r.zones.extractLsb' 8 8, r.zones.extractLsb' 0 8] ++
    places 4 r.short ++ places 72 r.long)) ∧
  (∀ a (w : BitVec 16) (tag : BitVec 4), quickFrame a w tag = [0xC4, BitVec.ofNat 8 a, w.extractLsb' 8 8,
    w.extractLsb' 0 8, BitVec.ofNat 8 tag.toNat]) ∧
  (∀ b : Byte, receivedFrom (characterLevels b) = goodCharacter b ∧ badCharacter (goodCharacter b) = false ∧
    (characterLevels b).length = 11 ∧ ((characterLevels b).drop 1).head? = some (b.getLsbD 0) ∧
    (((characterLevels b).drop 1).take 9).count true % 2 = 0 ∧
    (characterLevels b).head? = some false ∧ (characterLevels b).getLast? = some true) ∧
  (∀ x : Received, badCharacter x = true ↔ x.parity ≠ evenParity x.code ∨ x.stop = false) ∧
  (∀ a reply r, judgeReply a reply = .accepted r → ∃ lead b hi lo, reply.map (·.code) = lead :: b ++ [hi, lo] ∧
    crc16 b = ((hi.zeroExtend 16 : BitVec 16) <<< 8) ||| (lo.zeroExtend 16 : BitVec 16)) ∧
  (∀ w : BitVec 16, quickCheck w = ((w >>> 12) ^^^ ((w >>> 8) &&& 0xF) ^^^ ((w >>> 4) &&& 0xF))) ∧
  quickWord (.lantern true .up true 1) 34 = 0xAC53#16 ∧
  (∀ lit a f (n level : Nat),
    let w := quickWord (.lantern lit a f n) level
    (w.getLsbD 15 = true ↔ lit = true ∧ a ≠ .down) ∧ (w.getLsbD 14 = true ↔ lit = true ∧ a ≠ .up) ∧
    (w.getLsbD 13 = true ↔ lit = true ∧ f = true) ∧
    w.extractLsb' 11 2 = (if lit then BitVec.ofNat 2 n else 0) ∧ w.extractLsb' 5 6 = BitVec.ofNat 6 level ∧
    w.getLsbD 4 = true ∧ w.extractLsb' 0 4 = (w.extractLsb' 12 4 ^^^ w.extractLsb' 8 4 ^^^ w.extractLsb' 4 4)) ∧
  (∀ n (l : List Byte), (places n l).length = n ∧ ∀ i < n, (places n l).getD i 0 = l.getD i 32) ∧
  (∀ (line : Option Nat) (p : Layer) (x : PosText) (text : List Byte) (ds : List DestItem) (ps : List PromptItem),
    let lineOf : Byte := match line with
      | some n => BitVec.ofNat 8 n
      | none => 0xFF
    let head (position : Byte) : List Byte := [match p with
      | .override => 2
      | .notice => 2
      | .guidance => 1
      | .position => position
      | .idle => 0, lineOf]
    let arrow (a : Arrow) : Byte := match a with
      | .none => 0
      | .up => 1
      | .down => 2
    let marks (refused closed wheelchair : Bool) : Byte :=
      (if refused then 1 else 0) ||| (if closed then 2 else 0) ||| (if wheelchair then 4 else 0)
    let region : List Byte := places 4 x.places ++ [arrow x.arrow, match x.mark with
      | .none => 0
      | .parked => 0x85
      | .inspection => 0x86]
    let withArrows : List Byte := BitVec.ofNat 8 ds.length ::
      ds.flatMap (fun i => places 4 i.label ++ [arrow i.arrow, marks false i.closed i.wheelchair])
    let noArrows : List Byte := BitVec.ofNat 8 ds.length ::
      ds.flatMap (fun i => places 4 i.label ++ [marks false i.closed i.wheelchair])
    let prompts : List Byte := BitVec.ofNat 8 ps.length :: ps.flatMap (fun i =>
      places 2 i.carLabel ++ [arrow i.arrow] ++ places 4 i.destination ++ [marks i.refused i.closed i.wheelchair])
    payload (.indicator x line) p = head 3 ++ (if p = .idle then [] else region) ∧
    payload (.panel .blank line) p = head 0 ∧ payload (.panel (.text text) line) p = head 0 ++ places 72 text ∧
    payload (.panel (.destinations ds) line) p = head 0 ++ withArrows ∧
    payload (.panel (.prompts ps) line) p = head 0 ++ prompts ∧
    payload (.carPanel x .blank line) p = head 0 ++ region ∧
    payload (.carPanel x (.text text) line) p = head 0 ++ region ++ places 72 text ∧
    payload (.carPanel x (.destinations ds) line) p = head 0 ++ region ++ noArrows) ∧
  (∀ bits : List Bool, bits.length ≠ 22 → judgeSideBand bits = none) ∧
  (∀ line zones check : List Bool, line.length = 2 → zones.length = 16 → check.length = 4 →
    judgeSideBand (line ++ zones ++ check) =
      if ofBits check = (line ++ zones).count true % 16 then some (ofBits line, BitVec.ofNat 16 (ofBits zones)) else none) ∧
  judgeSideBand [false, true, false, false, false, false, false, false, false, false, false, false, true, false, false,
    true, false, true, false, true, false, false] = some (1, 0x25#16)

/-! ### Records, faults and ownership (01, 03) -/

/-- R5, R13, R14, R37, R58, R127: every command but the two resets, the zero-fill and the host's own write makes one published
write of each record that changed, with the body as the hub then holds it; it leaves the stamps of every record that reads
as before, but one that it may publish again (Republishes); and it changes no byte outside these records, but the entries of
the fault lists (FaultsArePlacedOrCounted) and the hub-time word at a tick. An event makes one write of a record (assumption
28), the words beyond a record are not written (assumption 45), and an Aboard row changes with the car that it shows
(assumption 52); what the places beyond a list's end hold is assumption 59. -/
def Obligations.ChangedRecordsArePublished : Prop :=
  ∀ (c : Instr) (s t : State), KeysOk s → publishesChanges c = true → exec c s = .next t →
    (∀ r, RecordOk r →
      (recordView t r ≠ recordView s r → Published s t r) ∧
      (recordView t r = recordView s r → ¬ Republishes s c r →
        tableGet 0 t.stamps (leadAddress r) = tableGet 0 s.stamps (leadAddress r))) ∧
    ∀ a, faultByte a = false → (a < 4 → c ≠ .hubTimeTick) →
      (∀ r, RecordOk r → InRecord r a → recordView t r = recordView s r ∧ ¬ Republishes s c r) →
      memGet t.ram a = memGet s.ram a

/-- R156, R174 with 12_layouts sections 2, 3.2, 3.4 to 3.9, 3.11 and 4: what every hub-owned record and fault entry holds,
field by field, by its offset and its codes. A record that the shared RAM shows (ShowsRecord) has its lead stamp at its first
byte, each field at its offset from there, and its tail stamp in its last two bytes, before Building Status's two unused
bytes. A landing's label shows in four places and a car's in two, filled with spaces after the label's end (R65). What the spec leaves open of a field is the model's choice: the refused item where there is none (assumption 8), the
arrow and mark of a car that is not TRACKING (assumption 9), the label of a deck in OUT_OF_SERVICE (assumption 25), deck 1 of
a car that has none (assumption 51), the places beyond a list's end (assumption 59), and the content state of a head whose
turn was cut (assumption 62). -/
def Obligations.RecordLayouts : Prop :=
  ∀ s : State,
    (∀ r, (recordBody s r).length + 4 = recordSize r - (if r = .buildingStatus then 2 else 0) ∧
      leadAddress r + 2 = recordStart r + bodyOffset r) ∧
    (∀ r, ShowsRecord s r →
      let a := recordStart r
      let stamp := (tableGet 0 s.stamps (leadAddress r)).toNat
      let last := bodyOffset r + (recordBody s r).length
      pairAt s.ram (a + bodyOffset r - 2) = stamp ∧ pairAt s.ram (a + last) = stamp ∧
      (∀ o, bodyOffset r ≤ o → o < last → byteAt s.ram (a + o) = field s r o 1) ∧
      (∀ o, bodyOffset r ≤ o → o + 1 < last → pairAt s.ram (a + o) = field s r o 2) ∧
      ∀ o, bodyOffset r ≤ o → o + 3 < last → quadAt s.ram (a + o) = field s r o 4) ∧
    BuildingFields s ∧ (∀ c, CarFields s c) ∧ (∀ k, HeadFields s k) ∧ (∀ i, BoardFields s i) ∧ (∀ n, TenantFields s n) ∧
    (∀ n i, SlotFields s n i) ∧ (∀ n p, RunFields s n p) ∧ (∀ n i k, AboardFields s n i k) ∧ (∀ r, FaultFields r) ∧
    CodesWritten ∧
    ∀ g : BuildingConfig, (∀ i, LabelShows 4 (g.floor i).label (landingLabel g i)) ∧
      (∀ c, LabelShows 2 (g.car c).label (carLabel g c)) ∧ (∀ i, sourcePlaces g (.landing i) = landingLabel g i) ∧
      ∀ l, sourcePlaces g (.codes l) = l

/-- R56, R78, R174 with 12_layouts sections 2, 3.1, 3.3, 3.5, 3.7, 3.8, 3.10 and 4: where the hub reads each field of the
host's records, with its width, its sign and its codes, and the twin stamps of each record. -/
def Obligations.HostRecordsRead : Prop :=
  ∀ m : Memory,
    StampsAt m ∧ ConfigurationAt m (readConfiguration m) ∧ OrdersAt m (readOrders m) ∧
    (∀ n, HeaderAt m n (readHeader m n)) ∧ (∀ n, MapAt m n (readMap m n)) ∧ (∀ n i, ReportAt m n i (readReport m n i)) ∧
    (∀ n i, RequestAt m n i (readSlotRequest m n i)) ∧ (∀ n p, ProgramAt m n p (readControl m n p) (readSteps m n p)) ∧
    (∀ n i, TextAt m n i (readText m n i)) ∧
    (∀ c, attrOf c = [DeckAttr.lower, .upper, .both][c]?) ∧ (∀ c, markOf c = [Mark.arrive, .door, .depart, .park][c]?) ∧
    ∀ r : HeadRow, r.kind? = if r.kind = 0 then none
      else [HeadKind.positionIndicator, .lantern, .landingDestination, .kioskPrompt, .carPanel, .textPanel][r.kind - 1]?

/-- R53, R54, R55, R174: a fault goes to its list, whose sequence rises; it is placed in the first entry whose flag reads 0,
which then reads 1 as a full word, with the attention of the list's owner, or, with no such entry, counted as dropped. -/
def Obligations.FaultsArePlacedOrCounted : Prop :=
  ∀ (s : State) (f : Raised), (∀ n, f.tenant = some n → n < 8) →
    let o : ListOwner := if toSupervisor s f then none else f.tenant
    let t := raise f s
    let seq := (s.faultList o).sequence + 1
    let stamp (i : Nat) := tableGet 0 s.stamps (faultBase o + 32 * i + 4) + 1
    (toSupervisor s f = true ↔ f.tenant = none ∨ classCode f.cause = 2 ∨ classCode f.cause = 4 ∨
      ∃ n, f.tenant = some n ∧ (s.conf.grant n).routing.getLsbD (causeCode f.cause - 1) = true) ∧
    (t.faultList o).sequence = seq ∧ (∀ p, p ≠ o → (∀ n, p = some n → n < 8) → t.faultList p = s.faultList p) ∧
    Touches [.ram, .stamps, .attention, .faults, .tenants] s t ∧
    (∀ i < faultEntries o, occupied s.ram o i = false → (∀ j < i, occupied s.ram o j = true) →
      occupied t.ram o i = true ∧ memNat t.ram (faultBase o + 32 * i) 4 = 1 ∧ t.attention.getLsbD (faultAttention o) = true ∧
      (t.faultList o).dropped = (s.faultList o).dropped ∧
      memBytes t.ram (faultBase o + 32 * i + 4) 28 = u16 (stamp i).toNat ++
        faultBody { sequence := seq, tenant := f.tenant, cause := f.cause, source := f.source, indexA := f.indexA,
                    indexB := f.indexB, logical := f.logical, building := f.building, count := f.count,
                    time := s.hubTime } ++ u16 (stamp i).toNat ∧
      ∀ a, a < faultBase o + 32 * i ∨ faultBase o + 32 * i + 32 ≤ a → memGet t.ram a = memGet s.ram a) ∧
    ((∀ i < faultEntries o, occupied s.ram o i = true) →
      (t.faultList o).dropped = min ((s.faultList o).dropped + 1) 65535 ∧ t.ram = s.ram ∧ t.stamps = s.stamps ∧
      t.attention = s.attention)

/-- R4: no command but the host's own write, and the end of a power-on reset's zero-fill, changes a host-owned byte of the
shared RAM or a byte that lies in no region; nor, by the model's choice between R174 and 01 section 1 (assumption 45), a byte
of the hub's regions that lies beyond their records, of Building Status the words from 0x264 to 0xFFF. -/
def Obligations.HostBytesKept : Prop :=
  ∀ (c : Instr) (s t : State), KeysOk s → writesHostBytes c = false → exec c s = .next t →
    ∀ a, hubByte a = false → memGet t.ram a = memGet s.ram a

/-- Every command completes from every state, and changes nothing outside its fields. That one whose condition does not hold
completes, and changes nothing, is the model's choice (assumption 3). -/
def Obligations.CommandFrame : Prop :=
  ∀ (c : Instr) (s : State), ∃ t, exec c s = .next t ∧ Touches (commandFields c) s t

/-! ### What every step keeps -/

/-- The shared RAM keeps its canonical form and the tables hold only the numbers that the hub has. -/
def Obligations.SoundnessKept : Prop := ∀ s t : State, Sound s → step s = .next t → Sound t

/-- R2, R3, R11, R15: the registers stay at what the resets leave while READY is 0, and no sweep timer or nudge stands while
RUN is 0; and R124, R133: a debounce timer runs exactly in the two pending states. -/
def Obligations.RegistersAndTimersKept : Prop :=
  ∀ s t : State, step s = .next t →
    (Quiet s → TimersNeedRun s → Quiet t ∧ TimersNeedRun t) ∧ (DebounceOk s → DebounceOk t)

/-- R60, R61, R68, R99: a car that is not TRACKING has no mode, commit or announcement, and a commit landing is a served
landing of a RUNNING deck; and R162, R172, R173: each trunk's state agrees with its lines, a DOWN trunk has no turn in flight but its recovery probe, and
only a broadcast has a second copy. -/
def Obligations.CarsAndTrunksKept : Prop :=
  ∀ s t : State, step s = .next t → (CarsOk s → CarsOk t) ∧ (TrunksLegal s → TrunksLegal t)

/-- R24, R80, R81, R89, R90: the Board Table and the Aboard Lists keep their order, their counts above 0 and their sizes, and
every live slot keeps a party above 0 and its resolved values (BooksOk). In a state that also has its sums right (TalliesOk) a
step keeps them: every waiting count is the sum of the parties of the TAKEN slots of its key and destination, every rider count
that of the BOARDED slots of its deck and destination, and a tenant is charged with at most its quota of entries. -/
def Obligations.GuidanceBooksKept : Prop :=
  ∀ s t : State, BooksOk s → step s = .next t → BooksOk t ∧ (Sound s → TalliesOk s → TalliesOk t)

/-- R71, R72, R93 to R95, R105, R112, R121, R129, R139 to R142, R145: what a step leaves of every head. Its override, notice,
guidance and position layers hold what the lines, the programs, the guidance books with the announcements, and its car's deck
give it, where a guidance or position layer may stand emptied (assumption 50); the presented layer is the highest non-empty
one that its layer mask admits; the next content is formed from it in the form of the head's kind; the head differs exactly
when its confirmed content is not its next content; and its brightness target is the one that its kind, the ceiling and its
ambient reading give. A text that a position layer presents is read at the layer's write, and when that is, is assumption
27. -/
def Obligations.HeadLayersKept : Prop :=
  ∀ s t : State, LayersOk s → step s = .next t → LayersOk t ∧ (KeysOk s → TextsRead s t)
end

