-- ==== Sys2Proof/Laws/State.lean ====
section
/-!
SUPPORT. The state after each of its updates, field by field: one lemma for each field that an update leaves alone, and
the accessors of what it sets.
-/

namespace Sys2Proof.Laws

open Sys2Proof.Machine

/-! ### setTenant -/

@[simp] theorem setTenant_phase (s : State) (t : Nat) (v : Tenant) : (s.setTenant t v).phase = s.phase := rfl
@[simp] theorem setTenant_run (s : State) (t : Nat) (v : Tenant) : (s.setTenant t v).run = s.run := rfl
@[simp] theorem setTenant_attention (s : State) (t : Nat) (v : Tenant) : (s.setTenant t v).attention = s.attention := rfl
@[simp] theorem setTenant_mask (s : State) (t : Nat) (v : Tenant) : (s.setTenant t v).mask = s.mask := rfl
@[simp] theorem setTenant_hold (s : State) (t : Nat) (v : Tenant) : (s.setTenant t v).hold = s.hold := rfl
@[simp] theorem setTenant_fixed (s : State) (t : Nat) (v : Tenant) : (s.setTenant t v).fixed = s.fixed := rfl
@[simp] theorem setTenant_readData (s : State) (t : Nat) (v : Tenant) : (s.setTenant t v).readData = s.readData := rfl
@[simp] theorem setTenant_ram (s : State) (t : Nat) (v : Tenant) : (s.setTenant t v).ram = s.ram := rfl
@[simp] theorem setTenant_stamps (s : State) (t : Nat) (v : Tenant) : (s.setTenant t v).stamps = s.stamps := rfl
@[simp] theorem setTenant_hubTime (s : State) (t : Nat) (v : Tenant) : (s.setTenant t v).hubTime = s.hubTime := rfl
@[simp] theorem setTenant_ovrLow (s : State) (t : Nat) (v : Tenant) : (s.setTenant t v).ovrLow = s.ovrLow := rfl
@[simp] theorem setTenant_sben (s : State) (t : Nat) (v : Tenant) : (s.setTenant t v).sben = s.sben := rfl
@[simp] theorem setTenant_sbfr (s : State) (t : Nat) (v : Tenant) : (s.setTenant t v).sbfr = s.sbfr := rfl
@[simp] theorem setTenant_word (s : State) (t : Nat) (v : Tenant) : (s.setTenant t v).word = s.word := rfl
@[simp] theorem setTenant_badWords (s : State) (t : Nat) (v : Tenant) : (s.setTenant t v).badWords = s.badWords := rfl
@[simp] theorem setTenant_sweep (s : State) (t : Nat) (v : Tenant) : (s.setTenant t v).sweep = s.sweep := rfl
@[simp] theorem setTenant_configSeen (s : State) (t : Nat) (v : Tenant) : (s.setTenant t v).configSeen = s.configSeen := rfl
@[simp] theorem setTenant_ordersSeen (s : State) (t : Nat) (v : Tenant) : (s.setTenant t v).ordersSeen = s.ordersSeen := rfl
@[simp] theorem setTenant_torn (s : State) (t : Nat) (v : Tenant) : (s.setTenant t v).torn = s.torn := rfl
@[simp] theorem setTenant_config (s : State) (t : Nat) (v : Tenant) : (s.setTenant t v).config = s.config := rfl
@[simp] theorem setTenant_orders (s : State) (t : Nat) (v : Tenant) : (s.setTenant t v).orders = s.orders := rfl
@[simp] theorem setTenant_faults (s : State) (t : Nat) (v : Tenant) : (s.setTenant t v).faults = s.faults := rfl
@[simp] theorem setTenant_cars (s : State) (t : Nat) (v : Tenant) : (s.setTenant t v).cars = s.cars := rfl
@[simp] theorem setTenant_board (s : State) (t : Nat) (v : Tenant) : (s.setTenant t v).board = s.board := rfl
@[simp] theorem setTenant_boardCreated (s : State) (t : Nat) (v : Tenant) : (s.setTenant t v).boardCreated = s.boardCreated := rfl
@[simp] theorem setTenant_aboard (s : State) (t : Nat) (v : Tenant) : (s.setTenant t v).aboard = s.aboard := rfl
@[simp] theorem setTenant_lines (s : State) (t : Nat) (v : Tenant) : (s.setTenant t v).lines = s.lines := rfl
@[simp] theorem setTenant_heads (s : State) (t : Nat) (v : Tenant) : (s.setTenant t v).heads = s.heads := rfl
@[simp] theorem setTenant_trunks (s : State) (t : Nat) (v : Tenant) : (s.setTenant t v).trunks = s.trunks := rfl
@[simp] theorem setTenant_pending (s : State) (t : Nat) (v : Tenant) : (s.setTenant t v).pending = s.pending := rfl

/-! ### modTenant -/

@[simp] theorem modTenant_phase (s : State) (t : Nat) (f : Tenant → Tenant) : (s.modTenant t f).phase = s.phase := rfl
@[simp] theorem modTenant_run (s : State) (t : Nat) (f : Tenant → Tenant) : (s.modTenant t f).run = s.run := rfl
@[simp] theorem modTenant_attention (s : State) (t : Nat) (f : Tenant → Tenant) : (s.modTenant t f).attention = s.attention := rfl
@[simp] theorem modTenant_mask (s : State) (t : Nat) (f : Tenant → Tenant) : (s.modTenant t f).mask = s.mask := rfl
@[simp] theorem modTenant_hold (s : State) (t : Nat) (f : Tenant → Tenant) : (s.modTenant t f).hold = s.hold := rfl
@[simp] theorem modTenant_fixed (s : State) (t : Nat) (f : Tenant → Tenant) : (s.modTenant t f).fixed = s.fixed := rfl
@[simp] theorem modTenant_readData (s : State) (t : Nat) (f : Tenant → Tenant) : (s.modTenant t f).readData = s.readData := rfl
@[simp] theorem modTenant_ram (s : State) (t : Nat) (f : Tenant → Tenant) : (s.modTenant t f).ram = s.ram := rfl
@[simp] theorem modTenant_stamps (s : State) (t : Nat) (f : Tenant → Tenant) : (s.modTenant t f).stamps = s.stamps := rfl
@[simp] theorem modTenant_hubTime (s : State) (t : Nat) (f : Tenant → Tenant) : (s.modTenant t f).hubTime = s.hubTime := rfl
@[simp] theorem modTenant_ovrLow (s : State) (t : Nat) (f : Tenant → Tenant) : (s.modTenant t f).ovrLow = s.ovrLow := rfl
@[simp] theorem modTenant_sben (s : State) (t : Nat) (f : Tenant → Tenant) : (s.modTenant t f).sben = s.sben := rfl
@[simp] theorem modTenant_sbfr (s : State) (t : Nat) (f : Tenant → Tenant) : (s.modTenant t f).sbfr = s.sbfr := rfl
@[simp] theorem modTenant_word (s : State) (t : Nat) (f : Tenant → Tenant) : (s.modTenant t f).word = s.word := rfl
@[simp] theorem modTenant_badWords (s : State) (t : Nat) (f : Tenant → Tenant) : (s.modTenant t f).badWords = s.badWords := rfl
@[simp] theorem modTenant_sweep (s : State) (t : Nat) (f : Tenant → Tenant) : (s.modTenant t f).sweep = s.sweep := rfl
@[simp] theorem modTenant_configSeen (s : State) (t : Nat) (f : Tenant → Tenant) : (s.modTenant t f).configSeen = s.configSeen := rfl
@[simp] theorem modTenant_ordersSeen (s : State) (t : Nat) (f : Tenant → Tenant) : (s.modTenant t f).ordersSeen = s.ordersSeen := rfl
@[simp] theorem modTenant_torn (s : State) (t : Nat) (f : Tenant → Tenant) : (s.modTenant t f).torn = s.torn := rfl
@[simp] theorem modTenant_config (s : State) (t : Nat) (f : Tenant → Tenant) : (s.modTenant t f).config = s.config := rfl
@[simp] theorem modTenant_orders (s : State) (t : Nat) (f : Tenant → Tenant) : (s.modTenant t f).orders = s.orders := rfl
@[simp] theorem modTenant_faults (s : State) (t : Nat) (f : Tenant → Tenant) : (s.modTenant t f).faults = s.faults := rfl
@[simp] theorem modTenant_cars (s : State) (t : Nat) (f : Tenant → Tenant) : (s.modTenant t f).cars = s.cars := rfl
@[simp] theorem modTenant_board (s : State) (t : Nat) (f : Tenant → Tenant) : (s.modTenant t f).board = s.board := rfl
@[simp] theorem modTenant_boardCreated (s : State) (t : Nat) (f : Tenant → Tenant) : (s.modTenant t f).boardCreated = s.boardCreated := rfl
@[simp] theorem modTenant_aboard (s : State) (t : Nat) (f : Tenant → Tenant) : (s.modTenant t f).aboard = s.aboard := rfl
@[simp] theorem modTenant_lines (s : State) (t : Nat) (f : Tenant → Tenant) : (s.modTenant t f).lines = s.lines := rfl
@[simp] theorem modTenant_heads (s : State) (t : Nat) (f : Tenant → Tenant) : (s.modTenant t f).heads = s.heads := rfl
@[simp] theorem modTenant_trunks (s : State) (t : Nat) (f : Tenant → Tenant) : (s.modTenant t f).trunks = s.trunks := rfl
@[simp] theorem modTenant_pending (s : State) (t : Nat) (f : Tenant → Tenant) : (s.modTenant t f).pending = s.pending := rfl

/-! ### modSlot -/

@[simp] theorem modSlot_phase (s : State) (t i : Nat) (f : Slot → Slot) : (s.modSlot t i f).phase = s.phase := rfl
@[simp] theorem modSlot_run (s : State) (t i : Nat) (f : Slot → Slot) : (s.modSlot t i f).run = s.run := rfl
@[simp] theorem modSlot_attention (s : State) (t i : Nat) (f : Slot → Slot) : (s.modSlot t i f).attention = s.attention := rfl
@[simp] theorem modSlot_mask (s : State) (t i : Nat) (f : Slot → Slot) : (s.modSlot t i f).mask = s.mask := rfl
@[simp] theorem modSlot_hold (s : State) (t i : Nat) (f : Slot → Slot) : (s.modSlot t i f).hold = s.hold := rfl
@[simp] theorem modSlot_fixed (s : State) (t i : Nat) (f : Slot → Slot) : (s.modSlot t i f).fixed = s.fixed := rfl
@[simp] theorem modSlot_readData (s : State) (t i : Nat) (f : Slot → Slot) : (s.modSlot t i f).readData = s.readData := rfl
@[simp] theorem modSlot_ram (s : State) (t i : Nat) (f : Slot → Slot) : (s.modSlot t i f).ram = s.ram := rfl
@[simp] theorem modSlot_stamps (s : State) (t i : Nat) (f : Slot → Slot) : (s.modSlot t i f).stamps = s.stamps := rfl
@[simp] theorem modSlot_hubTime (s : State) (t i : Nat) (f : Slot → Slot) : (s.modSlot t i f).hubTime = s.hubTime := rfl
@[simp] theorem modSlot_ovrLow (s : State) (t i : Nat) (f : Slot → Slot) : (s.modSlot t i f).ovrLow = s.ovrLow := rfl
@[simp] theorem modSlot_sben (s : State) (t i : Nat) (f : Slot → Slot) : (s.modSlot t i f).sben = s.sben := rfl
@[simp] theorem modSlot_sbfr (s : State) (t i : Nat) (f : Slot → Slot) : (s.modSlot t i f).sbfr = s.sbfr := rfl
@[simp] theorem modSlot_word (s : State) (t i : Nat) (f : Slot → Slot) : (s.modSlot t i f).word = s.word := rfl
@[simp] theorem modSlot_badWords (s : State) (t i : Nat) (f : Slot → Slot) : (s.modSlot t i f).badWords = s.badWords := rfl
@[simp] theorem modSlot_sweep (s : State) (t i : Nat) (f : Slot → Slot) : (s.modSlot t i f).sweep = s.sweep := rfl
@[simp] theorem modSlot_configSeen (s : State) (t i : Nat) (f : Slot → Slot) : (s.modSlot t i f).configSeen = s.configSeen := rfl
@[simp] theorem modSlot_ordersSeen (s : State) (t i : Nat) (f : Slot → Slot) : (s.modSlot t i f).ordersSeen = s.ordersSeen := rfl
@[simp] theorem modSlot_torn (s : State) (t i : Nat) (f : Slot → Slot) : (s.modSlot t i f).torn = s.torn := rfl
@[simp] theorem modSlot_config (s : State) (t i : Nat) (f : Slot → Slot) : (s.modSlot t i f).config = s.config := rfl
@[simp] theorem modSlot_orders (s : State) (t i : Nat) (f : Slot → Slot) : (s.modSlot t i f).orders = s.orders := rfl
@[simp] theorem modSlot_faults (s : State) (t i : Nat) (f : Slot → Slot) : (s.modSlot t i f).faults = s.faults := rfl
@[simp] theorem modSlot_cars (s : State) (t i : Nat) (f : Slot → Slot) : (s.modSlot t i f).cars = s.cars := rfl
@[simp] theorem modSlot_board (s : State) (t i : Nat) (f : Slot → Slot) : (s.modSlot t i f).board = s.board := rfl
@[simp] theorem modSlot_boardCreated (s : State) (t i : Nat) (f : Slot → Slot) : (s.modSlot t i f).boardCreated = s.boardCreated := rfl
@[simp] theorem modSlot_aboard (s : State) (t i : Nat) (f : Slot → Slot) : (s.modSlot t i f).aboard = s.aboard := rfl
@[simp] theorem modSlot_lines (s : State) (t i : Nat) (f : Slot → Slot) : (s.modSlot t i f).lines = s.lines := rfl
@[simp] theorem modSlot_heads (s : State) (t i : Nat) (f : Slot → Slot) : (s.modSlot t i f).heads = s.heads := rfl
@[simp] theorem modSlot_trunks (s : State) (t i : Nat) (f : Slot → Slot) : (s.modSlot t i f).trunks = s.trunks := rfl
@[simp] theorem modSlot_pending (s : State) (t i : Nat) (f : Slot → Slot) : (s.modSlot t i f).pending = s.pending := rfl

/-! ### modProgram -/

@[simp] theorem modProgram_phase (s : State) (t p : Nat) (f : Program → Program) : (s.modProgram t p f).phase = s.phase := rfl
@[simp] theorem modProgram_run (s : State) (t p : Nat) (f : Program → Program) : (s.modProgram t p f).run = s.run := rfl
@[simp] theorem modProgram_attention (s : State) (t p : Nat) (f : Program → Program) : (s.modProgram t p f).attention = s.attention := rfl
@[simp] theorem modProgram_mask (s : State) (t p : Nat) (f : Program → Program) : (s.modProgram t p f).mask = s.mask := rfl
@[simp] theorem modProgram_hold (s : State) (t p : Nat) (f : Program → Program) : (s.modProgram t p f).hold = s.hold := rfl
@[simp] theorem modProgram_fixed (s : State) (t p : Nat) (f : Program → Program) : (s.modProgram t p f).fixed = s.fixed := rfl
@[simp] theorem modProgram_readData (s : State) (t p : Nat) (f : Program → Program) : (s.modProgram t p f).readData = s.readData := rfl
@[simp] theorem modProgram_ram (s : State) (t p : Nat) (f : Program → Program) : (s.modProgram t p f).ram = s.ram := rfl
@[simp] theorem modProgram_stamps (s : State) (t p : Nat) (f : Program → Program) : (s.modProgram t p f).stamps = s.stamps := rfl
@[simp] theorem modProgram_hubTime (s : State) (t p : Nat) (f : Program → Program) : (s.modProgram t p f).hubTime = s.hubTime := rfl
@[simp] theorem modProgram_ovrLow (s : State) (t p : Nat) (f : Program → Program) : (s.modProgram t p f).ovrLow = s.ovrLow := rfl
@[simp] theorem modProgram_sben (s : State) (t p : Nat) (f : Program → Program) : (s.modProgram t p f).sben = s.sben := rfl
@[simp] theorem modProgram_sbfr (s : State) (t p : Nat) (f : Program → Program) : (s.modProgram t p f).sbfr = s.sbfr := rfl
@[simp] theorem modProgram_word (s : State) (t p : Nat) (f : Program → Program) : (s.modProgram t p f).word = s.word := rfl
@[simp] theorem modProgram_badWords (s : State) (t p : Nat) (f : Program → Program) : (s.modProgram t p f).badWords = s.badWords := rfl
@[simp] theorem modProgram_sweep (s : State) (t p : Nat) (f : Program → Program) : (s.modProgram t p f).sweep = s.sweep := rfl
@[simp] theorem modProgram_configSeen (s : State) (t p : Nat) (f : Program → Program) : (s.modProgram t p f).configSeen = s.configSeen := rfl
@[simp] theorem modProgram_ordersSeen (s : State) (t p : Nat) (f : Program → Program) : (s.modProgram t p f).ordersSeen = s.ordersSeen := rfl
@[simp] theorem modProgram_torn (s : State) (t p : Nat) (f : Program → Program) : (s.modProgram t p f).torn = s.torn := rfl
@[simp] theorem modProgram_config (s : State) (t p : Nat) (f : Program → Program) : (s.modProgram t p f).config = s.config := rfl
@[simp] theorem modProgram_orders (s : State) (t p : Nat) (f : Program → Program) : (s.modProgram t p f).orders = s.orders := rfl
@[simp] theorem modProgram_faults (s : State) (t p : Nat) (f : Program → Program) : (s.modProgram t p f).faults = s.faults := rfl
@[simp] theorem modProgram_cars (s : State) (t p : Nat) (f : Program → Program) : (s.modProgram t p f).cars = s.cars := rfl
@[simp] theorem modProgram_board (s : State) (t p : Nat) (f : Program → Program) : (s.modProgram t p f).board = s.board := rfl
@[simp] theorem modProgram_boardCreated (s : State) (t p : Nat) (f : Program → Program) : (s.modProgram t p f).boardCreated = s.boardCreated := rfl
@[simp] theorem modProgram_aboard (s : State) (t p : Nat) (f : Program → Program) : (s.modProgram t p f).aboard = s.aboard := rfl
@[simp] theorem modProgram_lines (s : State) (t p : Nat) (f : Program → Program) : (s.modProgram t p f).lines = s.lines := rfl
@[simp] theorem modProgram_heads (s : State) (t p : Nat) (f : Program → Program) : (s.modProgram t p f).heads = s.heads := rfl
@[simp] theorem modProgram_trunks (s : State) (t p : Nat) (f : Program → Program) : (s.modProgram t p f).trunks = s.trunks := rfl
@[simp] theorem modProgram_pending (s : State) (t p : Nat) (f : Program → Program) : (s.modProgram t p f).pending = s.pending := rfl

/-! ### setCar -/

@[simp] theorem setCar_phase (s : State) (c : Nat) (v : Car) : (s.setCar c v).phase = s.phase := rfl
@[simp] theorem setCar_run (s : State) (c : Nat) (v : Car) : (s.setCar c v).run = s.run := rfl
@[simp] theorem setCar_attention (s : State) (c : Nat) (v : Car) : (s.setCar c v).attention = s.attention := rfl
@[simp] theorem setCar_mask (s : State) (c : Nat) (v : Car) : (s.setCar c v).mask = s.mask := rfl
@[simp] theorem setCar_hold (s : State) (c : Nat) (v : Car) : (s.setCar c v).hold = s.hold := rfl
@[simp] theorem setCar_fixed (s : State) (c : Nat) (v : Car) : (s.setCar c v).fixed = s.fixed := rfl
@[simp] theorem setCar_readData (s : State) (c : Nat) (v : Car) : (s.setCar c v).readData = s.readData := rfl
@[simp] theorem setCar_ram (s : State) (c : Nat) (v : Car) : (s.setCar c v).ram = s.ram := rfl
@[simp] theorem setCar_stamps (s : State) (c : Nat) (v : Car) : (s.setCar c v).stamps = s.stamps := rfl
@[simp] theorem setCar_hubTime (s : State) (c : Nat) (v : Car) : (s.setCar c v).hubTime = s.hubTime := rfl
@[simp] theorem setCar_ovrLow (s : State) (c : Nat) (v : Car) : (s.setCar c v).ovrLow = s.ovrLow := rfl
@[simp] theorem setCar_sben (s : State) (c : Nat) (v : Car) : (s.setCar c v).sben = s.sben := rfl
@[simp] theorem setCar_sbfr (s : State) (c : Nat) (v : Car) : (s.setCar c v).sbfr = s.sbfr := rfl
@[simp] theorem setCar_word (s : State) (c : Nat) (v : Car) : (s.setCar c v).word = s.word := rfl
@[simp] theorem setCar_badWords (s : State) (c : Nat) (v : Car) : (s.setCar c v).badWords = s.badWords := rfl
@[simp] theorem setCar_sweep (s : State) (c : Nat) (v : Car) : (s.setCar c v).sweep = s.sweep := rfl
@[simp] theorem setCar_configSeen (s : State) (c : Nat) (v : Car) : (s.setCar c v).configSeen = s.configSeen := rfl
@[simp] theorem setCar_ordersSeen (s : State) (c : Nat) (v : Car) : (s.setCar c v).ordersSeen = s.ordersSeen := rfl
@[simp] theorem setCar_torn (s : State) (c : Nat) (v : Car) : (s.setCar c v).torn = s.torn := rfl
@[simp] theorem setCar_config (s : State) (c : Nat) (v : Car) : (s.setCar c v).config = s.config := rfl
@[simp] theorem setCar_orders (s : State) (c : Nat) (v : Car) : (s.setCar c v).orders = s.orders := rfl
@[simp] theorem setCar_faults (s : State) (c : Nat) (v : Car) : (s.setCar c v).faults = s.faults := rfl
@[simp] theorem setCar_tenants (s : State) (c : Nat) (v : Car) : (s.setCar c v).tenants = s.tenants := rfl
@[simp] theorem setCar_board (s : State) (c : Nat) (v : Car) : (s.setCar c v).board = s.board := rfl
@[simp] theorem setCar_boardCreated (s : State) (c : Nat) (v : Car) : (s.setCar c v).boardCreated = s.boardCreated := rfl
@[simp] theorem setCar_aboard (s : State) (c : Nat) (v : Car) : (s.setCar c v).aboard = s.aboard := rfl
@[simp] theorem setCar_lines (s : State) (c : Nat) (v : Car) : (s.setCar c v).lines = s.lines := rfl
@[simp] theorem setCar_heads (s : State) (c : Nat) (v : Car) : (s.setCar c v).heads = s.heads := rfl
@[simp] theorem setCar_trunks (s : State) (c : Nat) (v : Car) : (s.setCar c v).trunks = s.trunks := rfl
@[simp] theorem setCar_pending (s : State) (c : Nat) (v : Car) : (s.setCar c v).pending = s.pending := rfl

/-! ### modCar -/

@[simp] theorem modCar_phase (s : State) (c : Nat) (f : Car → Car) : (s.modCar c f).phase = s.phase := rfl
@[simp] theorem modCar_run (s : State) (c : Nat) (f : Car → Car) : (s.modCar c f).run = s.run := rfl
@[simp] theorem modCar_attention (s : State) (c : Nat) (f : Car → Car) : (s.modCar c f).attention = s.attention := rfl
@[simp] theorem modCar_mask (s : State) (c : Nat) (f : Car → Car) : (s.modCar c f).mask = s.mask := rfl
@[simp] theorem modCar_hold (s : State) (c : Nat) (f : Car → Car) : (s.modCar c f).hold = s.hold := rfl
@[simp] theorem modCar_fixed (s : State) (c : Nat) (f : Car → Car) : (s.modCar c f).fixed = s.fixed := rfl
@[simp] theorem modCar_readData (s : State) (c : Nat) (f : Car → Car) : (s.modCar c f).readData = s.readData := rfl
@[simp] theorem modCar_ram (s : State) (c : Nat) (f : Car → Car) : (s.modCar c f).ram = s.ram := rfl
@[simp] theorem modCar_stamps (s : State) (c : Nat) (f : Car → Car) : (s.modCar c f).stamps = s.stamps := rfl
@[simp] theorem modCar_hubTime (s : State) (c : Nat) (f : Car → Car) : (s.modCar c f).hubTime = s.hubTime := rfl
@[simp] theorem modCar_ovrLow (s : State) (c : Nat) (f : Car → Car) : (s.modCar c f).ovrLow = s.ovrLow := rfl
@[simp] theorem modCar_sben (s : State) (c : Nat) (f : Car → Car) : (s.modCar c f).sben = s.sben := rfl
@[simp] theorem modCar_sbfr (s : State) (c : Nat) (f : Car → Car) : (s.modCar c f).sbfr = s.sbfr := rfl
@[simp] theorem modCar_word (s : State) (c : Nat) (f : Car → Car) : (s.modCar c f).word = s.word := rfl
@[simp] theorem modCar_badWords (s : State) (c : Nat) (f : Car → Car) : (s.modCar c f).badWords = s.badWords := rfl
@[simp] theorem modCar_sweep (s : State) (c : Nat) (f : Car → Car) : (s.modCar c f).sweep = s.sweep := rfl
@[simp] theorem modCar_configSeen (s : State) (c : Nat) (f : Car → Car) : (s.modCar c f).configSeen = s.configSeen := rfl
@[simp] theorem modCar_ordersSeen (s : State) (c : Nat) (f : Car → Car) : (s.modCar c f).ordersSeen = s.ordersSeen := rfl
@[simp] theorem modCar_torn (s : State) (c : Nat) (f : Car → Car) : (s.modCar c f).torn = s.torn := rfl
@[simp] theorem modCar_config (s : State) (c : Nat) (f : Car → Car) : (s.modCar c f).config = s.config := rfl
@[simp] theorem modCar_orders (s : State) (c : Nat) (f : Car → Car) : (s.modCar c f).orders = s.orders := rfl
@[simp] theorem modCar_faults (s : State) (c : Nat) (f : Car → Car) : (s.modCar c f).faults = s.faults := rfl
@[simp] theorem modCar_tenants (s : State) (c : Nat) (f : Car → Car) : (s.modCar c f).tenants = s.tenants := rfl
@[simp] theorem modCar_board (s : State) (c : Nat) (f : Car → Car) : (s.modCar c f).board = s.board := rfl
@[simp] theorem modCar_boardCreated (s : State) (c : Nat) (f : Car → Car) : (s.modCar c f).boardCreated = s.boardCreated := rfl
@[simp] theorem modCar_aboard (s : State) (c : Nat) (f : Car → Car) : (s.modCar c f).aboard = s.aboard := rfl
@[simp] theorem modCar_lines (s : State) (c : Nat) (f : Car → Car) : (s.modCar c f).lines = s.lines := rfl
@[simp] theorem modCar_heads (s : State) (c : Nat) (f : Car → Car) : (s.modCar c f).heads = s.heads := rfl
@[simp] theorem modCar_trunks (s : State) (c : Nat) (f : Car → Car) : (s.modCar c f).trunks = s.trunks := rfl
@[simp] theorem modCar_pending (s : State) (c : Nat) (f : Car → Car) : (s.modCar c f).pending = s.pending := rfl

/-! ### modDeck -/

@[simp] theorem modDeck_phase (s : State) (c k : Nat) (f : Deck → Deck) : (s.modDeck c k f).phase = s.phase := rfl
@[simp] theorem modDeck_run (s : State) (c k : Nat) (f : Deck → Deck) : (s.modDeck c k f).run = s.run := rfl
@[simp] theorem modDeck_attention (s : State) (c k : Nat) (f : Deck → Deck) : (s.modDeck c k f).attention = s.attention := rfl
@[simp] theorem modDeck_mask (s : State) (c k : Nat) (f : Deck → Deck) : (s.modDeck c k f).mask = s.mask := rfl
@[simp] theorem modDeck_hold (s : State) (c k : Nat) (f : Deck → Deck) : (s.modDeck c k f).hold = s.hold := rfl
@[simp] theorem modDeck_fixed (s : State) (c k : Nat) (f : Deck → Deck) : (s.modDeck c k f).fixed = s.fixed := rfl
@[simp] theorem modDeck_readData (s : State) (c k : Nat) (f : Deck → Deck) : (s.modDeck c k f).readData = s.readData := rfl
@[simp] theorem modDeck_ram (s : State) (c k : Nat) (f : Deck → Deck) : (s.modDeck c k f).ram = s.ram := rfl
@[simp] theorem modDeck_stamps (s : State) (c k : Nat) (f : Deck → Deck) : (s.modDeck c k f).stamps = s.stamps := rfl
@[simp] theorem modDeck_hubTime (s : State) (c k : Nat) (f : Deck → Deck) : (s.modDeck c k f).hubTime = s.hubTime := rfl
@[simp] theorem modDeck_ovrLow (s : State) (c k : Nat) (f : Deck → Deck) : (s.modDeck c k f).ovrLow = s.ovrLow := rfl
@[simp] theorem modDeck_sben (s : State) (c k : Nat) (f : Deck → Deck) : (s.modDeck c k f).sben = s.sben := rfl
@[simp] theorem modDeck_sbfr (s : State) (c k : Nat) (f : Deck → Deck) : (s.modDeck c k f).sbfr = s.sbfr := rfl
@[simp] theorem modDeck_word (s : State) (c k : Nat) (f : Deck → Deck) : (s.modDeck c k f).word = s.word := rfl
@[simp] theorem modDeck_badWords (s : State) (c k : Nat) (f : Deck → Deck) : (s.modDeck c k f).badWords = s.badWords := rfl
@[simp] theorem modDeck_sweep (s : State) (c k : Nat) (f : Deck → Deck) : (s.modDeck c k f).sweep = s.sweep := rfl
@[simp] theorem modDeck_configSeen (s : State) (c k : Nat) (f : Deck → Deck) : (s.modDeck c k f).configSeen = s.configSeen := rfl
@[simp] theorem modDeck_ordersSeen (s : State) (c k : Nat) (f : Deck → Deck) : (s.modDeck c k f).ordersSeen = s.ordersSeen := rfl
@[simp] theorem modDeck_torn (s : State) (c k : Nat) (f : Deck → Deck) : (s.modDeck c k f).torn = s.torn := rfl
@[simp] theorem modDeck_config (s : State) (c k : Nat) (f : Deck → Deck) : (s.modDeck c k f).config = s.config := rfl
@[simp] theorem modDeck_orders (s : State) (c k : Nat) (f : Deck → Deck) : (s.modDeck c k f).orders = s.orders := rfl
@[simp] theorem modDeck_faults (s : State) (c k : Nat) (f : Deck → Deck) : (s.modDeck c k f).faults = s.faults := rfl
@[simp] theorem modDeck_tenants (s : State) (c k : Nat) (f : Deck → Deck) : (s.modDeck c k f).tenants = s.tenants := rfl
@[simp] theorem modDeck_board (s : State) (c k : Nat) (f : Deck → Deck) : (s.modDeck c k f).board = s.board := rfl
@[simp] theorem modDeck_boardCreated (s : State) (c k : Nat) (f : Deck → Deck) : (s.modDeck c k f).boardCreated = s.boardCreated := rfl
@[simp] theorem modDeck_aboard (s : State) (c k : Nat) (f : Deck → Deck) : (s.modDeck c k f).aboard = s.aboard := rfl
@[simp] theorem modDeck_lines (s : State) (c k : Nat) (f : Deck → Deck) : (s.modDeck c k f).lines = s.lines := rfl
@[simp] theorem modDeck_heads (s : State) (c k : Nat) (f : Deck → Deck) : (s.modDeck c k f).heads = s.heads := rfl
@[simp] theorem modDeck_trunks (s : State) (c k : Nat) (f : Deck → Deck) : (s.modDeck c k f).trunks = s.trunks := rfl
@[simp] theorem modDeck_pending (s : State) (c k : Nat) (f : Deck → Deck) : (s.modDeck c k f).pending = s.pending := rfl

/-! ### setLine -/

@[simp] theorem setLine_phase (s : State) (l : Nat) (v : OverrideLine) : (s.setLine l v).phase = s.phase := rfl
@[simp] theorem setLine_run (s : State) (l : Nat) (v : OverrideLine) : (s.setLine l v).run = s.run := rfl
@[simp] theorem setLine_attention (s : State) (l : Nat) (v : OverrideLine) : (s.setLine l v).attention = s.attention := rfl
@[simp] theorem setLine_mask (s : State) (l : Nat) (v : OverrideLine) : (s.setLine l v).mask = s.mask := rfl
@[simp] theorem setLine_hold (s : State) (l : Nat) (v : OverrideLine) : (s.setLine l v).hold = s.hold := rfl
@[simp] theorem setLine_fixed (s : State) (l : Nat) (v : OverrideLine) : (s.setLine l v).fixed = s.fixed := rfl
@[simp] theorem setLine_readData (s : State) (l : Nat) (v : OverrideLine) : (s.setLine l v).readData = s.readData := rfl
@[simp] theorem setLine_ram (s : State) (l : Nat) (v : OverrideLine) : (s.setLine l v).ram = s.ram := rfl
@[simp] theorem setLine_stamps (s : State) (l : Nat) (v : OverrideLine) : (s.setLine l v).stamps = s.stamps := rfl
@[simp] theorem setLine_hubTime (s : State) (l : Nat) (v : OverrideLine) : (s.setLine l v).hubTime = s.hubTime := rfl
@[simp] theorem setLine_ovrLow (s : State) (l : Nat) (v : OverrideLine) : (s.setLine l v).ovrLow = s.ovrLow := rfl
@[simp] theorem setLine_sben (s : State) (l : Nat) (v : OverrideLine) : (s.setLine l v).sben = s.sben := rfl
@[simp] theorem setLine_sbfr (s : State) (l : Nat) (v : OverrideLine) : (s.setLine l v).sbfr = s.sbfr := rfl
@[simp] theorem setLine_word (s : State) (l : Nat) (v : OverrideLine) : (s.setLine l v).word = s.word := rfl
@[simp] theorem setLine_badWords (s : State) (l : Nat) (v : OverrideLine) : (s.setLine l v).badWords = s.badWords := rfl
@[simp] theorem setLine_sweep (s : State) (l : Nat) (v : OverrideLine) : (s.setLine l v).sweep = s.sweep := rfl
@[simp] theorem setLine_configSeen (s : State) (l : Nat) (v : OverrideLine) : (s.setLine l v).configSeen = s.configSeen := rfl
@[simp] theorem setLine_ordersSeen (s : State) (l : Nat) (v : OverrideLine) : (s.setLine l v).ordersSeen = s.ordersSeen := rfl
@[simp] theorem setLine_torn (s : State) (l : Nat) (v : OverrideLine) : (s.setLine l v).torn = s.torn := rfl
@[simp] theorem setLine_config (s : State) (l : Nat) (v : OverrideLine) : (s.setLine l v).config = s.config := rfl
@[simp] theorem setLine_orders (s : State) (l : Nat) (v : OverrideLine) : (s.setLine l v).orders = s.orders := rfl
@[simp] theorem setLine_faults (s : State) (l : Nat) (v : OverrideLine) : (s.setLine l v).faults = s.faults := rfl
@[simp] theorem setLine_tenants (s : State) (l : Nat) (v : OverrideLine) : (s.setLine l v).tenants = s.tenants := rfl
@[simp] theorem setLine_cars (s : State) (l : Nat) (v : OverrideLine) : (s.setLine l v).cars = s.cars := rfl
@[simp] theorem setLine_board (s : State) (l : Nat) (v : OverrideLine) : (s.setLine l v).board = s.board := rfl
@[simp] theorem setLine_boardCreated (s : State) (l : Nat) (v : OverrideLine) : (s.setLine l v).boardCreated = s.boardCreated := rfl
@[simp] theorem setLine_aboard (s : State) (l : Nat) (v : OverrideLine) : (s.setLine l v).aboard = s.aboard := rfl
@[simp] theorem setLine_heads (s : State) (l : Nat) (v : OverrideLine) : (s.setLine l v).heads = s.heads := rfl
@[simp] theorem setLine_trunks (s : State) (l : Nat) (v : OverrideLine) : (s.setLine l v).trunks = s.trunks := rfl
@[simp] theorem setLine_pending (s : State) (l : Nat) (v : OverrideLine) : (s.setLine l v).pending = s.pending := rfl

/-! ### modLine -/

@[simp] theorem modLine_phase (s : State) (l : Nat) (f : OverrideLine → OverrideLine) : (s.modLine l f).phase = s.phase := rfl
@[simp] theorem modLine_run (s : State) (l : Nat) (f : OverrideLine → OverrideLine) : (s.modLine l f).run = s.run := rfl
@[simp] theorem modLine_attention (s : State) (l : Nat) (f : OverrideLine → OverrideLine) : (s.modLine l f).attention = s.attention := rfl
@[simp] theorem modLine_mask (s : State) (l : Nat) (f : OverrideLine → OverrideLine) : (s.modLine l f).mask = s.mask := rfl
@[simp] theorem modLine_hold (s : State) (l : Nat) (f : OverrideLine → OverrideLine) : (s.modLine l f).hold = s.hold := rfl
@[simp] theorem modLine_fixed (s : State) (l : Nat) (f : OverrideLine → OverrideLine) : (s.modLine l f).fixed = s.fixed := rfl
@[simp] theorem modLine_readData (s : State) (l : Nat) (f : OverrideLine → OverrideLine) : (s.modLine l f).readData = s.readData := rfl
@[simp] theorem modLine_ram (s : State) (l : Nat) (f : OverrideLine → OverrideLine) : (s.modLine l f).ram = s.ram := rfl
@[simp] theorem modLine_stamps (s : State) (l : Nat) (f : OverrideLine → OverrideLine) : (s.modLine l f).stamps = s.stamps := rfl
@[simp] theorem modLine_hubTime (s : State) (l : Nat) (f : OverrideLine → OverrideLine) : (s.modLine l f).hubTime = s.hubTime := rfl
@[simp] theorem modLine_ovrLow (s : State) (l : Nat) (f : OverrideLine → OverrideLine) : (s.modLine l f).ovrLow = s.ovrLow := rfl
@[simp] theorem modLine_sben (s : State) (l : Nat) (f : OverrideLine → OverrideLine) : (s.modLine l f).sben = s.sben := rfl
@[simp] theorem modLine_sbfr (s : State) (l : Nat) (f : OverrideLine → OverrideLine) : (s.modLine l f).sbfr = s.sbfr := rfl
@[simp] theorem modLine_word (s : State) (l : Nat) (f : OverrideLine → OverrideLine) : (s.modLine l f).word = s.word := rfl
@[simp] theorem modLine_badWords (s : State) (l : Nat) (f : OverrideLine → OverrideLine) : (s.modLine l f).badWords = s.badWords := rfl
@[simp] theorem modLine_sweep (s : State) (l : Nat) (f : OverrideLine → OverrideLine) : (s.modLine l f).sweep = s.sweep := rfl
@[simp] theorem modLine_configSeen (s : State) (l : Nat) (f : OverrideLine → OverrideLine) : (s.modLine l f).configSeen = s.configSeen := rfl
@[simp] theorem modLine_ordersSeen (s : State) (l : Nat) (f : OverrideLine → OverrideLine) : (s.modLine l f).ordersSeen = s.ordersSeen := rfl
@[simp] theorem modLine_torn (s : State) (l : Nat) (f : OverrideLine → OverrideLine) : (s.modLine l f).torn = s.torn := rfl
@[simp] theorem modLine_config (s : State) (l : Nat) (f : OverrideLine → OverrideLine) : (s.modLine l f).config = s.config := rfl
@[simp] theorem modLine_orders (s : State) (l : Nat) (f : OverrideLine → OverrideLine) : (s.modLine l f).orders = s.orders := rfl
@[simp] theorem modLine_faults (s : State) (l : Nat) (f : OverrideLine → OverrideLine) : (s.modLine l f).faults = s.faults := rfl
@[simp] theorem modLine_tenants (s : State) (l : Nat) (f : OverrideLine → OverrideLine) : (s.modLine l f).tenants = s.tenants := rfl
@[simp] theorem modLine_cars (s : State) (l : Nat) (f : OverrideLine → OverrideLine) : (s.modLine l f).cars = s.cars := rfl
@[simp] theorem modLine_board (s : State) (l : Nat) (f : OverrideLine → OverrideLine) : (s.modLine l f).board = s.board := rfl
@[simp] theorem modLine_boardCreated (s : State) (l : Nat) (f : OverrideLine → OverrideLine) : (s.modLine l f).boardCreated = s.boardCreated := rfl
@[simp] theorem modLine_aboard (s : State) (l : Nat) (f : OverrideLine → OverrideLine) : (s.modLine l f).aboard = s.aboard := rfl
@[simp] theorem modLine_heads (s : State) (l : Nat) (f : OverrideLine → OverrideLine) : (s.modLine l f).heads = s.heads := rfl
@[simp] theorem modLine_trunks (s : State) (l : Nat) (f : OverrideLine → OverrideLine) : (s.modLine l f).trunks = s.trunks := rfl
@[simp] theorem modLine_pending (s : State) (l : Nat) (f : OverrideLine → OverrideLine) : (s.modLine l f).pending = s.pending := rfl

/-! ### setTrunk -/

@[simp] theorem setTrunk_phase (s : State) (t : Nat) (v : Trunk) : (s.setTrunk t v).phase = s.phase := rfl
@[simp] theorem setTrunk_run (s : State) (t : Nat) (v : Trunk) : (s.setTrunk t v).run = s.run := rfl
@[simp] theorem setTrunk_attention (s : State) (t : Nat) (v : Trunk) : (s.setTrunk t v).attention = s.attention := rfl
@[simp] theorem setTrunk_mask (s : State) (t : Nat) (v : Trunk) : (s.setTrunk t v).mask = s.mask := rfl
@[simp] theorem setTrunk_hold (s : State) (t : Nat) (v : Trunk) : (s.setTrunk t v).hold = s.hold := rfl
@[simp] theorem setTrunk_fixed (s : State) (t : Nat) (v : Trunk) : (s.setTrunk t v).fixed = s.fixed := rfl
@[simp] theorem setTrunk_readData (s : State) (t : Nat) (v : Trunk) : (s.setTrunk t v).readData = s.readData := rfl
@[simp] theorem setTrunk_ram (s : State) (t : Nat) (v : Trunk) : (s.setTrunk t v).ram = s.ram := rfl
@[simp] theorem setTrunk_stamps (s : State) (t : Nat) (v : Trunk) : (s.setTrunk t v).stamps = s.stamps := rfl
@[simp] theorem setTrunk_hubTime (s : State) (t : Nat) (v : Trunk) : (s.setTrunk t v).hubTime = s.hubTime := rfl
@[simp] theorem setTrunk_ovrLow (s : State) (t : Nat) (v : Trunk) : (s.setTrunk t v).ovrLow = s.ovrLow := rfl
@[simp] theorem setTrunk_sben (s : State) (t : Nat) (v : Trunk) : (s.setTrunk t v).sben = s.sben := rfl
@[simp] theorem setTrunk_sbfr (s : State) (t : Nat) (v : Trunk) : (s.setTrunk t v).sbfr = s.sbfr := rfl
@[simp] theorem setTrunk_word (s : State) (t : Nat) (v : Trunk) : (s.setTrunk t v).word = s.word := rfl
@[simp] theorem setTrunk_badWords (s : State) (t : Nat) (v : Trunk) : (s.setTrunk t v).badWords = s.badWords := rfl
@[simp] theorem setTrunk_sweep (s : State) (t : Nat) (v : Trunk) : (s.setTrunk t v).sweep = s.sweep := rfl
@[simp] theorem setTrunk_configSeen (s : State) (t : Nat) (v : Trunk) : (s.setTrunk t v).configSeen = s.configSeen := rfl
@[simp] theorem setTrunk_ordersSeen (s : State) (t : Nat) (v : Trunk) : (s.setTrunk t v).ordersSeen = s.ordersSeen := rfl
@[simp] theorem setTrunk_torn (s : State) (t : Nat) (v : Trunk) : (s.setTrunk t v).torn = s.torn := rfl
@[simp] theorem setTrunk_config (s : State) (t : Nat) (v : Trunk) : (s.setTrunk t v).config = s.config := rfl
@[simp] theorem setTrunk_orders (s : State) (t : Nat) (v : Trunk) : (s.setTrunk t v).orders = s.orders := rfl
@[simp] theorem setTrunk_faults (s : State) (t : Nat) (v : Trunk) : (s.setTrunk t v).faults = s.faults := rfl
@[simp] theorem setTrunk_tenants (s : State) (t : Nat) (v : Trunk) : (s.setTrunk t v).tenants = s.tenants := rfl
@[simp] theorem setTrunk_cars (s : State) (t : Nat) (v : Trunk) : (s.setTrunk t v).cars = s.cars := rfl
@[simp] theorem setTrunk_board (s : State) (t : Nat) (v : Trunk) : (s.setTrunk t v).board = s.board := rfl
@[simp] theorem setTrunk_boardCreated (s : State) (t : Nat) (v : Trunk) : (s.setTrunk t v).boardCreated = s.boardCreated := rfl
@[simp] theorem setTrunk_aboard (s : State) (t : Nat) (v : Trunk) : (s.setTrunk t v).aboard = s.aboard := rfl
@[simp] theorem setTrunk_lines (s : State) (t : Nat) (v : Trunk) : (s.setTrunk t v).lines = s.lines := rfl
@[simp] theorem setTrunk_heads (s : State) (t : Nat) (v : Trunk) : (s.setTrunk t v).heads = s.heads := rfl
@[simp] theorem setTrunk_pending (s : State) (t : Nat) (v : Trunk) : (s.setTrunk t v).pending = s.pending := rfl

/-! ### modTrunk -/

@[simp] theorem modTrunk_phase (s : State) (t : Nat) (f : Trunk → Trunk) : (s.modTrunk t f).phase = s.phase := rfl
@[simp] theorem modTrunk_run (s : State) (t : Nat) (f : Trunk → Trunk) : (s.modTrunk t f).run = s.run := rfl
@[simp] theorem modTrunk_attention (s : State) (t : Nat) (f : Trunk → Trunk) : (s.modTrunk t f).attention = s.attention := rfl
@[simp] theorem modTrunk_mask (s : State) (t : Nat) (f : Trunk → Trunk) : (s.modTrunk t f).mask = s.mask := rfl
@[simp] theorem modTrunk_hold (s : State) (t : Nat) (f : Trunk → Trunk) : (s.modTrunk t f).hold = s.hold := rfl
@[simp] theorem modTrunk_fixed (s : State) (t : Nat) (f : Trunk → Trunk) : (s.modTrunk t f).fixed = s.fixed := rfl
@[simp] theorem modTrunk_readData (s : State) (t : Nat) (f : Trunk → Trunk) : (s.modTrunk t f).readData = s.readData := rfl
@[simp] theorem modTrunk_ram (s : State) (t : Nat) (f : Trunk → Trunk) : (s.modTrunk t f).ram = s.ram := rfl
@[simp] theorem modTrunk_stamps (s : State) (t : Nat) (f : Trunk → Trunk) : (s.modTrunk t f).stamps = s.stamps := rfl
@[simp] theorem modTrunk_hubTime (s : State) (t : Nat) (f : Trunk → Trunk) : (s.modTrunk t f).hubTime = s.hubTime := rfl
@[simp] theorem modTrunk_ovrLow (s : State) (t : Nat) (f : Trunk → Trunk) : (s.modTrunk t f).ovrLow = s.ovrLow := rfl
@[simp] theorem modTrunk_sben (s : State) (t : Nat) (f : Trunk → Trunk) : (s.modTrunk t f).sben = s.sben := rfl
@[simp] theorem modTrunk_sbfr (s : State) (t : Nat) (f : Trunk → Trunk) : (s.modTrunk t f).sbfr = s.sbfr := rfl
@[simp] theorem modTrunk_word (s : State) (t : Nat) (f : Trunk → Trunk) : (s.modTrunk t f).word = s.word := rfl
@[simp] theorem modTrunk_badWords (s : State) (t : Nat) (f : Trunk → Trunk) : (s.modTrunk t f).badWords = s.badWords := rfl
@[simp] theorem modTrunk_sweep (s : State) (t : Nat) (f : Trunk → Trunk) : (s.modTrunk t f).sweep = s.sweep := rfl
@[simp] theorem modTrunk_configSeen (s : State) (t : Nat) (f : Trunk → Trunk) : (s.modTrunk t f).configSeen = s.configSeen := rfl
@[simp] theorem modTrunk_ordersSeen (s : State) (t : Nat) (f : Trunk → Trunk) : (s.modTrunk t f).ordersSeen = s.ordersSeen := rfl
@[simp] theorem modTrunk_torn (s : State) (t : Nat) (f : Trunk → Trunk) : (s.modTrunk t f).torn = s.torn := rfl
@[simp] theorem modTrunk_config (s : State) (t : Nat) (f : Trunk → Trunk) : (s.modTrunk t f).config = s.config := rfl
@[simp] theorem modTrunk_orders (s : State) (t : Nat) (f : Trunk → Trunk) : (s.modTrunk t f).orders = s.orders := rfl
@[simp] theorem modTrunk_faults (s : State) (t : Nat) (f : Trunk → Trunk) : (s.modTrunk t f).faults = s.faults := rfl
@[simp] theorem modTrunk_tenants (s : State) (t : Nat) (f : Trunk → Trunk) : (s.modTrunk t f).tenants = s.tenants := rfl
@[simp] theorem modTrunk_cars (s : State) (t : Nat) (f : Trunk → Trunk) : (s.modTrunk t f).cars = s.cars := rfl
@[simp] theorem modTrunk_board (s : State) (t : Nat) (f : Trunk → Trunk) : (s.modTrunk t f).board = s.board := rfl
@[simp] theorem modTrunk_boardCreated (s : State) (t : Nat) (f : Trunk → Trunk) : (s.modTrunk t f).boardCreated = s.boardCreated := rfl
@[simp] theorem modTrunk_aboard (s : State) (t : Nat) (f : Trunk → Trunk) : (s.modTrunk t f).aboard = s.aboard := rfl
@[simp] theorem modTrunk_lines (s : State) (t : Nat) (f : Trunk → Trunk) : (s.modTrunk t f).lines = s.lines := rfl
@[simp] theorem modTrunk_heads (s : State) (t : Nat) (f : Trunk → Trunk) : (s.modTrunk t f).heads = s.heads := rfl
@[simp] theorem modTrunk_pending (s : State) (t : Nat) (f : Trunk → Trunk) : (s.modTrunk t f).pending = s.pending := rfl

/-! ### setFlight -/

@[simp] theorem setFlight_phase (s : State) (t : Nat) (f : Flight) : (setFlight t f s).phase = s.phase := rfl
@[simp] theorem setFlight_run (s : State) (t : Nat) (f : Flight) : (setFlight t f s).run = s.run := rfl
@[simp] theorem setFlight_attention (s : State) (t : Nat) (f : Flight) : (setFlight t f s).attention = s.attention := rfl
@[simp] theorem setFlight_mask (s : State) (t : Nat) (f : Flight) : (setFlight t f s).mask = s.mask := rfl
@[simp] theorem setFlight_hold (s : State) (t : Nat) (f : Flight) : (setFlight t f s).hold = s.hold := rfl
@[simp] theorem setFlight_fixed (s : State) (t : Nat) (f : Flight) : (setFlight t f s).fixed = s.fixed := rfl
@[simp] theorem setFlight_readData (s : State) (t : Nat) (f : Flight) : (setFlight t f s).readData = s.readData := rfl
@[simp] theorem setFlight_ram (s : State) (t : Nat) (f : Flight) : (setFlight t f s).ram = s.ram := rfl
@[simp] theorem setFlight_stamps (s : State) (t : Nat) (f : Flight) : (setFlight t f s).stamps = s.stamps := rfl
@[simp] theorem setFlight_hubTime (s : State) (t : Nat) (f : Flight) : (setFlight t f s).hubTime = s.hubTime := rfl
@[simp] theorem setFlight_ovrLow (s : State) (t : Nat) (f : Flight) : (setFlight t f s).ovrLow = s.ovrLow := rfl
@[simp] theorem setFlight_sben (s : State) (t : Nat) (f : Flight) : (setFlight t f s).sben = s.sben := rfl
@[simp] theorem setFlight_sbfr (s : State) (t : Nat) (f : Flight) : (setFlight t f s).sbfr = s.sbfr := rfl
@[simp] theorem setFlight_word (s : State) (t : Nat) (f : Flight) : (setFlight t f s).word = s.word := rfl
@[simp] theorem setFlight_badWords (s : State) (t : Nat) (f : Flight) : (setFlight t f s).badWords = s.badWords := rfl
@[simp] theorem setFlight_sweep (s : State) (t : Nat) (f : Flight) : (setFlight t f s).sweep = s.sweep := rfl
@[simp] theorem setFlight_configSeen (s : State) (t : Nat) (f : Flight) : (setFlight t f s).configSeen = s.configSeen := rfl
@[simp] theorem setFlight_ordersSeen (s : State) (t : Nat) (f : Flight) : (setFlight t f s).ordersSeen = s.ordersSeen := rfl
@[simp] theorem setFlight_torn (s : State) (t : Nat) (f : Flight) : (setFlight t f s).torn = s.torn := rfl
@[simp] theorem setFlight_config (s : State) (t : Nat) (f : Flight) : (setFlight t f s).config = s.config := rfl
@[simp] theorem setFlight_orders (s : State) (t : Nat) (f : Flight) : (setFlight t f s).orders = s.orders := rfl
@[simp] theorem setFlight_faults (s : State) (t : Nat) (f : Flight) : (setFlight t f s).faults = s.faults := rfl
@[simp] theorem setFlight_tenants (s : State) (t : Nat) (f : Flight) : (setFlight t f s).tenants = s.tenants := rfl
@[simp] theorem setFlight_cars (s : State) (t : Nat) (f : Flight) : (setFlight t f s).cars = s.cars := rfl
@[simp] theorem setFlight_board (s : State) (t : Nat) (f : Flight) : (setFlight t f s).board = s.board := rfl
@[simp] theorem setFlight_boardCreated (s : State) (t : Nat) (f : Flight) : (setFlight t f s).boardCreated = s.boardCreated := rfl
@[simp] theorem setFlight_aboard (s : State) (t : Nat) (f : Flight) : (setFlight t f s).aboard = s.aboard := rfl
@[simp] theorem setFlight_lines (s : State) (t : Nat) (f : Flight) : (setFlight t f s).lines = s.lines := rfl
@[simp] theorem setFlight_heads (s : State) (t : Nat) (f : Flight) : (setFlight t f s).heads = s.heads := rfl
@[simp] theorem setFlight_pending (s : State) (t : Nat) (f : Flight) : (setFlight t f s).pending = s.pending := rfl

/-! ### setAboard -/

@[simp] theorem setAboard_phase (s : State) (c k : Nat) (l : List (Nat × Nat)) : (s.setAboard c k l).phase = s.phase := rfl
@[simp] theorem setAboard_run (s : State) (c k : Nat) (l : List (Nat × Nat)) : (s.setAboard c k l).run = s.run := rfl
@[simp] theorem setAboard_attention (s : State) (c k : Nat) (l : List (Nat × Nat)) : (s.setAboard c k l).attention = s.attention := rfl
@[simp] theorem setAboard_mask (s : State) (c k : Nat) (l : List (Nat × Nat)) : (s.setAboard c k l).mask = s.mask := rfl
@[simp] theorem setAboard_hold (s : State) (c k : Nat) (l : List (Nat × Nat)) : (s.setAboard c k l).hold = s.hold := rfl
@[simp] theorem setAboard_fixed (s : State) (c k : Nat) (l : List (Nat × Nat)) : (s.setAboard c k l).fixed = s.fixed := rfl
@[simp] theorem setAboard_readData (s : State) (c k : Nat) (l : List (Nat × Nat)) : (s.setAboard c k l).readData = s.readData := rfl
@[simp] theorem setAboard_ram (s : State) (c k : Nat) (l : List (Nat × Nat)) : (s.setAboard c k l).ram = s.ram := rfl
@[simp] theorem setAboard_stamps (s : State) (c k : Nat) (l : List (Nat × Nat)) : (s.setAboard c k l).stamps = s.stamps := rfl
@[simp] theorem setAboard_hubTime (s : State) (c k : Nat) (l : List (Nat × Nat)) : (s.setAboard c k l).hubTime = s.hubTime := rfl
@[simp] theorem setAboard_ovrLow (s : State) (c k : Nat) (l : List (Nat × Nat)) : (s.setAboard c k l).ovrLow = s.ovrLow := rfl
@[simp] theorem setAboard_sben (s : State) (c k : Nat) (l : List (Nat × Nat)) : (s.setAboard c k l).sben = s.sben := rfl
@[simp] theorem setAboard_sbfr (s : State) (c k : Nat) (l : List (Nat × Nat)) : (s.setAboard c k l).sbfr = s.sbfr := rfl
@[simp] theorem setAboard_word (s : State) (c k : Nat) (l : List (Nat × Nat)) : (s.setAboard c k l).word = s.word := rfl
@[simp] theorem setAboard_badWords (s : State) (c k : Nat) (l : List (Nat × Nat)) : (s.setAboard c k l).badWords = s.badWords := rfl
@[simp] theorem setAboard_sweep (s : State) (c k : Nat) (l : List (Nat × Nat)) : (s.setAboard c k l).sweep = s.sweep := rfl
@[simp] theorem setAboard_configSeen (s : State) (c k : Nat) (l : List (Nat × Nat)) : (s.setAboard c k l).configSeen = s.configSeen := rfl
@[simp] theorem setAboard_ordersSeen (s : State) (c k : Nat) (l : List (Nat × Nat)) : (s.setAboard c k l).ordersSeen = s.ordersSeen := rfl
@[simp] theorem setAboard_torn (s : State) (c k : Nat) (l : List (Nat × Nat)) : (s.setAboard c k l).torn = s.torn := rfl
@[simp] theorem setAboard_config (s : State) (c k : Nat) (l : List (Nat × Nat)) : (s.setAboard c k l).config = s.config := rfl
@[simp] theorem setAboard_orders (s : State) (c k : Nat) (l : List (Nat × Nat)) : (s.setAboard c k l).orders = s.orders := rfl
@[simp] theorem setAboard_faults (s : State) (c k : Nat) (l : List (Nat × Nat)) : (s.setAboard c k l).faults = s.faults := rfl
@[simp] theorem setAboard_tenants (s : State) (c k : Nat) (l : List (Nat × Nat)) : (s.setAboard c k l).tenants = s.tenants := rfl
@[simp] theorem setAboard_cars (s : State) (c k : Nat) (l : List (Nat × Nat)) : (s.setAboard c k l).cars = s.cars := rfl
@[simp] theorem setAboard_board (s : State) (c k : Nat) (l : List (Nat × Nat)) : (s.setAboard c k l).board = s.board := rfl
@[simp] theorem setAboard_boardCreated (s : State) (c k : Nat) (l : List (Nat × Nat)) : (s.setAboard c k l).boardCreated = s.boardCreated := rfl
@[simp] theorem setAboard_lines (s : State) (c k : Nat) (l : List (Nat × Nat)) : (s.setAboard c k l).lines = s.lines := rfl
@[simp] theorem setAboard_heads (s : State) (c k : Nat) (l : List (Nat × Nat)) : (s.setAboard c k l).heads = s.heads := rfl
@[simp] theorem setAboard_trunks (s : State) (c k : Nat) (l : List (Nat × Nat)) : (s.setAboard c k l).trunks = s.trunks := rfl
@[simp] theorem setAboard_pending (s : State) (c k : Nat) (l : List (Nat × Nat)) : (s.setAboard c k l).pending = s.pending := rfl

/-! ### attend -/

@[simp] theorem attend_phase (s : State) (i : Nat) : (attend i s).phase = s.phase := rfl
@[simp] theorem attend_run (s : State) (i : Nat) : (attend i s).run = s.run := rfl
@[simp] theorem attend_mask (s : State) (i : Nat) : (attend i s).mask = s.mask := rfl
@[simp] theorem attend_hold (s : State) (i : Nat) : (attend i s).hold = s.hold := rfl
@[simp] theorem attend_fixed (s : State) (i : Nat) : (attend i s).fixed = s.fixed := rfl
@[simp] theorem attend_readData (s : State) (i : Nat) : (attend i s).readData = s.readData := rfl
@[simp] theorem attend_ram (s : State) (i : Nat) : (attend i s).ram = s.ram := rfl
@[simp] theorem attend_stamps (s : State) (i : Nat) : (attend i s).stamps = s.stamps := rfl
@[simp] theorem attend_hubTime (s : State) (i : Nat) : (attend i s).hubTime = s.hubTime := rfl
@[simp] theorem attend_ovrLow (s : State) (i : Nat) : (attend i s).ovrLow = s.ovrLow := rfl
@[simp] theorem attend_sben (s : State) (i : Nat) : (attend i s).sben = s.sben := rfl
@[simp] theorem attend_sbfr (s : State) (i : Nat) : (attend i s).sbfr = s.sbfr := rfl
@[simp] theorem attend_word (s : State) (i : Nat) : (attend i s).word = s.word := rfl
@[simp] theorem attend_badWords (s : State) (i : Nat) : (attend i s).badWords = s.badWords := rfl
@[simp] theorem attend_sweep (s : State) (i : Nat) : (attend i s).sweep = s.sweep := rfl
@[simp] theorem attend_configSeen (s : State) (i : Nat) : (attend i s).configSeen = s.configSeen := rfl
@[simp] theorem attend_ordersSeen (s : State) (i : Nat) : (attend i s).ordersSeen = s.ordersSeen := rfl
@[simp] theorem attend_torn (s : State) (i : Nat) : (attend i s).torn = s.torn := rfl
@[simp] theorem attend_config (s : State) (i : Nat) : (attend i s).config = s.config := rfl
@[simp] theorem attend_orders (s : State) (i : Nat) : (attend i s).orders = s.orders := rfl
@[simp] theorem attend_faults (s : State) (i : Nat) : (attend i s).faults = s.faults := rfl
@[simp] theorem attend_tenants (s : State) (i : Nat) : (attend i s).tenants = s.tenants := rfl
@[simp] theorem attend_cars (s : State) (i : Nat) : (attend i s).cars = s.cars := rfl
@[simp] theorem attend_board (s : State) (i : Nat) : (attend i s).board = s.board := rfl
@[simp] theorem attend_boardCreated (s : State) (i : Nat) : (attend i s).boardCreated = s.boardCreated := rfl
@[simp] theorem attend_aboard (s : State) (i : Nat) : (attend i s).aboard = s.aboard := rfl
@[simp] theorem attend_lines (s : State) (i : Nat) : (attend i s).lines = s.lines := rfl
@[simp] theorem attend_heads (s : State) (i : Nat) : (attend i s).heads = s.heads := rfl
@[simp] theorem attend_trunks (s : State) (i : Nat) : (attend i s).trunks = s.trunks := rfl
@[simp] theorem attend_pending (s : State) (i : Nat) : (attend i s).pending = s.pending := rfl

/-! ### publishBytes -/

@[simp] theorem publishBytes_phase (s : State) (a : Nat) (b : List Byte) : (publishBytes s a b).phase = s.phase := rfl
@[simp] theorem publishBytes_run (s : State) (a : Nat) (b : List Byte) : (publishBytes s a b).run = s.run := rfl
@[simp] theorem publishBytes_attention (s : State) (a : Nat) (b : List Byte) : (publishBytes s a b).attention = s.attention := rfl
@[simp] theorem publishBytes_mask (s : State) (a : Nat) (b : List Byte) : (publishBytes s a b).mask = s.mask := rfl
@[simp] theorem publishBytes_hold (s : State) (a : Nat) (b : List Byte) : (publishBytes s a b).hold = s.hold := rfl
@[simp] theorem publishBytes_fixed (s : State) (a : Nat) (b : List Byte) : (publishBytes s a b).fixed = s.fixed := rfl
@[simp] theorem publishBytes_readData (s : State) (a : Nat) (b : List Byte) : (publishBytes s a b).readData = s.readData := rfl
@[simp] theorem publishBytes_hubTime (s : State) (a : Nat) (b : List Byte) : (publishBytes s a b).hubTime = s.hubTime := rfl
@[simp] theorem publishBytes_ovrLow (s : State) (a : Nat) (b : List Byte) : (publishBytes s a b).ovrLow = s.ovrLow := rfl
@[simp] theorem publishBytes_sben (s : State) (a : Nat) (b : List Byte) : (publishBytes s a b).sben = s.sben := rfl
@[simp] theorem publishBytes_sbfr (s : State) (a : Nat) (b : List Byte) : (publishBytes s a b).sbfr = s.sbfr := rfl
@[simp] theorem publishBytes_word (s : State) (a : Nat) (b : List Byte) : (publishBytes s a b).word = s.word := rfl
@[simp] theorem publishBytes_badWords (s : State) (a : Nat) (b : List Byte) : (publishBytes s a b).badWords = s.badWords := rfl
@[simp] theorem publishBytes_sweep (s : State) (a : Nat) (b : List Byte) : (publishBytes s a b).sweep = s.sweep := rfl
@[simp] theorem publishBytes_configSeen (s : State) (a : Nat) (b : List Byte) : (publishBytes s a b).configSeen = s.configSeen := rfl
@[simp] theorem publishBytes_ordersSeen (s : State) (a : Nat) (b : List Byte) : (publishBytes s a b).ordersSeen = s.ordersSeen := rfl
@[simp] theorem publishBytes_torn (s : State) (a : Nat) (b : List Byte) : (publishBytes s a b).torn = s.torn := rfl
@[simp] theorem publishBytes_config (s : State) (a : Nat) (b : List Byte) : (publishBytes s a b).config = s.config := rfl
@[simp] theorem publishBytes_orders (s : State) (a : Nat) (b : List Byte) : (publishBytes s a b).orders = s.orders := rfl
@[simp] theorem publishBytes_faults (s : State) (a : Nat) (b : List Byte) : (publishBytes s a b).faults = s.faults := rfl
@[simp] theorem publishBytes_tenants (s : State) (a : Nat) (b : List Byte) : (publishBytes s a b).tenants = s.tenants := rfl
@[simp] theorem publishBytes_cars (s : State) (a : Nat) (b : List Byte) : (publishBytes s a b).cars = s.cars := rfl
@[simp] theorem publishBytes_board (s : State) (a : Nat) (b : List Byte) : (publishBytes s a b).board = s.board := rfl
@[simp] theorem publishBytes_boardCreated (s : State) (a : Nat) (b : List Byte) : (publishBytes s a b).boardCreated = s.boardCreated := rfl
@[simp] theorem publishBytes_aboard (s : State) (a : Nat) (b : List Byte) : (publishBytes s a b).aboard = s.aboard := rfl
@[simp] theorem publishBytes_lines (s : State) (a : Nat) (b : List Byte) : (publishBytes s a b).lines = s.lines := rfl
@[simp] theorem publishBytes_heads (s : State) (a : Nat) (b : List Byte) : (publishBytes s a b).heads = s.heads := rfl
@[simp] theorem publishBytes_trunks (s : State) (a : Nat) (b : List Byte) : (publishBytes s a b).trunks = s.trunks := rfl
@[simp] theorem publishBytes_pending (s : State) (a : Nat) (b : List Byte) : (publishBytes s a b).pending = s.pending := rfl

/-! ### publish -/

@[simp] theorem publish_phase (s : State) (r : RecordId) : (publish s r).phase = s.phase := rfl
@[simp] theorem publish_run (s : State) (r : RecordId) : (publish s r).run = s.run := rfl
@[simp] theorem publish_attention (s : State) (r : RecordId) : (publish s r).attention = s.attention := rfl
@[simp] theorem publish_mask (s : State) (r : RecordId) : (publish s r).mask = s.mask := rfl
@[simp] theorem publish_hold (s : State) (r : RecordId) : (publish s r).hold = s.hold := rfl
@[simp] theorem publish_fixed (s : State) (r : RecordId) : (publish s r).fixed = s.fixed := rfl
@[simp] theorem publish_readData (s : State) (r : RecordId) : (publish s r).readData = s.readData := rfl
@[simp] theorem publish_hubTime (s : State) (r : RecordId) : (publish s r).hubTime = s.hubTime := rfl
@[simp] theorem publish_ovrLow (s : State) (r : RecordId) : (publish s r).ovrLow = s.ovrLow := rfl
@[simp] theorem publish_sben (s : State) (r : RecordId) : (publish s r).sben = s.sben := rfl
@[simp] theorem publish_sbfr (s : State) (r : RecordId) : (publish s r).sbfr = s.sbfr := rfl
@[simp] theorem publish_word (s : State) (r : RecordId) : (publish s r).word = s.word := rfl
@[simp] theorem publish_badWords (s : State) (r : RecordId) : (publish s r).badWords = s.badWords := rfl
@[simp] theorem publish_sweep (s : State) (r : RecordId) : (publish s r).sweep = s.sweep := rfl
@[simp] theorem publish_configSeen (s : State) (r : RecordId) : (publish s r).configSeen = s.configSeen := rfl
@[simp] theorem publish_ordersSeen (s : State) (r : RecordId) : (publish s r).ordersSeen = s.ordersSeen := rfl
@[simp] theorem publish_torn (s : State) (r : RecordId) : (publish s r).torn = s.torn := rfl
@[simp] theorem publish_config (s : State) (r : RecordId) : (publish s r).config = s.config := rfl
@[simp] theorem publish_orders (s : State) (r : RecordId) : (publish s r).orders = s.orders := rfl
@[simp] theorem publish_faults (s : State) (r : RecordId) : (publish s r).faults = s.faults := rfl
@[simp] theorem publish_tenants (s : State) (r : RecordId) : (publish s r).tenants = s.tenants := rfl
@[simp] theorem publish_cars (s : State) (r : RecordId) : (publish s r).cars = s.cars := rfl
@[simp] theorem publish_board (s : State) (r : RecordId) : (publish s r).board = s.board := rfl
@[simp] theorem publish_boardCreated (s : State) (r : RecordId) : (publish s r).boardCreated = s.boardCreated := rfl
@[simp] theorem publish_aboard (s : State) (r : RecordId) : (publish s r).aboard = s.aboard := rfl
@[simp] theorem publish_lines (s : State) (r : RecordId) : (publish s r).lines = s.lines := rfl
@[simp] theorem publish_heads (s : State) (r : RecordId) : (publish s r).heads = s.heads := rfl
@[simp] theorem publish_trunks (s : State) (r : RecordId) : (publish s r).trunks = s.trunks := rfl
@[simp] theorem publish_pending (s : State) (r : RecordId) : (publish s r).pending = s.pending := rfl

/-! ### modHead -/

@[simp] theorem modHead_phase (s : State) (k : Nat) (f : Head → Head) : (s.modHead k f).phase = s.phase := by
  unfold State.modHead; split <;> rfl
@[simp] theorem modHead_run (s : State) (k : Nat) (f : Head → Head) : (s.modHead k f).run = s.run := by
  unfold State.modHead; split <;> rfl
@[simp] theorem modHead_attention (s : State) (k : Nat) (f : Head → Head) : (s.modHead k f).attention = s.attention := by
  unfold State.modHead; split <;> rfl
@[simp] theorem modHead_mask (s : State) (k : Nat) (f : Head → Head) : (s.modHead k f).mask = s.mask := by
  unfold State.modHead; split <;> rfl
@[simp] theorem modHead_hold (s : State) (k : Nat) (f : Head → Head) : (s.modHead k f).hold = s.hold := by
  unfold State.modHead; split <;> rfl
@[simp] theorem modHead_fixed (s : State) (k : Nat) (f : Head → Head) : (s.modHead k f).fixed = s.fixed := by
  unfold State.modHead; split <;> rfl
@[simp] theorem modHead_readData (s : State) (k : Nat) (f : Head → Head) : (s.modHead k f).readData = s.readData := by
  unfold State.modHead; split <;> rfl
@[simp] theorem modHead_ram (s : State) (k : Nat) (f : Head → Head) : (s.modHead k f).ram = s.ram := by
  unfold State.modHead; split <;> rfl
@[simp] theorem modHead_stamps (s : State) (k : Nat) (f : Head → Head) : (s.modHead k f).stamps = s.stamps := by
  unfold State.modHead; split <;> rfl
@[simp] theorem modHead_hubTime (s : State) (k : Nat) (f : Head → Head) : (s.modHead k f).hubTime = s.hubTime := by
  unfold State.modHead; split <;> rfl
@[simp] theorem modHead_ovrLow (s : State) (k : Nat) (f : Head → Head) : (s.modHead k f).ovrLow = s.ovrLow := by
  unfold State.modHead; split <;> rfl
@[simp] theorem modHead_sben (s : State) (k : Nat) (f : Head → Head) : (s.modHead k f).sben = s.sben := by
  unfold State.modHead; split <;> rfl
@[simp] theorem modHead_sbfr (s : State) (k : Nat) (f : Head → Head) : (s.modHead k f).sbfr = s.sbfr := by
  unfold State.modHead; split <;> rfl
@[simp] theorem modHead_word (s : State) (k : Nat) (f : Head → Head) : (s.modHead k f).word = s.word := by
  unfold State.modHead; split <;> rfl
@[simp] theorem modHead_badWords (s : State) (k : Nat) (f : Head → Head) : (s.modHead k f).badWords = s.badWords := by
  unfold State.modHead; split <;> rfl
@[simp] theorem modHead_sweep (s : State) (k : Nat) (f : Head → Head) : (s.modHead k f).sweep = s.sweep := by
  unfold State.modHead; split <;> rfl
@[simp] theorem modHead_configSeen (s : State) (k : Nat) (f : Head → Head) : (s.modHead k f).configSeen = s.configSeen := by
  unfold State.modHead; split <;> rfl
@[simp] theorem modHead_ordersSeen (s : State) (k : Nat) (f : Head → Head) : (s.modHead k f).ordersSeen = s.ordersSeen := by
  unfold State.modHead; split <;> rfl
@[simp] theorem modHead_torn (s : State) (k : Nat) (f : Head → Head) : (s.modHead k f).torn = s.torn := by
  unfold State.modHead; split <;> rfl
@[simp] theorem modHead_config (s : State) (k : Nat) (f : Head → Head) : (s.modHead k f).config = s.config := by
  unfold State.modHead; split <;> rfl
@[simp] theorem modHead_orders (s : State) (k : Nat) (f : Head → Head) : (s.modHead k f).orders = s.orders := by
  unfold State.modHead; split <;> rfl
@[simp] theorem modHead_faults (s : State) (k : Nat) (f : Head → Head) : (s.modHead k f).faults = s.faults := by
  unfold State.modHead; split <;> rfl
@[simp] theorem modHead_tenants (s : State) (k : Nat) (f : Head → Head) : (s.modHead k f).tenants = s.tenants := by
  unfold State.modHead; split <;> rfl
@[simp] theorem modHead_cars (s : State) (k : Nat) (f : Head → Head) : (s.modHead k f).cars = s.cars := by
  unfold State.modHead; split <;> rfl
@[simp] theorem modHead_board (s : State) (k : Nat) (f : Head → Head) : (s.modHead k f).board = s.board := by
  unfold State.modHead; split <;> rfl
@[simp] theorem modHead_boardCreated (s : State) (k : Nat) (f : Head → Head) : (s.modHead k f).boardCreated = s.boardCreated := by
  unfold State.modHead; split <;> rfl
@[simp] theorem modHead_aboard (s : State) (k : Nat) (f : Head → Head) : (s.modHead k f).aboard = s.aboard := by
  unfold State.modHead; split <;> rfl
@[simp] theorem modHead_lines (s : State) (k : Nat) (f : Head → Head) : (s.modHead k f).lines = s.lines := by
  unfold State.modHead; split <;> rfl
@[simp] theorem modHead_trunks (s : State) (k : Nat) (f : Head → Head) : (s.modHead k f).trunks = s.trunks := by
  unfold State.modHead; split <;> rfl
@[simp] theorem modHead_pending (s : State) (k : Nat) (f : Head → Head) : (s.modHead k f).pending = s.pending := by
  unfold State.modHead; split <;> rfl

/-! ### A trunk's lines -/

@[simp] theorem trunkSetLine_state (x : Trunk) (l : LineId) (v : TrunkLine) : (x.setLine l v).state = x.state := by cases l <;> rfl
@[simp] theorem trunkSetLine_active (x : Trunk) (l : LineId) (v : TrunkLine) : (x.setLine l v).active = x.active := by cases l <;> rfl
@[simp] theorem trunkSetLine_recovery (x : Trunk) (l : LineId) (v : TrunkLine) : (x.setLine l v).recovery = x.recovery := by cases l <;> rfl
@[simp] theorem trunkSetLine_chosen (x : Trunk) (l : LineId) (v : TrunkLine) : (x.setLine l v).chosen = x.chosen := by cases l <;> rfl
@[simp] theorem trunkSetLine_lastProbe (x : Trunk) (l : LineId) (v : TrunkLine) : (x.setLine l v).lastProbe = x.lastProbe := by cases l <;> rfl
@[simp] theorem trunkSetLine_positions (x : Trunk) (l : LineId) (v : TrunkLine) : (x.setLine l v).positions = x.positions := by cases l <;> rfl
@[simp] theorem trunkSetLine_requests (x : Trunk) (l : LineId) (v : TrunkLine) : (x.setLine l v).requests = x.requests := by cases l <;> rfl
@[simp] theorem trunkSetLine_flight (x : Trunk) (l : LineId) (v : TrunkLine) : (x.setLine l v).flight = x.flight := by cases l <;> rfl
@[simp] theorem trunkSetLine_line (x : Trunk) (l : LineId) (v : TrunkLine) : (x.setLine l v).line l = v := by cases l <;> rfl
@[simp] theorem trunkSetLine_line_other (x : Trunk) (l : LineId) (v : TrunkLine) :
    (x.setLine l v).line (LineId.other l) = x.line (LineId.other l) := by cases l <;> rfl
@[simp] theorem trunkSetLine_other_line (x : Trunk) (l : LineId) (v : TrunkLine) :
    (x.setLine (LineId.other l) v).line l = x.line l := by cases l <;> rfl
@[simp] theorem lineId_other_other (l : LineId) : LineId.other (LineId.other l) = l := by cases l <;> rfl

/-- The lines of a trunk are its two line fields, whatever the others hold. -/
@[simp] theorem trunk_line_mk (x : Trunk) (l : LineId) (st : TrunkState) (ac : Option LineId) (r : Option Time)
    (ch : Option LineId) (lp : Nat) (ps : Table Nat) (rs : List Request) (f : Flight) :
    Trunk.line { state := st, active := ac, lineA := x.lineA, lineB := x.lineB, recovery := r, chosen := ch,
                 lastProbe := lp, positions := ps, requests := rs, flight := f } l = x.line l := by cases l <;> rfl

end Sys2Proof.Laws
end

