-- ==== Sys2Proof/Laws/Table.lean ====
section
/-!
SUPPORT. Tables: what a key holds after an update, after a change of every value, and where the keys lie.
-/

namespace Sys2Proof.Laws

open Sys2Proof Sys2Proof.Machine Sys2Proof.Safety

variable {α : Type}

@[simp] theorem tableFind_nil (k : Nat) : tableFind ([] : Table α) k = none := rfl

theorem tableFind_cons (k' : Nat) (v : α) (t : Table α) (k : Nat) :
    tableFind ((k', v) :: t) k = if k' = k then some v else tableFind t k := rfl

/-- After an update the key holds the new value and every other key what it held. -/
theorem tableFind_tableSet (t : Table α) (k : Nat) (v : α) (j : Nat) :
    tableFind (tableSet t k v) j = if k = j then some v else tableFind t j := by
  induction t with
  | nil => rfl
  | cons e t ih =>
    obtain ⟨k', v'⟩ := e
    unfold tableSet
    split
    · rfl
    · split
      · next h => subst h; simp only [tableFind_cons]; split <;> rfl
      · next h =>
        simp only [tableFind_cons, ih]
        by_cases h1 : k' = j
        · subst h1; simp [Ne.symm h]
        · simp [h1]

/-- Of two updates of one key the second stands. -/
@[simp] theorem tableSet_tableSet (t : Table α) (k : Nat) (v w : α) :
    tableSet (tableSet t k v) k w = tableSet t k w := by
  induction t with
  | nil => simp [tableSet]
  | cons e t ih =>
    obtain ⟨k', v'⟩ := e
    by_cases h : k < k'
    · simp [tableSet, h]
    · by_cases h' : k' = k
      · subst h'; simp [tableSet]
      · simp [tableSet, h, h', ih]

@[simp] theorem tableGet_tableSet_same (d : α) (t : Table α) (k : Nat) (v : α) :
    tableGet d (tableSet t k v) k = v := by simp [tableGet, tableFind_tableSet]

theorem tableGet_tableSet (d : α) (t : Table α) (k : Nat) (v : α) (j : Nat) :
    tableGet d (tableSet t k v) j = if k = j then v else tableGet d t j := by
  simp only [tableGet, tableFind_tableSet]; split <;> rfl

theorem tableGet_tableSet_ne (d : α) (t : Table α) {k j : Nat} (v : α) (h : k ≠ j) :
    tableGet d (tableSet t k v) j = tableGet d t j := by simp [tableGet_tableSet, h]

/-- A table all of whose values are changed by their keys. -/
theorem tableFind_map (t : Table α) (f : Nat × α → α) (k : Nat) :
    tableFind (t.map (fun e => (e.1, f e))) k = (tableFind t k).map (fun v => f (k, v)) := by
  induction t with
  | nil => rfl
  | cons e t ih =>
    obtain ⟨k', v'⟩ := e
    simp only [List.map_cons, tableFind_cons, ih]
    split
    · next h => subst h; rfl
    · rfl

theorem tableFind_mem {t : Table α} {k : Nat} {v : α} (h : tableFind t k = some v) : (k, v) ∈ t := by
  induction t with
  | nil => simp at h
  | cons e t ih =>
    obtain ⟨k', v'⟩ := e
    rw [tableFind_cons] at h
    split at h
    · next hk => cases h; subst hk; exact List.mem_cons_self
    · exact List.mem_cons_of_mem _ (ih h)

/-- What an updated table lists: the new entry or an old one. -/
theorem mem_tableSet {t : Table α} {k : Nat} {v : α} {e : Nat × α} (h : e ∈ tableSet t k v) :
    e = (k, v) ∨ e ∈ t := by
  induction t with
  | nil => simpa [tableSet] using h
  | cons x t ih =>
    obtain ⟨k', v'⟩ := x
    unfold tableSet at h
    split at h
    · simpa using h
    · split at h
      · rcases List.mem_cons.mp h with h | h
        · exact .inl h
        · exact .inr (List.mem_cons_of_mem _ h)
      · rcases List.mem_cons.mp h with h | h
        · exact .inr (h ▸ List.mem_cons_self)
        · exact (ih h).imp id (List.mem_cons_of_mem _)

end Sys2Proof.Laws

namespace Sys2Proof.Safety

open Sys2Proof Sys2Proof.Machine Sys2Proof.Laws

variable {α : Type}

theorem KeysBelow.nil (n : Nat) : KeysBelow n ([] : Table α) := by simp [KeysBelow]

theorem KeysBelow.tableSet {n k : Nat} {t : Table α} (v : α) (h : KeysBelow n t) (hk : k < n) :
    KeysBelow n (Machine.tableSet t k v) := by
  refine ⟨?_, fun e he => ?_⟩
  · have rises := h.1
    clear h
    induction t with
    | nil => simp [Machine.tableSet]
    | cons x t ih =>
      obtain ⟨k', v'⟩ := x
      have hx := List.pairwise_cons.mp rises
      unfold Machine.tableSet
      split
      · next hlt =>
        refine List.pairwise_cons.mpr ⟨fun e he => ?_, rises⟩
        rcases List.mem_cons.mp he with rfl | he
        · exact hlt
        · exact Nat.lt_trans hlt (hx.1 e he)
      · split
        · next heq => exact List.pairwise_cons.mpr ⟨fun e he => heq ▸ hx.1 e he, hx.2⟩
        · refine List.pairwise_cons.mpr ⟨fun e he => ?_, ih hx.2⟩
          rcases mem_tableSet he with rfl | he
          · show k' < k; omega
          · exact hx.1 e he
  · rcases mem_tableSet he with rfl | he
    · exact hk
    · exact h.2 e he

theorem KeysBelow.filter {n : Nat} {t : Table α} (p : Nat × α → Bool) (h : KeysBelow n t) :
    KeysBelow n (t.filter p) := ⟨h.1.filter p, fun e he => h.2 e (List.mem_of_mem_filter he)⟩

theorem KeysBelow.map {β : Type} {n : Nat} {t : Table α} (f : Nat × α → β) (h : KeysBelow n t) :
    KeysBelow n (t.map (fun e => (e.1, f e))) :=
  ⟨List.pairwise_map.mpr h.1, fun e he => by
    obtain ⟨x, hx, rfl⟩ := List.mem_map.mp he
    exact h.2 x hx⟩

theorem KeysBelow.find {n k : Nat} {t : Table α} {v : α} (h : KeysBelow n t) (hf : tableFind t k = some v) : k < n :=
  h.2 _ (tableFind_mem hf)

end Sys2Proof.Safety

namespace Sys2Proof.Laws

open Sys2Proof Sys2Proof.Machine Sys2Proof.Safety

variable {α : Type}

/-- A value of a table is either the default or a listed one. -/
theorem tableGet_mem (d : α) (t : Table α) (k : Nat) : tableGet d t k = d ∨ (k, tableGet d t k) ∈ t := by
  unfold tableGet
  cases h : tableFind t k with
  | none => exact .inl rfl
  | some v => exact .inr (tableFind_mem h)

theorem mem_keysOfBoth {t u : Table α} {n k : Nat} (ht : KeysBelow n t) (hu : KeysBelow n u)
    (h : k ∈ keysOfBoth t u) : k < n := by
  simp only [keysOfBoth, List.mem_append, List.mem_map, List.mem_filter] at h
  rcases h with ⟨e, he, rfl⟩ | ⟨⟨e, he, rfl⟩, -⟩
  · exact ht.2 e he
  · exact hu.2 e he

/-! ### The parts of the state by number -/

@[simp] theorem tenant_setTenant_same (s : State) (t : Nat) (v : Tenant) : (s.setTenant t v).tenant t = v :=
  tableGet_tableSet_same _ _ _ _

theorem tenant_setTenant (s : State) (t n : Nat) (v : Tenant) :
    (s.setTenant t v).tenant n = if t = n then v else s.tenant n := tableGet_tableSet _ _ _ _ _

@[simp] theorem tenant_modTenant_same (s : State) (t : Nat) (f : Tenant → Tenant) :
    (s.modTenant t f).tenant t = f (s.tenant t) := tenant_setTenant_same _ _ _

theorem tenant_modTenant (s : State) (t n : Nat) (f : Tenant → Tenant) :
    (s.modTenant t f).tenant n = if t = n then f (s.tenant t) else s.tenant n := tenant_setTenant _ _ _ _

@[simp] theorem car_setCar_same (s : State) (c : Nat) (v : Car) : (s.setCar c v).car c = v :=
  tableGet_tableSet_same _ _ _ _

theorem car_setCar (s : State) (c n : Nat) (v : Car) : (s.setCar c v).car n = if c = n then v else s.car n :=
  tableGet_tableSet _ _ _ _ _

@[simp] theorem car_modCar_same (s : State) (c : Nat) (f : Car → Car) : (s.modCar c f).car c = f (s.car c) :=
  car_setCar_same _ _ _

theorem car_modCar (s : State) (c n : Nat) (f : Car → Car) :
    (s.modCar c f).car n = if c = n then f (s.car c) else s.car n := car_setCar _ _ _ _

@[simp] theorem line_setLine_same (s : State) (l : Nat) (v : OverrideLine) : (s.setLine l v).line l = v :=
  tableGet_tableSet_same _ _ _ _

theorem line_setLine (s : State) (l n : Nat) (v : OverrideLine) :
    (s.setLine l v).line n = if l = n then v else s.line n := tableGet_tableSet _ _ _ _ _

theorem line_modLine (s : State) (l n : Nat) (f : OverrideLine → OverrideLine) :
    (s.modLine l f).line n = if l = n then f (s.line l) else s.line n := line_setLine _ _ _ _

@[simp] theorem line_modLine_same (s : State) (l : Nat) (f : OverrideLine → OverrideLine) :
    (s.modLine l f).line l = f (s.line l) := line_setLine_same _ _ _

@[simp] theorem trunk_setTrunk_same (s : State) (t : Nat) (v : Trunk) : (s.setTrunk t v).trunk t = v :=
  tableGet_tableSet_same _ _ _ _

theorem trunk_setTrunk (s : State) (t n : Nat) (v : Trunk) :
    (s.setTrunk t v).trunk n = if t = n then v else s.trunk n := tableGet_tableSet _ _ _ _ _

@[simp] theorem trunk_modTrunk_same (s : State) (t : Nat) (f : Trunk → Trunk) :
    (s.modTrunk t f).trunk t = f (s.trunk t) := trunk_setTrunk_same _ _ _

theorem trunk_modTrunk (s : State) (t n : Nat) (f : Trunk → Trunk) :
    (s.modTrunk t f).trunk n = if t = n then f (s.trunk t) else s.trunk n := trunk_setTrunk _ _ _ _

@[simp] theorem slot_modSlot_same (s : State) (t i : Nat) (f : Slot → Slot) :
    (s.modSlot t i f).slot t i = f (s.slot t i) := by
  simp [State.modSlot, State.slot, Tenant.slot]

theorem slot_modSlot (s : State) (t i n j : Nat) (f : Slot → Slot) :
    (s.modSlot t i f).slot n j = if t = n ∧ i = j then f (s.slot t i) else s.slot n j := by
  simp only [State.modSlot, State.slot, Tenant.slot, tenant_modTenant]
  by_cases h : t = n
  · subst h; simp only [true_and, if_true, tableGet_tableSet]
  · simp [h]

@[simp] theorem program_modProgram_same (s : State) (t p : Nat) (f : Program → Program) :
    (s.modProgram t p f).program t p = f (s.program t p) := by
  simp [State.modProgram, State.program, Tenant.program]

theorem program_modProgram (s : State) (t p n q : Nat) (f : Program → Program) :
    (s.modProgram t p f).program n q = if t = n ∧ p = q then f (s.program t p) else s.program n q := by
  simp only [State.modProgram, State.program, Tenant.program, tenant_modTenant]
  by_cases h : t = n
  · subst h; simp only [true_and, if_true, tableGet_tableSet]
  · simp [h]

theorem aboardList_setAboard (s : State) (c k c' k' : Nat) (l : List (Nat × Nat)) :
    (s.setAboard c k l).aboardList c' k' = if 2 * c + k = 2 * c' + k' then l else s.aboardList c' k' :=
  tableGet_tableSet _ _ _ _ _

/-- A head's record after a change of a head's record. -/
theorem find_modHead (s : State) (k n : Nat) (f : Head → Head) :
    tableFind (s.modHead k f).heads n = if k = n then (tableFind s.heads n).map f else tableFind s.heads n := by
  unfold State.modHead
  cases h : tableFind s.heads k with
  | none => by_cases hk : k = n
            · subst hk; simp [h]
            · simp [hk]
  | some v => simp only [tableFind_tableSet]
              by_cases hk : k = n
              · subst hk; simp [h]
              · simp [hk]

end Sys2Proof.Laws
end

