-- ==== Sys2Proof/Laws/Memory.lean ====
section
/-!
SUPPORT. The shared RAM: a read after a write, what a write leaves alone, and that a write keeps the canonical form.
-/

namespace Sys2Proof.Laws

open Sys2Proof Sys2Proof.Machine Sys2Proof.Safety

@[simp] theorem memGet_nil (a : Nat) : memGet [] a = 0 := rfl

theorem memGet_cons (k : Nat) (b : Byte) (m : Memory) (a : Nat) :
    memGet ((k, b) :: m) a = if k = a then b else memGet m a := rfl

/-- A read passes over a run of cells that do not list its address. -/
theorem memGet_append_of_not {m : Memory} (n : Memory) {a : Nat} (h : ∀ c ∈ m, c.1 ≠ a) :
    memGet (m ++ n) a = memGet n a := by
  induction m with
  | nil => rfl
  | cons c m ih =>
    obtain ⟨k, b⟩ := c
    rw [List.cons_append, memGet_cons, if_neg (h (k, b) List.mem_cons_self),
      ih (fun c hc => h c (List.mem_cons_of_mem _ hc))]

/-- A filter that keeps every cell of an address keeps what is read there. -/
theorem memGet_filter_of {m : Memory} {p : Host.Cell → Bool} {a : Nat} (h : ∀ c ∈ m, c.1 = a → p c = true) :
    memGet (m.filter p) a = memGet m a := by
  induction m with
  | nil => rfl
  | cons c m ih =>
    obtain ⟨k, b⟩ := c
    have ih := ih (fun c hc => h c (List.mem_cons_of_mem _ hc))
    by_cases hp : p (k, b) = true
    · rw [List.filter_cons_of_pos hp, memGet_cons, memGet_cons, ih]
    · rw [List.filter_cons_of_neg hp, memGet_cons, ih, if_neg]
      intro hk; exact hp (h _ List.mem_cons_self hk)

theorem cellsFrom_keys {base : Nat} {bs : List Byte} {c : Host.Cell} (h : c ∈ cellsFrom base bs) :
    base ≤ c.1 ∧ c.1 < base + bs.length ∧ c.2 ≠ 0 := by
  induction bs generalizing base with
  | nil => simp [cellsFrom] at h
  | cons b bs ih =>
    unfold cellsFrom at h
    split at h
    · obtain ⟨h1, h2, h3⟩ := ih h
      exact ⟨by omega, by simp only [List.length_cons]; omega, h3⟩
    · next hb =>
      rcases List.mem_cons.mp h with rfl | h
      · exact ⟨Nat.le_refl _, by simp, hb⟩
      · obtain ⟨h1, h2, h3⟩ := ih h
        exact ⟨by omega, by simp only [List.length_cons]; omega, h3⟩

theorem memGet_cellsFrom (base : Nat) (bs : List Byte) (i : Nat) (m : Memory) (hi : i < bs.length)
    (hm : ∀ c ∈ m, c.1 < base ∨ base + bs.length ≤ c.1) :
    memGet (cellsFrom base bs ++ m) (base + i) = bs.getD i 0 := by
  induction bs generalizing base i with
  | nil => simp at hi
  | cons b bs ih =>
    have hm' : ∀ c ∈ m, c.1 < base + 1 ∨ base + 1 + bs.length ≤ c.1 := fun c hc => by
      have := hm c hc; simp only [List.length_cons] at this; omega
    have none_at : memGet (cellsFrom (base + 1) bs ++ m) base = 0 := by
      rw [memGet_append_of_not]
      · have : ∀ m : Memory, (∀ c ∈ m, c.1 ≠ base) → memGet m base = 0 := fun m h => by
          have := memGet_append_of_not [] h; simpa using this
        exact this m (fun c hc => by have := hm c hc; simp only [List.length_cons] at this; omega)
      · intro c hc; have := cellsFrom_keys hc; omega
    unfold cellsFrom
    cases i with
    | zero =>
      split
      · next hb => simp [none_at, hb]
      · simp [memGet_cons]
    | succ i =>
      have hi' : i < bs.length := by simpa using hi
      have := ih (base + 1) i hi' hm'
      rw [show base + (i + 1) = base + 1 + i by omega]
      split
      · simpa using this
      · rw [List.cons_append, memGet_cons, if_neg (by omega), this]; simp

/-- A read of a written byte gives the byte written. -/
theorem memGet_memWrite_in (m : Memory) (base : Nat) (bs : List Byte) {a : Nat}
    (h1 : base ≤ a) (h2 : a < base + bs.length) :
    memGet (memWrite m base bs) a = bs.getD (a - base) 0 := by
  obtain ⟨i, rfl⟩ : ∃ i, a = base + i := ⟨a - base, by omega⟩
  unfold memWrite
  rw [List.append_assoc, memGet_append_of_not, memGet_cellsFrom]
  · simp
  · omega
  · intro c hc; have := (List.mem_filter.mp hc).2; simp at this; omega
  · intro c hc; have := (List.mem_filter.mp hc).2; simp at this; omega

/-- A read of any other byte gives what it gave before. -/
theorem memGet_memWrite_out (m : Memory) (base : Nat) (bs : List Byte) {a : Nat}
    (h : a < base ∨ base + bs.length ≤ a) : memGet (memWrite m base bs) a = memGet m a := by
  have key : ∀ m : Memory, (∀ c ∈ m, c.1 ≠ a) → memGet m a = 0 := fun m h => by
    have := memGet_append_of_not [] h; simpa using this
  unfold memWrite
  rcases h with h | h
  · have h1 : ∀ c ∈ cellsFrom base bs ++ m.filter (fun c => base + bs.length ≤ c.1), c.1 ≠ a := by
      intro c hc
      rcases List.mem_append.mp hc with hc | hc
      · have := cellsFrom_keys hc; omega
      · have := (List.mem_filter.mp hc).2; simp at this; omega
    have h2 : ∀ (l n : Memory), (∀ c ∈ n, c.1 ≠ a) → memGet (l ++ n) a = memGet l a := by
      intro l n hn
      induction l with
      | nil => simpa using key n hn
      | cons c l ih => obtain ⟨k, b⟩ := c; rw [List.cons_append, memGet_cons, memGet_cons, ih]
    rw [List.append_assoc, h2 _ _ h1, memGet_filter_of]
    intro c _ hc; simp; omega
  · rw [memGet_append_of_not, memGet_filter_of]
    · intro c _ hc; simp; omega
    · intro c hc
      rcases List.mem_append.mp hc with hc | hc
      · have := (List.mem_filter.mp hc).2; simp at this; omega
      · have := cellsFrom_keys hc; omega

/-- The canonical form: addresses rise, lie in the 256 KiB, and no listed byte is 0. -/
theorem memWf_iff (m : Memory) :
    memWf m = true ↔ m.Pairwise (fun a b => a.1 < b.1) ∧ ∀ c ∈ m, c.1 < 262144 ∧ c.2 ≠ 0 := by
  induction m with
  | nil => simp [memWf]
  | cons c m ih =>
    obtain ⟨k, b⟩ := c
    cases m with
    | nil => simp [memWf]
    | cons d m =>
      obtain ⟨k', b'⟩ := d
      simp only [memWf, Bool.and_eq_true, decide_eq_true_eq, bne_iff_ne, ih]
      simp only [List.pairwise_cons, List.mem_cons, forall_eq_or_imp]
      constructor
      · rintro ⟨⟨h1, h2⟩, ⟨h3, h4⟩, ⟨h5, h6⟩, h7⟩
        exact ⟨⟨⟨h1, fun a ha => Nat.lt_trans h1 (h3 a ha)⟩, h3, h4⟩, ⟨by omega, h2⟩, ⟨h5, h6⟩, h7⟩
      · rintro ⟨⟨⟨h1, -⟩, h3, h4⟩, ⟨-, h2⟩, ⟨h5, h6⟩, h7⟩
        exact ⟨⟨h1, h2⟩, ⟨h3, h4⟩, ⟨h5, h6⟩, h7⟩

theorem cellsFrom_pairwise (base : Nat) (bs : List Byte) :
    (cellsFrom base bs).Pairwise (fun a b => a.1 < b.1) := by
  induction bs generalizing base with
  | nil => exact List.Pairwise.nil
  | cons b bs ih =>
    unfold cellsFrom
    split
    · exact ih _
    · refine List.pairwise_cons.mpr ⟨fun c hc => ?_, ih _⟩
      have := cellsFrom_keys hc; simp only; omega

/-- A write inside the 256 KiB keeps the canonical form. -/
theorem memWf_memWrite {m : Memory} {base : Nat} {bs : List Byte} (h : memWf m = true)
    (hb : base + bs.length ≤ 262144) : memWf (memWrite m base bs) = true := by
  rw [memWf_iff] at h ⊢
  obtain ⟨hp, hc⟩ := h
  unfold memWrite
  refine ⟨?_, ?_⟩
  · rw [List.append_assoc]
    refine List.pairwise_append.mpr ⟨hp.filter _, List.pairwise_append.mpr
      ⟨cellsFrom_pairwise _ _, hp.filter _, fun a ha b hb' => ?_⟩, fun a ha b hb' => ?_⟩
    · have h1 := cellsFrom_keys ha; have h2 := (List.mem_filter.mp hb').2; simp at h2; omega
    · have h1 := (List.mem_filter.mp ha).2; simp at h1
      rcases List.mem_append.mp hb' with h2 | h2
      · have := cellsFrom_keys h2; omega
      · have := (List.mem_filter.mp h2).2; simp at this; omega
  · intro c hm
    rcases List.mem_append.mp hm with hm | hm
    · rcases List.mem_append.mp hm with hm | hm
      · exact hc c (List.mem_filter.mp hm).1
      · have := cellsFrom_keys hm; exact ⟨by omega, this.2.2⟩
    · exact hc c (List.mem_filter.mp hm).1

@[simp] theorem memWf_nil : memWf [] = true := rfl

/-! ### Little-endian numbers -/

theorem memNat_memWrite_out (m : Memory) (base : Nat) (bs : List Byte) (a n : Nat)
    (h : a + n ≤ base ∨ base + bs.length ≤ a) : memNat (memWrite m base bs) a n = memNat m a n := by
  unfold memNat memBytes
  congr 1
  apply List.map_congr_left
  intro i hi
  have := List.mem_range.mp hi
  exact memGet_memWrite_out _ _ _ (by omega)

theorem memBytes_memWrite (m : Memory) (base : Nat) (bs : List Byte) :
    memBytes (memWrite m base bs) base bs.length = bs := by
  unfold memBytes
  apply List.ext_getElem
  · simp
  · intro i h1 h2
    simp only [List.length_map, List.length_range] at h1
    simp only [List.getElem_map, List.getElem_range]
    rw [memGet_memWrite_in _ _ _ (by omega) (by omega)]
    simp [h1]

@[simp] theorem u8_length (n : Nat) : (u8 n).length = 1 := rfl
@[simp] theorem u16_length (n : Nat) : (u16 n).length = 2 := rfl
@[simp] theorem u32_length (n : Nat) : (u32 n).length = 4 := rfl
@[simp] theorem unused_length (n : Nat) : (unused n).length = n := by simp [unused]
@[simp] theorem opt8_length (o : Option Nat) : (opt8 o).length = 1 := rfl
@[simp] theorem opt16_length (o : Option Nat) : (opt16 o).length = 2 := rfl
@[simp] theorem places_length (n : Nat) (l : List Byte) : (places n l).length = n := by
  simp [places]

theorem leNat_u32 (v : Word32) : leNat (u32 v.toNat) = v.toNat := by
  have := v.isLt
  simp [u32, leNat, BitVec.toNat_ofNat]
  omega

/-- A word written and read back. -/
theorem memNat_write_u32 (m : Memory) (base : Nat) (v : Word32) :
    memNat (memWrite m base (u32 v.toNat)) base 4 = v.toNat := by
  unfold memNat
  have := memBytes_memWrite m base (u32 v.toNat)
  rw [u32_length] at this
  rw [this, leNat_u32]

end Sys2Proof.Laws
end

