-- ==== Sys2Proof/Laws/Records.lean ====
section
/-!
SUPPORT. Hub-owned records and fault entries: the length of each record, that it lies in the hub's bytes, and what a
published write does (R5).
-/

namespace Sys2Proof.Laws

open Sys2Proof Sys2Proof.Machine Sys2Proof.Safety

theorem flatMap_length {α : Type} (l : List α) (f : α → List Byte) (n : Nat) (h : ∀ a, (f a).length = n) :
    (l.flatMap f).length = n * l.length := by
  induction l with
  | nil => simp
  | cons a l ih => simp only [List.flatMap_cons, List.length_append, h, ih, List.length_cons, Nat.mul_succ]; omega

theorem fill_length (l : List Byte) (n : Nat) : ((l ++ unused n).take n).length = n := by simp

@[simp] theorem deckBytes_length (s : State) (c k : Nat) : (deckBytes s c k).length = 16 := by
  unfold deckBytes
  simp only [List.length_append, places_length, u8_length, unused_length]
  split <;> rfl

@[simp] theorem overrideLineBytes_length (s : State) (l : Nat) : (overrideLineBytes s l).length = 16 := by
  simp [overrideLineBytes, cat]

@[simp] theorem trunkLineBytes_length (x : TrunkLine) : (trunkLineBytes x).length = 8 := by
  simp [trunkLineBytes, cat]

@[simp] theorem trunkBytes_length (s : State) (t : Nat) : (trunkBytes s t).length = 32 := by
  simp [trunkBytes, cat]

/-- The unused bytes in a record's last word: two of Building Status. -/
def recordRest : RecordId → Nat
  | .buildingStatus => 2
  | _ => 0

/-- Every record has its body's length. -/
theorem recordBody_length (s : State) (r : RecordId) : (recordBody s r).length + 4 + recordRest r = recordSize r := by
  cases r with
  | buildingStatus =>
    have h1 := flatMap_length (List.range 4) (overrideLineBytes s) 16 (overrideLineBytes_length s)
    have h2 := flatMap_length (List.range 16) (trunkBytes s) 32 (trunkBytes_length s)
    simp only [recordBody, buildingStatusBody, cat, List.flatten_cons, List.flatten_nil, List.length_append, h1, h2,
      u8_length, u16_length, u32_length, unused_length, List.length_range, recordSize, recordRest, List.length_nil]
    split <;> simp
  | carState c => simp [recordBody, carStateBody, cat, recordSize, recordRest]
  | headStatus k =>
    simp only [recordBody, headStatusBody, recordSize, recordRest]
    split <;> simp [cat]
  | boardPlace i =>
    simp only [recordBody, boardBody, recordSize, recordRest]
    split <;> simp [cat]
  | tenantStatus t => simp [recordBody, tenantStatusBody, cat, recordSize, recordRest]
  | slotHalf t i => simp [recordBody, slotBody, cat, recordSize, recordRest]
  | runState t p => simp [recordBody, runStateBody, cat, recordSize, recordRest]
  | aboardRow t i k => simp [recordBody, aboardBody, cat, recordSize, recordRest]

/-- The write of a record ends with its last word. -/
theorem wordRest_record (s : State) (r : RecordId) :
    wordRest (leadAddress r + (recordBody s r).length) = recordRest r := by
  have h := recordBody_length s r
  unfold wordRest
  cases r <;>
    simp only [recordSize, recordRest, leadAddress, slotBase, programBase, tenantBase] at h ⊢ <;> omega

theorem hubByte_of_area {a : Nat} (h1 : 65536 ≤ a) (h2 : a < 262144) (h : hubOffset ((a - 65536) % 24576) = true) :
    hubByte a = true := by
  unfold hubByte
  simp [h, h1, h2]

/-- Every byte of a record is the hub's. -/
theorem record_hubByte {r : RecordId} (h : RecordOk r) {a : Nat} (h1 : leadAddress r ≤ a)
    (h2 : a < leadAddress r + recordSize r) : hubByte a = true ∧ a < 262144 := by
  cases r with
  | buildingStatus => simp only [leadAddress, recordSize] at *; refine ⟨?_, by omega⟩; simp [hubByte]; omega
  | carState c => simp only [leadAddress, recordSize, RecordOk] at *; refine ⟨?_, by omega⟩; simp [hubByte]; omega
  | headStatus k => simp only [leadAddress, recordSize, RecordOk] at *; refine ⟨?_, by omega⟩; simp [hubByte]; omega
  | boardPlace i => simp only [leadAddress, recordSize, RecordOk] at *; refine ⟨?_, by omega⟩; simp [hubByte]; omega
  | tenantStatus t =>
    simp only [leadAddress, recordSize, RecordOk, tenantBase] at *
    refine ⟨hubByte_of_area (by omega) (by omega) ?_, by omega⟩; simp [hubOffset]; omega
  | slotHalf t i =>
    simp only [leadAddress, recordSize, RecordOk, slotBase, tenantBase] at *
    refine ⟨hubByte_of_area (by omega) (by omega) ?_, by omega⟩; simp [hubOffset]; omega
  | runState t p =>
    simp only [leadAddress, recordSize, RecordOk, programBase, tenantBase] at *
    refine ⟨hubByte_of_area (by omega) (by omega) ?_, by omega⟩; simp [hubOffset]; omega
  | aboardRow t i k =>
    simp only [leadAddress, recordSize, RecordOk, tenantBase] at *
    refine ⟨hubByte_of_area (by omega) (by omega) ?_, by omega⟩; simp [hubOffset]; omega

theorem publishBytes_length (body : List Byte) (st : Stamp) (n : Nat) :
    (u16 st.toNat ++ body ++ u16 st.toNat ++ unused n).length = body.length + 4 + n := by
  simp only [List.length_append, u16_length, unused_length]; omega

/-- A published write leaves every byte outside its record alone. -/
theorem memGet_publishBytes_out (s : State) (lead : Nat) (body : List Byte) {a : Nat}
    (h : a < lead ∨ lead + (body.length + 4 + wordRest (lead + body.length)) ≤ a) :
    memGet (publishBytes s lead body).ram a = memGet s.ram a := by
  unfold publishBytes
  exact memGet_memWrite_out _ _ _ (by rw [publishBytes_length]; exact h)

theorem memWf_publishBytes {s : State} {lead : Nat} {body : List Byte} (h : memWf s.ram = true)
    (hb : lead + (body.length + 4 + wordRest (lead + body.length)) ≤ 262144) :
    memWf (publishBytes s lead body).ram = true := by
  unfold publishBytes
  exact memWf_memWrite h (by rw [publishBytes_length]; exact hb)

/-- A record's published write leaves every byte outside the record alone. -/
theorem memGet_publish_out (s : State) (r : RecordId) {a : Nat}
    (h : a < leadAddress r ∨ leadAddress r + recordSize r ≤ a) : memGet (publish s r).ram a = memGet s.ram a :=
  memGet_publishBytes_out _ _ _ (by rw [wordRest_record, recordBody_length]; exact h)

theorem memGet_publish_host (s : State) {r : RecordId} (hr : RecordOk r) {a : Nat} (h : hubByte a = false) :
    memGet (publish s r).ram a = memGet s.ram a := by
  apply memGet_publish_out
  by_contra hc
  have := (record_hubByte hr (a := a) (by omega) (by omega)).1
  simp [h] at this

theorem memWf_publish {s : State} {r : RecordId} (hr : RecordOk r) (h : memWf s.ram = true) :
    memWf (publish s r).ram = true := by
  apply memWf_publishBytes h
  rw [wordRest_record, recordBody_length]
  have hs : 0 < recordSize r := by cases r <;> simp [recordSize]
  have := (record_hubByte hr (a := leadAddress r + recordSize r - 1) (by omega) (by omega)).2
  omega

/-! ### Fault entries (R54) -/

theorem faultBody_length (r : FaultRecord) : (faultBody r).length = 24 := by simp [faultBody, cat]

/-- A fault entry's write fills its words. -/
theorem wordRest_fault (o : ListOwner) (i : Nat) (r : FaultRecord) :
    wordRest (faultBase o + 32 * i + 4 + (faultBody r).length) = 0 := by
  rw [faultBody_length]
  unfold wordRest
  cases o <;> simp only [faultBase, supervisorFaultBase, tenantFaultBase, tenantBase] <;> omega

/-- An owner that the hub has. -/
def OwnerOk (o : ListOwner) : Prop := ∀ t, o = some t → t < 8

/-- Every byte of a fault entry is the hub's. -/
theorem entry_hubByte {o : ListOwner} (ho : OwnerOk o) {i : Nat} (hi : i < faultEntries o) {a : Nat}
    (h1 : faultBase o + 32 * i ≤ a) (h2 : a < faultBase o + 32 * i + 32) : hubByte a = true ∧ a < 262144 := by
  cases o with
  | none =>
    simp only [faultBase, faultEntries, supervisorFaultBase] at *
    refine ⟨?_, by omega⟩; simp [hubByte]; omega
  | some t =>
    have := ho t rfl
    simp only [faultBase, faultEntries, tenantFaultBase, tenantBase] at *
    refine ⟨hubByte_of_area (by omega) (by omega) ?_, by omega⟩; simp [hubOffset]; omega

theorem freeEntry_lt {m : Memory} {o : ListOwner} {i : Nat} (h : freeEntry m o = some i) : i < faultEntries o :=
  List.mem_range.mp (List.mem_of_find?_eq_some h)

/-- Placing a fault record leaves every byte outside its entry alone. -/
theorem memGet_place_out (s : State) (o : ListOwner) (i : Nat) (r : FaultRecord) {a : Nat}
    (h : a < faultBase o + 32 * i ∨ faultBase o + 32 * i + 32 ≤ a) :
    memGet (publishBytes { s with ram := memWrite s.ram (faultBase o + 32 * i) (u32 1) }
      (faultBase o + 32 * i + 4) (faultBody r)).ram a = memGet s.ram a := by
  rw [memGet_publishBytes_out _ _ _ (by rw [wordRest_fault, faultBody_length]; omega)]
  exact memGet_memWrite_out _ _ _ (by rw [u32_length]; omega)

/-- A placed entry's occupied flag reads 1 as a full word (R174). -/
theorem memNat_place_flag (s : State) (base : Nat) (body : List Byte) :
    memNat (publishBytes { s with ram := memWrite s.ram base (u32 1) } (base + 4) body).ram base 4 = 1 :=
  (memNat_memWrite_out _ (base + 4) _ base 4 (.inl (Nat.le_refl _))).trans (memNat_write_u32 s.ram base 1#32)

end Sys2Proof.Laws
end

