-- ==== Sys2Proof/Laws/Calm.lean ====
section
/-!
SUPPORT. `Calm fs s t`: an event's work took the state from `s` to `t`, changed nothing outside the fields `fs`, kept the
tables' numbers and the form of the shared RAM, wrote no host-owned byte, cleared no Attention bit and left every sweep
as it stood. It is reflexive and transitive, so the lemma of an operation follows from those of the operations it calls.
-/

namespace Sys2Proof.Safety

open Sys2Proof Sys2Proof.Machine Sys2Proof.Laws

/-! ### Touches -/

theorem Touches.refl (fs : List Field) (s : State) : Touches fs s s := fun f => .inr (by cases f <;> rfl)

theorem sameField_trans {s t u : State} {f : Field} (h1 : sameField s t f) (h2 : sameField t u f) :
    sameField s u f := by
  cases f <;> exact Eq.trans h2 h1

theorem Touches.trans {fs : List Field} {s t u : State} (h1 : Touches fs s t) (h2 : Touches fs t u) :
    Touches fs s u := fun f => by
  rcases h1 f with h | h
  · exact .inl h
  · exact (h2 f).imp id (sameField_trans h)

theorem Touches.mono {fs gs : List Field} {s t : State} (h : Touches fs s t) (hg : ∀ f ∈ fs, f ∈ gs) :
    Touches gs s t := fun f => (h f).imp (hg f) id

/-- A field outside the list is unchanged. -/
theorem Touches.same {fs : List Field} {s t : State} (h : Touches fs s t) (f : Field) (hf : f ∉ fs := by decide) :
    sameField s t f := (h f).resolve_left hf

/-- The numbers of the tables stay when the tables that hold them do. -/
theorem KeysOk.of_same {s t : State} (h : KeysOk s) (h1 : t.tenants = s.tenants) (h2 : t.heads = s.heads)
    (h3 : t.config = s.config) (h4 : t.board = s.board) : KeysOk t :=
  ⟨h1 ▸ h.tenants, h1 ▸ h.slots, h1 ▸ h.programs, h2 ▸ h.heads, h3 ▸ h.headTable, h3 ▸ h.validating, h4 ▸ h.board⟩

theorem KeysOk.slotsOf {s : State} (h : KeysOk s) (t : Nat) : KeysBelow 64 (s.tenant t).slots := by
  rcases tableGet_mem ({} : Tenant) s.tenants t with e | e
  · show KeysBelow 64 (tableGet _ s.tenants t).slots; rw [e]; exact KeysBelow.nil _
  · exact h.slots _ e

theorem KeysOk.programsOf {s : State} (h : KeysOk s) (t : Nat) : KeysBelow 8 (s.tenant t).programs := by
  rcases tableGet_mem ({} : Tenant) s.tenants t with e | e
  · show KeysBelow 8 (tableGet _ s.tenants t).programs; rw [e]; exact KeysBelow.nil _
  · exact h.programs _ e

end Sys2Proof.Safety

namespace Sys2Proof.Laws

set_option Elab.async false -- one theorem at a time: side by side, these files' proofs ask for too many threads

open Sys2Proof Sys2Proof.Machine Sys2Proof.Safety

/-! ### Calm -/

structure Calm (fs : List Field) (s t : State) : Prop where
  touches : Touches fs s t
  keys : KeysOk s → KeysOk t
  form : KeysOk s → memWf s.ram = true → memWf t.ram = true
  bytes : KeysOk s → ∀ a, hubByte a = false → memGet t.ram a = memGet s.ram a
  attention : ∀ i, s.attention.getLsbD i = true → t.attention.getLsbD i = true
  sweeps : ∀ a, t.areaSweep a = s.areaSweep a

theorem Calm.refl {fs : List Field} (s : State) : Calm fs s s :=
  ⟨Touches.refl _ _, id, fun _ => id, fun _ _ _ => rfl, fun _ => id, fun _ => rfl⟩

theorem Calm.trans {fs : List Field} {s t u : State} (h1 : Calm fs s t) (h2 : Calm fs t u) : Calm fs s u :=
  ⟨h1.touches.trans h2.touches, fun h => h2.keys (h1.keys h), fun h m => h2.form (h1.keys h) (h1.form h m),
   fun h a ha => (h2.bytes (h1.keys h) a ha).trans (h1.bytes h a ha), fun i h => h2.attention i (h1.attention i h),
   fun a => (h2.sweeps a).trans (h1.sweeps a)⟩

theorem Calm.mono {fs gs : List Field} {s t : State} (h : Calm fs s t) (hg : ∀ f ∈ fs, f ∈ gs := by decide) :
    Calm gs s t := ⟨h.touches.mono hg, h.keys, h.form, h.bytes, h.attention, h.sweeps⟩

/-- A step after a calm one, whose own list may be smaller. -/
theorem Calm.then {fs gs : List Field} {s t u : State} (h1 : Calm fs s t) (h2 : Calm gs t u)
    (hg : ∀ f ∈ gs, f ∈ fs := by decide) : Calm fs s u := h1.trans (h2.mono hg)

theorem Calm.foldl {α : Type} {fs : List Field} (f : State → α → State) (l : List α)
    (h : ∀ a ∈ l, ∀ s, Calm fs s (f s a)) (s : State) : Calm fs s (l.foldl f s) := by
  induction l generalizing s with
  | nil => exact Calm.refl _
  | cons a l ih =>
    exact (h a List.mem_cons_self s).trans (ih (fun b hb => h b (List.mem_cons_of_mem _ hb)) _)

theorem Calm.ite {fs : List Field} {s t u : State} {p : Prop} [Decidable p] (h1 : Calm fs s t) (h2 : Calm fs s u) :
    Calm fs s (if p then t else u) := by split <;> assumption

theorem areaSweep_of_same {s t : State} (h1 : t.sweep = s.sweep) (h2 : t.tenants = s.tenants) (a : Area) :
    t.areaSweep a = s.areaSweep a := by
  cases a with
  | building => exact h1
  | tenant n => show (tableGet _ t.tenants _).sweep = (tableGet _ s.tenants _).sweep; rw [h2]

/-- Work that leaves the RAM, Attention, the sweeps and the numbered tables alone. -/
theorem Calm.of_touches {fs : List Field} {s t : State} (h : Touches fs s t)
    (hd : Field.ram ∉ fs ∧ Field.attention ∉ fs ∧ Field.sweep ∉ fs ∧ Field.tenants ∉ fs ∧ Field.heads ∉ fs ∧
      Field.config ∉ fs ∧ Field.board ∉ fs := by decide) : Calm fs s t := by
  obtain ⟨d1, d2, d3, d4, d5, d6, d7⟩ := hd
  have e1 : t.ram = s.ram := h.same .ram d1
  have e2 : t.attention = s.attention := h.same .attention d2
  have e3 : t.sweep = s.sweep := h.same .sweep d3
  have e4 : t.tenants = s.tenants := h.same .tenants d4
  have e5 : t.heads = s.heads := h.same .heads d5
  have e6 : t.config = s.config := h.same .config d6
  have e7 : t.board = s.board := h.same .board d7
  exact ⟨h, fun k => k.of_same e4 e5 e6 e7, fun _ m => e1 ▸ m, fun _ _ _ => by rw [e1], fun _ m => e2 ▸ m,
    areaSweep_of_same e3 e4⟩

/-! ### Single updates -/

theorem touches_leaf {fs : List Field} {s t : State} (h : ∀ f, f ∉ fs → sameField s t f) : Touches fs s t := fun f =>
  if hf : f ∈ fs then .inl hf else .inr (h f hf)

theorem calm_setCar (s : State) (c : Nat) (v : Car) : Calm [.cars] s (s.setCar c v) :=
  .of_touches (fun f => by cases f <;> first | exact .inr rfl | exact .inl (by decide))

theorem calm_modCar (s : State) (c : Nat) (f : Car → Car) : Calm [.cars] s (s.modCar c f) := calm_setCar _ _ _

theorem calm_modDeck (s : State) (c k : Nat) (f : Deck → Deck) : Calm [.cars] s (s.modDeck c k f) := calm_setCar _ _ _

theorem calm_cars (s : State) (v : Table Car) : Calm [.cars] s { s with cars := v } :=
  .of_touches (fun f => by cases f <;> first | exact .inr rfl | exact .inl (by decide))

theorem calm_setLine (s : State) (l : Nat) (v : OverrideLine) : Calm [.lines] s (s.setLine l v) :=
  .of_touches (fun f => by cases f <;> first | exact .inr rfl | exact .inl (by decide))

theorem calm_modLine (s : State) (l : Nat) (f : OverrideLine → OverrideLine) : Calm [.lines] s (s.modLine l f) :=
  calm_setLine _ _ _

theorem calm_setTrunk (s : State) (t : Nat) (v : Trunk) : Calm [.trunks] s (s.setTrunk t v) :=
  .of_touches (fun f => by cases f <;> first | exact .inr rfl | exact .inl (by decide))

theorem calm_modTrunk (s : State) (t : Nat) (f : Trunk → Trunk) : Calm [.trunks] s (s.modTrunk t f) :=
  calm_setTrunk _ _ _

theorem calm_setFlight (s : State) (t : Nat) (f : Flight) : Calm [.trunks] s (setFlight t f s) := calm_modTrunk _ _ _

theorem calm_trunks (s : State) (v : Table Trunk) : Calm [.trunks] s { s with trunks := v } :=
  .of_touches (fun f => by cases f <;> first | exact .inr rfl | exact .inl (by decide))

theorem calm_setAboard (s : State) (c k : Nat) (l : List (Nat × Nat)) : Calm [.aboard] s (s.setAboard c k l) :=
  .of_touches (fun f => by cases f <;> first | exact .inr rfl | exact .inl (by decide))

theorem calm_orders (s : State) (v : OrdersCopy) : Calm [.orders] s { s with orders := v } :=
  .of_touches (fun f => by cases f <;> first | exact .inr rfl | exact .inl (by decide))

theorem calm_faults (s : State) (v : FaultList) : Calm [.faults] s { s with faults := v } :=
  .of_touches (fun f => by cases f <;> first | exact .inr rfl | exact .inl (by decide))

theorem attend_getLsbD (s : State) (i j : Nat) (h : s.attention.getLsbD j = true) :
    (attend i s).attention.getLsbD j = true := by
  unfold attend
  rw [BitVec.getLsbD_or, h, Bool.true_or]

theorem calm_attend (s : State) (i : Nat) : Calm [.attention] s (attend i s) :=
  ⟨fun f => by cases f <;> first | exact .inr rfl | exact .inl (by decide), fun h => h.of_same rfl rfl rfl rfl,
   fun _ => id, fun _ _ _ => rfl, attend_getLsbD s i, fun a => areaSweep_of_same rfl rfl a⟩

/-- The bit that an attention event sets (R12). -/
theorem attend_sets (s : State) {i : Nat} (hi : i < 12) : (attend i s).attention.getLsbD i = true := by
  unfold attend
  rw [BitVec.getLsbD_or, BitVec.getLsbD_ofNat]
  simp [hi, Nat.testBit_two_pow_self]

/-! ### Tenants, slots and programs -/

/-- A tenant's update that keeps its sweep and the numbers of its slots and programs. -/
theorem calm_setTenant (s : State) {t : Nat} (ht : t < 8) (v : Tenant) (h1 : v.sweep = (s.tenant t).sweep)
    (h2 : KeysOk s → KeysBelow 64 v.slots) (h3 : KeysOk s → KeysBelow 8 v.programs) :
    Calm [.tenants] s (s.setTenant t v) := by
  refine ⟨fun f => by cases f <;> first | exact .inr rfl | exact .inl (by decide), fun h => ?_, fun _ => id,
    fun _ _ _ => rfl, fun _ => id, fun a => ?_⟩
  · refine ⟨h.tenants.tableSet _ ht, fun e he => ?_, fun e he => ?_, h.heads, h.headTable, h.validating, h.board⟩
    · rcases mem_tableSet he with rfl | he
      · exact h2 h
      · exact h.slots e he
    · rcases mem_tableSet he with rfl | he
      · exact h3 h
      · exact h.programs e he
  · cases a with
    | building => rfl
    | tenant n =>
      show ((s.setTenant t v).tenant n.val).sweep = (s.tenant n.val).sweep
      rw [tenant_setTenant]
      split
      · next hn => rw [h1, hn]
      · rfl

/-- A tenant's update that leaves its sweep, its slots and its programs alone. -/
theorem calm_modTenant (s : State) {t : Nat} (ht : t < 8) (f : Tenant → Tenant)
    (h1 : ∀ x, (f x).sweep = x.sweep := by intro x; rfl) (h2 : ∀ x, (f x).slots = x.slots := by intro x; rfl)
    (h3 : ∀ x, (f x).programs = x.programs := by intro x; rfl) : Calm [.tenants] s (s.modTenant t f) :=
  calm_setTenant s ht _ (h1 _) (fun h => by rw [h2]; exact h.slotsOf t) (fun h => by rw [h3]; exact h.programsOf t)

theorem calm_modSlot (s : State) {t i : Nat} (ht : t < 8) (hi : i < 64) (f : Slot → Slot) :
    Calm [.tenants] s (s.modSlot t i f) :=
  calm_setTenant s ht _ rfl (fun h => (h.slotsOf t).tableSet _ hi) (fun h => h.programsOf t)

theorem calm_modProgram (s : State) {t p : Nat} (ht : t < 8) (hp : p < 8) (f : Program → Program) :
    Calm [.tenants] s (s.modProgram t p f) :=
  calm_setTenant s ht _ rfl (fun h => h.slotsOf t) (fun h => (h.programsOf t).tableSet _ hp)

/-! ### Heads and the Board Table -/

theorem calm_heads (s : State) (v : Table Head) (h : KeysOk s → KeysBelow 992 v) : Calm [.heads] s { s with heads := v } :=
  ⟨fun f => by cases f <;> first | exact .inr rfl | exact .inl (by decide),
   fun k => ⟨k.tenants, k.slots, k.programs, h k, k.headTable, k.validating, k.board⟩, fun _ => id,
   fun _ _ _ => rfl, fun _ => id, fun a => areaSweep_of_same rfl rfl a⟩

theorem calm_mapHeads (s : State) (f : Nat × Head → Head) :
    Calm [.heads] s { s with heads := s.heads.map (fun e => (e.1, f e)) } :=
  calm_heads s _ (fun k => k.heads.map _)

theorem calm_modHead (s : State) (k : Nat) (f : Head → Head) : Calm [.heads] s (s.modHead k f) := by
  unfold State.modHead
  split
  · exact Calm.refl _
  · next h hf => exact calm_heads s _ (fun ks => ks.heads.tableSet _ (ks.heads.find hf))

theorem calm_board (s : State) (v : Table BoardEntry) (n : Nat) (h : KeysOk s → KeysBelow 384 v) :
    Calm [.board, .boardCreated] s { s with board := v, boardCreated := n } :=
  ⟨fun f => by cases f <;> first | exact .inr rfl | exact .inl (by decide),
   fun k => ⟨k.tenants, k.slots, k.programs, k.heads, k.headTable, k.validating, h k⟩, fun _ => id,
   fun _ _ _ => rfl, fun _ => id, fun a => areaSweep_of_same rfl rfl a⟩

theorem calm_boardOnly (s : State) (v : Table BoardEntry) (h : KeysOk s → KeysBelow 384 v) :
    Calm [.board] s { s with board := v } :=
  ⟨fun f => by cases f <;> first | exact .inr rfl | exact .inl (by decide),
   fun k => ⟨k.tenants, k.slots, k.programs, k.heads, k.headTable, k.validating, h k⟩, fun _ => id,
   fun _ _ _ => rfl, fun _ => id, fun a => areaSweep_of_same rfl rfl a⟩

/-! ### Published writes and faults -/

theorem calm_publish (s : State) (r : RecordId) (h : KeysOk s → RecordOk r) : Calm [.ram, .stamps] s (publish s r) :=
  ⟨fun f => by cases f <;> first | exact .inr rfl | exact .inl (by decide), fun k => k.of_same rfl rfl rfl rfl,
   fun k m => memWf_publish (h k) m, fun k _ ha => memGet_publish_host s (h k) ha, fun _ => id,
   fun a => areaSweep_of_same rfl rfl a⟩

/-- Published writes change nothing but the shared RAM and the stamps, so they are one publish after another. -/
theorem publishList_eq (s : State) (rs : List RecordId) : publishList s rs = rs.foldl publish s := by
  induction rs generalizing s with
  | nil => rfl
  | cons r rs ih => rw [List.foldl_cons, ← ih (publish s r)]; rfl

theorem calm_publishList (s : State) (rs : List RecordId) (h : KeysOk s → ∀ r ∈ rs, RecordOk r) :
    Calm [.ram, .stamps] s (publishList s rs) := by
  rw [publishList_eq]
  induction rs generalizing s with
  | nil => exact Calm.refl _
  | cons r rs ih =>
    have h1 := calm_publish s r (fun k => h k r List.mem_cons_self)
    have back : KeysOk (publish s r) → KeysOk s := fun k => k.of_same rfl rfl rfl rfl
    exact h1.trans (ih (publish s r) (fun k x hx => h (back k) x (List.mem_cons_of_mem _ hx)))

theorem calm_setFaultList (s : State) {o : ListOwner} (ho : OwnerOk o) (l : FaultList) :
    Calm [.tenants, .faults] s (s.setFaultList o l) := by
  cases o with
  | none => exact Calm.mono (gs := [.tenants, .faults]) (calm_faults s l)
  | some t => exact Calm.mono (gs := [.tenants, .faults]) (calm_modTenant s (ho t rfl) (fun ten => { ten with faults := l }))

/-- The RAM's part of a fault's placement: the flag and the record, both inside the entry (R54, R55). -/
theorem calm_place (u : State) {o : ListOwner} (ho : OwnerOk o) {i : Nat} (hi : i < faultEntries o) (r : FaultRecord) :
    Calm [.ram, .stamps] u (publishBytes { u with ram := memWrite u.ram (faultBase o + 32 * i) (u32 1) }
      (faultBase o + 32 * i + 4) (faultBody r)) := by
  have e : ∀ a, hubByte a = false → a < faultBase o + 32 * i ∨ faultBase o + 32 * i + 32 ≤ a := fun a ha => by
    by_contra hc
    have := (entry_hubByte ho hi (a := a) (by omega) (by omega)).1
    simp [ha] at this
  have b := (entry_hubByte ho hi (a := faultBase o + 32 * i + 31) (by omega) (by omega)).2
  refine ⟨fun f => by cases f <;> first | exact .inr rfl | exact .inl (by decide),
    fun k => k.of_same rfl rfl rfl rfl, fun _ m => ?_, fun _ a ha => memGet_place_out _ _ _ _ (e a ha), fun _ => id,
    fun a => areaSweep_of_same rfl rfl a⟩
  refine memWf_publishBytes ?_ (by rw [wordRest_fault, faultBody_length]; omega)
  exact memWf_memWrite m (by rw [u32_length]; omega)

/-- A fault's placement touches the shared RAM, the list's counters and Attention (R54, R55). -/
theorem calm_raise (s : State) (f : Raised) (ho : OwnerOk f.tenant) :
    Calm [.ram, .stamps, .attention, .tenants, .faults] s (raise f s) := by
  unfold raise
  have ho' : OwnerOk (if toSupervisor s f then none else f.tenant) := by
    split
    · intro t h; cases h
    · exact ho
  generalize (if toSupervisor s f then (none : ListOwner) else f.tenant) = o at ho'
  simp only
  split
  · exact (calm_setFaultList s ho' _).mono
  · next i hi =>
    exact (((calm_setFaultList s ho' _).mono).trans ((calm_place _ ho' (freeEntry_lt hi) _).mono)).trans
      (calm_attend _ _).mono

/-- A fault of no tenant leaves every tenant alone (R53). -/
theorem calm_raiseSupervisor (s : State) (f : Raised) (hf : f.tenant = none) :
    Calm [.ram, .stamps, .attention, .faults] s (raise f s) := by
  have hs : toSupervisor s f = true := by simp [toSupervisor, hf]
  have h := calm_raise s f (fun _ h => by rw [hf] at h; cases h)
  refine ⟨fun g => ?_, h.keys, h.form, h.bytes, h.attention, h.sweeps⟩
  by_cases ht : g = .tenants
  · refine .inr ?_
    subst ht
    show (raise f s).tenants = s.tenants
    unfold raise
    simp only [hs, if_true]
    split <;> rfl
  · refine (h.touches g).imp (fun m => ?_) id
    simp at m ⊢
    tauto

theorem calm_raiseFailure (s : State) {t : Nat} (ht : t < 8) (src : SourceKind) (a b : Option Nat) (n : Nat)
    (f : Failure) : Calm [.ram, .stamps, .attention, .tenants, .faults] s (raiseFailure t src a b n f s) :=
  calm_raise s _ (fun u hu => by cases hu; exact ht)

end Sys2Proof.Laws
end

