-- ==== Sys2Proof/Laws/Characters.lean ====
section
/-!
SUPPORT. The characters of a line (R149), the checks that a frame or a reply ends with (R175), and the lines that an
Orders record makes READY (R34).
-/

namespace Sys2Proof.Laws

open Sys2Proof Sys2Proof.Machine

/-- A character as sent is 11 levels. -/
@[simp] theorem characterLevels_length (b : Byte) : (characterLevels b).length = 11 := by simp [characterLevels]

/-- What 11 levels as sent are received as. -/
@[simp] theorem receivedFrom_characterLevels (b : Byte) : receivedFrom (characterLevels b) = goodCharacter b := by
  revert b; decide

/-- An undisturbed character is good. -/
@[simp] theorem badCharacter_goodCharacter (b : Byte) : badCharacter (goodCharacter b) = false := by
  simp [badCharacter, goodCharacter]

/-- A character whose stop bit is at the break level is bad. -/
theorem badCharacter_of_stop {x : Received} (h : x.stop = false) : badCharacter x = true := by simp [badCharacter, h]

/-- A frame that carries its CRC-16 ends with a good one. -/
theorem endsWithCrc_withCrc (lead : Byte) (body : List Byte) : endsWithCrc (withCrc lead body) = true := by
  have h : (withCrc lead body).length - 2 = body.length + 1 := by simp [withCrc, be16]
  unfold endsWithCrc
  simp only [h]
  simp [withCrc, be16]

/-- The lines an Orders record can make READY are SHUT ones. -/
theorem mem_readiedLines {s : State} {changed : List (Nat × Bool)} {restores : Bool} {t : Nat} {l : LineId}
    (h : l ∈ readiedLines s changed restores t) : ((s.trunk t).line l).shut.isSome = true := by
  simp only [readiedLines, List.mem_filter] at h
  cases hs : ((s.trunk t).line l).shut <;> simp_all

/-- A one-time stamp does not act at an absent baseline, nor at an equal one (R33). -/
@[simp] theorem stampActs_none (v : Stamp) : stampActs none v = false := rfl
@[simp] theorem stampActs_same (v : Stamp) : stampActs (some v) v = false := by simp [stampActs]

end Sys2Proof.Laws
end

