-- ==== Sys2Proof/Laws/Notices.lean ====
section
/-!
SUPPORT. What the Notice Unit's and the announcements' operations can change (06, 07).
-/

namespace Sys2Proof.Laws

set_option Elab.async false -- one theorem at a time: side by side, these files' proofs ask for too many threads

open Sys2Proof Sys2Proof.Machine Sys2Proof.Safety

/-! ### Notice programs (07) -/

@[simp] theorem stop_state (p : Program) : p.stop.state = .idle := rfl
@[simp] theorem stop_current (p : Program) : p.stop.current = none := rfl
@[simp] theorem stop_cause (p : Program) : p.stop.cause = none := rfl
@[simp] theorem stop_expiry (p : Program) : p.stop.expiry = none := rfl
@[simp] theorem stop_waiting (p : Program) : p.stop.waiting = none := rfl
@[simp] theorem stop_share (p : Program) : p.stop.share = .none := rfl
@[simp] theorem stop_zeroTime (p : Program) : p.stop.zeroTime = p.zeroTime := rfl
@[simp] theorem stop_start (p : Program) : p.stop.start = p.start := rfl
@[simp] theorem stop_runBase (p : Program) : p.stop.runBase = p.runBase := rfl
@[simp] theorem stop_stopBase (p : Program) : p.stop.stopBase = p.stopBase := rfl

/-- A stop of a FAULTED program keeps what its run left (R119). -/
theorem stop_faulted (p : Program) (h : p.state = .faulted) :
    p.stop.counters = p.counters ∧ p.stop.target = p.target := by simp [Program.stop, h]

/-- A stop of a program that runs, or that is DONE, drops its counters and target (R115, R119). -/
theorem stop_run (p : Program) (h : p.state = .running ∨ p.state = .waiting ∨ p.state = .done) :
    p.stop.counters = [] ∧ p.stop.target = .empty := by
  obtain h | h | h := h <;> simp [Program.stop, h]

@[simp] theorem forget_state (p : Program) : p.forget.state = .idle := rfl
@[simp] theorem forget_counters (p : Program) : p.forget.counters = [] := rfl
@[simp] theorem forget_zeroTime (p : Program) : p.forget.zeroTime = 0 := rfl
@[simp] theorem forget_target (p : Program) : p.forget.target = .empty := rfl
@[simp] theorem forget_runBase (p : Program) : p.forget.runBase = none := rfl
@[simp] theorem forget_stopBase (p : Program) : p.forget.stopBase = none := rfl
@[simp] theorem forget_start (p : Program) : p.forget.start = p.start := rfl

theorem calm_faultProgram (s : State) {t p : Nat} (ht : t < 8) (hp : p < 8) (i : Nat) (c : Cause) (n : Nat) :
    Calm [.ram, .stamps, .attention, .tenants, .faults] s (faultProgram t p i c n s) :=
  ((calm_modProgram s ht hp _).mono).trans (calm_raise _ _ (fun u hu => by cases hu; exact ht))

theorem calm_showShare (s : State) {t p : Nat} (ht : t < 8) (hp : p < 8) (i ms : Nat) (sh : Share) :
    Calm [.tenants] s (showShare t p i ms sh s).1 := by
  unfold showShare; split <;> dsimp only <;> exact calm_modProgram s ht hp _

theorem calm_doGoto (s : State) {t p : Nat} (ht : t < 8) (hp : p < 8) (i : Nat) (st : Machine.Step) :
    Calm [.ram, .stamps, .attention, .tenants, .faults] s (doGoto t p i st s).1 := by
  unfold doGoto
  split
  · exact calm_faultProgram s ht hp _ _ _
  · simp only
    split
    · exact .refl _
    · split <;> dsimp only <;> exact (calm_modProgram s ht hp _).mono

theorem calm_onTimeout (s : State) {t p : Nat} (ht : t < 8) (hp : p < 8) (i : Nat) (st : Machine.Step) :
    Calm [.tenants] s (onTimeout t p i st s).1 := by
  unfold onTimeout
  split
  · exact .refl _
  · dsimp only; exact calm_modProgram s ht hp _

theorem calm_doWait (s : State) {t p : Nat} (ht : t < 8) (hp : p < 8) (i : Nat) (st : Machine.Step)
    (r : Except Failure Nat) :
    Calm [.ram, .stamps, .attention, .tenants, .faults, .cars] s (doWait t p i st r s).1 := by
  unfold doWait
  split
  · exact ((calm_raiseFailure s ht _ _ _ _ _).mono).trans (calm_onTimeout _ ht hp _ _).mono
  · split
    · exact .refl _
    · split
      · dsimp only; exact (calm_modCar s _ _).mono
      · dsimp only; exact (calm_modProgram s ht hp _).mono

theorem calm_beginStep (s : State) {t p : Nat} (ht : t < 8) (hp : p < 8) (i : Nat) :
    Calm [.ram, .stamps, .attention, .tenants, .faults, .cars] s (beginStep t p i s).1 := by
  unfold beginStep
  simp only
  split
  · exact ((calm_modProgram s ht hp _).mono).trans (calm_faultProgram _ ht hp _ _ _).mono
  · refine Calm.trans (t := s.modProgram t p fun x =>
      { x with state := .running, current := some i, expiry := none, waiting := none })
      (calm_modProgram s ht hp _).mono ?_
    generalize (s.modProgram t p fun x =>
      { x with state := .running, current := some i, expiry := none, waiting := none }) = u
    generalize zeroTimeAfter _ _ _ = n
    split
    · dsimp only; exact ((calm_modProgram u ht hp _).mono).trans (calm_faultProgram _ ht hp _ _ _).mono
    · split
      · dsimp only; exact ((calm_modProgram u ht hp _).mono).trans (calm_modProgram _ ht hp _).mono
      · split
        · exact ((calm_modProgram u ht hp _).mono).trans (calm_showShare _ ht hp _ _ _).mono
        · dsimp only; exact ((calm_modProgram u ht hp _).mono).trans (calm_faultProgram _ ht hp _ _ _).mono
      · exact ((calm_modProgram u ht hp _).mono).trans (calm_showShare _ ht hp _ _ _).mono
      · exact ((calm_modProgram u ht hp _).mono).trans (calm_doWait _ ht hp _ _ _)
      · exact ((calm_modProgram u ht hp _).mono).trans (calm_doGoto _ ht hp _ _).mono

/-- A program's piece of work changes programs, faults, marks and the shared RAM (R111). -/
theorem calm_runFrom (s : State) {t p : Nat} (ht : t < 8) (hp : p < 8) (fuel i : Nat) :
    Calm [.ram, .stamps, .attention, .tenants, .faults, .cars] s (runFrom t p fuel i s) := by
  induction fuel generalizing i s with
  | zero => exact .refl _
  | succ n ih =>
    unfold runFrom
    split
    · exact (calm_modProgram s ht hp _).mono
    · simp only
      split
      · exact calm_beginStep s ht hp i
      · exact (calm_beginStep s ht hp i).trans (ih _ _)

theorem calm_advance (s : State) {t p : Nat} (ht : t < 8) (hp : p < 8) :
    Calm [.ram, .stamps, .attention, .tenants, .faults, .cars] s (advance t p s) := calm_runFrom s ht hp _ _

theorem calm_waitExpired (s : State) {t p : Nat} (ht : t < 8) (hp : p < 8) :
    Calm [.ram, .stamps, .attention, .tenants, .faults, .cars] s (waitExpired t p s) := by
  unfold waitExpired
  simp only
  split
  · exact (calm_onTimeout s ht hp _ _).mono
  · exact ((calm_onTimeout s ht hp _ _).mono).trans (calm_runFrom _ ht hp _ _)

theorem calm_resolveTarget (s : State) {t : Nat} (ht : t < 8) (p : Nat) (d : TargetDesc) :
    Calm [.ram, .stamps, .attention, .tenants, .faults] s (resolveTarget t p d s).1 := by
  unfold resolveTarget
  simp only
  split
  · split
    · exact .refl _
    · exact calm_raise _ _ (fun u hu => by cases hu; exact ht)
  · split
    · exact .refl _
    · exact calm_raiseFailure s ht _ _ _ _ _
  · exact .refl _

theorem calm_startProgram (s : State) {t p : Nat} (ht : t < 8) (hp : p < 8) :
    Calm [.ram, .stamps, .attention, .tenants, .faults, .cars] s (startProgram t p s) :=
  ((calm_resolveTarget s ht p _).mono).trans (((calm_modProgram _ ht hp _).mono).trans (calm_runFrom _ ht hp _ _))

theorem calm_stopProgram (s : State) {t p : Nat} (ht : t < 8) (hp : p < 8) :
    Calm [.tenants] s (stopProgram t p s) := calm_modProgram s ht hp _

theorem calm_handControl (s : State) {t p : Nat} (ht : t < 8) (hp : p < 8) (r : ControlRecord) :
    Calm [.ram, .stamps, .attention, .tenants, .faults, .cars] s (handControl t p r s) := by
  unfold handControl
  simp only
  split
  · split
    · split
      · exact (calm_modProgram s ht hp _).mono
      · exact ((calm_modProgram s ht hp _).mono).trans (calm_stopProgram _ ht hp).mono
    · split
      · exact ((calm_modProgram s ht hp _).mono).trans (calm_startProgram _ ht hp)
      · exact ((calm_modProgram s ht hp _).mono).trans
          (((calm_stopProgram _ ht hp).mono).trans (calm_startProgram _ ht hp))
  · exact (calm_modProgram s ht hp _).mono

theorem calm_idlePrograms (s : State) {t : Nat} (ht : t < 8) : Calm [.tenants] s (idlePrograms t s) :=
  calm_setTenant s ht _ rfl (fun h => h.slotsOf t) (fun h => (h.programsOf t).map _)

theorem mem_waiters {s : State} {c : Nat} {m : Mark} {tp : Nat × Nat} (h : tp ∈ waiters s c m) :
    tp.1 < 8 ∧ tp.2 < 8 := by
  obtain ⟨n, hn, rfl⟩ := List.mem_map.mp (List.mem_of_mem_filter h)
  have := List.mem_range.mp hn
  constructor <;> simp only <;> omega

/-- A mark setting (R75, R117). -/
theorem calm_setMark (s : State) (c : Nat) (m : Mark) :
    Calm [.ram, .stamps, .attention, .tenants, .faults, .cars] s (setMark c m s) := by
  unfold setMark
  simp only
  split
  · exact (calm_modCar s _ _).mono
  · exact ((calm_modCar s _ _).mono).trans
      (.foldl _ _ (fun tp h u => calm_advance u (mem_waiters h).1 (mem_waiters h).2) _)

/-! ### Announcements (06) -/

theorem calm_darken (s : State) (c k : Nat) : Calm [.cars] s (darken c k s) := calm_modDeck _ _ _ _

theorem calm_light (s : State) (c k x : Nat) (b : LitBy) : Calm [.cars] s (light c k x b s) := by
  unfold light; exact calm_modDeck _ _ _ _

theorem calm_rejudge (s : State) (c k : Nat) : Calm [.cars] s (rejudge c k s) := by
  unfold rejudge
  simp only
  split
  · exact .refl _
  · exact calm_modDeck _ _ _ _

theorem calm_relight (s : State) (c k : Nat) (b : LitBy) : Calm [.cars] s (relight c k b s) :=
  (calm_modDeck _ _ _ _).trans (calm_rejudge _ _ _)

theorem calm_announceAtReport (s : State) (c k : Nat) : Calm [.cars] s (announceAtReport c k s) := by
  unfold announceAtReport
  simp only
  split
  · split
    · exact .ite (.ite (calm_relight _ _ _ _) (calm_light _ _ _ _ _)) (calm_darken _ _ _)
    · exact calm_darken _ _ _
  · exact .ite (calm_relight _ _ _ _) (calm_darken _ _ _)
  · exact calm_darken _ _ _

theorem calm_announceAtDoor (s : State) (c k x : Nat) : Calm [.cars] s (announceAtDoor c k x s) :=
  .ite (calm_light _ _ _ _ _) (.refl _)

theorem calm_resettle (s : State) (c k l : Nat) : Calm [.cars] s (resettle c k l s) := by
  unfold resettle
  simp only
  split
  · split
    · exact .ite (calm_darken _ _ _) (.refl _)
    · exact .ite (calm_light _ _ _ _ _) (.refl _)
  · exact .refl _

theorem calm_darkenCar (s : State) (c : Nat) : Calm [.cars] s (darkenCar c s) :=
  (calm_darken _ _ _).trans (calm_darken _ _ _)

end Sys2Proof.Laws
end

