-- ==== Sys2Proof/Laws/Guidance.lean ====
section
/-!
SUPPORT. What the Guidance Unit's and the Position Unit's operations can change (04, 05).
-/

namespace Sys2Proof.Laws

set_option Elab.async false -- one theorem at a time: side by side, these files' proofs ask for too many threads

open Sys2Proof Sys2Proof.Machine Sys2Proof.Safety

/-! ### The Board Table and the Aboard Lists (R89, R90) -/

/-- What the search of the Board Table answers is a listed place. -/
theorem boardFind_mem {s : State} {l c k : Nat} {d : Dir} {x : Nat × BoardEntry} (h : boardFind s l c k d = some x) :
    x ∈ s.board := List.mem_of_find?_eq_some h

theorem freePlace_lt {s : State} {i : Nat} (h : freePlace s = some i) : i < 384 :=
  List.mem_range.mp (List.mem_of_find?_eq_some h)

theorem calm_boardAdd (s : State) (t l c k : Nat) (d : Dir) (x n : Nat) :
    Calm [.cars, .board, .boardCreated] s (boardAdd t l c k d x n s) := by
  unfold boardAdd
  split
  · next i e h =>
    have hb : KeysOk s → i < 384 := fun ks => ks.board.2 _ (boardFind_mem h)
    dsimp only
    split
    · exact (calm_boardOnly s _ (fun ks => ks.board.tableSet _ (hb ks))).mono
    · exact ((calm_boardOnly s _ (fun ks => ks.board.tableSet _ (hb ks))).mono).trans (calm_resettle _ _ _ _).mono
  · split
    · exact .refl _
    · next i h =>
      exact ((calm_board s _ _ (fun ks => ks.board.tableSet _ (freePlace_lt h))).mono).trans (calm_resettle _ _ _ _).mono

theorem calm_boardRemove (s : State) (l c k : Nat) (d : Dir) (x n : Nat) :
    Calm [.cars, .board] s (boardRemove l c k d x n s) := by
  unfold boardRemove
  split
  · exact .refl _
  · next i e h =>
    have hb : KeysOk s → KeysBelow 384 (if (subCount e.destinations x n).isEmpty then tableErase s.board i
        else tableSet s.board i { e with destinations := subCount e.destinations x n }) := fun ks => by
      split
      · exact ks.board.filter _
      · exact ks.board.tableSet _ (ks.board.2 _ (boardFind_mem h))
    dsimp only
    split
    · exact (calm_boardOnly s _ hb).mono
    · exact ((calm_boardOnly s _ hb).mono).trans (calm_resettle _ _ _ _).mono

theorem calm_boardEmpty (s : State) (f : BoardEntry → Bool) : Calm [.board] s (boardEmpty f s) :=
  calm_boardOnly s _ (fun ks => ks.board.filter _)

theorem calm_aboardAdd (s : State) (c k x n : Nat) : Calm [.cars, .aboard] s (aboardAdd c k x n s) := by
  unfold aboardAdd
  dsimp only
  split
  · exact (calm_setAboard s _ _ _).mono
  · exact ((calm_setAboard s _ _ _).mono).trans (calm_resettle _ _ _ _).mono

theorem calm_aboardRemove (s : State) (c k x n : Nat) : Calm [.cars, .aboard] s (aboardRemove c k x n s) := by
  unfold aboardRemove
  dsimp only
  split
  · exact (calm_setAboard s _ _ _).mono
  · exact ((calm_setAboard s _ _ _).mono).trans (calm_resettle _ _ _ _).mono

theorem calm_aboardDeliver (s : State) (c k x : Nat) : Calm [.cars, .aboard] s (aboardDeliver c k x s) := by
  unfold aboardDeliver
  dsimp only
  split
  · exact ((calm_setAboard s _ _ _).mono).trans (calm_resettle _ _ _ _).mono
  · exact (calm_setAboard s _ _ _).mono

/-! ### Retirement (R88) -/

theorem calm_dropCount (s : State) (x : Slot) : Calm [.cars, .board, .aboard] s (dropCount x s) := by
  unfold dropCount
  split
  · split
    · exact (calm_boardRemove s _ _ _ _ _ _).mono
    · exact (calm_aboardRemove s _ _ _ _).mono
    · exact .refl _
  · exact .refl _

theorem calm_retire (s : State) {t i : Nat} (ht : t < 8) (hi : i < 64) (o : Outcome) (r : Option Refused) :
    Calm [.attention, .tenants, .cars, .board, .aboard] s (retire t i o r s) :=
  (((calm_modSlot s ht hi _).mono).trans (calm_dropCount _ _).mono).trans (calm_attend _ _).mono

/-- A slot that is not live holds no count: its retirement changes no car, no board entry and no Aboard List (R88). -/
theorem retire_not_live {s : State} {t i : Nat} (h : (s.slot t i).live = false) (o : Outcome) (r : Option Refused) :
    (retire t i o r s).cars = s.cars ∧ (retire t i o r s).board = s.board ∧ (retire t i o r s).aboard = s.aboard := by
  have drop : ∀ u : State, dropCount (s.slot t i) u = u := fun u => by
    unfold dropCount
    split
    · split <;> first | rfl | simp_all [Slot.live]
    · rfl
  simp [retire, drop]

theorem mem_allSlots {s : State} {ti : Nat × Nat} (h : ti ∈ allSlots s) : ti.1 < 8 ∧ ti.2 < 64 := by
  simp only [allSlots, List.mem_flatMap, List.mem_map, List.mem_filter, List.mem_range] at h
  obtain ⟨t, ht, i, ⟨-, hi⟩, rfl⟩ := h
  exact ⟨ht, of_decide_eq_true hi⟩

theorem mem_slotsWhere {s : State} {f : Slot → Bool} {ti : Nat × Nat} (h : ti ∈ slotsWhere s f) :
    ti.1 < 8 ∧ ti.2 < 64 := mem_allSlots (List.mem_of_mem_filter h)

theorem calm_retireWhere (s : State) (f : Nat → Slot → Bool) (o : Outcome) :
    Calm [.attention, .tenants, .cars, .board, .aboard] s (retireWhere f o s) :=
  .foldl _ _ (fun _ h u => calm_retire u (mem_allSlots (List.mem_of_mem_filter h)).1
    (mem_allSlots (List.mem_of_mem_filter h)).2 _ _) _

/-! ### Prompts and requests (R78, R80 to R84, R92) -/

theorem calm_addPrompt (s : State) (k : Nat) (p : Prompt) : Calm [.heads] s (addPrompt k p s) := calm_modHead _ _ _

theorem calm_promptFor (s : State) (t i : Nat) (k : Option Nat) (hold : Nat) :
    Calm [.heads] s (promptFor t i k hold s) := by
  unfold promptFor
  split
  · exact .refl _
  · exact calm_addPrompt _ _ _

theorem calm_refuse (s : State) {t i : Nat} (ht : t < 8) (hi : i < 64) (r : Refused) (k : Option Nat) (hold : Nat) :
    Calm [.attention, .tenants, .cars, .board, .aboard, .heads] s (refuse t i r k hold s) :=
  ((calm_retire s ht hi _ _).mono).trans (calm_promptFor _ _ _ _ _).mono

theorem calm_refuseFailure (s : State) {t i : Nat} (ht : t < 8) (hi : i < 64) (n : Nat) (f : Failure)
    (k : Option Nat) (hold : Nat) :
    Calm [.ram, .stamps, .attention, .tenants, .faults, .cars, .board, .aboard, .heads] s
      (refuseFailure t i n f k hold s) :=
  ((calm_raiseFailure s ht _ _ _ _ _).mono).trans (calm_refuse _ ht hi _ _ _).mono

theorem calm_takeSlot (s : State) {t i : Nat} (ht : t < 8) (hi : i < 64) (c k o d : Nat) (dir : Dir) (party : Nat)
    (kiosk : Option Nat) (hold : Nat) :
    Calm [.tenants, .cars, .board, .boardCreated, .heads] s (takeSlot t i c k o d dir party kiosk hold s) :=
  (((calm_modSlot s ht hi _).mono).trans (((calm_boardAdd _ _ _ _ _ _ _ _).mono).trans
    (.ite (calm_rejudge _ _ _).mono (.refl _)))).trans (calm_promptFor _ _ _ _ _).mono

/-- What a request's slot work may change. -/
abbrev requestFields : List Field :=
  [.ram, .stamps, .attention, .tenants, .faults, .cars, .board, .boardCreated, .aboard, .heads]

theorem calm_post (s : State) {t i : Nat} (ht : t < 8) (hi : i < 64) (r : SlotRequest) :
    Calm requestFields s (post t i r s) := by
  have hm : ∀ (u : State) (f : Slot → Slot), Calm requestFields u (u.modSlot t i f) := fun u f =>
    (calm_modSlot u ht hi f).mono
  have hr : ∀ (u : State) (n : Nat) (f : Failure) (k : Option Nat) (hold : Nat),
      Calm requestFields u (refuseFailure t i n f k hold u) := fun u n f k hold =>
    (calm_refuseFailure u ht hi n f k hold).mono
  unfold post
  dsimp only
  split
  · exact (hm _ _).trans (hr _ _ _ _ _)
  · split
    · exact (hm _ _).trans (hr _ _ _ _ _)
    · split
      · exact ((hm _ _).trans (hm _ _)).trans (hr _ _ _ _ _)
      · split
        · exact (((hm _ _).trans (hm _ _)).trans (hm _ _)).trans (hr _ _ _ _ _)
        · split
          · exact ((((hm _ _).trans (hm _ _)).trans (hm _ _)).trans (hm _ _)).trans (calm_refuse _ ht hi _ _ _).mono
          · exact ((((hm _ _).trans (hm _ _)).trans (hm _ _)).trans (hm _ _)).trans
              (calm_takeSlot _ ht hi _ _ _ _ _ _ _ _).mono

theorem calm_conflict (s : State) {t i : Nat} (ht : t < 8) (hi : i < 64) :
    Calm [.ram, .stamps, .attention, .tenants, .faults] s (conflict t i s) :=
  ((calm_modSlot s ht hi _).mono).trans (calm_raise _ _ (fun u hu => by cases hu; exact ht))

theorem calm_cancel (s : State) {t i : Nat} (ht : t < 8) (hi : i < 64) :
    Calm [.attention, .tenants, .cars, .board, .aboard] s (cancel t i s) := by
  unfold cancel
  split
  · exact ((calm_modSlot s ht hi _).mono).trans (calm_retire _ ht hi _ _)
  · exact (calm_modSlot s ht hi _).mono

theorem calm_handRequest (s : State) {t i : Nat} (ht : t < 8) (hi : i < 64) (r : SlotRequest) :
    Calm requestFields s (handRequest t i r s) := by
  unfold handRequest
  split
  · exact .ite (calm_conflict s ht hi).mono (calm_post s ht hi r)
  · exact (calm_cancel s ht hi).mono
  · exact (calm_conflict s ht hi).mono

/-! ### DOOR (R85, R86, R102) -/

theorem calm_deliver (s : State) (c k x : Nat) : Calm [.attention, .tenants, .cars, .aboard] s (deliver c k x s) := by
  unfold deliver
  dsimp only
  exact Calm.trans (.foldl _ _ (fun _ h u => ((calm_modSlot u (mem_slotsWhere h).1 (mem_slotsWhere h).2 _).mono).trans
    (calm_attend _ _).mono) _) (calm_aboardDeliver _ _ _ _).mono

theorem calm_boardOne (s : State) (c k : Nat) {t i : Nat} (ht : t < 8) (hi : i < 64) :
    Calm [.attention, .tenants, .cars, .board, .aboard] s (boardOne c k t i s) := by
  unfold boardOne
  dsimp only
  split
  · exact (((calm_dropCount s _).mono).trans (calm_modSlot _ ht hi _).mono).trans (calm_aboardAdd _ _ _ _ _).mono
  · exact (((calm_dropCount s _).mono).trans (calm_modSlot _ ht hi _).mono).trans (calm_attend _ _).mono

theorem mem_insertByAge {age : Nat × Nat → Nat} {ti u : Nat × Nat} {l : List (Nat × Nat)}
    (h : u ∈ insertByAge age ti l) : u = ti ∨ u ∈ l := by
  induction l with
  | nil => simpa [insertByAge] using h
  | cons a l ih =>
    unfold insertByAge at h
    split at h
    · simpa using h
    · rcases List.mem_cons.mp h with h | h
      · exact .inr (h ▸ List.mem_cons_self)
      · exact (ih h).imp id (List.mem_cons_of_mem _)

theorem mem_byTakeTime {s : State} {l : List (Nat × Nat)} {u : Nat × Nat} (h : u ∈ byTakeTime s l) : u ∈ l := by
  have aux : ∀ (l acc : List (Nat × Nat)), u ∈ l.foldl (fun acc ti =>
      insertByAge (fun u => elapsed (s.slot u.1 u.2).takeTime s.hubTime) ti acc) acc → u ∈ l ∨ u ∈ acc := by
    intro l
    induction l with
    | nil => exact fun _ h => .inr h
    | cons a l ih =>
      intro acc h
      rcases ih _ h with h | h
      · exact .inl (List.mem_cons_of_mem _ h)
      · rcases mem_insertByAge h with rfl | h
        · exact .inl List.mem_cons_self
        · exact .inr h
  exact (aux l [] h).resolve_right (by simp)

theorem mem_boarders {s : State} {c k x : Nat} {ti : Nat × Nat} (h : ti ∈ boarders s c k x) : ti.1 < 8 ∧ ti.2 < 64 :=
  mem_slotsWhere (mem_byTakeTime h)

/-- DOOR: announcement, delivery and boarding. -/
theorem calm_door (s : State) (c k x : Nat) :
    Calm [.attention, .tenants, .cars, .board, .aboard] s (door c k x s) :=
  (((calm_announceAtDoor s c k x).mono).trans (calm_deliver _ _ _ _).mono).trans
    (.foldl _ _ (fun _ h u => calm_boardOne u c k (mem_boarders h).1 (mem_boarders h).2) _)

/-! ### Bulk retirement (R97) -/

theorem calm_emptyPrompts (s : State) (t : Nat) : Calm [.heads] s (emptyPrompts t s) := calm_mapHeads s _

theorem calm_emptyAboard (s : State) (c : Nat) : Calm [.aboard] s (emptyAboard c s) :=
  (calm_setAboard _ _ _ _).trans (calm_setAboard _ _ _ _)

theorem calm_retireTenant (s : State) (t : Nat) :
    Calm [.attention, .tenants, .cars, .board, .aboard, .heads] s (retireTenant t s) :=
  ((calm_retireWhere s _ _).mono).trans (((Calm.foldl (fs := [.aboard]) _ _
    (fun c _ u => calm_emptyAboard u c) _).mono).trans
      (((calm_boardEmpty _ _).mono).trans (calm_emptyPrompts _ _).mono))

/-! ### The Position Unit (04) -/

/-- What a mark setting may change. -/
abbrev markFields : List Field := [.ram, .stamps, .attention, .tenants, .faults, .cars]

theorem calm_enterParked (s : State) (c : Nat) : Calm markFields s (enterParked c s) :=
  (((calm_modCar s c _).mono).trans (calm_darkenCar _ _).mono).trans (calm_setMark _ _ _)

theorem calm_toAcquiring (s : State) (marks : Bool) (c : Nat) : Calm [.cars] s (toAcquiring marks c s) :=
  (calm_modCar s c _).trans (calm_darkenCar _ _)

theorem calm_departArrive (s : State) (c k : Nat) (b : Deck) : Calm markFields s (departArrive c k b s) := by
  unfold departArrive
  dsimp only
  split
  · split
    · exact (((calm_modDeck s _ _ _).mono).trans (calm_setMark _ _ _)).trans
        (((calm_modDeck _ _ _ _).mono).trans (calm_setMark _ _ _))
    · exact ((calm_modDeck s _ _ _).mono).trans (calm_setMark _ _ _)
  · split
    · exact ((calm_modDeck s _ _ _).mono).trans (calm_setMark _ _ _)
    · exact .refl _

/-- What a report's work may change. -/
abbrev reportFields : List Field := [.ram, .stamps, .attention, .tenants, .faults, .cars, .board, .aboard]

theorem calm_doorEvent (s : State) (c k : Nat) : Calm reportFields s (doorEvent c k s) := by
  unfold doorEvent
  exact .ite (((calm_modDeck s _ _ _).mono).trans (((calm_setMark _ _ _).mono).trans (calm_door _ _ _ _).mono))
    (.refl _)

theorem calm_deckEvents (s : State) (c : Nat) (b : Car) (k : Nat) : Calm reportFields s (deckEvents c b s k) := by
  have h1 := calm_departArrive s c k (b.deck k)
  have h2 := calm_announceAtReport (departArrive c k (b.deck k) s) c k
  have h3 := calm_doorEvent (announceAtReport c k (departArrive c k (b.deck k) s)) c k
  exact (h1.mono (gs := reportFields)).trans ((h2.mono (gs := reportFields)).trans h3)

theorem calm_anchorReport (s : State) (j : Judged) (c : Nat) : Calm [.cars] s (anchorReport j c s) := by
  unfold anchorReport; exact calm_setCar _ _ _

theorem calm_applyReport (s : State) (j : Judged) (c : Nat) : Calm reportFields s (applyReport j c s) := by
  unfold applyReport
  dsimp only
  exact ((calm_setCar s c _).mono).trans (.foldl _ _ (fun k _ u => calm_deckEvents u c _ k) _)

theorem calm_plausibleReport (s : State) (j : Judged) (c : Nat) : Calm reportFields s (plausibleReport j c s) := by
  unfold plausibleReport
  dsimp only
  split
  · exact calm_applyReport _ _ _
  · exact .ite (calm_applyReport _ _ _) (calm_anchorReport _ _ _).mono
  · exact ((calm_modCar s c _).mono).trans (calm_anchorReport _ _ _).mono

theorem calm_implausibleReport (s : State) (c : Nat) : Calm markFields s (implausibleReport c s) := by
  unfold implausibleReport
  dsimp only
  split
  · exact (calm_setCar s c _).mono
  · split
    · exact ((calm_setCar s c _).mono).trans (calm_enterParked _ _)
    · exact (calm_setCar s c _).mono
  · split
    · exact ((calm_setCar s c _).mono).trans (calm_enterParked _ _)
    · exact (calm_setCar s c _).mono

theorem calm_declaredOf (s : State) {t : Nat} (ht : t < 8) (i : Nat) (r : ReportRecord) :
    Calm [.ram, .stamps, .attention, .tenants, .faults] s (declaredOf t i r s).1 := by
  unfold declaredOf
  split
  · exact .refl _
  · split
    · exact .refl _
    · exact calm_raiseFailure s ht _ _ _ _ _

/-- An accepted Car Report (R56 to R58). -/
theorem calm_handReport (s : State) {t : Nat} (ht : t < 8) (i : Nat) (st : Stamp) (r : ReportRecord) :
    Calm reportFields s (handReport t i st r s) := by
  unfold handReport
  split
  · exact (calm_raiseFailure s ht _ _ _ _ _).mono
  · dsimp only
    split
    · exact ((calm_declaredOf s ht _ _).mono).trans (calm_implausibleReport _ _).mono
    · exact ((calm_declaredOf s ht _ _).mono).trans (calm_plausibleReport _ _ _)

theorem calm_freshnessExpired (s : State) (c : Nat) : Calm markFields s (freshnessExpired c s) := by
  unfold freshnessExpired
  split
  · exact calm_enterParked _ _
  · exact (calm_modCar s c _).mono
  · exact (calm_modCar s c _).mono

end Sys2Proof.Laws
end

