-- ==== Sys2Proof/Laws/Trunks.lean ====
section
/-!
SUPPORT. What the Compositor's, the Trunk Controllers' and the Override Unit's operations can change (08 to 11), and what
the end of an event does.
-/

namespace Sys2Proof.Laws

set_option Elab.async false -- one theorem at a time: side by side, these files' proofs ask for too many threads

open Sys2Proof Sys2Proof.Machine Sys2Proof.Safety

/-! ### The end of an event (R5, R138) -/

@[simp] theorem emptyLayers_position (h : Head) (d : PosDesc) (g : Option Guide) : (h.emptyLayers d g).position = none := rfl
@[simp] theorem emptyLayers_positionDesc (h : Head) (d : PosDesc) (g : Option Guide) :
    (h.emptyLayers d g).positionDesc = d := rfl
@[simp] theorem emptyLayers_guidance (h : Head) (d : PosDesc) (g : Option Guide) : (h.emptyLayers d g).guidance = none := rfl
@[simp] theorem emptyLayers_guidanceDesc (h : Head) (d : PosDesc) (g : Option Guide) :
    (h.emptyLayers d g).guidanceDesc = g := rfl
@[simp] theorem emptyLayers_prompts (h : Head) (d : PosDesc) (g : Option Guide) :
    (h.emptyLayers d g).prompts = h.prompts := rfl

/-- What a write of a head's layers records of its guidance: the layer it was last written from, so that a layer is
written again when its desc changes and not before. -/
@[simp] theorem writeLayers_guidanceDesc (s : State) (row : HeadRow) (h : Head) :
    (writeLayers s row h).guidanceDesc = guidanceLayer s row h.prompts := rfl
@[simp] theorem writeLayers_positionDesc (s : State) (row : HeadRow) (h : Head) :
    (writeLayers s row h).positionDesc = headPosition s row := rfl
theorem writeLayers_guidance (s : State) (row : HeadRow) (h : Head) :
    (writeLayers s row h).guidance =
      if guidanceLayer s row h.prompts = h.guidanceDesc then h.guidance else guidanceLayer s row h.prompts := rfl

theorem calm_settleHeads (s : State) : Calm [.heads] s (settleHeads s) := calm_mapHeads s _

theorem calm_emptyTenantLayers (s : State) (t : Nat) (l : List Nat) : Calm [.heads] s (emptyTenantLayers t l s) :=
  calm_mapHeads s _

/-- Every record that an event may have changed is one that the hub has. -/
theorem recordOk_candidates {s s' : State} (h : KeysOk s) (h' : KeysOk s') {r : RecordId} (hr : r ∈ candidates s s') :
    RecordOk r := by
  simp only [candidates, List.flatten_cons, List.flatten_nil, List.append_nil, List.mem_append, List.mem_singleton,
    List.mem_map, List.mem_range, List.mem_flatten, tenantCandidates, aboardRows] at hr
  rcases hr with rfl | ⟨c, hc, rfl⟩ | ⟨k, hk, rfl⟩ | ⟨i, hi, rfl⟩ | ⟨l, ⟨t, ht, rfl⟩, hr⟩
  · trivial
  · exact hc
  · exact mem_keysOfBoth h.heads h'.heads hk
  · exact mem_keysOfBoth h.board h'.board hi
  · have t8 := mem_keysOfBoth h.tenants h'.tenants ht
    simp only [List.mem_append, List.mem_singleton, List.mem_map, List.mem_range] at hr
    rcases hr with rfl | ⟨i, hi, rfl⟩ | ⟨p, hp, rfl⟩ | ⟨n, hn, rfl⟩
    · exact t8
    · exact ⟨t8, mem_keysOfBoth (h.slotsOf t) (h'.slotsOf t) hi⟩
    · exact ⟨t8, mem_keysOfBoth (h.programsOf t) (h'.programsOf t) hp⟩
    · exact ⟨t8, by omega, by omega⟩

/-- Published writes change the shared RAM and the stamps, and nothing else. -/
theorem touches_publishList (s : State) (rs : List RecordId) : Touches [.ram, .stamps] s (publishList s rs) :=
  touches_leaf (fun f hf => by cases f <;> first | rfl | exact absurd (by decide) hf)

/-- The end of an event adds the heads' settling and the published writes to what the event did. -/
theorem Calm.finishWith {fs gs : List Field} {s u : State} (forced : List RecordId) (h : Calm fs s u)
    (hg : ∀ f ∈ fs ++ [.heads, .ram, .stamps], f ∈ gs := by decide) : Calm gs s (Machine.finishWith forced s u) := by
  have h1 : Calm gs s (settleHeads u) :=
    (h.mono (fun f hf => hg f (by simp [hf]))).trans ((calm_settleHeads u).mono (fun f hf => hg f (by simp_all)))
  have tp := touches_publishList (settleHeads u) (changedRecords s (settleHeads u) forced)
  have e2 := tp.same .attention
  have e3 := tp.same .sweep
  have e4 := tp.same .tenants
  refine ⟨h1.touches.trans (tp.mono (fun f hf => hg f (by simp at hf ⊢; tauto))), fun k => ?_, fun k m => ?_,
    fun k a ha => ?_, fun i hi => ?_, fun a => ?_⟩
  · exact (h1.keys k).of_same e4 (tp.same .heads) (tp.same .config) (tp.same .board)
  all_goals unfold Machine.finishWith publishChanged
  · exact (calm_publishList (settleHeads u) _ (fun k' r hr => recordOk_candidates k k' (List.mem_of_mem_filter hr))).form
      (h1.keys k) (h1.form k m)
  · exact ((calm_publishList (settleHeads u) _ (fun k' r hr => recordOk_candidates k k' (List.mem_of_mem_filter hr))).bytes
      (h1.keys k) a ha).trans (h1.bytes k a ha)
  · exact (congrArg (·.getLsbD i) e2).trans (h1.attention i hi)
  · exact (areaSweep_of_same e3 e4 a).trans (h1.sweeps a)

/-- The end of an event with no record forced. -/
theorem Calm.finish {fs gs : List Field} {s u : State} (h : Calm fs s u)
    (hg : ∀ f ∈ fs ++ [.heads, .ram, .stamps], f ∈ gs := by decide) : Calm gs s (Machine.finish s u) :=
  h.finishWith [] hg

/-! ### Trunks (10, 11) -/

/-- What a trunk's event may change. -/
abbrev trunkFields : List Field := [.attention, .heads, .trunks]

theorem calm_noteTrunk (s : State) (t : Nat) (f : State → State) (h : Calm trunkFields s (f s)) :
    Calm trunkFields s (noteTrunk t f s) := by
  unfold noteTrunk
  exact .ite h (h.trans (calm_attend _ _).mono)

theorem calm_cutHead (s : State) (t : Nat) (u : Turn) : Calm [.heads] s (cutHead t u s) :=
  .ite (calm_modHead _ _ _) (.refl _)

theorem calm_interrupt (s : State) (t : Nat) : Calm [.heads, .trunks] s (interrupt t s) := by
  unfold interrupt
  split
  · exact .ite (.refl _) (((calm_cutHead _ _ _).mono).trans (calm_setFlight _ _ _).mono)
  · exact (calm_setFlight _ _ _).mono
  · exact (calm_setFlight _ _ _).mono
  · exact .refl _

theorem calm_takeRequest (s : State) (t : Nat) (r : Request) : Calm [.heads, .trunks] s (takeRequest t r s) :=
  .ite (((calm_modTrunk s _ _).mono).trans (calm_interrupt _ _)) (.refl _)

theorem calm_giveBack (s : State) (t : Nat) (u : Turn) : Calm [.trunks] s (giveBack t u s) := by
  unfold giveBack
  split
  · exact calm_modTrunk _ _ _
  · exact .refl _

theorem calm_abandonTurn (s : State) (t : Nat) : Calm [.heads, .trunks] s (abandonTurn t s) := by
  unfold abandonTurn
  split
  · exact .refl _
  · exact .refl _
  · exact (calm_setFlight _ _ _).mono
  · exact (((calm_giveBack _ _ _).mono).trans (calm_cutHead _ _ _).mono).trans (calm_setFlight _ _ _).mono
  · exact ((calm_cutHead _ _ _).mono).trans (calm_setFlight _ _ _).mono
  · exact ((calm_cutHead _ _ _).mono).trans (calm_setFlight _ _ _).mono
  · exact ((calm_giveBack _ _ _).mono).trans (calm_setFlight _ _ _).mono

theorem calm_dropTurn (s : State) (t : Nat) : Calm [.heads, .trunks] s (dropTurn t s) := by
  unfold dropTurn
  split
  · exact ((calm_cutHead _ _ _).mono).trans (calm_setFlight _ _ _).mono
  · exact (calm_setFlight _ _ _).mono

theorem calm_markShut (s : State) (t : Nat) (l : LineId) (c : ShutCause) : Calm [.trunks] s (markShut t l c s) :=
  calm_modTrunk _ _ _

theorem calm_abandonProbe (s : State) (t : Nat) : Calm [.heads, .trunks] s (abandonProbe t s) :=
  (calm_dropTurn s t).trans (calm_modTrunk _ _ _).mono

theorem calm_failover (s : State) (t : Nat) (m : LineId) : Calm [.heads, .trunks] s (failover t m s) :=
  (calm_abandonTurn s t).trans (calm_modTrunk _ _ _).mono

theorem calm_goDown (s : State) (t : Nat) : Calm [.heads, .trunks] s (goDown t s) :=
  (calm_dropTurn s t).trans (calm_modTrunk _ _ _).mono

theorem calm_shutLine (s : State) (t : Nat) (l : LineId) (c : ShutCause) : Calm trunkFields s (shutLine t l c s) := by
  refine calm_noteTrunk s t _ ?_
  dsimp only
  refine Calm.trans (t := markShut t l c s) (calm_markShut _ _ _ _).mono ?_
  split
  · exact .refl _
  · exact .ite (.ite (calm_failover _ _ _).mono (calm_goDown _ _).mono) (.refl _)
  · exact .ite (calm_abandonProbe _ _).mono (.refl _)

theorem calm_resume (s : State) (t : Nat) (l : LineId) : Calm [.heads, .trunks] s (resume t l s) := by
  unfold resume
  dsimp only
  refine Calm.trans ?_ (calm_modTrunk _ _ _).mono
  split
  · exact .ite (calm_setFlight _ _ _).mono (calm_abandonTurn _ _)
  · exact .ite (calm_setFlight _ _ _).mono (calm_abandonTurn _ _)
  · exact .ite (calm_setFlight _ _ _).mono (calm_abandonTurn _ _)
  · exact .refl _

theorem calm_readyLines (s : State) (t : Nat) (ls : List LineId) : Calm trunkFields s (readyLines t ls s) := by
  refine calm_noteTrunk s t _ ?_
  dsimp only
  split
  · exact ((calm_modTrunk s _ _).mono).trans (calm_resume _ _ _).mono
  · exact (calm_modTrunk s _ _).mono

theorem calm_missHead (s : State) (k : Nat) : Calm [.attention, .heads] s (missHead k s) := by
  unfold missHead
  split
  · exact .refl _
  · exact .ite (.refl _) (.ite (calm_modHead _ _ _).mono (((calm_modHead s _ _).mono).trans (calm_attend _ _).mono))

theorem calm_probeFailed (s : State) (t : Nat) (u : Turn) : Calm trunkFields s (probeFailed t u s) :=
  calm_noteTrunk s t _ (((calm_markShut s _ _ _).mono).trans (calm_modTrunk _ _ _).mono)

theorem calm_noReply (s : State) (t : Nat) (u : Turn) : Calm trunkFields s (noReply t u s) := by
  unfold noReply
  exact .ite (calm_setFlight _ _ _).mono (.ite (((calm_setFlight s _ _).mono).trans (calm_probeFailed _ _ _))
    (.ite (calm_setFlight _ _ _).mono (((calm_setFlight s _ _).mono).trans (calm_missHead _ _).mono)))

theorem calm_countCrcError (s : State) (t : Nat) (u : Turn) : Calm [.heads] s (countCrcError t u s) :=
  .ite (.refl _) (calm_modHead _ _ _)

theorem calm_acceptReply (s : State) (t : Nat) (u : Turn) (r : Reply) :
    Calm [.attention, .heads] s (acceptReply t u r s) := by
  unfold acceptReply
  refine .ite (.refl _) ?_
  dsimp only
  split
  · exact .refl _
  · exact .ite (((calm_modHead s _ _).mono).trans (calm_attend _ _).mono) (calm_modHead _ _ _).mono

theorem calm_replyAccepted (s : State) (t : Nat) (u : Turn) (r : Reply) :
    Calm trunkFields s (replyAccepted t u r s) := by
  unfold replyAccepted
  dsimp only
  split
  · exact (((calm_setFlight s _ _).mono).trans (calm_readyLines _ _ _)).trans (calm_acceptReply _ _ _ _).mono
  · exact ((calm_setFlight s _ _).mono).trans (calm_acceptReply _ _ _ _).mono

theorem calm_replyEnded (s : State) (t : Nat) (u : Turn) (l : List Received) :
    Calm trunkFields s (replyEnded t u l s) := by
  unfold replyEnded
  split
  · exact calm_replyAccepted _ _ _ _
  · exact ((calm_countCrcError s _ _).mono).trans (calm_noReply _ _ _)
  · exact calm_noReply _ _ _

theorem calm_copyEnded (s : State) (t : Nat) (u : Turn) (echo : List Received) :
    Calm trunkFields s (copyEnded t u echo s) := by
  unfold copyEnded
  dsimp only
  split
  · split
    · exact (((calm_modTrunk s _ _).mono).trans (calm_shutLine _ _ _ _)).trans (calm_setFlight _ _ _).mono
    · exact ((calm_modTrunk s _ _).mono).trans (calm_shutLine _ _ _ _)
  · exact ((calm_modTrunk s _ _).mono).trans (calm_setFlight _ _ _).mono

theorem calm_beginHeadTurn (s : State) (t k : Nat) (kind : FrameKind) (l : LineId) (rec : Bool) :
    Calm [.heads, .trunks] s (beginHeadTurn t k kind l rec s) := by
  unfold beginHeadTurn
  split
  · exact ((calm_modHead s _ _).mono).trans (calm_setFlight _ _ _).mono
  · exact .refl _

theorem calm_beginTurn (s : State) (t : Nat) : Calm [.heads, .trunks] s (beginTurn t s) := by
  unfold beginTurn
  dsimp only
  split
  · exact (calm_modTrunk s _ _).mono
  · split
    · exact .refl _
    · split
      · exact .refl _
      · exact ((calm_modTrunk s _ _).mono).trans (calm_beginHeadTurn _ _ _ _ _ _)

theorem calm_recoveryExpired (s : State) (t : Nat) : Calm trunkFields s (recoveryExpired t s) := by
  unfold recoveryExpired
  dsimp only
  split
  · exact (calm_modTrunk s _ _).mono
  · split
    · exact ((calm_modTrunk s _ _).mono).trans (calm_readyLines _ _ _)
    · exact ((calm_modTrunk s _ _).mono).trans (calm_modTrunk _ _ _).mono

theorem calm_beginRecovery (s : State) (t : Nat) (l : LineId) : Calm trunkFields s (beginRecovery t l s) := by
  unfold beginRecovery
  dsimp only
  split
  · exact ((calm_modTrunk s _ _).mono).trans (calm_readyLines _ _ _)
  · exact (((calm_modTrunk s _ _).mono).trans (calm_modTrunk _ _ _).mono).trans (calm_beginHeadTurn _ _ _ _ _ _).mono

theorem calm_mapTrunkHeads (s : State) (t : Nat) (f : Head → Head) : Calm [.heads] s (mapTrunkHeads t f s) :=
  calm_mapHeads s _

theorem calm_enableTrunk (s : State) (t : Nat) : Calm [.heads, .trunks] s (enableTrunk t s) :=
  ((calm_mapTrunkHeads s t _).mono).trans (calm_setTrunk _ _ _).mono

theorem calm_disableTrunk (s : State) (t : Nat) : Calm [.heads, .trunks] s (disableTrunk t s) := by
  unfold disableTrunk
  exact ((calm_mapTrunkHeads s t _).mono).trans (calm_modTrunk _ _ _).mono

theorem calm_watchdogActs (s : State) (t : Nat) (l : LineId) : Calm trunkFields s (watchdogActs t l s) :=
  ((calm_modTrunk s _ _).mono).trans (calm_shutLine _ _ _ _)

/-! ### Override lines (08) -/

theorem calm_moveLine (s : State) (l : Nat) (f : OverrideLine → OverrideLine) :
    Calm [.attention, .lines] s (moveLine l f s) := by
  unfold moveLine
  exact .ite (calm_setLine _ _ _).mono (((calm_setLine s _ _).mono).trans (calm_attend _ _).mono)

theorem calm_takeInputs (s : State) (l : Nat) (f : State → State) {fs : List Field} (h : Calm fs s (f s))
    (h1 : ∀ x ∈ [Field.attention, .lines], x ∈ fs := by decide) : Calm fs s (takeInputs l f s) := by
  unfold takeInputs
  dsimp only
  split
  · exact h.trans ((calm_moveLine _ _ _).mono h1)
  · exact h.trans ((calm_moveLine _ _ _).mono h1)
  · exact h

theorem calm_requestBroadcast (s : State) (l : Nat) (z : BitVec 16) :
    Calm [.heads, .trunks] s (requestBroadcast l z s) := by
  unfold requestBroadcast
  exact .ite (.ite (.refl _) (.foldl _ _ (fun n _ u => calm_takeRequest u n _) _)) (.refl _)

theorem calm_debounceExpired (s : State) (l : Nat) :
    Calm [.attention, .lines, .heads, .trunks] s (debounceExpired l s) := by
  unfold debounceExpired
  split
  · exact ((calm_moveLine s _ _).mono).trans (calm_requestBroadcast _ _ _).mono
  · exact (calm_moveLine s _ _).mono
  · exact .refl _

theorem calm_recomputeZones (s : State) : Calm [.lines, .heads, .trunks] s (recomputeZones s) := by
  unfold recomputeZones
  dsimp only
  exact Calm.trans (.foldl _ _ (fun l _ u => (calm_modLine u l _).mono) _)
    (.foldl _ _ (fun l _ u => .ite (calm_requestBroadcast u _ _).mono (.refl _)) _)

theorem calm_endWord (s : State) (b : List Bool) : Calm [.badWords, .lines, .heads, .trunks] s (endWord b s) := by
  unfold endWord
  split
  · exact Calm.mono (fs := [.badWords])
      (.of_touches (fun f => by cases f <;> first | exact .inr rfl | exact .inl (by decide)))
  · exact ((calm_modLine s _ _).mono).trans (calm_recomputeZones _).mono

end Sys2Proof.Laws
end

