-- ==== Sys2Proof/Laws/Configuration.lean ====
section
/-!
SUPPORT. What the Configuration Unit's and the tenants' operations can change (02, 03).
-/

namespace Sys2Proof.Laws

set_option Elab.async false -- one theorem at a time: side by side, these files' proofs ask for too many threads

open Sys2Proof Sys2Proof.Machine Sys2Proof.Safety

/-! ### Tenants (03) -/

theorem calm_countTorn_tenant (s : State) (t : Fin 8) : Calm [.tenants] s (countTorn (.tenant t) s) := by
  unfold countTorn; exact calm_modTenant s t.isLt _

theorem calm_countTorn_building (s : State) : Calm [.torn] s (countTorn .building s) :=
  .of_touches (fun f => by cases f <;> first | exact .inr rfl | exact .inl (by decide))

theorem calm_forgetSeen (s : State) {t : Nat} (ht : t < 8) : Calm [.tenants] s (forgetSeen t s) :=
  calm_modTenant s ht _

theorem calm_clearFaultCounts (s : State) {t : Nat} (ht : t < 8) : Calm [.tenants] s (clearFaultCounts t s) :=
  calm_modTenant s ht _

/-- What a tenant's restart or disabling may change. -/
abbrev takeDownFields : List Field := [.attention, .tenants, .cars, .board, .aboard, .heads]

theorem calm_takeDown (s : State) {t : Nat} (ht : t < 8) : Calm takeDownFields s (takeDown t s) := by
  unfold takeDown
  dsimp only
  exact ((((calm_retireTenant s t).mono).trans (calm_idlePrograms _ ht).mono).trans
    (calm_emptyTenantLayers _ _ _).mono).trans
      ((Calm.mono (fs := [.cars]) (.foldl _ _ (fun c _ u => calm_toAcquiring u true c) _)).trans
        (((calm_modTenant _ ht _).mono).trans (calm_clearFaultCounts _ ht).mono))

theorem calm_enableTenant (s : State) {t : Nat} (ht : t < 8) : Calm [.tenants] s (enableTenant t s) :=
  (calm_modTenant s ht _).trans (calm_forgetSeen _ ht)

theorem calm_disableTenant (s : State) {t : Nat} (ht : t < 8) : Calm takeDownFields s (disableTenant t s) :=
  ((calm_takeDown s ht).trans (calm_modTenant _ ht _).mono).trans (calm_forgetSeen _ ht).mono

theorem calm_restartTenant (s : State) {t : Nat} (ht : t < 8) (st : Stamp) :
    Calm takeDownFields s (restartTenant t st s) :=
  ((calm_takeDown s ht).trans (calm_modTenant _ ht _).mono).trans (calm_forgetSeen _ ht).mono

theorem calm_headerEnable (s : State) {t : Nat} (ht : t < 8) (h : HeaderRecord) :
    Calm takeDownFields s (headerEnable t h s) := by
  unfold headerEnable
  exact .ite (.ite (calm_disableTenant s ht) (.refl _)) (.ite (.refl _) (calm_enableTenant s ht).mono)

theorem calm_headerOptions (s : State) {t : Nat} (ht : t < 8) (h : HeaderRecord) :
    Calm [.tenants, .cars] s (headerOptions t h s) := by
  unfold headerOptions
  dsimp only
  split
  · exact ((calm_modTenant s ht _).mono).trans
      (Calm.mono (fs := [.cars]) (.foldl _ _ (fun c _ u => calm_modCar u c _) _))
  · exact (calm_modTenant s ht _).mono

theorem calm_headerRestart (s : State) {t : Nat} (ht : t < 8) (h : HeaderRecord) :
    Calm takeDownFields s (headerRestart t h s) := by
  unfold headerRestart
  split
  · exact (calm_modTenant s ht _).mono
  · exact .ite (.refl _) (calm_restartTenant s ht _)

theorem calm_setRequestedMark (s : State) {t : Nat} (ht : t < 8) (h : HeaderRecord) :
    Calm markFields s (setRequestedMark t h s) := by
  unfold setRequestedMark
  split
  · exact (calm_raiseFailure s ht _ _ _ _ _).mono
  · split
    · exact calm_setMark _ _ _
    · exact .refl _

theorem calm_headerMark (s : State) {t : Nat} (ht : t < 8) (h : HeaderRecord) :
    Calm markFields s (headerMark t h s) := by
  unfold headerMark
  dsimp only
  split
  · exact (calm_modTenant s ht _).mono
  · split
    · exact (calm_modTenant s ht _).mono
    · exact ((calm_modTenant s ht _).mono).trans (calm_setRequestedMark _ ht _)

/-- What an accepted Tenant Header may change. -/
abbrev headerFields : List Field := [.ram, .stamps, .attention, .tenants, .faults, .cars, .board, .aboard, .heads]

theorem calm_handHeader (s : State) {t : Nat} (ht : t < 8) (st : Stamp) (h : HeaderRecord) :
    Calm headerFields s (handHeader t st h s) := by
  have h1 : ∀ u : State, Calm headerFields u (headerOptions t h (headerEnable t h u)) := fun u =>
    ((calm_headerEnable u ht h).mono).trans (calm_headerOptions _ ht h).mono
  unfold handHeader
  dsimp only
  split
  · exact (((calm_modTenant s ht _).mono).trans (h1 _)).trans
      (((calm_headerRestart _ ht h).mono).trans (calm_headerMark _ ht h).mono)
  · exact ((calm_modTenant s ht _).mono).trans (h1 _)

/-! ### Tenant Maps (R44 to R48) -/

/-- What a fault may change. -/
abbrev faultFields : List Field := [.ram, .stamps, .attention, .tenants, .faults]

theorem calm_mapFault (s : State) {t : Nat} (ht : t < 8) (m : ResolvedMap) (l : List (Nat × Nat × Standing)) :
    Calm faultFields s (mapFault t m l s) := by
  unfold mapFault
  split
  · exact .refl _
  · exact calm_raise _ _ (fun u hu => by cases hu; exact ht)

theorem calm_installMap (s : State) {t : Nat} (ht : t < 8) (m : ResolvedMap) :
    Calm faultFields s (installMap t m s) :=
  ((calm_modTenant s ht _).mono).trans ((calm_mapFault _ ht _ _).trans (calm_mapFault _ ht _ _))

theorem calm_handMap (s : State) {t : Nat} (ht : t < 8) (st : Stamp) (b : TenantMap) :
    Calm faultFields s (handMap t st b s) := (calm_installMap s ht _).trans (calm_attend _ _).mono

theorem calm_recheckMap (s : State) {t : Nat} (ht : t < 8) : Calm faultFields s (recheckMap s t) := by
  unfold recheckMap
  refine .ite (.refl _) ?_
  split
  · exact .refl _
  · exact calm_installMap s ht _

/-! ### The Configuration Unit (02) -/

theorem calm_configSeen (s : State) (v : Option Stamp) : Calm [.configSeen] s { s with configSeen := v } :=
  .of_touches (fun f => by cases f <;> first | exact .inr rfl | exact .inl (by decide))

/-- A change of the Configuration Unit that leaves its Head Tables' numbers below the heads the hub has. -/
theorem calm_config (s : State) (v : ConfigUnit)
    (h1 : KeysOk s → ∀ g, v.inForce = some g → KeysBelow 992 g.heads)
    (h2 : KeysOk s → ∀ x, v.validating = some x → KeysBelow 992 x.body.heads) :
    Calm [.config] s { s with config := v } :=
  ⟨fun f => by cases f <;> first | exact .inr rfl | exact .inl (by decide),
   fun k => ⟨k.tenants, k.slots, k.programs, k.heads, h1 k, h2 k, k.board⟩, fun _ => id,
   fun _ _ _ => rfl, fun _ => id, fun a => areaSweep_of_same rfl rfl a⟩

theorem rangeTable_below {α : Type} (n : Nat) (f : Nat → α) :
    KeysBelow n ((List.range n).map (fun k => (k, f k))) :=
  ⟨List.pairwise_map.mpr List.pairwise_lt_range, fun e he => by
    obtain ⟨k, hk, rfl⟩ := List.mem_map.mp he
    exact List.mem_range.mp hk⟩

/-- The Head Table of a generation lists only heads that the hub has (R23). -/
theorem readHeadTable_below (m : Memory) : KeysBelow 992 (readHeadTable m) := by
  unfold readHeadTable
  generalize 992 = n
  exact (rangeTable_below n (readHeadRow m)).filter _

theorem readConfiguration_heads (m : Memory) : (readConfiguration m).heads = readHeadTable m := by
  simp only [readConfiguration]

/-- What a refused generation may change. -/
abbrev refusalFields : List Field := [.ram, .stamps, .attention, .configSeen, .config, .faults]

theorem calm_lockedStamp (s : State) (v : Option Stamp) :
    Calm [.config] s { s with config := { s.config with lockedStamp := v } } :=
  calm_config s _ (fun k => k.headTable) (fun k => k.validating)

theorem calm_refuseLocked (s : State) (st : Stamp) (b : Option Stamp) : Calm refusalFields s (refuseLocked st b s) := by
  unfold refuseLocked
  exact .ite (calm_configSeen s b).mono (((calm_configSeen s b).mono).trans
    (((calm_lockedStamp _ (some st)).mono).trans (((calm_raiseSupervisor _ _ rfl).mono).trans (calm_attend _ _).mono)))

theorem calm_refuseFailing (s : State) (st : Stamp) (o : Offence) : Calm refusalFields s (refuseFailing st o s) :=
  Calm.trans (t := { s with config := { s.config with refused := some (st, o) } })
    (Calm.mono (fs := [.config]) (calm_config s _ (fun k => k.headTable) (fun k => k.validating)))
    (calm_raiseSupervisor _ _ rfl).mono

theorem calm_handConfiguration (s : State) (st : Stamp) (g : BuildingConfig) (b : Option Stamp)
    (hg : KeysBelow 992 g.heads) : Calm refusalFields s (handConfiguration st g b s) := by
  unfold handConfiguration
  refine .ite (.refl _) (.ite (calm_refuseLocked s st b) ?_)
  exact Calm.mono (fs := [.config]) (calm_config s
    { s.config with validating := some { stamp := st, body := g, seenBefore := b } } (fun k => k.headTable)
    (fun _ x hx => by cases hx; exact hg))

theorem calm_retireAtAcceptance (s : State) (old : Option BuildingConfig) (g : BuildingConfig) :
    Calm [.attention, .tenants, .cars, .board, .aboard] s (retireAtAcceptance old g s) := by
  unfold retireAtAcceptance
  dsimp only
  refine Calm.trans (.foldl _ _ (fun e he u => ?_) _) (calm_boardEmpty _ _).mono
  obtain ⟨ti, hti, heq⟩ := List.mem_filterMap.mp he
  obtain ⟨o, -, rfl⟩ := Option.map_eq_some_iff.mp heq
  exact calm_retire u (mem_allSlots hti).1 (mem_allSlots hti).2 _ _

theorem calm_disturbCars (s : State) (old : Option BuildingConfig) (g : BuildingConfig) :
    Calm [.cars, .board, .aboard, .heads] s (disturbCars old g s) := by
  unfold disturbCars
  dsimp only
  split
  · refine Calm.trans ?_ (Calm.mono (fs := [.cars]) (.foldl _ _ (fun c _ u => calm_toAcquiring u false c) _))
    refine ⟨fun f => by cases f <;> first | exact .inr rfl | exact .inl (by decide),
      fun k => ⟨k.tenants, k.slots, k.programs, k.heads.map _, k.headTable, k.validating, KeysBelow.nil _⟩, fun _ => id,
      fun _ _ _ => rfl, fun _ => id, fun a => areaSweep_of_same rfl rfl a⟩
  · exact .foldl _ _ (fun c _ u => ((calm_boardEmpty u _).mono).trans (((calm_emptyAboard _ c).mono).trans
      (calm_toAcquiring _ false c).mono)) _

theorem calm_darkenRevoked (s : State) (g : BuildingConfig) : Calm [.cars] s (darkenRevoked g s) :=
  .foldl _ _ (fun c _ u => calm_darkenCar u c) _

theorem calm_relabel (s : State) (g : BuildingConfig) : Calm [.cars] s (relabel g s) := calm_cars s _

theorem calm_changeHeads (s : State) (old : Option BuildingConfig) (g : BuildingConfig) (hg : KeysOk s → KeysBelow 992 g.heads) :
    Calm [.heads, .trunks] s (changeHeads old g s) := by
  have key : ∀ l : List Nat, Calm [.trunks] s (l.foldl
      (fun s t => s.modTrunk t (fun x => { x with flight := orphanFlight x.flight })) s) := fun l =>
    .foldl _ _ (fun t _ u => calm_modTrunk u t _) _
  have back : ∀ l : List Nat, (l.foldl
      (fun s t => s.modTrunk t (fun x => { x with flight := orphanFlight x.flight })) s) = { s with trunks := (l.foldl
      (fun s t => s.modTrunk t (fun x => { x with flight := orphanFlight x.flight })) s).trunks } := fun l => by
    generalize hs0 : s = s0
    have : ∀ u : State, (l.foldl (fun s t => s.modTrunk t (fun x => { x with flight := orphanFlight x.flight })) u) =
        { u with trunks := (l.foldl
          (fun s t => s.modTrunk t (fun x => { x with flight := orphanFlight x.flight })) u).trunks } := by
      induction l with
      | nil => exact fun u => rfl
      | cons t l ih => exact fun u => by rw [List.foldl_cons, ih]; rfl
    exact this s0
  unfold changeHeads
  dsimp only
  refine ((key _).mono).trans (Calm.mono (fs := [.heads]) (calm_heads _ _ (fun k => (?_ : KeysBelow 992 g.heads).map _)))
  refine hg (KeysOk.of_same k ?_ ?_ ?_ ?_) <;> rw [back]

theorem calm_changeTrunk (s : State) (old : Option BuildingConfig) (g : BuildingConfig) (t : Nat) :
    Calm trunkFields s (changeTrunk old g s t) := by
  unfold changeTrunk
  split
  · exact calm_noteTrunk s t _ (calm_enableTrunk s t).mono
  · exact calm_noteTrunk s t _ (calm_disableTrunk s t).mono
  · exact .refl _

/-! ### Building Orders (R33, R34) -/

/-- What the Building Orders may change. -/
abbrev orderFields : List Field := [.attention, .orders, .lines, .trunks, .heads]

theorem calm_orderShuts (s : State) (l : List (Nat × Bool)) : Calm orderFields s (orderShuts l s) := by
  unfold orderShuts
  dsimp only
  exact ((calm_orders s _).mono).trans (Calm.mono (fs := trunkFields)
    (.foldl _ _ (fun e _ u => calm_shutLine u _ _ _) _))

theorem calm_orderReady (r : OrdersRecord) (l : List (Nat × Bool)) (s : State) (t : Nat) :
    Calm orderFields s (orderReady r l s t) := by
  unfold orderReady
  dsimp only
  exact ((calm_orders s _).mono).trans (calm_readyLines _ _ _).mono

theorem calm_orderTests (s : State) (r : OrdersRecord) : Calm [.attention, .orders, .lines] s (orderTests r s) := by
  unfold orderTests
  exact .foldl _ _ (fun l _ u => .ite (.refl _) (calm_takeInputs u l _ (calm_orders u _).mono)) _

theorem calm_clearHistories (s : State) : Calm [.heads, .trunks] s (clearHistories s) := by
  unfold clearHistories
  dsimp only
  exact ((calm_mapHeads s _).mono).trans (calm_trunks _ _).mono

theorem calm_orderHistory (s : State) (r : OrdersRecord) : Calm orderFields s (orderHistory r s) := by
  unfold orderHistory
  dsimp only
  split
  · exact ((calm_orders s _).mono).trans (calm_clearHistories _).mono
  · exact (calm_orders s _).mono

/-- An accepted Orders record. -/
theorem calm_handOrders (s : State) (st : Stamp) (r : OrdersRecord) : Calm orderFields s (handOrders st r s) := by
  unfold handOrders
  dsimp only
  exact ((((calm_orders s _).mono).trans (calm_orderShuts _ _)).trans
    (.foldl _ _ (fun t _ u => calm_orderReady r _ u t) _)).trans
      (((calm_orderTests _ r).mono).trans (((calm_orders _ _).mono).trans (calm_orderHistory _ r)))

end Sys2Proof.Laws
end

