-- ==== Sys2Proof/Laws/Failover.lean ====
section
/-!
SUPPORT. What a failover, a recovery probe's failure and an order that readies a DOWN trunk's line leave of the trunk (R162,
R163, R172, R173): one lemma for each operation.
-/

namespace Sys2Proof.Laws

open Sys2Proof Sys2Proof.Machine Sys2Proof.Safety

@[simp] theorem trunk_setFlight_same (s : State) (t : Nat) (f : Flight) :
    (setFlight t f s).trunk t = { s.trunk t with flight := f } := by simp [setFlight]

theorem trunk_of_trunks {s t : State} (h : t.trunks = s.trunks) (n : Nat) : t.trunk n = s.trunk n := by
  simp [State.trunk, h]

@[simp] theorem trunk_modHead (s : State) (k n : Nat) (f : Head → Head) : (s.modHead k f).trunk n = s.trunk n :=
  trunk_of_trunks (by simp) n

@[simp] theorem trunk_cutHead (s : State) (t n : Nat) (u : Turn) : (cutHead t u s).trunk n = s.trunk n := by
  unfold cutHead; split <;> simp

/-- A notice changes no trunk. -/
@[simp] theorem trunk_noteTrunk (s : State) (t n : Nat) (f : State → State) :
    (noteTrunk t f s).trunk n = (f s).trunk n := by
  unfold noteTrunk; dsimp only; split <;> rfl

@[simp] theorem trunk_markShut (s : State) (t : Nat) (l : LineId) (c : ShutCause) :
    (markShut t l c s).trunk t =
      (s.trunk t).setLine l { (s.trunk t).line l with shut := some c, shutTime := s.hubTime } := by simp [markShut]

/-! ### A failover (R162, R163, R172) -/

/-- The list with a request returned is R162's. -/
theorem returnRequest_returned (r : Request) (l : List Request) : Returned r l (returnRequest l r) := by
  refine ⟨fun h => ?_, fun pre q post hl hq h => ?_⟩
  · have : l.any (fun q => q.line == r.line) = false := by simpa using h
    simp [returnRequest, this]
  · subst hl
    have keep : ∀ m : List Request, (∀ p ∈ m, p.line ≠ r.line) →
        m.map (fun q => if q.line = r.line then { q with zones := q.zones ||| r.zones } else q) = m := fun m hm =>
      (List.map_congr_left (fun p hp => if_neg (hm p hp))).trans (List.map_id m)
    have hp := keep pre (fun p hp => h p (by simp [hp]))
    have ht := keep post (fun p hp => h p (by simp [hp]))
    simp [returnRequest, hq] at hp ht ⊢
    rw [hp, ht]

/-- A request given back joins its trunk's list, and nothing else of the trunk changes. -/
theorem trunk_giveBack (s : State) (t : Nat) (u : Turn) :
    (giveBack t u s).trunk t = { s.trunk t with requests := match u.request with
      | some r => returnRequest (s.trunk t).requests r
      | none => (s.trunk t).requests } := by
  unfold giveBack; split <;> simp_all

/-- An abandoned turn is in its gap; a broadcast's request is in the list again; nothing else of the trunk changes. -/
theorem abandonTurn_spec (s : State) (t : Nat) :
    FailedOver (s.trunk t) ((abandonTurn t s).trunk t) ∧
    ∃ rs f, (abandonTurn t s).trunk t = { s.trunk t with requests := rs, flight := f } := by
  unfold abandonTurn
  split <;> rename_i h <;> refine ⟨⟨?_, fun u r hu hr => ?_, fun hu => ?_⟩, ?_⟩ <;>
    first
    | exact ⟨_, _, rfl⟩
    | simp_all [trunk_giveBack, returnRequest_returned]

/-- The active line's shut with the other line READY fails over: the other line is active with a loop error run of 0. -/
theorem shutLine_failover {s : State} {t : Nat} {l : LineId} (c : ShutCause) (hr : (s.trunk t).state = .running)
    (ha : (s.trunk t).active = some l) (ho : ((s.trunk t).line (LineId.other l)).shut = none) :
    let x := s.trunk t
    let y := (shutLine t l c s).trunk t
    FailedOver x y ∧ y.state = .running ∧ y.active = some (LineId.other l) ∧
      y.line l = { x.line l with shut := some c, shutTime := s.hubTime } ∧
      y.line (LineId.other l) = { x.line (LineId.other l) with loopRun := 0 } := by
  obtain ⟨f, rs, g, e⟩ := abandonTurn_spec (markShut t l c s) t
  have e' : (shutLine t l c s).trunk t = ((failover t (LineId.other l) (markShut t l c s)).trunk t) := by
    simp [shutLine, hr, ha, ho]
  simp only [e', failover, trunk_modTrunk_same, e, trunk_markShut] at f ⊢
  refine ⟨⟨?_, ?_, ?_⟩, ?_, ?_, ?_, ?_⟩
  · simpa using f.flight
  · simpa using f.returned
  · simpa using f.kept
  all_goals simp [hr]

/-! ### A recovery probe (R173) -/

/-- A DOWN trunk resumed on a line: RUNNING on it with no recovery timer and no chosen line; the probe is settled. -/
theorem resume_spec (s : State) (t : Nat) (l : LineId) :
    let x := s.trunk t
    let y := (resume t l s).trunk t
    ProbeSettled l x.flight y.flight ∧ y.state = .running ∧ y.active = some l ∧ y.recovery = none ∧ y.chosen = none ∧
      y.lineA = x.lineA ∧ y.lineB = x.lineB := by
  obtain ⟨f, rs, g, e⟩ := abandonTurn_spec s t
  have hg : (s.trunk t).flight ≠ .idle → g = .gap := fun h => by simpa [e, h] using f.flight
  unfold resume
  refine ⟨fun u hu => ⟨fun h => ?_, fun h => ?_, fun h => ?_⟩, ?_⟩
  · by_cases hl : u.line = l <;> simp [h, hl, e, hg]
  · by_cases hl : u.line = l <;> simp [h, hl, e, hg]
  · by_cases hl : u.line = l <;> simp [h, hl, e, hg]
  · split <;> (try split) <;> simp [e]

/-- Lines made READY leave the flight as it is, and a READY line READY. -/
theorem foldl_ready (l : LineId) (m : List LineId) (x : Trunk) :
    (m.foldl Trunk.ready x).flight = x.flight ∧
    ((x.line l).shut = none ∧ (x.line l).loopRun = 0 →
      ((m.foldl Trunk.ready x).line l).shut = none ∧ ((m.foldl Trunk.ready x).line l).loopRun = 0) := by
  induction m generalizing x with
  | nil => exact ⟨rfl, id⟩
  | cons k m ih =>
    obtain ⟨h1, h2⟩ := ih (x.ready k)
    refine ⟨by simpa [Trunk.ready] using h1, fun h => h2 ?_⟩
    cases k <;> cases l <;> simp_all [Trunk.ready, Trunk.line, Trunk.setLine]

/-- Lines of a DOWN trunk made READY in one piece of work: RUNNING on the first of them that stood SHUT. -/
theorem readyLines_down {s : State} {t : Nat} {ls : List LineId} {l : LineId} {rest : List LineId}
    (hd : (s.trunk t).state = .down)
    (hl : ls.filter (fun l => ((s.trunk t).line l).shut.isSome) = l :: rest) :
    let x := s.trunk t
    let y := (readyLines t ls s).trunk t
    ProbeSettled l x.flight y.flight ∧ y.state = .running ∧ y.active = some l ∧ y.recovery = none ∧ y.chosen = none ∧
      (y.line l).shut = none ∧ (y.line l).loopRun = 0 := by
  obtain ⟨h1, h2⟩ := foldl_ready l rest ((s.trunk t).ready l)
  have h3 := h2 (by simp [Trunk.ready])
  have eq : (readyLines t ls s).trunk t =
      (resume t l (s.modTrunk t (fun x => (l :: rest).foldl Trunk.ready x))).trunk t := by
    simp [readyLines, hd, hl]
  obtain ⟨hp, hs, ha, hr, hc, hA, hB⟩ := resume_spec (s.modTrunk t (fun x => (l :: rest).foldl Trunk.ready x)) t l
  rw [trunk_modTrunk_same, List.foldl_cons] at hp hA hB
  rw [← eq] at hp hs ha hr hc hA hB
  have line : ((readyLines t ls s).trunk t).line l = (rest.foldl Trunk.ready ((s.trunk t).ready l)).line l := by
    cases l
    · exact hA
    · exact hB
  refine ⟨?_, hs, ha, hr, hc, line ▸ h3.1, line ▸ h3.2⟩
  rwa [h1, show ((s.trunk t).ready l).flight = (s.trunk t).flight by simp [Trunk.ready]] at hp

/-- A recovery probe's send that draws no accepted reply: the retry, or its line SHUT again with cause LOOP, a new shut time
and a new timer, the gap following and no head changed. -/
theorem noReply_probe {s : State} {t : Nat} {u : Turn} (h : u.recovery = true) :
    (noReply t u s).heads = s.heads ∧
    (u.second = false → u.early = false →
      (noReply t u s).trunk t = { s.trunk t with flight := .sending { u with second := true } }) ∧
    (u.second = true → (noReply t u s).trunk t =
      { (s.trunk t).setLine u.line { (s.trunk t).line u.line with shut := some .loop, shutTime := s.hubTime } with
        flight := .gap, recovery := some (expiryAfter s.hubTime (recoveryMs s t)) }) := by
  refine ⟨?_, fun h2 he => by simp [noReply, h2, he], fun h2 => ?_⟩
  · unfold noReply
    split
    · rfl
    · simp [probeFailed, noteTrunk]
      split <;> rfl
  · simp [noReply, h, h2, probeFailed]
    cases u.line <;> exact ⟨rfl, rfl, rfl⟩

/-- A turn that an order made of a recovery probe draws no accepted reply: the retry or the gap, with no miss. -/
theorem noReply_noMiss {s : State} {t : Nat} {u : Turn} (hr : u.recovery = false) (hm : u.noMiss = true)
    (he : u.early = false) :
    noReply t u s = setFlight t (if u.second then .gap else .sending { u with second := true }) s := by
  cases h2 : u.second <;> simp [noReply, hr, hm, he, h2]

end Sys2Proof.Laws
end

