-- ==== Sys2Proof/Laws/Heads.lean ====
section
/-!
SUPPORT. What a turn's beginning, its abandoning and the end of an event leave of the heads (R142, R161 to R163):
`HeadsKept`, which is transitive, for each operation.
-/

namespace Sys2Proof.Laws

set_option Elab.async false -- one theorem at a time: side by side, these files' proofs ask for too many threads

open Sys2Proof Sys2Proof.Machine Sys2Proof.Safety

variable {served cut cut' : Nat → Prop} {s t u : State}

/-! ### The condition -/

theorem turnPartKept_refl (h : Head) : TurnPartKept h h := by constructor <;> simp

theorem turnPartKept_trans {a b c : Head} (h : TurnPartKept a b) (k : TurnPartKept b c) : TurnPartKept a c := by
  constructor <;> simp [k.link, k.counts, k.tags, k.times, k.contents, k.levels, k.prompts, h.link, h.counts, h.tags,
    h.times, h.contents, h.levels, h.prompts]

theorem headsKept_congr (hc : ∀ k, cut k ↔ cut' k) (h : HeadsKept served cut s t) : HeadsKept served cut' s t :=
  fun k hk => ⟨(h k hk).1, fun x hx => by simpa only [hc] using (h k hk).2 x hx⟩

theorem headsKept_of_heads (h : t.heads = s.heads) : HeadsKept served (fun _ => False) s t := fun k _ => by
  rw [h]; exact ⟨id, fun x hx => ⟨x, hx, turnPartKept_refl x, rfl, rfl, by simp⟩⟩

theorem headsKept_trans (h : HeadsKept served cut s t) (h' : HeadsKept served cut' t u) :
    HeadsKept served (fun k => cut k ∨ cut' k) s u := fun k hk => by
  refine ⟨fun hn => (h' k hk).1 ((h k hk).1 hn), fun x hx => ?_⟩
  obtain ⟨y, hy, p, l, f, d⟩ := (h k hk).2 x hx
  obtain ⟨z, hz, p', l', f', d'⟩ := (h' k hk).2 y hy
  exact ⟨z, hz, turnPartKept_trans p p', l'.trans l, f'.trans f, by rw [d', d, or_assoc]⟩

/-- Work that leaves the heads as they are, before and after. -/
theorem headsKept_after (h : HeadsKept served cut s t) (e : u.heads = t.heads) : HeadsKept served cut s u :=
  headsKept_congr (fun _ => or_iff_left id) (headsKept_trans h (headsKept_of_heads e))

theorem headsKept_before (h : HeadsKept served cut t u) (e : t.heads = s.heads) : HeadsKept served cut s u :=
  headsKept_congr (fun _ => or_iff_right id) (headsKept_trans (headsKept_of_heads e) h)

/-! ### The end of an event (R138 to R142) -/

/-- A settled head keeps its part of turns and its histories, and its differing where its next content stays. -/
theorem settleHead_kept (s : State) (row : HeadRow) (h : Head) :
    let h' := settleHead s row h
    TurnPartKept h h' ∧ h'.everLost = h.everLost ∧ h'.everFailed = h.everFailed ∧ h'.pollDue = h.pollDue ∧
      (h'.next = h.next → h'.differs = h.differs) := by
  dsimp only
  unfold settleHead
  split
  · exact ⟨turnPartKept_refl h, rfl, rfl, rfl, fun _ => rfl⟩
  · unfold formContent
    dsimp only
    split
    · exact ⟨by constructor <;> simp [writeLayers], rfl, rfl, rfl, fun _ => rfl⟩
    · next hn => exact ⟨by constructor <;> simp [writeLayers, Head.compare], rfl, rfl, rfl, fun e => absurd e hn⟩

/-- A head after the settling of all heads. -/
theorem find_settleHeads (s : State) (k : Nat) : tableFind (settleHeads s).heads k =
    (tableFind s.heads k).map (fun h => match s.conf.head k with
      | some row => settleHead s row h
      | none => h) := by
  exact tableFind_map s.heads (fun e => match s.conf.head e.1 with
      | some row => settleHead s row e.2
      | none => e.2) k

theorem headsKept_settleHeads (s : State) : HeadsKept served (fun _ => False) s (settleHeads s) := fun k _ => by
  rw [find_settleHeads]
  refine ⟨fun h => by simp [h], fun h hh => ?_⟩
  rw [hh]
  cases s.conf.head k with
  | none => exact ⟨h, rfl, turnPartKept_refl h, rfl, rfl, by simp⟩
  | some row =>
    obtain ⟨p, l, f, d, -⟩ := settleHead_kept s row h
    exact ⟨_, rfl, p, l, f, by simp [d]⟩

theorem finish_heads (s u : State) : (finish s u).heads = (settleHeads u).heads :=
  (touches_publishList (settleHeads u) _).same .heads

/-- The end of an event hands the heads nothing. -/
theorem headsKept_finish (h : HeadsKept served cut s u) : HeadsKept served cut s (finish s u) :=
  headsKept_after (headsKept_congr (fun _ => or_iff_left id) (headsKept_trans h (headsKept_settleHeads u)))
    (finish_heads s u)

/-! ### A turn abandoned (R161, R163, R172) -/

theorem headsKept_cutHead (s : State) (n : Nat) (u : Turn) :
    HeadsKept served (fun k => u.kind = .poll ∧ u.orphan = false ∧ headKey n u.address = k) s (cutHead n u s) := fun k _ => by
  unfold cutHead
  split
  · next h =>
    rw [find_modHead]
    by_cases hk : headKey n u.address = k
    · simp only [hk, if_true]
      refine ⟨fun hn => by simp [hn], fun x hx => ⟨{ x with pollDue := true }, by rw [hx]; rfl, ?_, rfl, rfl, by simp [h]⟩⟩
      constructor <;> simp
    · simp only [hk, if_false, and_false]
      exact ⟨id, fun x hx => ⟨x, hx, turnPartKept_refl x, rfl, rfl, by simp⟩⟩
  · next h => exact ⟨id, fun x hx => ⟨x, hx, turnPartKept_refl x, rfl, rfl, by simp; tauto⟩⟩

theorem giveBack_heads (s : State) (n : Nat) (u : Turn) : (giveBack n u s).heads = s.heads := by
  unfold giveBack; split <;> rfl

theorem cutPoll_iff {f : Flight} {n k : Nat} {u : Turn} (h : f = .sending u ∨ f = .window u ∨ f = .receiving u) :
    CutPoll f n k ↔ u.kind = .poll ∧ u.orphan = false ∧ headKey n u.address = k := by
  constructor
  · rintro ⟨v, hv, r⟩
    have : v = u := by rcases h with rfl | rfl | rfl <;> simpa [eq_comm] using hv
    exact this ▸ r
  · exact fun r => ⟨u, h, r⟩

theorem not_cutPoll {f : Flight} {n k : Nat} (h : ∀ u, f ≠ .sending u ∧ f ≠ .window u ∧ f ≠ .receiving u) :
    CutPoll f n k ↔ False :=
  ⟨fun ⟨u, hu, _⟩ => by rcases hu with e | e | e <;> simp [e] at h, False.elim⟩

theorem headsKept_abandonTurn (s : State) (n : Nat) :
    HeadsKept served (CutPoll (s.trunk n).flight n) s (abandonTurn n s) := by
  unfold abandonTurn
  split <;> rename_i h <;> rw [h]
  · exact headsKept_congr (fun k => (not_cutPoll (by simp)).symm) (headsKept_of_heads rfl)
  · exact headsKept_congr (fun k => (not_cutPoll (by simp)).symm) (headsKept_of_heads rfl)
  · exact headsKept_congr (fun k => (not_cutPoll (by simp)).symm) (headsKept_of_heads rfl)
  · exact headsKept_congr (fun k => (cutPoll_iff (.inl rfl)).symm)
      (headsKept_after (headsKept_before (headsKept_cutHead _ n _) (giveBack_heads s n _)) rfl)
  · exact headsKept_congr (fun k => (cutPoll_iff (.inr (.inl rfl))).symm) (headsKept_after (headsKept_cutHead _ n _) rfl)
  · exact headsKept_congr (fun k => (cutPoll_iff (.inr (.inr rfl))).symm) (headsKept_after (headsKept_cutHead _ n _) rfl)
  · exact headsKept_congr (fun k => (not_cutPoll (by simp)).symm) (headsKept_of_heads (giveBack_heads s n _))

theorem headsKept_dropTurn {n : Nat} (copies : ∀ u, (s.trunk n).flight = .copyGap u → u.kind ≠ .poll) :
    HeadsKept served (CutPoll (s.trunk n).flight n) s (dropTurn n s) := by
  unfold dropTurn
  cases h : (s.trunk n).flight <;> simp only [Flight.turn?]
  case sending u => exact headsKept_congr (fun k => (cutPoll_iff (.inl rfl)).symm) (headsKept_after (headsKept_cutHead _ n u) rfl)
  case window u =>
    exact headsKept_congr (fun k => (cutPoll_iff (.inr (.inl rfl))).symm) (headsKept_after (headsKept_cutHead _ n u) rfl)
  case receiving u =>
    exact headsKept_congr (fun k => (cutPoll_iff (.inr (.inr rfl))).symm) (headsKept_after (headsKept_cutHead _ n u) rfl)
  case copyGap u =>
    refine headsKept_congr (fun k => ?_) (headsKept_after (headsKept_cutHead _ n u) rfl)
    rw [not_cutPoll (by simp)]; simp [copies u h]
  all_goals exact headsKept_congr (fun k => (not_cutPoll (by simp)).symm) (headsKept_of_heads rfl)

theorem noteTrunk_heads (s : State) (n : Nat) (f : State → State) : (noteTrunk n f s).heads = (f s).heads := by
  unfold noteTrunk; dsimp only; split <;> rfl

/-- No POLL is in flight while a trunk is DOWN, and none is between two copies: what a legal trunk gives, and a shut keeps. -/
structure PollsOk (x : Trunk) : Prop where
  copies : ∀ u, x.flight = .copyGap u → u.kind ≠ .poll
  down : x.state = .down → ∀ u, x.flight.turn? = some u → u.kind ≠ .poll

theorem pollsOk_of_legal {x : Trunk} (h : TrunkLegal x) : PollsOk x :=
  ⟨fun u hu => by rw [h.copies u hu]; simp, fun hd u hu => by rw [(h.probe u hu (h.only hd u hu)).2]; simp⟩

theorem pollsOk_of_none {x : Trunk} (h : x.flight.turn? = none) : PollsOk x :=
  ⟨fun u hu => by simp [hu, Flight.turn?] at h, fun _ u hu => by simp [h] at hu⟩

theorem turn_of_cutPoll {f : Flight} {n k : Nat} (h : CutPoll f n k) : ∃ u, f.turn? = some u ∧ u.kind = .poll := by
  obtain ⟨u, hu, hk, -⟩ := h
  exact ⟨u, by rcases hu with e | e | e <;> rw [e] <;> rfl, hk⟩

theorem no_cutPoll_of_none {f : Flight} (h : f.turn? = none) (n k : Nat) : ¬ CutPoll f n k := fun c => by
  obtain ⟨u, hu, -⟩ := turn_of_cutPoll c
  simp [h] at hu

/-- A line's shut: only that of a RUNNING trunk's active line leaves a poll due. -/
theorem headsKept_shutLine {n : Nat} (ok : PollsOk (s.trunk n)) (l : LineId) (c : ShutCause) :
    HeadsKept served
      (fun k => (s.trunk n).state = .running ∧ (s.trunk n).active = some l ∧ CutPoll (s.trunk n).flight n k) s
      (shutLine n l c s) := by
  have mark : (markShut n l c s).heads = s.heads := rfl
  have flight : ((markShut n l c s).trunk n).flight = (s.trunk n).flight := by
    simp [trunk_markShut, Trunk.setLine]; cases l <;> rfl
  have copies : ∀ u, ((markShut n l c s).trunk n).flight = .copyGap u → u.kind ≠ .poll := fun u hu =>
    ok.copies u (flight ▸ hu)
  refine headsKept_after ?_ (noteTrunk_heads s n _)
  dsimp only
  cases hs : (s.trunk n).state with
  | off => exact headsKept_congr (fun k => by simp) (headsKept_of_heads mark)
  | running =>
    by_cases ha : (s.trunk n).active = some l
    · simp only [ha, if_true]
      split
      · refine headsKept_before (headsKept_after (headsKept_congr (fun k => ?_) (headsKept_abandonTurn _ n)) rfl) mark
        simp
      · refine headsKept_before (headsKept_after (headsKept_congr (fun k => ?_) (headsKept_dropTurn copies)) rfl) mark
        simp
    · simp only [ha, if_false]
      exact headsKept_congr (fun k => by simp) (headsKept_of_heads mark)
  | down =>
    dsimp only
    split
    · refine headsKept_before (headsKept_after (headsKept_congr (fun k => ?_) (headsKept_dropTurn copies)) rfl) mark
      have : ¬ CutPoll (s.trunk n).flight n k := fun h => by
        obtain ⟨u, hu, hp⟩ := turn_of_cutPoll h
        exact ok.down hs u hu hp
      simp [this]
    · exact headsKept_congr (fun k => by simp) (headsKept_of_heads mark)

/-! ### A line's watchdog, the end of a copy, and the Orders' shuts -/

theorem trunk_modTrunk_ne {s : State} {n m : Nat} (f : Trunk → Trunk) (h : m ≠ n) : (s.modTrunk n f).trunk m = s.trunk m := by
  rw [State.modTrunk, trunk_setTrunk, if_neg (Ne.symm h)]

theorem headsKept_watchdogActs {n : Nat} (ok : PollsOk (s.trunk n)) (l : LineId) :
    HeadsKept served
      (fun k => (s.trunk n).state = .running ∧ (s.trunk n).active = some l ∧ CutPoll (s.trunk n).flight n k) s
      (watchdogActs n l s) := by
  have off : ∀ (f : Flight) (u : Turn), (forceOff l f).turn? = some u ↔ f.turn? = some u := fun f u => by
    unfold forceOff; split
    · next h => subst h; simp [Flight.turn?]
    · rfl
  have cut : ∀ k, CutPoll (forceOff l (s.trunk n).flight) n k ↔ CutPoll (s.trunk n).flight n k := fun k => by
    unfold forceOff; split
    · next h => rw [h, not_cutPoll (by simp), not_cutPoll (by simp)]
    · rfl
  have gap : ∀ (f : Flight) (u : Turn), forceOff l f = .copyGap u → f = .copyGap u := fun f u => by
    unfold forceOff; split <;> simp
  have e : ((s.modTrunk n (fun x => { x.setLine l { x.line l with watchdog := true } with
      flight := forceOff l x.flight })).trunk n) = { (s.trunk n).setLine l { (s.trunk n).line l with watchdog := true } with
      flight := forceOff l (s.trunk n).flight } := by simp
  unfold watchdogActs
  refine headsKept_before (headsKept_congr (fun k => ?_) (headsKept_shutLine (n := n) ?_ l .watchdog)) rfl
  · rw [e]; cases l <;> simp [Trunk.setLine, cut]
  · rw [e]
    exact ⟨fun u hu => ok.copies u (gap _ u hu),
      fun h u hu => ok.down (by cases l <;> exact h) u ((off _ u).mp hu)⟩

/-- A turn given up is no longer in flight, and nothing else of the trunk changes. -/
theorem trunk_dropTurn (s : State) (n : Nat) : (dropTurn n s).trunk n = { s.trunk n with flight := .idle } := by
  unfold dropTurn; split <;> simp

/-- What a line's shut leaves of its trunk's turn: where it shuts the active line of a RUNNING trunk no turn is in flight;
otherwise the trunk keeps its state and its active line, and its turn but for a recovery probe. -/
theorem shutLine_turn (s : State) (n : Nat) (l : LineId) (c : ShutCause) :
    let x := s.trunk n
    let y := (shutLine n l c s).trunk n
    (x.state = .running → x.active = some l → y.flight.turn? = none ∧ y.state ≠ .off) ∧
    (¬ (x.state = .running ∧ x.active = some l) → y.state = x.state ∧ y.active = x.active ∧
      (y.flight = x.flight ∨ (x.state = .down ∧ y.flight.turn? = none))) := by
  obtain ⟨f, rs, g, e⟩ := abandonTurn_spec (markShut n l c s) n
  have mark : ((markShut n l c s).trunk n).state = (s.trunk n).state ∧
      ((markShut n l c s).trunk n).active = (s.trunk n).active ∧
      ((markShut n l c s).trunk n).flight = (s.trunk n).flight := by
    rw [trunk_markShut]; cases l <;> exact ⟨rfl, rfl, rfl⟩
  have gap : g.turn? = none := by
    have : g = ((abandonTurn n (markShut n l c s)).trunk n).flight := by rw [e]
    rw [this, f.flight]; split <;> rfl
  simp only [shutLine, trunk_noteTrunk]
  refine ⟨fun hr ha => ?_, fun h => ?_⟩
  · simp only [hr, ha, if_true]
    split
    · simp only [failover, trunk_modTrunk_same, e]
      cases l <;> simp [Trunk.setLine, LineId.other, gap, hr]
    · simp [goDown, trunk_dropTurn, Flight.turn?]
  · cases hs : (s.trunk n).state with
    | off => exact ⟨mark.1.trans hs, mark.2.1, .inl mark.2.2⟩
    | running =>
      have ha : (s.trunk n).active ≠ some l := fun ha => h ⟨hs, ha⟩
      simp only [ha, if_false]
      exact ⟨mark.1.trans hs, mark.2.1, .inl mark.2.2⟩
    | down =>
      dsimp only
      split
      · simp [abandonProbe, trunk_dropTurn, hs, Flight.turn?]
      · exact ⟨mark.1.trans hs, mark.2.1, .inl mark.2.2⟩

theorem trunk_shutLine_ne (s : State) {n m : Nat} (l : LineId) (c : ShutCause) (h : m ≠ n) :
    (shutLine n l c s).trunk m = s.trunk m := by
  have mod : ∀ (u : State) (f : Trunk → Trunk), (u.modTrunk n f).trunk m = u.trunk m := fun u f => trunk_modTrunk_ne f h
  have mark : (markShut n l c s).trunk m = s.trunk m := mod s _
  have give : ∀ (u : State) (v : Turn), (giveBack n v u).trunk m = u.trunk m := fun u v => by
    unfold giveBack; split
    · exact mod u _
    · rfl
  have fly : ∀ (u : State) (f : Flight), (setFlight n f u).trunk m = u.trunk m := fun u f => mod u _
  have drop : ∀ u : State, (dropTurn n u).trunk m = u.trunk m := fun u => by
    unfold dropTurn; split <;> simp [fly]
  have abandon : ∀ u : State, (abandonTurn n u).trunk m = u.trunk m := fun u => by
    unfold abandonTurn; split <;> simp [fly, give]
  simp only [shutLine, trunk_noteTrunk]
  split
  · exact mark
  · split
    · split
      · rw [failover, mod, abandon, mark]
      · rw [goDown, mod, drop, mark]
    · exact mark
  · split
    · rw [abandonProbe, mod, drop, mark]
    · exact mark

theorem pollsOk_shutLine (s : State) (n : Nat) (l : LineId) (c : ShutCause) (ok : ∀ m, PollsOk (s.trunk m)) (m : Nat) :
    PollsOk ((shutLine n l c s).trunk m) := by
  by_cases hm : m = n
  · subst hm
    obtain ⟨h1, h2⟩ := shutLine_turn s m l c
    by_cases hc : (s.trunk m).state = .running ∧ (s.trunk m).active = some l
    · exact pollsOk_of_none (h1 hc.1 hc.2).1
    · obtain ⟨hs, -, hf⟩ := h2 hc
      rcases hf with hf | hf
      · exact ⟨fun u hu => (ok m).copies u (hf ▸ hu), fun hd u hu => (ok m).down (hs ▸ hd) u (hf ▸ hu)⟩
      · exact pollsOk_of_none hf.2
  · rw [trunk_shutLine_ne s l c hm]; exact ok m

/-- The SHUTs of an Orders record, line by line: the polls left due are those in flight on the RUNNING trunks whose active
line is among the lines. -/
theorem headsKept_shuts (c : ShutCause) (es : List (Nat × LineId)) (ok : ∀ m, PollsOk (s.trunk m)) :
    HeadsKept served
      (fun k => ∃ n l, (n, l) ∈ es ∧ (s.trunk n).state = .running ∧ (s.trunk n).active = some l ∧
        CutPoll (s.trunk n).flight n k) s
      (es.foldl (fun s e => shutLine e.1 e.2 c s) s) := by
  induction es generalizing s with
  | nil => exact headsKept_congr (fun k => by simp) (headsKept_of_heads rfl)
  | cons e es ih =>
    obtain ⟨n, l⟩ := e
    refine headsKept_congr (fun k => ?_) (headsKept_trans (headsKept_shutLine (ok n) l c) (ih (pollsOk_shutLine s n l c ok)))
    obtain ⟨h1, h2⟩ := shutLine_turn s n l c
    constructor
    · rintro (h | ⟨m, j, hm, hr, ha, hp⟩)
      · exact ⟨n, l, List.mem_cons_self, h⟩
      · by_cases hmn : m = n
        · subst hmn
          by_cases hc : (s.trunk m).state = .running ∧ (s.trunk m).active = some l
          · exact absurd hp (no_cutPoll_of_none (h1 hc.1 hc.2).1 m k)
          · obtain ⟨hs, hA, hf⟩ := h2 hc
            rcases hf with hf | hf
            · exact ⟨m, j, List.mem_cons_of_mem _ hm, hs ▸ hr, hA ▸ ha, hf ▸ hp⟩
            · exact absurd hp (no_cutPoll_of_none hf.2 m k)
        · rw [trunk_shutLine_ne s l c hmn] at hr ha hp
          exact ⟨m, j, List.mem_cons_of_mem _ hm, hr, ha, hp⟩
    · rintro ⟨m, j, hm, hr, ha, hp⟩
      by_cases hmn : m = n
      · subst hmn
        by_cases hj : j = l
        · exact .inl ⟨hr, hj ▸ ha, hp⟩
        · obtain ⟨hs, hA, hf⟩ := h2 (fun hc => hj (Option.some.inj (ha.symm.trans hc.2)))
          have hf : ((shutLine m l c s).trunk m).flight = (s.trunk m).flight :=
            hf.resolve_right (fun h => by simp [hr] at h)
          have hm : (m, j) ∈ es := (List.mem_cons.mp hm).resolve_left (fun h => hj (Prod.mk.inj h).2)
          exact .inr ⟨m, j, hm, hs.trans hr, hA.trans ha, hf.symm ▸ hp⟩
      · have hm : (m, j) ∈ es := (List.mem_cons.mp hm).resolve_left (fun h => hmn (Prod.mk.inj h).1)
        exact .inr ⟨m, j, hm, by rw [trunk_shutLine_ne s l c hmn]; exact ⟨hr, ha, hp⟩⟩

/-! ### Lines made READY (R173) -/

/-- Lines made READY hand the heads nothing: what a resumed trunk abandons is its recovery probe. -/
theorem headsKept_readyLines {n : Nat} (ok : PollsOk (s.trunk n)) (ls : List LineId) :
    HeadsKept served (fun _ => False) s (readyLines n ls s) := by
  refine headsKept_after ?_ (noteTrunk_heads s n _)
  dsimp only
  split
  · next hd _ =>
    have hf := fun l => (foldl_ready l (ls.filter (fun l => ((s.trunk n).line l).shut.isSome)) (s.trunk n)).1
    have none : ∀ k, ¬ CutPoll (s.trunk n).flight n k := fun k h => by
      obtain ⟨u, hu, hp⟩ := turn_of_cutPoll h
      exact ok.down hd u hu hp
    unfold resume
    dsimp only
    refine headsKept_after ?_ (modTrunk_heads _ _ _)
    have ab := headsKept_abandonTurn (served := served)
      (s.modTrunk n (fun x => (ls.filter (fun l => ((s.trunk n).line l).shut.isSome)).foldl Trunk.ready x)) n
    rw [trunk_modTrunk_same, hf .a] at ab
    have ab := headsKept_before (headsKept_congr (fun k => iff_false_intro (none k)) ab) (modTrunk_heads s _ _)
    split <;> (try split) <;> first | exact ab | exact headsKept_of_heads rfl
  · exact headsKept_of_heads rfl

/-! ### A turn's beginning (R151, R159, R162) -/

/-- A turn to a head hands nothing to another. -/
theorem headsKept_beginHeadTurn (s : State) (n k : Nat) (kind : FrameKind) (l : LineId) (rec : Bool) :
    HeadsKept (fun j => j = k) (fun _ => False) s (beginHeadTurn n k kind l rec s) := by
  unfold beginHeadTurn
  split
  · intro j hj
    simp only [setFlight_heads, find_modHead, if_neg (Ne.symm hj)]
    exact ⟨id, fun x hx => ⟨x, hx, turnPartKept_refl x, rfl, rfl, by simp⟩⟩
  · exact headsKept_of_heads rfl

/-- The turn of a trunk after a beginning to a head with a record and a row: a first send, and nothing else of the trunk. -/
theorem trunk_beginHeadTurn {s : State} {n k : Nat} {h : Head} {row : HeadRow} (kind : FrameKind) (l : LineId) (rec : Bool)
    (hh : tableFind s.heads k = some h) (hr : s.conf.head k = some row) :
    ∃ u, (beginHeadTurn n k kind l rec s).trunk n = { s.trunk n with flight := .sending u } ∧ JustBegun s n u ∧
      u.recovery = rec ∧ u.request = none ∧ u.kind = kind ∧ u.line = l ∧ u.address = keyAddress k :=
  ⟨{ kind := kind, address := keyAddress k, line := l,
     frame := headFrame s k row (h.begin kind s.hubTime (kindSettings s.conf row).poll) kind,
     recovery := rec, speed := (s.conf.trunk n).speed, window := (s.conf.trunk n).window },
    by simp [beginHeadTurn, hh, hr], ⟨rfl, ⟨rfl, rfl, rfl⟩, rfl, rfl⟩, rfl, rfl, rfl, rfl, rfl⟩

/-! ### A turn's end (R154, R166) -/

/-- An accepted reply leaves the level and the times that the turn's beginning set, and the Prompt List. -/
theorem accept_begun (h : Head) (kind : FrameKind) (r : Reply) :
    let h' := h.accept kind r
    h'.level = h.level ∧ h'.lastFrame = h.lastFrame ∧ h'.pollAt = h.pollAt ∧ h'.pollDue = h.pollDue ∧
      h'.prompts = h.prompts := by
  simp only [Head.accept, Head.endReload, Head.confirmTag, Head.health, Head.reload, Head.confirm, Head.compare]
  (repeat' split) <;> exact ⟨rfl, rfl, rfl, rfl, rfl⟩

theorem keptAtMiss_trans {a b c : Head} (h : KeptAtMiss a b) (k : KeptAtMiss b c) (hn : c.next = a.next → b.next = a.next) :
    KeptAtMiss a c := by
  refine ⟨by simp [k.tags, h.tags], by simp [k.contents, h.contents], fun e => ?_, by simp [k.levels, h.levels],
    by simp [k.times, h.times], by simp [k.others, h.others]⟩
  rw [k.content (by rw [e, hn e]), h.content (hn e)]

/-- A miss, the one that makes the head LOST too. -/
theorem miss_kept (h : Head) (now : Time) : KeptAtMiss h (h.miss now) ∧ (h.miss now).next = h.next := by
  unfold Head.miss
  dsimp only
  split <;> exact ⟨by constructor <;> simp, rfl⟩

theorem settleHead_keptAtMiss (s : State) (row : HeadRow) (h : Head) : KeptAtMiss h (settleHead s row h) := by
  obtain ⟨p, l, f, d, c⟩ := settleHead_kept s row h
  exact ⟨p.tags, ⟨p.contents.1, p.contents.2, p.link.2.1⟩, c, p.levels, ⟨p.times.1, p.times.2.1, d⟩,
    p.counts.2.2.1, f, p.prompts⟩

end Sys2Proof.Laws
end

