-- ==== Sys2Proof/Laws/Layers.lean ====
section
/-!
SUPPORT. What the units write into a head's layers and what the Compositor forms from them is what the layers' conditions
say (R71, R72, R93 to R95, R105, R121, R140, R141), for every state and head.
-/

namespace Sys2Proof.Laws

set_option Elab.async false -- one theorem at a time: side by side, these files' proofs ask for too many threads

open Sys2Proof Sys2Proof.Machine Sys2Proof.Safety

/-! ### The notice layer -/

theorem isTarget_iff (g : BuildingConfig) (n : Nat) (target : Target) (row : HeadRow) :
    isTarget g n target row = true ↔ TargetHead g n target row := by
  cases hk : row.kind? with
  | none => simp [isTarget, TargetHead, hk]
  | some k => cases k <;> cases target <;> simp [isTarget, TargetHead, hk]

theorem headTenant_lt {g : BuildingConfig} {row : HeadRow} {n : Nat} (h : headTenant g row = some n) : n < 8 := by
  have car : ∀ c, carTenant g c = some n → n < 8 := fun c h => List.mem_range.mp (List.mem_of_find?_eq_some h)
  unfold headTenant at h
  split at h
  · cases h
  · obtain ⟨c, e⟩ := Option.ite_none_right_eq_some.mp h
    cases e; simp only [Bool.and_eq_true, decide_eq_true_eq] at c; exact c.1
  · obtain ⟨c, e⟩ := Option.ite_none_right_eq_some.mp h
    cases e; simp only [Bool.and_eq_true, decide_eq_true_eq] at c; exact c.1
  all_goals exact car _ h

theorem decidingShare_none {s : State} {row : HeadRow} (h : ∀ n p, p < 8 → ¬ BearsOn s n p row) :
    decidingShare s row = .none := by
  unfold decidingShare
  cases ht : headTenant s.conf row with
  | none => rfl
  | some n =>
    have : (List.range 8).find? (fun p => !((s.program n p).share == .none) &&
        isTarget s.conf n (s.program n p).target row) = none := by
      rw [List.find?_eq_none]
      intro p hp hb
      simp only [Bool.and_eq_true, Bool.not_eq_true', beq_eq_false_iff_ne, isTarget_iff] at hb
      exact h n p (List.mem_range.mp hp) ⟨hb.1, hb.2⟩
    simp only [this]

theorem decidingShare_lowest {s : State} {row : HeadRow} {n p : Nat} (hp : p < 8) (hb : BearsOn s n p row)
    (hl : ∀ q < p, ¬ BearsOn s n q row) : decidingShare s row = (s.program n p).share := by
  have ht : headTenant s.conf row = some n := hb.2.1
  have : (List.range 8).find? (fun p => !((s.program n p).share == .none) &&
      isTarget s.conf n (s.program n p).target row) = some p := by
    rw [List.find?_range_eq_some]
    refine ⟨?_, List.mem_range.mpr hp, fun q hq => ?_⟩
    · simp [isTarget_iff, hb.1, hb.2]
    · have := hl q hq
      simp only [BearsOn, not_and] at this
      by_cases hs : (s.program n q).share = .none
      · simp [hs]
      · have ht := this hs
        rw [← isTarget_iff] at ht
        simp [ht]
  simp only [decidingShare, ht, this]

/-- The notice layer that a head is settled with (R121). -/
theorem noticeLayer_is (s : State) (row : HeadRow) : NoticeIs s row (noticeLayer s row) := by
  refine ⟨fun n p hp hb hl => ⟨fun f hf => ?_, fun hf => ?_⟩, fun h => ?_⟩
  · simp only [noticeLayer, decidingShare_lowest hp hb hl, hf]; split <;> rfl
  · simp only [noticeLayer, decidingShare_lowest hp hb hl, hf]
  · simp only [noticeLayer, decidingShare_none h]

/-! ### The position layer -/

theorem parkDesc_is (n : Nat) (o : Options) (d : Deck) : ParkIs n o d (parkDesc n o d) := by
  refine ⟨fun h => by simp [parkDesc, h], fun h i hi => by simp [parkDesc, h, hi], fun h h' => ?_⟩
  unfold parkDesc
  split
  · next e => exact absurd e h
  · next e => simp [h' e]
  · rfl

/-- The position presentation of a head (R71, R72). -/
theorem headPosition_is (s : State) (row : HeadRow) : PositionIs s row (headPosition s row) := by
  have takes : ∀ n, PositionFor s row n → headPosition s row = positionDesc s row.car row.deck := fun n h => by
    rcases h.1 with h | h <;> simp [headPosition, takesPosition, h]
  refine ⟨fun n h a b => ?_, fun n h a b i hi => ?_, fun n h a => ?_, fun h => ?_⟩
  · rw [takes n h]; simp only [positionDesc, h.2.1, h.2.2, a]; simp_all [State.deck]
  · rw [takes n h]; simp only [positionDesc, h.2.1, h.2.2, a]; simp_all [State.deck]
  · rw [takes n h]
    have : positionDesc s row.car row.deck = parkDesc n (s.tenant n).options (s.deck row.car row.deck) := by
      by_cases c : (s.car row.car).tracking = .tracking
      · have b := a c
        simp only [positionDesc, h.2.1, h.2.2, c]; simp_all [State.deck]
      · simp [positionDesc, h.2.1, h.2.2, c, State.deck]
    rw [this]; exact parkDesc_is _ _ _
  · unfold headPosition
    split
    · next k =>
      simp only [takesPosition, Bool.or_eq_true, beq_iff_eq] at k
      unfold positionDesc
      cases ht : carTenant s.conf row.car with
      | none => rfl
      | some n =>
        have : (s.tenant n).active = false := by
          by_contra c; exact h n ⟨k, ht, by simpa using c⟩
        simp [this]
    · rfl

/-- A position layer, once written, holds what it was written from. -/
theorem positionText_holds (m : Memory) (x : PosDesc) : PositionHolds x (positionText m x) := by
  cases x with
  | empty => exact .inl rfl
  | label t => exact .inr ⟨t, rfl, rfl⟩
  | store t i w => exact .inr ⟨_, rfl, rfl, rfl⟩

/-! ### The guidance layer -/

theorem insertItem_perm (x : Nat) (i : DestItem) (l : List (Nat × DestItem)) : (insertItem x i l).Perm ((x, i) :: l) := by
  induction l with
  | nil => exact .refl _
  | cons y l ih =>
    simp only [insertItem]
    split
    · exact .refl _
    · exact (ih.cons y).trans (.swap _ _ _)

theorem insertItem_sorted (x : Nat) (i : DestItem) (l : List (Nat × DestItem)) (h : l.Pairwise (fun a b => a.1 ≤ b.1)) :
    (insertItem x i l).Pairwise (fun a b => a.1 ≤ b.1) := by
  induction l with
  | nil => simp [insertItem]
  | cons y l ih =>
    rw [List.pairwise_cons] at h
    simp only [insertItem]
    split
    · next c =>
      refine List.pairwise_cons.mpr ⟨fun z hz => ?_, List.pairwise_cons.mpr h⟩
      rcases List.mem_cons.mp hz with rfl | hz
      · exact Nat.le_of_lt c
      · exact Nat.le_trans (Nat.le_of_lt c) (h.1 z hz)
    · next c =>
      refine List.pairwise_cons.mpr ⟨fun z hz => ?_, ih h.2⟩
      rcases List.mem_cons.mp ((insertItem_perm x i l).mem_iff.mp hz) with rfl | hz
      · exact Nat.le_of_not_lt c
      · exact h.1 z hz

/-- Inserting a list's items one after another sorts them. -/
theorem insertItems (s : State) (l : List (BoardEntry × Nat)) :
    ∀ acc : List (Nat × DestItem), acc.Pairwise (fun a b => a.1 ≤ b.1) →
    (l.foldl (fun acc e => insertItem e.2 (entryItem s e.1 e.2) acc) acc).Pairwise (fun a b => a.1 ≤ b.1) ∧
    (l.foldl (fun acc e => insertItem e.2 (entryItem s e.1 e.2) acc) acc).Perm
      (l.map (fun e => (e.2, entryItem s e.1 e.2)) ++ acc) := by
  induction l with
  | nil => exact fun acc h => ⟨h, .refl _⟩
  | cons e l ih =>
    intro acc h
    obtain ⟨a, b⟩ := ih _ (insertItem_sorted e.2 (entryItem s e.1 e.2) acc h)
    refine ⟨a, b.trans ?_⟩
    rw [List.map_cons, List.cons_append]
    exact ((insertItem_perm _ _ _).append_left _).trans List.perm_middle

/-- The arrow's direction, for an arrow that has one. -/
def arrowDir : Arrow → Dir
  | .down => .down
  | _ => .up

@[simp] theorem arrowDir_dirArrow (d : Dir) : arrowDir (dirArrow d) = d := by cases d <;> rfl

/-- What boardFind finds has the key that it was asked for. -/
theorem boardFind_key {s : State} {l c k : Nat} {d : Dir} {x : Nat × BoardEntry} (h : boardFind s l c k d = some x) :
    x.2.landing = l ∧ x.2.car = c ∧ x.2.deck = k ∧ x.2.direction = d := by
  have := List.find?_some h
  simp only [Bool.and_eq_true, beq_iff_eq] at this
  exact ⟨this.1.1.1, this.1.1.2, this.1.2, this.2⟩

theorem slotsWhere_ne_nil {s : State} {f : Slot → Bool} (hf : f {} = false) :
    slotsWhere s f ≠ [] ↔ ∃ n < 8, ∃ j < 64, f (s.slot n j) = true := by
  constructor
  · intro h
    obtain ⟨ti, hti⟩ := List.exists_mem_of_ne_nil _ h
    simp only [slotsWhere, allSlots, List.mem_filter, List.mem_flatMap, List.mem_range, List.mem_map,
      decide_eq_true_eq] at hti
    obtain ⟨⟨t, ht, i, ⟨⟨_, _⟩, hi⟩, rfl⟩, h⟩ := hti
    exact ⟨t, ht, i, hi, h⟩
  · rintro ⟨n, hn, j, hj, h⟩ e
    have : (n, j) ∈ slotsWhere s f := by
      simp only [slotsWhere, allSlots, List.mem_filter, List.mem_flatMap, List.mem_range, List.mem_map,
        decide_eq_true_eq]
      refine ⟨⟨n, hn, j, ⟨?_, hj⟩, rfl⟩, h⟩
      by_contra c
      have : tableFind (s.tenant n).slots j = none := by
        generalize (s.tenant n).slots = l at c ⊢
        induction l with
        | nil => rfl
        | cons y l ih =>
          simp only [List.mem_cons, exists_eq_or_imp, not_or] at c
          simp only [tableFind]
          rw [if_neg c.1]
          exact ih (by simpa using c.2)
      simp only [State.slot, Tenant.slot, tableGet, this, Option.getD_none, hf] at h
      cases h
    rw [e] at this; cases this

theorem entryItem_is {s : State} {row : HeadRow} {d : Dir} {p : Nat} {e : BoardEntry}
    (h : boardFind s row.landing row.car row.deck d = some (p, e)) (x : Nat) :
    LandingItem s row (x, d) (entryItem s e x) := by
  obtain ⟨a, b, c, f⟩ := boardFind_key h
  simp only at a b c f
  refine ⟨rfl, by simp [entryItem, f], rfl, ?_⟩
  simp only [entryItem, a, b, c, f, Bool.not_eq_true', ← Bool.not_eq_true, List.isEmpty_iff]
  rw [← ne_eq, slotsWhere_ne_nil (by rfl)]
  simp only [Bool.and_eq_true, beq_iff_eq, and_assoc]

/-- The destinations that a landing destination head picks, by entry. -/
def picked (s : State) (row : HeadRow) : List (BoardEntry × Nat) :=
  match boardFind s row.landing row.car row.deck .up, boardFind s row.landing row.car row.deck .down with
  | some (_, u), some (_, d) => if d.created < u.created then chosen d u else chosen u d
  | some (_, u), none => u.destinations.map (fun x => (u, x.1))
  | none, some (_, d) => d.destinations.map (fun x => (d, x.1))
  | none, none => []

theorem landingItems_eq (s : State) (row : HeadRow) : landingItems s row.landing row.car row.deck =
    ((picked s row).foldl (fun acc e => insertItem e.2 (entryItem s e.1 e.2) acc) []).map (·.2) := rfl

/-- Every picked destination is of an entry that the head's key finds. -/
theorem picked_mem {s : State} {row : HeadRow} {e : BoardEntry × Nat} (h : e ∈ picked s row) :
    ∃ p, boardFind s row.landing row.car row.deck e.1.direction = some (p, e.1) := by
  have of : ∀ d p x, boardFind s row.landing row.car row.deck d = some (p, x) → e.1 = x →
      ∃ p, boardFind s row.landing row.car row.deck e.1.direction = some (p, e.1) := by
    rintro d p x hx rfl
    exact ⟨p, by rw [(boardFind_key hx).2.2.2]; exact hx⟩
  have pick : ∀ a b : BoardEntry, e ∈ chosen a b → e.1 = a ∨ e.1 = b := fun a b h => by
    simp only [chosen, List.mem_append, List.mem_map] at h
    rcases h with ⟨_, _, rfl⟩ | ⟨_, _, rfl⟩
    · exact .inl rfl
    · exact .inr rfl
  unfold picked at h
  split at h
  · next hu hd =>
    split at h <;> rcases pick _ _ h with q | q
    · exact of _ _ _ hd q
    · exact of _ _ _ hu q
    · exact of _ _ _ hu q
    · exact of _ _ _ hd q
  · next hu hd =>
    obtain ⟨_, _, rfl⟩ := List.mem_map.mp h
    exact of _ _ _ hu rfl
  · next hu hd =>
    obtain ⟨_, _, rfl⟩ := List.mem_map.mp h
    exact of _ _ _ hd rfl
  · cases h

theorem chosen_shown {u d : BoardEntry} {x y : Dir} (hu : u.direction = x) (hd : d.direction = y) :
    (chosen u d).map (fun e => (e.2, e.1.direction)) = shownOf u.destinations x ++
      shownOf ((if y = .up then d.destinations else d.destinations.reverse).take (6 - u.destinations.length)) y := by
  subst hu hd
  cases h : d.direction <;> simp [chosen, shownOf, nearestFirst, h, Function.comp_def, List.map_take,
    Config.boardDestinations]

/-- The picked destinations are those that the rule names (R94). -/
theorem picked_shown (s : State) (row : HeadRow) (shown : List (Nat × Dir)) (hs : shown.Pairwise (fun a b => a.1 ≤ b.1))
    (h : shown.Perm ((picked s row).map (fun e => (e.2, e.1.direction)))) : LandingShown s row shown := by
  refine ⟨hs, h.trans ?_⟩
  unfold picked
  split
  · next hu hd =>
    have fu := (boardFind_key hu).2.2.2
    have fd := (boardFind_key hd).2.2.2
    simp only at fu fd
    rw [hu, hd]
    dsimp only
    split <;> rename_i older
    · rw [chosen_shown fd fu, if_pos rfl]
      split
      · rw [List.take_of_length_le (by omega)]; exact List.perm_append_comm
      · exact .refl _
    · rw [chosen_shown fu fd, if_neg (by simp)]
      split
      · rw [List.take_of_length_le (by rw [List.length_reverse]; omega)]
        exact ((List.reverse_perm _).map _).append_left _
      · exact .refl _
  · next hu hd =>
    have fu := (boardFind_key hu).2.2.2
    simp only at fu
    simp only [hu, hd, List.map_map, shownOf, Function.comp_def, fu]; exact .refl _
  · next hu hd =>
    have fd := (boardFind_key hd).2.2.2
    simp only at fd
    simp only [hu, hd, List.map_map, shownOf, Function.comp_def, fd]; exact .refl _
  · next hu hd => simp only [hu, hd]; exact .refl _

/-- What a landing destination head shows (R94). -/
theorem landingItems_is (s : State) (row : HeadRow) : ∃ shown, LandingShown s row shown ∧
    List.Forall₂ (LandingItem s row) shown (landingItems s row.landing row.car row.deck) := by
  obtain ⟨a, b⟩ := insertItems s (picked s row) [] .nil
  rw [List.append_nil] at b
  rw [landingItems_eq]
  generalize (picked s row).foldl (fun acc e => insertItem e.2 (entryItem s e.1 e.2) acc) [] = r at a b ⊢
  refine ⟨r.map (fun y => (y.1, arrowDir y.2.arrow)), picked_shown s row _ ?_ ?_, ?_⟩
  · exact List.pairwise_map.mpr a
  · refine (b.map _).trans ?_
    rw [List.map_map]
    simp only [Function.comp_def, entryItem, arrowDir_dirArrow]; exact .refl _
  · rw [List.forall₂_map_left_iff, List.forall₂_map_right_iff, List.forall₂_same]
    intro y hy
    obtain ⟨e, he, rfl⟩ := List.mem_map.mp (b.mem_iff.mp hy)
    obtain ⟨p, hp⟩ := picked_mem he
    simpa [entryItem] using entryItem_is hp e.2

/-- The guidance layer that a head is settled with (R93 to R95, R105). -/
theorem guidanceLayer_is (s : State) (row : HeadRow) (prompts : List Prompt) :
    GuidanceIs s row prompts (guidanceLayer s row prompts) := by
  refine ⟨?_, ?_, ?_, ?_, ?_⟩
  · rintro (h | h | h)
    · unfold guidanceLayer
      cases ht : headTenant s.conf row with
      | none => rfl
      | some n => simp [h n ht]
    all_goals
      unfold guidanceLayer
      cases ht : headTenant s.conf row with
      | none => rfl
      | some n => simp [h]
  · intro k n ht ha
    simp only [guidanceLayer, ht, ha, k, lanternGuide, Bool.not_true, Bool.false_eq_true, if_false]
    rfl
  · intro k n ht ha
    obtain ⟨shown, a, b⟩ := landingItems_is s row
    refine ⟨shown, _, a, b, ?_⟩
    simp [guidanceLayer, ht, ha, k, listGuide]
  · intro k n ht ha
    simp [guidanceLayer, ht, ha, k, listGuide, aboardItems]
  · intro k n ht ha
    refine ⟨fun h => ?_, fun p h => ?_, fun older q p h => ?_⟩ <;> simp [guidanceLayer, ht, ha, k, h]

/-! ### The next content -/

theorem overrideLayer_is {s : State} {row : HeadRow} {l : Nat} (hl : l < 4) (hq : Qualifies s row l)
    (hm : ∀ m < l, ¬ Qualifies s row m) {k : HeadKind} (hk : row.kind? = some k) :
    overrideLayer s row = some (overrideOf k l (s.conf.text (s.conf.line l).text)) := by
  have iff : ∀ m, lineQualifies s row m = true ↔ Qualifies s row m := fun m => by
    simp [lineQualifies, OverrideLine.qualifies, inZone, and_assoc]
  have : decidingLine s row = some l := by
    unfold decidingLine
    rw [List.find?_range_eq_some]
    exact ⟨(iff l).mpr hq, List.mem_range.mpr hl, fun m h => by simpa using fun c => hm m h ((iff m).mp c)⟩
  cases k <;> simp [overrideLayer, this, hk, overrideOf, overrideText]

theorem mainRegion_is (h : Head) : MainIs h (mainRegion h h.presented) (contentLine h h.presented) := by
  refine ⟨fun p o e => ?_, fun p l e => ?_, fun p l e => ?_, fun p l e => ?_, fun p => ?_, fun p => ?_⟩
  · simp [mainRegion, contentLine, p, e]
  · simp [mainRegion, p, e]
  · simp [mainRegion, p, e]
  · simp [mainRegion, p, e]
  · rcases p with p | p <;> simp [mainRegion, p]
  · unfold contentLine
    split
    · next c => exact absurd c p
    · rfl

/-- The next content that a head forms (R140, R141), where its presented layer is the one that R139 chooses. -/
theorem nextContent_is (k : HeadKind) (row : HeadRow) (h : Head) (hp : h.presented = presentedLayer row h)
    (hn : h.next = nextContent k row h h.presented) : NextIs k row h := by
  have shows : h.presented = .position → h.position.isSome = true := fun e => by
    rw [hp] at e
    unfold presentedLayer at e
    split at e
    · cases e
    split at e
    · cases e
    split at e
    · cases e
    split at e
    · next c => simp only [Bool.and_eq_true] at c; exact c.1
    · cases e
  cases k
  case positionIndicator =>
    refine ⟨_, _, hn, fun p o e => ?_, fun p l e => ?_, fun p => ?_, fun p => ?_, fun p => (mainRegion_is h).line p⟩
    · simp [p, e, plainText, contentLine]
    · simp [p, e, plainText]
    · obtain ⟨x, hx⟩ := Option.isSome_iff_exists.mp (shows p)
      simp [p, hx]
    · rcases p with p | p <;> simp [p, blankText, regionBlank]
  case lantern =>
    refine ⟨fun p a f n e => by rw [hn]; simp [nextContent, p, e], fun p => ?_⟩
    rw [hn]
    cases e : h.presented <;> simp_all [nextContent]
  case carPanel =>
    refine ⟨_, _, _, hn, ⟨fun p o e => by simp [p, e, plainText], fun p m x e => ?_, fun p e => ?_⟩, mainRegion_is h⟩
    · cases q : h.presented <;> simp_all [positionRegion, admits]
    · cases q : h.presented <;> rcases e with e | e <;>
        simp_all [positionRegion, admits, blankText, regionBlank]
  all_goals exact ⟨_, _, hn, mainRegion_is h⟩

/-! ### A settled head -/

theorem decidingLine_iff (s : State) (row : HeadRow) : (decidingLine s row).isSome = true ↔ ∃ l < 4, Qualifies s row l := by
  simp only [decidingLine, List.find?_isSome, List.mem_range, lineQualifies, OverrideLine.qualifies, inZone,
    Bool.and_eq_true, Bool.or_eq_true, beq_iff_eq, decide_eq_true_eq, Bool.not_eq_true', and_assoc]

theorem overrideLayer_iff (s : State) (row : HeadRow) :
    (overrideLayer s row).isSome = true ↔ ∃ l < 4, Qualifies s row l := by
  rw [← decidingLine_iff]
  unfold overrideLayer
  cases decidingLine s row with
  | none => rfl
  | some l => cases row.kind? with
    | none => rfl
    | some k => cases k <;> rfl

/-- Forming the content keeps the layers. -/
theorem formContent_layers (s : State) (k : HeadKind) (row : HeadRow) (h : Head) :
    let x := formContent s k row h
    x.override = h.override ∧ x.notice = h.notice ∧ x.guidance = h.guidance ∧ x.guidanceDesc = h.guidanceDesc ∧
      x.position = h.position ∧ x.positionDesc = h.positionDesc ∧ x.prompts = h.prompts := by
  unfold formContent
  dsimp only
  split <;> exact ⟨rfl, rfl, rfl, rfl, rfl, rfl, rfl⟩

/-- What forming the content makes of the presented layer, the next content and the target. -/
theorem formContent_formed (s : State) (k : HeadKind) (row : HeadRow) (h : Head) :
    let x := formContent s k row h
    x.presented = presentedLayer row h ∧ x.next = nextContent k row h (presentedLayer row h) ∧
      x.target = brightnessTarget s row h.ambient (presentedLayer row h) ∧ x.ambient = h.ambient := by
  unfold formContent
  dsimp only
  split <;> exact ⟨rfl, rfl, rfl, rfl⟩

/-- Forming the content keeps the comparison right (R142). -/
theorem formContent_differs (s : State) (k : HeadKind) (row : HeadRow) (h : Head)
    (hd : h.differs = true ↔ h.confirmed ≠ some h.next) :
    (formContent s k row h).differs = true ↔ (formContent s k row h).confirmed ≠ some (formContent s k row h).next := by
  unfold formContent
  dsimp only
  split
  · next e => dsimp only; rw [e]; exact hd
  · simp [Head.compare]

/-- A written position layer holds what it was written from. -/
theorem writeLayers_positionHolds (s : State) (row : HeadRow) (h : Head) (hp : PositionHolds h.positionDesc h.position) :
    PositionHolds (writeLayers s row h).positionDesc (writeLayers s row h).position := by
  unfold writeLayers
  dsimp only
  split
  · next e => rw [e]; exact hp
  · exact positionText_holds _ _

/-- A written guidance layer holds what it was written from, or stands empty (assumption 50). -/
theorem writeLayers_guidanceHolds (s : State) (row : HeadRow) (h : Head) (hg : h.guidance = h.guidanceDesc ∨ h.guidance = none) :
    (writeLayers s row h).guidance = (writeLayers s row h).guidanceDesc ∨ (writeLayers s row h).guidance = none := by
  unfold writeLayers
  dsimp only
  split
  · next e => rw [e]; exact hg
  · exact .inl rfl

/-- The presented layer is a function of the layers alone, and so is the next content. -/
theorem presentedLayer_congr (row : HeadRow) {x h : Head} (a : x.override = h.override) (b : x.notice = h.notice)
    (c : x.guidance = h.guidance) (d : x.position = h.position) : presentedLayer row x = presentedLayer row h := by
  simp only [presentedLayer, a, b, c, d]

theorem nextContent_congr (k : HeadKind) (row : HeadRow) (p : Layer) {x h : Head} (a : x.override = h.override)
    (b : x.notice = h.notice) (c : x.guidance = h.guidance) (d : x.position = h.position) :
    nextContent k row x p = nextContent k row h p := by
  simp only [nextContent, mainRegion, positionRegion, contentLine, a, b, c, d]

/-- R139: the presented layer in the rule's words. -/
theorem presentedLayer_is (row : HeadRow) (h : Head) : presentedLayer row h =
    if h.override.isSome ∧ row.layerMask.getLsbD 0 then .override
    else if h.notice.isSome ∧ row.layerMask.getLsbD 1 then .notice
    else if h.guidance.isSome ∧ row.layerMask.getLsbD 2 then .guidance
    else if h.position.isSome ∧ row.layerMask.getLsbD 3 then .position
    else .idle := by
  simp only [presentedLayer, admits, Bool.and_eq_true]

/-- R145: the brightness target in the rule's words. -/
theorem brightnessTarget_is (s : State) (row : HeadRow) (ambient : Option Nat) (p : Layer) :
    (brightnessTarget s row ambient p : Int) =
    if p = .override then (ceilingOf s : Int)
    else max 0 (min (max ((kindOf s row).lmin : Int) ((kindOf s row).offset +
      (((kindOf s row).gain * ambient.getD 128 / 64 : Nat) : Int))) (min (kindOf s row).lmax (ceilingOf s) : Nat)) := by
  have a : ceiling s = ceilingOf s := rfl
  have b : kindSettings s.conf row = kindOf s row := rfl
  simp only [brightnessTarget, a, b]
  split
  · rfl
  · split <;> omega

/-- What settling makes of a head: every layer is as its unit writes it, and what follows from the layers holds. The
premises are what each event leaves of the head's earlier layers and of its last comparison. -/
theorem settleHead_is (s : State) (row : HeadRow) (h : Head) {k : HeadKind} (hk : row.kind? = some k)
    (hg : h.guidance = h.guidanceDesc ∨ h.guidance = none) (hp : PositionHolds h.positionDesc h.position)
    (hd : h.differs = true ↔ h.confirmed ≠ some h.next) : HeadLayersOk s row (settleHead s row h) := by
  have e : settleHead s row h = formContent s k row (writeLayers s row h) := by simp only [settleHead, hk]
  rw [e]
  have w := writeLayers_guidanceHolds s row h hg
  have v := writeLayers_positionHolds s row h hp
  have f := formContent_differs s k row (writeLayers s row h) hd
  obtain ⟨lo, ln, lg, lgd, lp, lpd, lpr⟩ := formContent_layers s k row (writeLayers s row h)
  obtain ⟨fp, fn, ft, fa⟩ := formContent_formed s k row (writeLayers s row h)
  have pc := presentedLayer_congr row lo ln lg lp
  generalize hx : formContent s k row (writeLayers s row h) = x at *
  refine ⟨?_, fun l a b c k e => ?_, ?_, ?_, ?_, ?_, ?_, ?_, fun k' e => ?_, f, ?_⟩
  · rw [lo]; exact overrideLayer_iff s row
  · rw [lo]; exact overrideLayer_is a b c e
  · rw [ln]; exact noticeLayer_is s row
  · rw [lgd, lpr]; exact guidanceLayer_is s row h.prompts
  · rw [lg, lgd]; exact w
  · rw [lpd]; exact headPosition_is s row
  · rw [lpd, lp]; exact v
  · rw [fp, ← pc]; exact presentedLayer_is row x
  · rw [hk] at e; cases e
    exact nextContent_is k row x (fp.trans pc.symm) (by rw [fn, fp, nextContent_congr k row _ lo ln lg lp])
  · rw [ft, fp, fa]; exact brightnessTarget_is s row _ _

/-! ### The heads settled -/

/-- The heads' records are no part of what the units write. -/
theorem settleHead_heads (s : State) (heads : Table Head) (row : HeadRow) (h : Head) :
    settleHead { s with heads := heads } row h = settleHead s row h := rfl

/-- After an event every head's layers are right, where the event left the layers of each as settleHead_is asks. -/
theorem settleHeads_is (s : State)
    (H : ∀ k h row, tableFind s.heads k = some h → s.conf.head k = some row → row.kind? ≠ none →
      (h.guidance = h.guidanceDesc ∨ h.guidance = none) ∧ PositionHolds h.positionDesc h.position ∧
      (h.differs = true ↔ h.confirmed ≠ some h.next)) : LayersOk (settleHeads s) := by
  intro k x row hx hr hk
  have hr' : s.conf.head k = some row := hr
  simp only [settleHeads] at hx
  rw [tableFind_map] at hx
  obtain ⟨h, hh, rfl⟩ := Option.map_eq_some_iff.mp hx
  obtain ⟨a, b, c⟩ := H k h row hh hr' hk
  obtain ⟨kind, e⟩ := Option.ne_none_iff_exists'.mp hk
  simp only [hr']
  rw [← settleHead_heads s (settleHeads s).heads]
  exact settleHead_is (settleHeads s) row h e a b c

end Sys2Proof.Laws
end

