-- ==== Sys2Proof/Laws/PerInstr.lean ====
section
/-!
SUPPORT. Statements made command by command. `WellFormedness`: what the check of a command's operands comes to, in the
spec's terms.
-/

namespace Sys2Proof.Laws

open Sys2Proof

/-- A head address is 1 to 62 (00_scope.md 6.6), an echo has at most the 248 characters of the longest frame (R150), a
reply has at least one character (R153), and every other operand is bounded by its type. -/
def WellFormedness.Statement (i : Instr) : Prop :=
  WellFormed i = true ↔
    match i with
    | .promptHoldExpiry _ a | .pollDue _ a | .probeDue _ a => 1 ≤ a ∧ a ≤ 62
    | .frameEnd _ echo => echo.length ≤ 248
    | .replyEnd _ reply => 1 ≤ reply.length
    | _ => True

theorem WellFormedness.powerOnResetAssert :
    WellFormedness.Statement .powerOnResetAssert := iff_of_true rfl trivial

theorem WellFormedness.powerOnResetRelease :
    WellFormedness.Statement .powerOnResetRelease := iff_of_true rfl trivial

theorem WellFormedness.zeroFillCompletion :
    WellFormedness.Statement .zeroFillCompletion := iff_of_true rfl trivial

theorem WellFormedness.sharedRamWrite (addr : BitVec 16) (value : Word32) :
    WellFormedness.Statement (.sharedRamWrite addr value) := iff_of_true rfl trivial

theorem WellFormedness.sharedRamRead (addr : BitVec 16) :
    WellFormedness.Statement (.sharedRamRead addr) := iff_of_true rfl trivial

theorem WellFormedness.portReset :
    WellFormedness.Statement .portReset := iff_of_true rfl trivial

theorem WellFormedness.portResetCompletion :
    WellFormedness.Statement .portResetCompletion := iff_of_true rfl trivial

theorem WellFormedness.runSet :
    WellFormedness.Statement .runSet := iff_of_true rfl trivial

theorem WellFormedness.runClear :
    WellFormedness.Statement .runClear := iff_of_true rfl trivial

theorem WellFormedness.nudgeTenant (t : Fin 8) :
    WellFormedness.Statement (.nudgeTenant t) := iff_of_true rfl trivial

theorem WellFormedness.nudgeBuilding :
    WellFormedness.Statement .nudgeBuilding := iff_of_true rfl trivial

theorem WellFormedness.attentionClear (value : Word32) :
    WellFormedness.Statement (.attentionClear value) := iff_of_true rfl trivial

theorem WellFormedness.attentionMaskWrite (value : Word32) :
    WellFormedness.Statement (.attentionMaskWrite value) := iff_of_true rfl trivial

theorem WellFormedness.lockSetHold :
    WellFormedness.Statement .lockSetHold := iff_of_true rfl trivial

theorem WellFormedness.lockClearHold :
    WellFormedness.Statement .lockClearHold := iff_of_true rfl trivial

theorem WellFormedness.lockSetFixed :
    WellFormedness.Statement .lockSetFixed := iff_of_true rfl trivial

theorem WellFormedness.registerWriteIgnored (select : BitVec 3) (value : Word32) :
    WellFormedness.Statement (.registerWriteIgnored select value) := iff_of_true rfl trivial

theorem WellFormedness.hubTimeTick :
    WellFormedness.Statement .hubTimeTick := iff_of_true rfl trivial

theorem WellFormedness.sweepTimerExpiry (area : Area) :
    WellFormedness.Statement (.sweepTimerExpiry area) := iff_of_true rfl trivial

theorem WellFormedness.sweepCompletion (area : Area) :
    WellFormedness.Statement (.sweepCompletion area) := iff_of_true rfl trivial

theorem WellFormedness.sweepReadConfiguration :
    WellFormedness.Statement .sweepReadConfiguration := iff_of_true rfl trivial

theorem WellFormedness.sweepReadOrders :
    WellFormedness.Statement .sweepReadOrders := iff_of_true rfl trivial

theorem WellFormedness.sweepReadTenantHeader (t : Fin 8) :
    WellFormedness.Statement (.sweepReadTenantHeader t) := iff_of_true rfl trivial

theorem WellFormedness.sweepReadTenantMap (t : Fin 8) :
    WellFormedness.Statement (.sweepReadTenantMap t) := iff_of_true rfl trivial

theorem WellFormedness.sweepReadCarReport (t : Fin 8) (i : Fin 16) :
    WellFormedness.Statement (.sweepReadCarReport t i) := iff_of_true rfl trivial

theorem WellFormedness.sweepReadSlot (t : Fin 8) (i : Fin 64) :
    WellFormedness.Statement (.sweepReadSlot t i) := iff_of_true rfl trivial

theorem WellFormedness.sweepReadProgramControl (t : Fin 8) (p : Fin 8) :
    WellFormedness.Statement (.sweepReadProgramControl t p) := iff_of_true rfl trivial

theorem WellFormedness.validationCompletion :
    WellFormedness.Statement .validationCompletion := iff_of_true rfl trivial

theorem WellFormedness.freshnessExpiry (car : Fin 64) :
    WellFormedness.Statement (.freshnessExpiry car) := iff_of_true rfl trivial

theorem WellFormedness.boardingLimitExpiry (t : Fin 8) (i : Fin 64) :
    WellFormedness.Statement (.boardingLimitExpiry t i) := iff_of_true rfl trivial

theorem WellFormedness.rideLimitExpiry (t : Fin 8) (i : Fin 64) :
    WellFormedness.Statement (.rideLimitExpiry t i) := iff_of_true rfl trivial

theorem WellFormedness.promptHoldExpiry (trunk : Fin 16) (address : Nat) :
    WellFormedness.Statement (.promptHoldExpiry trunk address) := by
  show (decide (1 ≤ address) && decide (address ≤ 62)) = true ↔ _
  rw [Bool.and_eq_true, decide_eq_true_iff, decide_eq_true_iff]

theorem WellFormedness.stepExpiry (t : Fin 8) (p : Fin 8) :
    WellFormedness.Statement (.stepExpiry t p) := iff_of_true rfl trivial

theorem WellFormedness.waitTimeout (t : Fin 8) (p : Fin 8) :
    WellFormedness.Statement (.waitTimeout t p) := iff_of_true rfl trivial

theorem WellFormedness.overridePinChange (line : Fin 4) (low : Bool) :
    WellFormedness.Statement (.overridePinChange line low) := iff_of_true rfl trivial

theorem WellFormedness.debounceExpiry (line : Fin 4) :
    WellFormedness.Statement (.debounceExpiry line) := iff_of_true rfl trivial

theorem WellFormedness.sbenChange (high : Bool) :
    WellFormedness.Statement (.sbenChange high) := iff_of_true rfl trivial

theorem WellFormedness.sideBandWord :
    WellFormedness.Statement .sideBandWord := iff_of_true rfl trivial

theorem WellFormedness.turnBegin (trunk : Fin 16) :
    WellFormedness.Statement (.turnBegin trunk) := iff_of_true rfl trivial

theorem WellFormedness.frameEnd (trunk : Fin 16) (echo : List Received) :
    WellFormedness.Statement (.frameEnd trunk echo) := by
  simp [WellFormedness.Statement, WellFormed]

theorem WellFormedness.breakEnd (trunk : Fin 16) :
    WellFormedness.Statement (.breakEnd trunk) := iff_of_true rfl trivial

theorem WellFormedness.replyEnd (trunk : Fin 16) (reply : List Received) :
    WellFormedness.Statement (.replyEnd trunk reply) := by
  cases reply <;> simp [WellFormedness.Statement, WellFormed]

theorem WellFormedness.replyWindowExpiry (trunk : Fin 16) :
    WellFormedness.Statement (.replyWindowExpiry trunk) := iff_of_true rfl trivial

theorem WellFormedness.gapExpiry (trunk : Fin 16) :
    WellFormedness.Statement (.gapExpiry trunk) := iff_of_true rfl trivial

theorem WellFormedness.pollDue (trunk : Fin 16) (address : Nat) :
    WellFormedness.Statement (.pollDue trunk address) := by
  show (decide (1 ≤ address) && decide (address ≤ 62)) = true ↔ _
  rw [Bool.and_eq_true, decide_eq_true_iff, decide_eq_true_iff]

theorem WellFormedness.probeDue (trunk : Fin 16) (address : Nat) :
    WellFormedness.Statement (.probeDue trunk address) := by
  show (decide (1 ≤ address) && decide (address ≤ 62)) = true ↔ _
  rw [Bool.and_eq_true, decide_eq_true_iff, decide_eq_true_iff]

theorem WellFormedness.watchdogExpiry (trunk : Fin 16) (line : LineId) :
    WellFormedness.Statement (.watchdogExpiry trunk line) := iff_of_true rfl trivial

theorem WellFormedness.recoveryExpiry (trunk : Fin 16) :
    WellFormedness.Statement (.recoveryExpiry trunk) := iff_of_true rfl trivial

theorem WellFormedness.recoveryProbeBegin (trunk : Fin 16) :
    WellFormedness.Statement (.recoveryProbeBegin trunk) := iff_of_true rfl trivial

theorem WellFormedness.sideBandWordStart :
    WellFormedness.Statement .sideBandWordStart := iff_of_true rfl trivial

theorem WellFormedness.sideBandClockEdge (bit : Bool) :
    WellFormedness.Statement (.sideBandClockEdge bit) := iff_of_true rfl trivial

theorem WellFormedness.replyFirstCharacter (trunk : Fin 16) :
    WellFormedness.Statement (.replyFirstCharacter trunk) := iff_of_true rfl trivial

end Sys2Proof.Laws
end

