-- ==== Sys2Proof/Laws/Reads.lean ====
section
/-!
SUPPORT. The reads of the shared RAM in the words of the layouts: a number of one, two or four bytes, a set of bits, and a run
of bytes. A statement about a host record is cited from these, and `memNat` is not unfolded again.
-/

namespace Sys2Proof.Laws

open Sys2Proof.Machine Sys2Proof.Safety

theorem memNat_one (m : Memory) (a : Nat) : memNat m a 1 = byteAt m a := by
  simp [memNat, memBytes, List.range, List.range.loop, leNat, byteAt]

theorem memNat_two (m : Memory) (a : Nat) : memNat m a 2 = pairAt m a := by
  simp [memNat, memBytes, List.range, List.range.loop, leNat, byteAt, pairAt]

theorem memNat_four (m : Memory) (a : Nat) : memNat m a 4 = quadAt m a := by
  simp [memNat, memBytes, List.range, List.range.loop, leNat, byteAt, pairAt, quadAt, Nat.add_assoc]; omega

theorem byteAt_lt (m : Memory) (a : Nat) : byteAt m a < 256 := by unfold byteAt; omega
theorem pairAt_lt (m : Memory) (a : Nat) : pairAt m a < 65536 := by unfold pairAt byteAt; omega

/-- Bit `i` of the number that bytes make is bit `i % 8` of byte `i / 8`. -/
theorem leNat_testBit (l : List Byte) (i : Nat) : (leNat l).testBit i = (l.getD (i / 8) 0).getLsbD (i % 8) := by
  induction l generalizing i with
  | nil => simp [leNat]
  | cons b l ih =>
    have e : leNat (b :: l) = 2 ^ 8 * leNat l + b.toNat := by simp [leNat]; omega
    rw [e, Nat.testBit_two_pow_mul_add _ b.isLt]
    split
    · rename_i h; rw [Nat.div_eq_of_lt h, Nat.mod_eq_of_lt h]; simp [BitVec.getLsbD]
    · rename_i h; rw [ih, show i / 8 = (i - 8) / 8 + 1 by omega, show i % 8 = (i - 8) % 8 by omega]; simp

/-- A set of bits read whole has the bits that the shared RAM has. -/
theorem memNat_bit (m : Memory) (a n w i : Nat) (h : i < 8 * n) (hw : i < w) :
    (BitVec.ofNat w (memNat m a n)).getLsbD i = bitAt m a i := by
  simp only [BitVec.getLsbD_ofNat, hw, decide_true, Bool.true_and, memNat, leNat_testBit, bitAt, memBytes]
  congr 1
  rw [List.getD_eq_getElem?_getD, List.getElem?_map, List.getElem?_range (by omega)]; rfl

theorem memBytes_at (m : Memory) (a n : Nat) : BytesAt m a n (memBytes m a n) := by
  refine ⟨by simp [memBytes], fun i hi => ?_⟩
  rw [List.getD_eq_getElem?_getD, memBytes, List.getElem?_map, List.getElem?_range hi]; rfl

theorem stampsAt_twin (m : Memory) (a o : Nat) : TwinAt m a (a + o) (stampsAt m a o) := by
  simp [TwinAt, stampsAt, memNat_two]; exact ⟨pairAt_lt .., pairAt_lt ..⟩

end Sys2Proof.Laws
end

