-- ==== Sys2Proof/Laws/Resolution.lean ====
section
/-!
SUPPORT. What the Resolution Unit answers (R49 to R51): an entry, a served set, a head's tenant; with the Restriction List
(R26, R81) and the places of a label (R65). One lemma for each function.
-/

namespace Sys2Proof.Laws

open Sys2Proof Sys2Proof.Machine Sys2Proof.Safety

/-! ### Resolution at use (R49) -/

theorem resolveFloor_spec (ten : Tenant) (i : Nat) :
    ResolvesBy ten 192 i .floorUnmapped (fun m => m.floors.getD i .unmapped)
      (fun m => (m.body.floors.getD i {}).landing)
      (fun m o => o.1 = (m.body.floors.getD i {}).landing ∧ ∀ a, attrOf (m.body.floors.getD i {}).attr = some a → o.2 = a)
      (resolveFloor ten i) := by
  refine ⟨fun h => ?_, fun h hm => ?_, fun m h hm hs => ?_, fun m h hm hs => ?_, fun m c h hm hs => ?_,
    fun m h hm hs => ⟨_, by simp only [resolveFloor, resolveEntry, Nat.not_le.mpr h, hm, hs, if_false]; rfl, rfl,
      fun a ha => by show (attrOf (m.body.floors.getD i {}).attr).getD .both = a; rw [ha]; rfl⟩⟩
  · simp [resolveFloor, resolveEntry, h]
  · simp [resolveFloor, resolveEntry, Nat.not_le.mpr h, hm]
  all_goals simp only [resolveFloor, resolveEntry, Nat.not_le.mpr h, hm, hs, if_false]
  rfl

theorem resolveCar_spec (ten : Tenant) (i : Nat) :
    ResolvesBy ten 16 i .carUnmapped (fun m => m.cars.getD i .unmapped) (fun m => m.body.cars.getD i 255)
      (fun m c => c = m.body.cars.getD i 255) (resolveCar ten i) := by
  refine ⟨fun h => ?_, fun h hm => ?_, fun m h hm hs => ?_, fun m h hm hs => ?_, fun m c h hm hs => ?_,
    fun m h hm hs => ⟨_, by simp only [resolveCar, resolveEntry, Nat.not_le.mpr h, hm, hs, if_false], rfl⟩⟩
  · simp [resolveCar, resolveEntry, h]
  · simp [resolveCar, resolveEntry, Nat.not_le.mpr h, hm]
  all_goals simp only [resolveCar, resolveEntry, Nat.not_le.mpr h, hm, hs, if_false]
  rfl

theorem resolveKiosk_spec (ten : Tenant) (i : Nat) :
    ResolvesBy ten 32 i .kioskUnmapped (fun m => m.kiosks.getD i .unmapped)
      (fun m => 256 * (m.body.kiosks.getD i {}).trunk + (m.body.kiosks.getD i {}).address)
      (fun m k => k = headKey (m.body.kiosks.getD i {}).trunk (m.body.kiosks.getD i {}).address) (resolveKiosk ten i) := by
  refine ⟨fun h => ?_, fun h hm => ?_, fun m h hm hs => ?_, fun m h hm hs => ?_, fun m c h hm hs => ?_,
    fun m h hm hs => ⟨_, by simp only [resolveKiosk, resolveEntry, Nat.not_le.mpr h, hm, hs, if_false], rfl⟩⟩
  · simp [resolveKiosk, resolveEntry, h]
  · simp [resolveKiosk, resolveEntry, Nat.not_le.mpr h, hm]
  all_goals simp only [resolveKiosk, resolveEntry, Nat.not_le.mpr h, hm, hs, if_false]
  simp [ResolvedMap.buildingValue, Nat.mul_comm]

/-- The trunk and the address of a head's key. -/
theorem headKey_parts {t a : Nat} (h1 : 1 ≤ a) (h2 : a ≤ 62) :
    keyTrunk (headKey t a) = t ∧ keyAddress (headKey t a) = a := by
  simp only [keyTrunk, keyAddress, headKey, Config.headsPerTrunk]
  omega

/-! ### Served sets (R50) -/

theorem mem_usableFloors (m : ResolvedMap) (x : Nat × DeckAttr) :
    x ∈ usableFloors m ↔ ∃ (i : Nat) (e : FloorEntry), m.body.floors[i]? = some e ∧ m.floors[i]? = some .usable ∧
      x = (e.landing, (attrOf e.attr).getD .both) := by
  simp only [usableFloors, List.mem_map, List.mem_filter, beq_iff_eq, Prod.exists]
  constructor
  · rintro ⟨e, st, ⟨hz, rfl⟩, rfl⟩
    obtain ⟨i, hi⟩ := List.mem_iff_getElem?.mp hz
    rw [List.getElem?_zip_eq_some] at hi
    exact ⟨i, e, hi.1, hi.2, rfl⟩
  · rintro ⟨i, e, h1, h2, rfl⟩
    exact ⟨e, .usable, ⟨List.mem_iff_getElem?.mpr ⟨i, List.getElem?_zip_eq_some.mpr ⟨h1, h2⟩⟩, rfl⟩, rfl⟩

/-- A member added to a set. -/
theorem getLsbD_setAdd {n : Nat} (set : BitVec n) {i l : Nat} (hl : l < n) :
    (setAdd set i).getLsbD l = (set.getLsbD l || decide (i = l)) := by
  simp only [setAdd, BitVec.getLsbD_or, BitVec.getLsbD_ofNat, hl, decide_true, Bool.true_and, Nat.testBit_two_pow]

theorem getLsbD_foldl_setAdd {α : Type} {n l : Nat} (hl : l < n) (f : α → Nat) (xs : List α) (set : BitVec n) :
    (xs.foldl (fun set e => setAdd set (f e)) set).getLsbD l = true ↔ set.getLsbD l = true ∨ ∃ e ∈ xs, f e = l := by
  induction xs generalizing set with
  | nil => simp
  | cons x xs ih => rw [List.foldl_cons, ih, getLsbD_setAdd set hl]; simp [or_assoc]

/-- The default attribute of a floor entry covers a deck exactly when every attribute that its code names does. -/
theorem attrCovers_getD (o : Option DeckAttr) (k : Nat) :
    attrCovers (o.getD .both) k = true ↔ ∀ a, o = some a → attrCovers a k = true := by
  cases o <;> simp [attrCovers]

/-- R50: the landings of a served set. -/
theorem inSet_servedSet (g : BuildingConfig) (ten : Tenant) (c k l : Nat) :
    inSet (servedSet g ten c k) l = true ↔ l < 192 ∧ (k = 1 → (g.car c).deckCount = 2) ∧ ReachedBy ten k l := by
  simp only [inSet, Bool.and_eq_true, decide_eq_true_eq, servedSet, ReachedBy]
  refine and_congr_right fun hl => ?_
  split
  · next h => exact ⟨fun hx => by simp at hx, fun hx => absurd (hx.1 h.1) h.2⟩
  · next h =>
    have hk : k = 1 → (g.car c).deckCount = 2 := fun h1 => by by_contra h2; exact h ⟨h1, h2⟩
    cases hm : ten.map with
    | none => simp
    | some m =>
      have z : (0 : BitVec 192).getLsbD l = false := by simp
      simp only [getLsbD_foldl_setAdd hl, z, Bool.false_eq_true, false_or, List.mem_filter, mem_usableFloors,
        and_iff_right hk]
      constructor
      · rintro ⟨x, ⟨⟨i, e, h1, h2, rfl⟩, hc⟩, rfl⟩
        exact ⟨m, i, e, rfl, h1, h2, rfl, (attrCovers_getD _ _).mp hc⟩
      · rintro ⟨m', i, e, hm', h1, h2, rfl, hc⟩
        cases hm'
        exact ⟨_, ⟨⟨i, e, h1, h2, rfl⟩, (attrCovers_getD _ _).mpr hc⟩, rfl⟩

/-! ### Heads and their tenants (R51) -/

/-- A car granted to one tenant at most belongs to the tenant that holds it. -/
theorem carTenant_iff {g : BuildingConfig} {c : Nat} (n : Nat)
    (one : ∀ i < 8, ∀ j < 8, grantsCar g i c = true → grantsCar g j c = true → i = j) :
    carTenant g c = some n ↔ n < 8 ∧ grantsCar g n c = true := by
  constructor
  · intro h
    exact ⟨List.mem_range.mp (List.mem_of_find?_eq_some h), List.find?_some (p := fun t => grantsCar g t c) h⟩
  · rintro ⟨hn, hg⟩
    cases h : carTenant g c with
    | none => exact absurd hg (by simpa using List.find?_eq_none.mp h n (List.mem_range.mpr hn))
    | some m =>
      rw [one m (List.mem_range.mp (List.mem_of_find?_eq_some h)) n hn
        (List.find?_some (p := fun t => grantsCar g t c) h) hg]

/-- R51: the tenant of a head. -/
theorem headTenant_iff {g : BuildingConfig} (row : HeadRow) (n : Nat)
    (one : ∀ d, ∀ i < 8, ∀ j < 8, grantsCar g i d = true → grantsCar g j d = true → i = j) :
    headTenant g row = some n ↔ BelongsTo g row n := by
  have car := carTenant_iff n (one row.car)
  unfold headTenant BelongsTo
  rw [HeadRow.kind?]
  match h : row.kind with
  | 0 => simp [Machine.kindOf]
  | 1 | 2 | 3 | 5 => simp [Machine.kindOf, car]
  | 4 =>
    simp only [Machine.kindOf, Bool.and_eq_true, decide_eq_true_eq]
    split <;> simp <;> grind
  | 6 =>
    simp only [Machine.kindOf, Bool.and_eq_true, decide_eq_true_eq]
    split <;> simp <;> grind
  | k + 7 => simp [Machine.kindOf]

/-! ### The Restriction List (R26, R81) -/

theorem restricted_iff (g : BuildingConfig) (c l : Nat) : restricted g c l = true ↔
    ∃ r ∈ g.restrictions, r.landing ≠ 255 ∧ r.landing = l ∧ r.cars.getLsbD c = true := by
  have lt : ∀ r : Restriction, r.cars.getLsbD c = true → c < 64 := fun r h => BitVec.lt_of_getLsbD h
  simp only [restricted, List.any_eq_true, Bool.and_eq_true, Bool.not_eq_true', beq_eq_false_iff_ne, beq_iff_eq,
    decide_eq_true_eq]
  exact ⟨fun ⟨r, hr, ⟨⟨h1, h2⟩, _⟩, h4⟩ => ⟨r, hr, h1, h2, h4⟩, fun ⟨r, hr, h1, h2, h4⟩ => ⟨r, hr, ⟨⟨h1, h2⟩, lt r h4⟩, h4⟩⟩

/-! ### Labels (R65) -/

theorem takeWhile_getD (l : List Byte) (j : Nat) (h : ∀ m, m ≤ j → l.getD m 0 ≠ 0) :
    (l.takeWhile (fun b => !(b == 0))).getD j 32 = l.getD j 0 := by
  induction l generalizing j with
  | nil => exact absurd rfl (h 0 (Nat.zero_le _))
  | cons b l ih =>
    have hb : b ≠ 0 := h 0 (Nat.zero_le _)
    rw [List.takeWhile_cons_of_pos (by simpa using hb)]
    cases j with
    | zero => rfl
    | succ j => exact ih j (fun m hm => h (m + 1) (by omega))

theorem takeWhile_getD_end (l : List Byte) (j m : Nat) (hm : m ≤ j) (h : l.getD m 0 = 0) :
    (l.takeWhile (fun b => !(b == 0))).getD j 32 = 32 := by
  induction l generalizing j m with
  | nil => rfl
  | cons b l ih =>
    by_cases hb : b = 0
    · rw [List.takeWhile_cons_of_neg (by simpa using hb)]; rfl
    · rw [List.takeWhile_cons_of_pos (by simpa using hb)]
      cases m with
      | zero => exact absurd h hb
      | succ m => cases j with
        | zero => omega
        | succ j => exact ih j m (by omega) h

/-- R65: the places of a label. -/
theorem labelPlaces_shows (n : Nat) (l : List Byte) : LabelShows n l (labelPlaces n l) := by
  have get : ∀ j < n, (labelPlaces n l).getD j 0 = (l.takeWhile (fun b => !(b == 0))).getD j 32 := fun j hj => by
    simp only [labelPlaces, places, List.getD_eq_getElem?_getD, List.getElem?_take_of_lt hj, List.getElem?_append]
    split
    · next h => rw [List.getElem?_eq_getElem h]; rfl
    · next h => rw [List.getElem?_replicate, if_pos (by omega), List.getElem?_eq_none (Nat.le_of_not_lt h)]; rfl
  refine ⟨by simp [labelPlaces, places], fun j hj => ⟨fun h => ?_, fun m hm h => ?_⟩⟩
  · rw [get j hj, takeWhile_getD l j h]
  · rw [get j hj, takeWhile_getD_end l j m hm h]

end Sys2Proof.Laws
end

