-- ==== Sys2Proof/Tests/Slice0.lean ====
section
/-!
SUPPORT. Tests: the operand checks' refusals, the spec's worked values, single steps on a small building, and for each
statement with hypotheses a named witness that meets them.
-/

namespace Sys2Proof.Tests

set_option Elab.async false -- one theorem at a time: side by side, these evaluations ask for too many threads

open Sys2Proof Sys2Proof.Machine Sys2Proof.Safety Sys2Proof.Laws

/-! ### A small building -/

/-- The state that a command leaves. -/
def after (o : Host.Outcome State Fault Refusal) : State :=
  match o with
  | .next s => s
  | .fault _ => {}
  | .refused _ => {}

/-- `run c s`: the state after one command. -/
def run (c : Instr) (s : State) : State := after (exec c s)

/-- A shared RAM with some runs of bytes written. -/
def ramOf (l : List (Nat × List Byte)) : Memory := l.foldl (fun m e => memWrite m e.1 e.2) []

/-- Equal stamps at a record's two ends. -/
def stamped (base tail : Nat) (v : Nat) : List (Nat × List Byte) := [(base, u16 v), (base + tail, u16 v)]

def floorAt (h : Nat) : Floor := { height := h, label := [0x31, 0, 0, 0] }

/-- Three landings, one car, a kiosk (head 1 of trunk 0) and a lantern (head 2), one tenant. -/
def small : BuildingConfig :=
  { sweepPeriod := 20, dayCeiling := 60, nightCeiling := 10, floorCount := 3,
    floors := [floorAt 0, floorAt 4000, floorAt 8000],
    cars := [{ present := 1, deckCount := 1, label := [0x41, 0], deceleration := 1000, reaction := 500, vmax := 2500 }],
    heads := [(0, { kind := 4, zone := 0, layerMask := 15, landing := 0, owner := 0 }),
              (1, { kind := 2, zone := 15, layerMask := 15, landing := 1, car := 0, deck := 0 })],
    grants := [{ landings := 7, cars := 1, quota := 2 }],
    trunks := [{ enabled := 1 }],
    kinds := List.replicate 6 { poll := 500, offset := 10, gain := 64, lmin := 5, lmax := 63 },
    lines := List.replicate 4 { zones := 0xFFFF, permitted := 0x00FF, sideBand := 1, onTime := 100, offTime := 50 } }

def smallMap : TenantMap :=
  { floors := [{ landing := 0, attr := 2, usable := 1 }, { landing := 1, attr := 2, usable := 1 },
               { landing := 2, attr := 2, usable := 1 }],
    cars := [0], kiosks := [{ trunk := 0, address := 1 }] }

/-- Hub time 1000, RUN and READY 1, the small building in force with its tenant ACTIVE and its trunk RUNNING. -/
def hub : State :=
  { phase := .ready, run := true, hubTime := 1000, config := { inForce := some small, accepted := some 1 },
    tenants := [(0, { active := true, map := some (resolveMap small 0 1 smallMap) })],
    heads := [(0, newHead (small.heads.getD 0 (0, {})).2), (1, newHead (small.heads.getD 1 (0, {})).2)],
    trunks := [(0, { state := .running, active := some .a })] }


/-- The hub with tenant 0's sweep standing at a record, and the building's at another. -/
def sweeping (n b : Nat) (m : Memory) (ten : Tenant := hub.tenant 0) : State :=
  { hub with ram := m, sweep := { next := some b }, tenants := [(0, { ten with sweep := { next := some n } })] }

/-! ### Checks of a listed state -/

def rising {α : Type} (n : Nat) (t : Table α) : Bool :=
  decide (t.Pairwise (fun a b => a.1 < b.1)) && t.all (fun e => decide (e.1 < n))

theorem keysBelow_of {α : Type} {n : Nat} {t : Table α} (h : rising n t = true) : KeysBelow n t := by
  simpa [rising, KeysBelow] using h

/-- The tables' numbers of a state, checked. -/
def keysHold (s : State) : Bool :=
  rising 8 s.tenants && s.tenants.all (fun e => rising 64 e.2.slots && rising 8 e.2.programs) && rising 992 s.heads &&
  rising 992 s.conf.heads && s.config.validating.all (fun v => rising 992 v.body.heads) && rising 384 s.board

theorem keysOk_of {s : State} (h : keysHold s = true) : KeysOk s := by
  simp only [keysHold, Bool.and_eq_true, List.all_eq_true] at h
  obtain ⟨⟨⟨⟨⟨a, b⟩, c⟩, d⟩, e⟩, f⟩ := h
  refine ⟨keysBelow_of a, fun x hx => keysBelow_of (b x hx).1, fun x hx => keysBelow_of (b x hx).2, keysBelow_of c,
    fun g hg => ?_, fun v hv => ?_, keysBelow_of f⟩
  · have : s.conf = g := by simp [State.conf, hg]
    rw [← this]; exact keysBelow_of d
  · rw [hv] at e; exact keysBelow_of (by simpa using e)

def listHolds (n : Nat) (l : List (Nat × Nat)) : Bool :=
  decide (l.Pairwise (fun a b => a.1 < b.1)) && l.all (fun d => decide (0 < d.2)) && decide (l.length ≤ n)

theorem listOk_of {n : Nat} {l : List (Nat × Nat)} (h : listHolds n l = true) : ListOk n l := by
  simpa [listHolds, ListOk, and_assoc] using h

/-- A slot's part of the books, checked. -/
def slotHolds (x : Slot) : Bool :=
  !x.live || (decide (0 < x.party) && x.car.isSome && x.deck.isSome && x.origin.isSome && x.destination.isSome &&
    x.direction.isSome)

/-- The guidance books of a state, checked. -/
def booksHold (s : State) : Bool :=
  rising 384 s.board && decide (s.board.Pairwise (fun a b => entryKey a.2 ≠ entryKey b.2)) &&
  s.board.all (fun e => listHolds 6 e.2.destinations && !e.2.destinations.isEmpty) &&
  s.aboard.all (fun e => listHolds 24 e.2) && s.tenants.all (fun e => e.2.slots.all (fun x => slotHolds x.2))

theorem slotHolds_of {s : State} (h : ∀ e ∈ s.tenants, ∀ x ∈ e.2.slots, slotHolds x.2 = true) (t i : Nat) :
    slotHolds (s.slot t i) = true := by
  rcases tableGet_mem {} s.tenants t with e | e
  · have : s.slot t i = {} := by
      show tableGet {} (tableGet {} s.tenants t).slots i = {}
      rw [e]; rfl
    rw [this]; rfl
  · rcases tableGet_mem {} (s.tenant t).slots i with f | f
    · have : s.slot t i = {} := f
      rw [this]; rfl
    · exact h _ e _ f

theorem booksOk_of {s : State} (h : booksHold s = true) : BooksOk s := by
  simp only [booksHold, Bool.and_eq_true, List.all_eq_true] at h
  obtain ⟨⟨⟨⟨a, b⟩, c⟩, d⟩, e⟩ := h
  have slots := slotHolds_of e
  refine ⟨keysBelow_of a, by simpa using b, fun x hx => ⟨listOk_of (c x hx).1, by simpa using (c x hx).2⟩,
    fun c k => ?_, fun t i live => ?_, fun t i live => ?_⟩
  · rcases tableGet_mem [] s.aboard (2 * c + k) with f | f
    · rw [State.aboardList, f]; simp [ListOk]
    · exact listOk_of (d _ f)
  · have := slots t i
    simp [slotHolds, live] at this; exact this.1.1.1.1.1
  · have := slots t i
    simp only [slotHolds, live, Bool.not_true, Bool.false_or, Bool.and_eq_true, Option.isSome_iff_exists] at this
    obtain ⟨⟨⟨⟨⟨-, c, hc⟩, k, hk⟩, o, ho⟩, d, hd⟩, r, hr⟩ := this
    exact ⟨c, k, o, d, r, hc, hk, ho, hd, hr⟩

/-- The live slots of a state are on deck 0 or 1, checked. -/
def decksHold (s : State) : Bool :=
  s.tenants.all (fun e => e.2.slots.all (fun x => x.2.live = false || x.2.deck = some 0 || x.2.deck = some 1))

theorem liveDecks_of {s : State} (h : decksHold s = true) : LiveDecks s := by
  intro t i k live deck
  simp only [decksHold, List.all_eq_true] at h
  rcases tableGet_mem {} s.tenants t with e | e
  · have : s.slot t i = {} := by
      show tableGet {} (tableGet {} s.tenants t).slots i = {}
      rw [e]; rfl
    rw [this] at live; cases live
  · rcases tableGet_mem {} (s.tenant t).slots i with f | f
    · rw [show s.slot t i = {} from f] at live; cases live
    · have := h _ e _ f
      simp only [Bool.or_eq_true, decide_eq_true_eq] at this
      rcases this with (g | g) | g
      · rw [show (s.slot t i).live = false from g] at live; cases live
      · rw [show (s.slot t i).deck = some 0 from g] at deck; cases deck; decide
      · rw [show (s.slot t i).deck = some 1 from g] at deck; cases deck; decide

def takenSlot : Slot :=
  { state := .taken, car := some 0, deck := some 0, origin := some 0, destination := some 2, direction := some .up,
    party := 3, limit := some 1000 }
def waitingBoard : Table BoardEntry :=
  [(0, { landing := 0, car := 0, deck := 0, direction := .up, tenant := 0, destinations := [(2, 3)], created := 0 })]

/-! ### Operand checks (WellFormed) -/

theorem test_wellFormed_promptHoldExpiry : WellFormed (.promptHoldExpiry 0 0) = false ∧
    WellFormed (.promptHoldExpiry 0 63) = false ∧ WellFormed (.promptHoldExpiry 0 62) = true := by decide
theorem test_wellFormed_pollDue : WellFormed (.pollDue 0 0) = false ∧ WellFormed (.pollDue 0 63) = false ∧
    WellFormed (.pollDue 0 1) = true := by decide
theorem test_wellFormed_probeDue : WellFormed (.probeDue 0 0) = false ∧ WellFormed (.probeDue 0 63) = false ∧
    WellFormed (.probeDue 0 62) = true := by decide
theorem test_wellFormed_frameEnd : WellFormed (.frameEnd 0 (List.replicate 249 (goodCharacter 0))) = false ∧
    WellFormed (.frameEnd 0 (List.replicate 248 (goodCharacter 0))) = true := by decide +kernel
theorem test_wellFormed_replyEnd : WellFormed (.replyEnd 0 []) = false ∧ WellFormed (.replyEnd 0 [goodCharacter 0xD0]) = true := by
  decide

/-- No row of the table has bits, so no word spells a command. -/
theorem test_decode_none : decodeTableWord 16 0x1234 = none ∧ hub.withFetchWord 16 0x1234 = hub := by decide +kernel

/-! ### Steps, the start and the registers (01) -/

theorem witness_step : step { hub with pending := [.runClear, .runSet] } = exec .runClear { hub with pending := [.runSet] } ∧
    step hub = .next hub := ⟨rfl, rfl⟩

theorem witness_closedRegisters : Quiet State.reset ∧ Quiet { State.reset with phase := .zeroFill } ∧
    Quiet { State.reset with phase := .portReset, fixed := true } ∧
    readRegister { State.reset with phase := .portReset, fixed := true } 5 = 2 :=
  ⟨⟨fun _ => by decide, fun _ => rfl⟩, ⟨fun _ => by decide, fun _ => rfl⟩,
   ⟨fun _ => by decide, fun h => by rcases h with h | h <;> cases h⟩, by decide⟩

/-- Register writes at the ends of their ranges. -/
theorem witness_registerWrites : ready hub = true ∧ registerWriteCommand hub 2 7 = .nudgeTenant 7 ∧
    registerWriteCommand hub 2 8 = .nudgeBuilding ∧ registerWriteCommand hub 2 9 = .registerWriteIgnored 2 9 ∧
    registerWriteCommand hub 2 0x108 = .nudgeBuilding ∧ registerWriteCommand hub 1 2 = .portReset ∧
    registerWriteCommand hub 1 1 = .registerWriteIgnored 1 1 ∧ registerWriteCommand hub 1 0 = .runClear ∧
    registerWriteCommand hub 5 3 = .lockSetFixed ∧ registerWriteCommand hub 5 4 = .registerWriteIgnored 5 4 ∧
    registerWriteCommand hub 6 1 = .registerWriteIgnored 6 1 ∧ registerWriteCommand { hub with run := false } 1 1 = .runSet ∧
    registerWriteCommand { hub with run := false } 2 8 = .registerWriteIgnored 2 8 := by decide +kernel

theorem test_identity : readRegister hub 0 = 0x5A010970 ∧ readRegister hub 1 = 5 := by decide +kernel

theorem test_attentionClear : (run (.attentionClear 0x800) { hub with attention := 0xFFF }).attention = 0x7FF ∧
    attentionOutput { hub with attention := 0x800, mask := 0x800 } = true := by decide +kernel
theorem test_attentionMaskWrite : (run (.attentionMaskWrite 0xFFFFF801) hub).mask = 0x801 := by decide +kernel

/-- An event with its bit clear and set, a bit that stands through another command, and the four ends of the resets. -/
theorem witness_attention :
    let s : State := { hub with attention := 0x800 }
    (attend 0 s).attention = 0x801 ∧ attend 11 s = s ∧ s.attention.getLsbD 11 = true ∧
    (run .hubTimeTick s).attention = 0x800 ∧ (run .powerOnResetAssert s).attention = 0 ∧
    (run .portReset s).attention = 0 ∧ (run .portReset s).phase = .portReset ∧ readRegister s 3 = 0x800 := by decide +kernel

theorem test_lockSetHold : (run .lockSetHold hub).hold = true ∧ tableGet 0 (run .lockSetHold hub).stamps 4 = 1 ∧
    memGet (run .lockSetHold hub).ram 7 = 0x28 := by decide +kernel
/-- A published write clears the unused bytes of the tail stamp's word and leaves the unused word after it (R174). -/
theorem test_lockSetHold_unused :
    let s : State := { hub with ram := ramOf [(0x262, [5, 6, 7])] }
    memGet (run .lockSetHold s).ram 0x262 = 0 ∧ memGet (run .lockSetHold s).ram 0x263 = 0 ∧
    memGet (run .lockSetHold s).ram 0x264 = 7 := by decide +kernel

theorem test_lockClearHold : (run .lockClearHold { hub with hold := true, fixed := true }).hold = false ∧
    (run .lockClearHold { hub with hold := true, fixed := true }).fixed = true := by decide +kernel
theorem test_lockSetFixed : (run .lockSetFixed hub).fixed = true ∧ (run .lockSetFixed hub).hold = false := by decide +kernel
theorem test_registerWriteIgnored : run (.registerWriteIgnored 0 5) hub = hub := by decide +kernel

theorem test_hubTimeTick_wraps : (run .hubTimeTick { hub with hubTime := 0xFFFFFFFF }).hubTime = 0 ∧
    memWord (run .hubTimeTick hub).ram 0 = 1001 ∧ run .hubTimeTick State.reset = State.reset := by decide +kernel

/-- A timer of the longest length, at its start, just before its expiry and at it. -/
theorem witness_timers : reached 0 (some (expiryAfter 0 (2 ^ 31))) = false ∧
    reached (BitVec.ofNat 32 (2 ^ 31 - 1)) (some (expiryAfter 0 (2 ^ 31))) = false ∧
    reached (BitVec.ofNat 32 (2 ^ 31)) (some (expiryAfter 0 (2 ^ 31))) = true ∧
    reached 5 (some (expiryAfter 5 0)) = true ∧ reached 0xFFFFFFFF (some (expiryAfter 0xFFFFFFFE 2)) = false := by
  decide +kernel

/-- The last word and the first, while READY is 1 and in a port reset; and the port closed in reset. -/
theorem witness_sharedRam :
    (run (.sharedRamRead 0xFFFF) (run (.sharedRamWrite 0xFFFF 0x12345678) hub)).readData = 0x12345678 ∧
    memGet (run (.sharedRamWrite 0xFFFF 0x12345678) hub).ram 0x3FFFC = 0x78 ∧
    (run (.sharedRamRead 0) (run (.sharedRamWrite 0 0x80000000) { hub with phase := .portReset })).readData = 0x80000000 ∧
    run (.sharedRamWrite 0 1) State.reset = State.reset ∧
    (run (.sharedRamRead 0) { State.reset with ram := [(0, 1)] }).readData = 0 := by decide +kernel

/-! ### Resets -/

theorem witness_powerOnReset : hub.phase ≠ .held ∧ run .powerOnResetRelease hub = hub ∧
    (run .powerOnResetAssert hub).trunks = [] ∧
    (run .powerOnResetRelease (run .powerOnResetAssert hub)).phase = .zeroFill := by decide +kernel

theorem witness_zeroFill : ({ State.reset with phase := .zeroFill } : State).phase = .zeroFill ∧ hub.phase ≠ .zeroFill ∧
    run .zeroFillCompletion hub = hub ∧
    resetLine { State.reset with ovrLow := 8 } 3 = { state := .pendingOn, pin := true, expiry := some 20 } := by
  decide +kernel

theorem witness_portReset : ready hub = true ∧ (run .portReset hub).phase = .portReset ∧
    (run .portReset hub).heads.length = 2 ∧ run .portReset State.reset = State.reset := by decide +kernel

theorem witness_portResetCompletion : run .portResetCompletion hub = hub ∧ (run .portReset hub).phase = .portReset ∧
    (resetUnits { run .portReset hub with fixed := true }).config.accepted = some 1 ∧
    (resetUnits (run .portReset hub)).config = {} ∧
    (resetUnits { run .portReset hub with fixed := true }).heads.length = 2 := by decide +kernel

/-! ### Sweeps -/

theorem witness_runSet :
    let s : State := { hub with run := false }
    ready s = true ∧ s.sweep.next = none ∧ (s.areaSweep (.tenant 7)).next = none ∧
    (run .runSet s).sweep = { timer := some 1020, next := some 0 } ∧
    ((run .runSet s).areaSweep (.tenant 7)).next = some 0 ∧ run .runSet hub = hub ∧
    ((run .runSet { s with config := {} }).areaSweep (.tenant 7)).next = none := by decide +kernel

/-- RUN set while an older sweep of each kind of area is in flight. -/
theorem witness_runSetInFlight :
    let s : State := { sweeping 5 1 [] with run := false }
    (s.areaSweep .building).next = some 1 ∧ (s.areaSweep (.tenant 0)).next = some 5 ∧
    (run .runSet s).sweep = { nudge := true, next := some 1 } ∧
    (run .runSet s).areaSweep (.tenant 0) = { nudge := true, next := some 5 } ∧
    (run .runSet s).areaSweep (.tenant 7) = { timer := some 1020, next := some 0 } := by decide +kernel

theorem witness_runClear : (run .runClear (sweeping 5 1 [])).run = false ∧
    (run .runClear (sweeping 5 1 [])).sweep.next = some 1 ∧
    run .runClear { hub with run := false } = { hub with run := false } := by decide +kernel

/-- A nudge with no sweep in flight and with one; an expiry reached and one not reached. -/
theorem witness_nudges : ((run (.nudgeTenant 7) hub).areaSweep (.tenant 7)).next = some 0 ∧
    (run .nudgeBuilding (sweeping 5 1 [])).sweep = { nudge := true, next := some 1 } ∧
    reached hub.hubTime (some 1000) = true ∧ reached hub.hubTime (some 1001) = false ∧
    (run (.sweepTimerExpiry .building) { hub with sweep := { timer := some 1000 } }).sweep =
      { timer := some 1020, next := some 0 } ∧
    (run (.sweepTimerExpiry .building) { hub with sweep := { timer := some 1000, next := some 1 } }).sweep =
      { nudge := true, next := some 1 } := by decide +kernel

theorem witness_sweepCompletion : (run (.sweepCompletion (.tenant 0)) (sweeping 90 2 [])).tenants.length = 1 ∧
    (run (.sweepCompletion (.tenant 0)) (sweeping 90 2 [])).tenant 0 =
      { (sweeping 90 2 []).tenant 0 with sweep := {}, sweepCount := 1 } ∧
    (run (.sweepCompletion .building) { hub with sweep := { next := some 2, nudge := true } }).sweep =
      { timer := some 1020, next := some 0 } := by decide +kernel

/-- R7's table, and the two verdicts that skip, for a record of each area. -/
theorem witness_judgement : ReadsNow (sweeping 0 1 (ramOf [(tenantBase 0, [1])])) (.sweepReadTenantHeader 0) (.tenant 0) 0 ∧
    judge (headerStamps (ramOf [(tenantBase 0, [1])]) 0) none = .torn ∧
    ((run (.sweepReadTenantHeader 0) (sweeping 0 1 (ramOf [(tenantBase 0, [1])]))).tenant 0).torn = 1 ∧
    ReadsNow (sweeping 0 1 []) .sweepReadOrders .building 1 ∧ judge (ordersStamps []) none = .skipped ∧
    judge ⟨5, 5⟩ (some 5) = .skipped ∧ judge ⟨0, 0⟩ (some 5) = .accepted 0 ∧
    (run .sweepReadOrders (sweeping 0 1 [])).sweep.next = some 2 := by unfold ReadsNow; decide +kernel

/-! ### The building configuration and its orders -/

theorem witness_configuration :
    let s := sweeping 0 0 (ramOf (stamped configBase 0x4FFC 9))
    ReadsNow s .sweepReadConfiguration .building 0 ∧ judge (configStamps s.ram) s.configSeen = .accepted 9 ∧
    ((run .sweepReadConfiguration s).config.validating.map (·.stamp)) = some 9 ∧
    (run .sweepReadConfiguration { s with hold := true }).config.lockedStamp = some 9 ∧
    (run .sweepReadConfiguration { s with hold := true }).attention = 0x900 ∧
    (run .sweepReadConfiguration { s with config := { hub.config with accepted := some 9 } }).configSeen = some 9 := by
  unfold ReadsNow; decide +kernel

def validatingHub (g : BuildingConfig) : State :=
  { hub with config := { hub.config with validating := some { stamp := 9, body := g, seenBefore := some 3 } } }

theorem witness_validation : validate small = none ∧ (validate {}).map (·.check) = some 1 ∧
    (run .validationCompletion (validatingHub small)).config.accepted = some 9 ∧
    (run .validationCompletion (validatingHub {})).config.refused.map (·.1) = some 9 ∧
    (run .validationCompletion { validatingHub small with fixed := true }).configSeen = some 3 := by decide +kernel

/-- The small building with car 0's spacing changed, the kiosk's zone changed, the lantern gone, a lantern on trunk 1, and
trunk 1 enabled in place of trunk 0. -/
def spaced : BuildingConfig :=
  { small with
    cars := [{ present := 1, deckCount := 1, label := [0x41, 0], spacing := 3000, deceleration := 1000, reaction := 500,
               vmax := 2500 }]
    heads := [(0, { kind := 4, zone := 1, layerMask := 15, landing := 0, owner := 0 }),
              (62, { kind := 2, zone := 15, layerMask := 15, landing := 1, car := 0, deck := 0 })]
    trunks := [{ enabled := 0 }, { enabled := 1 }] }

/-- Tenant 0 with one waiting slot under a generation about to be put in force. -/
def accepting (g : BuildingConfig) : State :=
  { validatingHub g with
    cars := [(0, { tracking := .tracking, deck0 := { mode := .at } })]
    board := waitingBoard
    tenants := [(0, { hub.tenant 0 with slots := [(0, takenSlot)] })] }

/-- A deck spacing changed (of a single-deck car: R29 has no exception), a grant withdrawn, a geometry changed, and the
same building again. -/
theorem witness_generation :
    let revoked : BuildingConfig := { small with grants := [{ landings := 7, quota := 2 }] }
    let higher : BuildingConfig := { small with floors := [floorAt 0, floorAt 4000, floorAt 8001] }
    let t := run .validationCompletion (accepting spaced)
    (∀ g ∈ [spaced, revoked, higher, small], validate g = none ∧ keysHold (accepting g) = true) ∧
    [spaced, revoked, higher, small].map (fun g =>
      ((run .validationCompletion (accepting g)).slot 0 0).outcome) =
      [some .reconfigured, some .revoked, some .reconfigured, none] ∧
    [spaced, revoked, higher, small].map (fun g => ((run .validationCompletion (accepting g)).car 0).tracking) =
      [.acquiring, .tracking, .acquiring, .tracking] ∧
    (tableFind t.heads 0).map (·.needsReload) = some true ∧ tableFind t.heads 1 = none ∧
    (tableFind t.heads 62).map (·.link) = some .unknown ∧ (t.trunk 0).state = .off ∧ (t.trunk 1).active = some .a ∧
    t.board = [] ∧ ((t.tenant 0).map.map (·.cars.take 1)) = some [.usable] := by decide +kernel

/-- The books at a generation: a revoked slot's count leaves its entry, which goes with its last, and one that changes nothing
for the books keeps them; with the premises of the clauses on the books. -/
theorem witness_generationBooks :
    let revoked : BuildingConfig := { small with grants := [{ landings := 7, quota := 2 }] }
    BooksOk (accepting small) ∧ LiveDecks (accepting small) ∧
    waiting (accepting small) 0 0 0 .up 2 = 3 ∧
    waiting (run .validationCompletion (accepting revoked)) 0 0 0 .up 2 = 0 ∧
    (run .validationCompletion (accepting small)).board = waitingBoard := by
  refine ⟨booksOk_of (by decide +kernel), liveDecks_of (by decide +kernel), ?_⟩
  decide +kernel

/-- The first generation, which starts the tenants' sweeps. -/
theorem witness_firstGeneration :
    let v : Validation := { stamp := 9, body := small, seenBefore := none }
    let s : State := { phase := .ready, run := true, hubTime := 1000, config := { validating := some v } }
    keysHold s = true ∧ ((run .validationCompletion s).areaSweep (.tenant 7)).next = some 0 ∧
    ((run .validationCompletion s).heads.length) = 2 := by decide +kernel

/-- A field that a head's kind does not use makes no change of its binding (R23, R31). -/
theorem test_unusedBinding :
    let panel : HeadRow := { kind := 5, layerMask := 15, car := 0, deck := 0 }
    bindingChanged panel { panel with landing := 2, owner := 3 } = false ∧
    bindingChanged panel { panel with deck := 1 } = true := by decide +kernel

theorem witness_fixed : ({ validatingHub small with fixed := true } : State).fixed = true ∧
    (run .validationCompletion { validatingHub small with fixed := true }).config.accepted = some 1 := by decide +kernel

/-- Orders with a line order SHUT, a closed landing, a test assert and a history clear, with and without a baseline. -/
theorem witness_orders :
    let s := sweeping 0 1 (ramOf (stamped ordersBase 1022 4 ++ [(ordersBase + 2, [1, 8, 1]), (ordersBase + 36, [4]),
      (ordersBase + 92, [7])]))
    ReadsNow s .sweepReadOrders .building 1 ∧ judge (ordersStamps s.ram) s.ordersSeen = .accepted 4 ∧
    (run .sweepReadOrders s).orders.tests = 8 ∧ (run .sweepReadOrders s).closed 2 = true ∧
    ((run .sweepReadOrders s).trunk 0).active = some .b ∧ (run .sweepReadOrders s).orders.historyClear = some 7 ∧
    ((run .sweepReadOrders s).line 3).state = .pendingOn := by unfold ReadsNow; decide +kernel

/-- Both lines of a DOWN trunk lifted by one record, line A by its restore stamp and line B by its RUN order: RUNNING on
line A (R172). An equal baseline lifts nothing. -/
theorem witness_ordersReady :
    let x : Trunk := { state := .down, lineA := { shut := some .loop }, lineB := { shut := some .ordered }, recovery := some 2000 }
    let s (base : Stamp) : State := { sweeping 0 1 (ramOf (stamped ordersBase 1022 4)) with
      orders := { lines := [(1, true)], restore := [(0, some base)] }, trunks := [(0, x)] }
    judge (ordersStamps (s 3).ram) none = .accepted 4 ∧
    ((run .sweepReadOrders (s 3)).trunk 0).active = some .a ∧
    ((run .sweepReadOrders (s 3)).trunk 0).lineB.shut = none ∧
    ((run .sweepReadOrders (s 0)).trunk 0).active = some .b ∧
    ((run .sweepReadOrders (s 0)).trunk 0).lineA.shut = some .loop := by decide +kernel

theorem witness_historyClear :
    let h : Head := { everLost := true }
    let s : State := { sweeping 0 1 (ramOf (stamped ordersBase 1022 4)) with
      orders := { historyClear := some 7 }, heads := [(0, h)] }
    (∃ b, s.orders.historyClear = some b ∧ b ≠ (readOrders s.ram).historyClear) ∧
    ((tableFind (run .sweepReadOrders s).heads 0).map (·.everLost)) = some false :=
  ⟨⟨7, rfl, by decide +kernel⟩, by decide +kernel⟩

/-! ### Tenants -/

def headerRam (enable : Byte) : Memory := ramOf (stamped (tenantBase 0) 126 2 ++ [(tenantBase 0 + 2, [enable])])

theorem witness_header :
    let off := sweeping 0 1 (headerRam 1) {}
    let on := sweeping 0 1 (headerRam 0)
    ReadsNow off (.sweepReadTenantHeader 0) (.tenant 0) 0 ∧ judge (headerStamps off.ram 0) none = .accepted 2 ∧
    ReadsNow on (.sweepReadTenantHeader 0) (.tenant 0) 0 ∧ judge (headerStamps on.ram 0) none = .accepted 2 ∧
    ((run (.sweepReadTenantHeader 0) off).tenant 0).active = true ∧
    ((run (.sweepReadTenantHeader 0) off).tenant 0).sweep.next = some 1 ∧
    ((run (.sweepReadTenantHeader 0) on).tenant 0).active = false ∧
    ((run (.sweepReadTenantHeader 0) on).tenant 0).sweep.next = some 90 := by unfold ReadsNow; decide +kernel

/-- A restart, and a mark set on a car that resolves, on one that does not, and with an equal baseline. -/
theorem witness_restartAndMark :
    let ram (restart mark : Nat) (car : Byte) : Memory := ramOf (stamped (tenantBase 0) 126 2 ++
      [(tenantBase 0 + 2, [1]), (tenantBase 0 + 24, u16 restart ++ u16 mark ++ [car, 3])])
    let s (m : Memory) : State := { sweeping 0 1 m { hub.tenant 0 with restartBase := some 4, markBase := some 4, slots := [(63, takenSlot)] } with
      cars := [(0, { tracking := .tracking })], board := waitingBoard }
    let t (m : Memory) : State := run (.sweepReadTenantHeader 0) (s m)
    judge (headerStamps (ram 5 4 0) 0) none = .accepted 2 ∧
    ((t (ram 5 4 0)).car 0).tracking = .acquiring ∧ ((t (ram 5 4 0)).slot 0 63).outcome = some .restart ∧
    ((t (ram 5 4 0)).tenant 0).active = true ∧ (t (ram 5 4 0)).board = [] ∧
    ((t (ram 4 5 0)).car 0).parkMark = true ∧ ((t (ram 4 5 15)).tenant 0).faults.sequence = 1 ∧
    ((t (ram 4 4 0)).car 0).parkMark = false ∧ ((t (ram 5 5 0)).tenant 0).faults.sequence = 1 := by decide +kernel

/-- A restart of tenant 0 beside an entry of tenant 1, the Aboard List of its car and a tenant 1 slot. -/
theorem witness_restartKeeps :
    let ram : Memory := ramOf (stamped (tenantBase 0) 126 2 ++ [(tenantBase 0 + 2, [1]), (tenantBase 0 + 24, [5])])
    let other : BoardEntry :=
      { landing := 0, car := 1, deck := 0, direction := .up, tenant := 1, destinations := [(2, 3)], created := 1 }
    let s : State := { sweeping 0 1 ram with
      tenants := [(0, { hub.tenant 0 with restartBase := some 4, markBase := some 0, slots := [(63, takenSlot)],
                                          sweep := { next := some 0 } }),
                  (1, { active := true, slots := [(0, { takenSlot with car := some 1 })] })]
      board := waitingBoard ++ [(1, other)]
      aboard := [(2, [(1, 4)])] }
    let t : State := run (.sweepReadTenantHeader 0) s
    KeysOk s ∧ BooksOk s ∧ LiveDecks s ∧ judge (headerStamps ram 0) none = .accepted 2 ∧ t.board = [(1, other)] ∧
    t.aboardList 1 0 = [(1, 4)] ∧ (t.slot 0 63).outcome = some .restart ∧ t.tenant 1 = s.tenant 1 := by
  refine ⟨keysOk_of (by decide +kernel), booksOk_of (by decide +kernel), liveDecks_of (by decide +kernel), ?_⟩
  decide +kernel

/-- A restart leaves the layers of a granted car that the map does not reach empty, with the park option changed at once,
and the lantern of a standing announcement dark (R39, R148). -/
theorem test_restart_emptiesLayers :
    let ram : Memory := ramOf (stamped (tenantBase 0) 126 2 ++
      [(tenantBase 0 + 2, [1]), (tenantBase 0 + 20, [1]), (tenantBase 0 + 24, [5])])
    let lit : Announcement := { landing := some 1, litBy := some .door }
    let car : Car := { tracking := .tracking, deck0 := { mode := .at, landing := some 1, announcement := lit } }
    let s : State := settleHeads { sweeping 0 1 ram { active := true, restartBase := some 4, markBase := some 0 } with cars := [(0, car)] }
    ((tableFind s.heads 1).map (·.guidance.isSome)) = some true ∧
    ((tableFind (run (.sweepReadTenantHeader 0) s).heads 1).map (·.guidance)) = some none ∧
    ((tableFind (run (.sweepReadTenantHeader 0) s).heads 1).map (·.position)) = some none := by decide +kernel

/-- R40's clamps at the ends of their ranges. -/
theorem witness_options : clampOption 0 150 20 400 = 150 ∧ clampOption 19 150 20 400 = 20 ∧ clampOption 400 150 20 400 = 400 ∧
    clampOption 401 150 20 400 = 400 := by decide

theorem witness_map :
    let s := sweeping 0 1 (ramOf (stamped (mapBase 0) 0x3C4 5 ++ [(mapBase 0 + 4, [0, 0, 1]), (mapBase 0 + 8, [3, 0, 1])]))
    let s := { s with tenants := [(0, { hub.tenant 0 with sweep := { next := some 1 } })] }
    ReadsNow s (.sweepReadTenantMap 0) (.tenant 0) 1 ∧ judge (mapStamps s.ram 0) (s.tenant 0).mapSeen = .accepted 5 ∧
    (((run (.sweepReadTenantMap 0) s).tenant 0).map.map (fun m => m.floors.take 3)) =
      some [.usable, .badRange, .unmapped] ∧ (run (.sweepReadTenantMap 0) s).attention = 1 ∧
    smallMap.floors[2]? = some { landing := 2, attr := 2, usable := 1 } := by
  unfold ReadsNow; decide +kernel

/-- The standings of car and kiosk entries: usable, repeated, out of range, absent, not granted, of another kind. -/
theorem witness_mapEntries :
    let b : TenantMap := { cars := [0, 0, 64, 255, 1], kiosks := [{ trunk := 0, address := 1 }, { trunk := 0, address := 1 },
      { trunk := 0, address := 2 }, { trunk := 255, address := 0 }, { trunk := 0, address := 63 }, { trunk := 15, address := 62 }] }
    let none_ : BuildingConfig := { small with grants := [] }
    (resolveMap small 0 1 b).cars = [.usable, .badRange, .badRange, .unmapped, .badRange] ∧
    (resolveMap small 0 1 b).kiosks = [.usable, .badRange, .badRange, .unmapped, .badRange, .badRange] ∧
    ((resolveMap none_ 0 1 b).cars.take 1) = [.badGrant .carNotGranted] ∧
    ((resolveMap small 7 1 b).kiosks.take 1) = [.badGrant .headNotGranted] := by decide +kernel

/-- Each row of R49's table, at the bounds of the numbers, for a floor, a car and a kiosk; a request's kiosk. -/
theorem witness_resolution :
    let floors : List FloorEntry := [{ landing := 1, attr := 1, usable := 1 }, { landing := 1, attr := 3, usable := 1 },
      { landing := 1, attr := 1, usable := 0 }]
    let b : TenantMap := { floors := floors, cars := [0, 64], kiosks := [{ trunk := 0, address := 1 }, { trunk := 0, address := 63 }] }
    let of (g : BuildingConfig) : Tenant := { active := true, map := some (resolveMap g 0 1 b) }
    let ten := of small
    let poor := of { small with grants := [] }
    [0, 1, 2, 191, 192].map (resolveFloor ten) = [.ok (1, .upper), .error ⟨.entryRange, none⟩, .error ⟨.floorUnmapped, none⟩,
      .error ⟨.floorUnmapped, none⟩, .error ⟨.entryRange, none⟩] ∧
    [0, 1, 15, 16].map (resolveCar ten) =
      [.ok 0, .error ⟨.entryRange, none⟩, .error ⟨.carUnmapped, none⟩, .error ⟨.entryRange, none⟩] ∧
    [0, 1, 31, 32].map (resolveKiosk ten) =
      [.ok 0, .error ⟨.entryRange, none⟩, .error ⟨.kioskUnmapped, none⟩, .error ⟨.entryRange, none⟩] ∧
    resolveFloor poor 0 = .error ⟨.landingNotGranted, some 1⟩ ∧ resolveCar poor 0 = .error ⟨.carNotGranted, some 0⟩ ∧
    resolveKiosk poor 0 = .error ⟨.headNotGranted, some 1⟩ ∧ resolveCar {} 15 = .error ⟨.carUnmapped, none⟩ ∧
    requestKiosk ten { kind := 1, origin := 0, destination := 0, car := 0, kiosk := none, party := 1, accessible := false, hold := none } = .ok none := by
  decide +kernel

/-- The served sets of both decks, of a car with one deck and with two. -/
theorem witness_servedSet :
    let b : TenantMap := { floors := [{ landing := 0, attr := 0, usable := 1 }, { landing := 1, attr := 1, usable := 1 },
      { landing := 2, attr := 2, usable := 1 }, { landing := 0, attr := 1, usable := 0 }] }
    let ten : Tenant := { active := true, map := some (resolveMap small 0 1 b) }
    let two : BuildingConfig := { small with cars := [{ present := 1, deckCount := 2 }] }
    servedSet small ten 0 0 = 5 ∧ servedSet small ten 0 1 = 0 ∧ servedSet two ten 0 1 = 6 ∧ ReachedBy ten 1 2 ∧
    ¬ ReachedBy ten 1 0 := by
  refine ⟨by decide +kernel, by decide +kernel, by decide +kernel, ⟨_, 2, _, rfl, rfl, rfl, rfl, fun a h => ?_⟩, fun h => ?_⟩
  · cases h; rfl
  · have := (inSet_servedSet { cars := [{ deckCount := 2 }] } _ 0 1 0).mpr ⟨by decide, fun _ => rfl, h⟩
    exact absurd this (by decide +kernel)

/-- R51's table where one tenant holds the car: a head of each kind with its binding, and one whose owner holds no grant. -/
theorem witness_belongs :
    (∀ d, ∀ i < 8, ∀ j < 8, grantsCar small i d = true → grantsCar small j d = true → i = j) ∧
    (∀ k ∈ [1, 2, 3, 5], headTenant small { kind := k, car := 0 } = some 0 ∧ headTenant small { kind := k, car := 63 } = none) ∧
    headTenant small { kind := 4, owner := 0, landing := 2 } = some 0 ∧
    headTenant small { kind := 4, owner := 1, landing := 2 } = none ∧
    headTenant small { kind := 6, owner := 0, landing := 2, car := 255 } = some 0 ∧
    headTenant small { kind := 6, owner := 0, landing := 255, car := 0 } = some 0 ∧
    headTenant small { kind := 6, owner := 7, landing := 255, car := 0 } = none ∧ headTenant small {} = none := by
  refine ⟨fun d => ?_, by decide +kernel⟩
  have h : ∀ i < 8, grantsCar small i d = true → i = 0 := fun i hi hg => by
    have : ∀ i < 8, i ≠ 0 → (small.grant i).cars = 0 := by decide +kernel
    by_contra h0
    simp [grantsCar, this i hi h0] at hg
  intro i hi j hj a b
  rw [h i hi a, h j hj b]

/-! ### Cars -/

/-- A report of tenant car `i`: motion code, position and velocity. -/
def reportRam (i motion position velocity : Nat) : Memory :=
  ramOf (stamped (reportBase 0 i) 30 6 ++ [(reportBase 0 i + 2, u8 motion), (reportBase 0 i + 4, u32 position),
    (reportBase 0 i + 8, u16 velocity), (reportBase 0 i + 11, [2, 0xFF])])

def reporting (i motion position velocity : Nat) (c : Car) : State :=
  { sweeping (2 + i) 1 (reportRam i motion position velocity) with cars := [(0, c)] }

theorem witness_reportsNotApplied :
    let bad := reporting 15 0 0 0 {}
    let off := reporting 0 9 0 0 { tracking := .tracking, runCount := 2, deck0 := { mode := .at } }
    ReadsNow bad (.sweepReadCarReport 0 15) (.tenant 0) 17 ∧ judge (reportStamps bad.ram 0 15) none = .accepted 6 ∧
    resolveCar (bad.tenant 0) 15 = .error ⟨.carUnmapped, none⟩ ∧ resolveCar (off.tenant 0) 0 = .ok 0 ∧
    ReadsNow off (.sweepReadCarReport 0 0) (.tenant 0) 2 ∧ judge (reportStamps off.ram 0 0) none = .accepted 6 ∧
    implausible off.conf (off.car 0) 2500 off.hubTime (readReport off.ram 0 0) = true ∧ waiters off 0 .park = [] ∧
    ((run (.sweepReadCarReport 0 0) off).car 0).tracking = .parked ∧
    ((run (.sweepReadCarReport 0 0) off).car 0).parkMark = true ∧
    ((run (.sweepReadCarReport 0 15) bad).tenant 0).faults.sequence = 1 := by unfold ReadsNow; decide +kernel

/-- R57's height test at its bound, and its step test at its bound. -/
theorem test_implausible :
    let r (p : Nat) : ReportRecord := readReport (reportRam 0 0 p 0) 0 0
    let c : Car := { tracking := .tracking, time := 0, position := 0 }
    implausible small {} 2500 1000 (r 18000) = false ∧ implausible small {} 2500 1000 (r 18001) = true ∧
    implausible small c 2500 1000 (r 3000) = false ∧ implausible small c 2500 1000 (r 3001) = true := by decide +kernel

theorem witness_anchor :
    let s := reporting 0 0 4100 0 {}
    ReadsNow s (.sweepReadCarReport 0 0) (.tenant 0) 2 ∧ judge (reportStamps s.ram 0 0) none = .accepted 6 ∧
    resolveCar (s.tenant 0) 0 = .ok 0 ∧
    implausible s.conf (s.car 0) 2500 s.hubTime (readReport s.ram 0 0) = false ∧ (s.car 0).tracking = .acquiring ∧
    (s.car 0).anchor = false ∧ ((run (.sweepReadCarReport 0 0) s).car 0).anchor = true ∧
    ((run (.sweepReadCarReport 0 0) s).car 0).deck0.landing = some 1 ∧
    ((run (.sweepReadCarReport 0 0) { s with cars := [(0, { tracking := .parked })] }).car 0).tracking = .acquiring := by
  unfold ReadsNow; decide +kernel

/-- A declared stop that resolves is kept by the anchor and by an applied report, and one that does not leaves none. -/
theorem witness_reportKept :
    let s (f : Byte) (c : Car) : State := let x := reporting 0 1 1500 1000 c
      { x with ram := memWrite x.ram (reportBase 0 0 + 12) [f] }
    let t (f : Byte) (c : Car) : Car := (run (.sweepReadCarReport 0 0) (s f c)).car 0
    let anchored : Car := { anchor := true, time := 0, position := 1000 }
    (t 1 {}).stop = some (1, .both) ∧ (t 1 {}).deck0.served = 7 ∧ (t 1 anchored).stop = some (1, .both) ∧
    (t 1 anchored).motionDir = some .up ∧ (t 191 anchored).stop = none := by decide +kernel

/-- A running car 2,500 mm below landing 1: its stopping distance is 625 mm and its commit is landing 1. -/
theorem witness_applied :
    let s := reporting 0 1 1500 1000 { anchor := true, time := 0, position := 1000, deck0 := { landing := some 0 } }
    ReadsNow s (.sweepReadCarReport 0 0) (.tenant 0) 2 ∧ judge (reportStamps s.ram 0 0) none = .accepted 6 ∧
    resolveCar (s.tenant 0) 0 = .ok 0 ∧
    implausible s.conf (s.car 0) 2500 s.hubTime (readReport s.ram 0 0) = false ∧
    ((run (.sweepReadCarReport 0 0) s).car 0).tracking = .tracking ∧
    ((run (.sweepReadCarReport 0 0) s).car 0).deck0.mode = .running ∧
    ((run (.sweepReadCarReport 0 0) s).car 0).deck0.commit = some 1 ∧
    ((run (.sweepReadCarReport 0 0) s).car 0).deck0.landing = some 0 := by unfold ReadsNow; decide +kernel

/-- A car that comes to rest at landing 1 with its announcement lit there, one that leaves it running with no landing to
commit to, and one in OUT_OF_SERVICE. -/
theorem witness_appliedEvents :
    let lit : Announcement := { landing := some 1, litBy := some .commit }
    let car (m : DeckMode) : Car :=
      { tracking := .tracking, time := 0, position := 4000, deck0 := { mode := m, landing := some 1, announcement := lit, lastShown := [9] } }
    let t (motion position velocity : Nat) (m : DeckMode) : Car :=
      (run (.sweepReadCarReport 0 0) (reporting 0 motion position velocity (car m))).car 0
    (t 0 4000 0 .running).deck0.mode = .at ∧ (t 0 4000 0 .running).arriveMark = true ∧
    (t 0 4000 0 .running).deck0.doorDue = true ∧ (t 0 4000 0 .running).deck0.announcement = lit ∧
    (t 1 4500 2500 .at).departMark = true ∧ (t 1 6500 2500 .at).overrun = true ∧
    (t 1 6500 2500 .at).deck0.announcement = {} ∧ (t 4 4000 0 .running).deck0.lastShown = [9] ∧
    (t 4 4000 0 .running).deck0.shown = .landing 1 := by decide +kernel

/-- A position indicator of a car that parks and stands out of service with Text Store entry 5, rewritten since its layer was
written: a report that takes the deck OUT_OF_SERVICE reads the entry anew (R72), and the next one, which leaves the mode as
it was, does not. -/
theorem test_textReadAtModeChange :
    let row : HeadRow := { kind := 1, layerMask := 15, car := 0, deck := 0 }
    let s0 := reporting 0 4 4000 0 { anchor := true, time := 0, position := 4000, deck0 := { landing := some 1 } }
    let ten : Tenant := { s0.tenant 0 with options := { park := 2, parkText := some 5, oosText := none } }
    let text (b : Byte) (m : Memory) : Memory := memWrite m (textBase 0 5 + 72) [b, b, b, b]
    let parked := settleHeads { s0 with
      ram := text 65 s0.ram, tenants := [(0, ten)], heads := [(2, newHead row)]
      config := { inForce := some { small with heads := [(2, row)] }, accepted := some 1 } }
    let shown (s : State) : Option (List Byte) := ((tableFind s.heads 2).bind (·.position)).map (·.places)
    let out := run (.sweepReadCarReport 0 0) { parked with ram := text 66 parked.ram }
    let again := out.modTenant 0 (fun x => { x with reportSeen := [], sweep := { next := some 2 } })
    shown parked = some [65, 65, 65, 65] ∧ (out.car 0).deck0.mode = .outOfService ∧ shown out = some [66, 66, 66, 66] ∧
    shown (run (.sweepReadCarReport 0 0) { again with ram := text 67 again.ram }) = some [66, 66, 66, 66] := by
  decide +kernel

/-- A report of tenant car 0 at rest with its door opening, and the books about it. -/
def opening (position : Nat) (x : Slot) (board : Table BoardEntry) (list : List (Nat × Nat)) : State :=
  let ten : Tenant := { hub.tenant 0 with slots := [(0, x)] }
  { sweeping 2 1 (memWrite (reportRam 0 0 position 0) (reportBase 0 0 + 3) [1]) ten with
    cars := [(0, { tracking := .tracking, time := 0, position := position })], board := board, aboard := [(0, list)] }

/-- A DOOR that boards, one that delivers, and one that finds the list full. -/
theorem witness_door :
    let full : List (Nat × Nat) := (List.range 24).map (fun i => (i + 3, 1))
    let boards := opening 0 takenSlot waitingBoard [(5, 1)]
    let delivers := opening 8000 { takenSlot with state := .boarded } [] [(2, 3), (5, 1)]
    let fills := opening 0 takenSlot waitingBoard full
    (∀ s ∈ [boards, delivers, fills], keysHold s = true ∧ booksHold s = true ∧
      ReadsNow s (.sweepReadCarReport 0 0) (.tenant 0) 2 ∧ judge (reportStamps s.ram 0 0) none = .accepted 6 ∧
      implausible s.conf (s.car 0) 2500 s.hubTime (readReport s.ram 0 0) = false) ∧
    [boards, delivers, fills].map (fun s => ((run (.sweepReadCarReport 0 0) s).slot 0 0).state) =
      [.boarded, .retired, .retired] ∧
    [boards, delivers, fills].map (fun s => ((run (.sweepReadCarReport 0 0) s).slot 0 0).outcome) =
      [none, some .delivered, some .listFull] ∧
    (run (.sweepReadCarReport 0 0) boards).aboardList 0 0 = [(2, 3), (5, 1)] ∧
    (run (.sweepReadCarReport 0 0) delivers).aboardList 0 0 = [(5, 1)] ∧
    (run (.sweepReadCarReport 0 0) fills).aboardList 0 0 = full ∧
    (∀ s ∈ [boards, fills], (run (.sweepReadCarReport 0 0) s).board = []) := by unfold ReadsNow; decide +kernel

theorem witness_freshness :
    let d : Deck := { mode := .at, landing := some 2, held := some 1, lastShown := [0x32, 0x32, 0x32, 0x32] }
    let c : Car := { tracking := .tracking, freshness := some 1000, deck0 := { mode := .at }, deck1 := d }
    let s : State := { hub with cars := [(63, c)] }
    ready s = true ∧ reached s.hubTime (s.car 63).freshness = true ∧ waiters s 63 .park = [] ∧
    ((run (.freshnessExpiry 63) s).car 63).tracking = .parked ∧
    ((run (.freshnessExpiry 63) s).car 63).deck1 = { d.rewrite with mode := .none } ∧
    ((run (.freshnessExpiry 63) { s with cars := [(63, { c with tracking := .acquiring, anchor := true })] }).car 63).anchor =
      false := by decide +kernel

/-- The ends of the building, and the hysteresis point just reached and just missed. -/
theorem witness_runningRules : 0 < small.floorCount ∧ small.floorCount ≤ 192 ∧ nearest small 2000 = 0 ∧ nearest small 2001 = 1 ∧
    (runningRules small 100 2100 7 .up { landing := 0, held := none }).landing = 1 ∧
    (runningRules small 100 2099 7 .up { landing := 0, held := none }).landing = 0 ∧
    (runningRules small 100 1900 7 .down { landing := 2, held := none }).landing = 0 ∧
    commitLanding small 7 .up 0 8000 0 = some 2 ∧ commitLanding small 7 .down 2 7999 0 = some 1 := by decide +kernel

/-! ### Guidance -/

/-- A slot request: kind, tenant car, origin, destination, kiosk, party. -/
def slotRam (i : Nat) (b : List Byte) : Memory := ramOf (stamped (slotBase 0 i) 30 7 ++ [(slotBase 0 i + 2, b)])

def posting (i : Nat) (b : List Byte) (x : Slot := {}) : State :=
  sweeping (18 + i) 1 (slotRam i b) { hub.tenant 0 with slots := [(i, x)] }

theorem witness_postTaken :
    let s := posting 63 [1, 0, 0, 2, 0, 3, 0xFF, 0xFF, 1]
    let t := run (.sweepReadSlot 0 63) s
    ReadsNow s (.sweepReadSlot 0 63) (.tenant 0) 81 ∧ judge (slotStamps s.ram 0 63) (s.slot 0 63).seen = .accepted 7 ∧
    (readSlotRequest s.ram 0 63).kind = 1 ∧ (s.slot 0 63).live = false ∧
    requestKiosk (s.tenant 0) (readSlotRequest s.ram 0 63) = .ok (some 0) ∧ resolveCar (s.tenant 0) 0 = .ok 0 ∧
    resolveFloor (s.tenant 0) 0 = .ok (0, .both) ∧ resolveFloor (s.tenant 0) 2 = .ok (2, .both) ∧
    refusal s 0 0 0 0 2 .up = none ∧ boardFind s 0 0 0 .up = none ∧ freePlace s = some 0 ∧ booksHold s = true ∧
    (t.slot 0 63).state = .taken ∧ waiting t 0 0 0 .up 2 = 3 ∧
    ((tableFind t.heads 0).map (fun h => h.prompts.map (·.wheelchair))) = some [true] := by unfold ReadsNow; decide +kernel

/-- A POST into an existing entry, whose destination is there or is new, with a party above 15; and the books about it. -/
theorem witness_postExisting :
    let s (d party : Byte) : State := { posting 63 [1, 0, 0, d, 0xFF, party, 0xFF, 0xFF] with board := waitingBoard }
    booksHold (s 2 16) = true ∧ refusal (s 2 16) 0 0 0 0 2 .up = none ∧
    (boardFind (s 2 16) 0 0 0 .up).isSome = true ∧
    waiting (run (.sweepReadSlot 0 63) (s 2 16)) 0 0 0 .up 2 = 18 ∧
    ((run (.sweepReadSlot 0 63) (s 1 0)).board.map (fun e => e.2.destinations)) = [[(1, 1), (2, 3)]] ∧
    promptHoldOf {} (readSlotRequest (s 2 16).ram 0 63) = 6000 := by decide +kernel

/-- A refused POST at a kiosk that resolves: a prompt with the refused mark. -/
theorem witness_refusedPrompt :
    let s := posting 0 [1, 15, 0, 2, 0, 3, 0xFF, 0xFF]
    ((tableFind (run (.sweepReadSlot 0 0) s).heads 0).map (fun h => h.prompts.map (·.refused))) = some [true] ∧
    ((run (.sweepReadSlot 0 0) s).tenant 0).faults.sequence = 1 := by decide +kernel

/-- A kiosk, a car, an origin and a destination that do not resolve, and one landing as origin and destination. -/
theorem witness_postRefused :
    let kiosk := posting 0 [1, 0, 0, 2, 31, 3, 0xFF, 0xFF]
    let car := posting 0 [1, 15, 0, 2, 0xFF, 3, 0xFF, 0xFF]
    let origin := posting 0 [1, 0, 191, 2, 0xFF, 3, 0xFF, 0xFF]
    let destination := posting 0 [1, 0, 0, 191, 0xFF, 3, 0xFF, 0xFF]
    let same := posting 0 [1, 0, 1, 1, 0xFF, 3, 0xFF, 0xFF]
    (∀ s ∈ [kiosk, car, origin, destination, same], ReadsNow s (.sweepReadSlot 0 0) (.tenant 0) 18 ∧
      judge (slotStamps s.ram 0 0) (s.slot 0 0).seen = .accepted 7 ∧ (readSlotRequest s.ram 0 0).kind = 1 ∧
      (s.slot 0 0).live = false ∧ ((run (.sweepReadSlot 0 0) s).slot 0 0).state = .retired) ∧
    [kiosk, car, origin, destination, same].map (fun s => ((run (.sweepReadSlot 0 0) s).slot 0 0).reason) =
      [some .map, some .map, some .map, some .map, some .sameLanding] ∧
    (∀ s ∈ [kiosk, same], let lit : Car := { tracking := .tracking, deck0 := { announcement := { landing := some 1 } } }
      (run (.sweepReadSlot 0 0) { s with cars := [(0, lit)] }).cars = [(0, lit)]) ∧
    refusal same 0 0 0 1 1 .down = some .sameLanding ∧
    resolveFloor (destination.tenant 0) 191 = .error ⟨.floorUnmapped, none⟩ := by unfold ReadsNow; decide +kernel

/-- The checks of R81 after the first, each met alone. -/
theorem witness_refusals :
    let closed : State :=
      { hub with
        orders := { closed := 4 }
        tenants := [(0, { hub.tenant 0 with options := { refuseClosed := true } })] }
    let e (n : Nat) : BoardEntry :=
      { landing := 0, car := 0, deck := 0, direction := .up, tenant := 0, created := 0
        destinations := (List.range n).map (fun i => (i + 3, 1)) }
    let bars (landing : Nat) (cars : BitVec 64) : State :=
      { hub with config := { inForce := some { small with restrictions := [{ landing := landing, cars := cars }] } } }
    refusal (bars 2 1) 0 0 0 0 2 .up = some .restricted ∧ refusal (bars 0 1) 0 0 0 0 2 .up = some .restricted ∧
    refusal (bars 2 2) 0 0 0 0 2 .up = none ∧ refusal (bars 255 1) 0 0 0 0 2 .up = none ∧
    refusal hub 0 0 0 0 3 .up = some .notServed ∧ refusal closed 0 0 0 0 2 .up = some .restricted ∧
    refusal { hub with board := [(0, e 6)] } 0 0 0 0 2 .up = some .boardFull ∧
    refusal { hub with board := [(0, e 5)] } 0 0 0 0 2 .up = none ∧
    refusal { hub with board := [(0, e 1), (1, { e 1 with direction := .down })] } 0 0 0 1 2 .up = some .quota := by
  decide +kernel

theorem witness_conflictsAndCancels :
    let post : State := { posting 0 [1, 0, 0, 2, 0xFF, 1, 0xFF, 0xFF] takenSlot with board := waitingBoard }
    let cancel : State := { posting 0 [2] takenSlot with board := waitingBoard }
    let riders : State := { posting 0 [2] { takenSlot with state := .boarded } with aboard := [(0, [(2, 3)])] }
    let late := posting 0 [2] { takenSlot with state := .retired }
    let neither := posting 0 [3]  { takenSlot with state := .retired }
    (BooksOk post ∧ BooksOk cancel ∧ BooksOk riders ∧ BooksOk late ∧ BooksOk neither) ∧
    (∀ s ∈ [post, cancel, riders, late, neither], ReadsNow s (.sweepReadSlot 0 0) (.tenant 0) 18 ∧
      judge (slotStamps s.ram 0 0) (s.slot 0 0).seen = .accepted 7) ∧
    [post, cancel, riders, late, neither].map (fun s => ((run (.sweepReadSlot 0 0) s).slot 0 0).result) =
      [some .conflict, some .accepted, some .accepted, some .late, some .conflict] ∧
    waiting (run (.sweepReadSlot 0 0) cancel) 0 0 0 .up 2 = 0 ∧ riding (run (.sweepReadSlot 0 0) riders) 0 0 2 = 0 := by
  refine ⟨⟨?_, ?_, ?_, ?_, ?_⟩, by unfold ReadsNow; decide +kernel, by decide +kernel, by decide +kernel, by decide +kernel⟩
  · exact booksOk_of (by decide +kernel)
  · exact booksOk_of (by decide +kernel)
  · exact booksOk_of (by decide +kernel)
  · exact booksOk_of (by decide +kernel)
  · exact booksOk_of (by decide +kernel)

/-- A cancel of the last business at the commit landing takes the lantern dark; one at another landing changes none; a
POST at the commit landing lights an absent one (R103). -/
theorem witness_cancelSettles :
    let car (commit : Nat) (n : Announcement) : Table Car :=
      [(0, { tracking := .tracking, deck0 := { mode := .running, commit := some commit, announcement := n } })]
    let on (x : Nat) : Announcement := { landing := some x, litBy := some .commit }
    let cancel (commit : Nat) (n : Announcement) : State :=
      { posting 0 [2] takenSlot with board := waitingBoard, cars := car commit n }
    let post : State := { posting 0 [1, 0, 0, 2, 0xFF, 3, 0xFF, 0xFF] with cars := car 0 {} }
    let lantern (s : State) : Option Nat := ((run (.sweepReadSlot 0 0) s).deck 0 0).announcement.landing
    OnTheWay (cancel 0 (on 0)) 0 0 0 ∧ ¬ OnTheWay (cancel 1 (on 1)) 0 0 0 ∧ OnTheWay post 0 0 0 ∧
    lantern (cancel 0 (on 0)) = none ∧ lantern (cancel 1 (on 1)) = some 1 ∧ lantern post = some 0 := by decide +kernel

theorem witness_limits :
    let s (x : Slot) : State := { hub with tenants := [(0, { hub.tenant 0 with slots := [(63, x)] })] }
    let taken : State := { s takenSlot with board := waitingBoard }
    let boarded : State := { s { takenSlot with state := .boarded } with aboard := [(0, [(2, 3)])] }
    (BooksOk taken ∧ BooksOk boarded) ∧ reached taken.hubTime (taken.slot 0 63).limit = true ∧
    ((run (.boardingLimitExpiry 0 63) taken).slot 0 63).outcome = some .expired ∧
    (run (.boardingLimitExpiry 0 63) taken).board = [] ∧
    ((run (.rideLimitExpiry 0 63) boarded).slot 0 63).outcome = some .expired ∧
    (run (.rideLimitExpiry 0 63) boarded).aboardList 0 0 = [] := by
  refine ⟨⟨?_, ?_⟩, by decide +kernel, by decide +kernel, by decide +kernel, by decide +kernel, by decide +kernel⟩
  · exact booksOk_of (by decide +kernel)
  · exact booksOk_of (by decide +kernel)

theorem witness_promptHold :
    let p (e : Time) : Prompt := ⟨[65, 32], .up, [50, 32, 32, 32], false, false, false, some e⟩
    let h : Head := { prompts := [p 1001, p 1000, p 999] }
    let s : State := { hub with heads := [(61, h)] }
    s.headAt 0 62 = some h ∧ h.prompts = [p 1001] ++ p 1000 :: [p 999] ∧ reached s.hubTime (some 1000) = true ∧
    reached s.hubTime (some 1001) = false ∧
    ((run (.promptHoldExpiry 0 62) s).headAt 0 62).map (·.prompts) = some [p 1001, p 999] := by decide +kernel

/-- A declared stop and none, a door at a landing with business and at one without, and the lit lantern. -/
theorem witness_announcements :
    let w : State := { hub with board := waitingBoard, cars := [(0, { service := some .up })] }
    let declared : State := { w with cars := [(0, { stop := some (2, .both) })] }
    let lit := announceAtDoor 0 0 0 w
    let row := (small.head 1).getD {}
    attrCovers .both 0 = true ∧ nextStopTest declared 0 0 2 = true ∧ nextStopTest declared 0 0 0 = false ∧
    nextStopTest w 0 0 0 = true ∧ (lit.deck 0 0).announcement.arrow = .up ∧ announceAtDoor 0 0 1 w = w ∧
    announceAtDoor 0 0 0 lit = lit ∧ row.kind? = some .lantern ∧ headTenant small row = some 0 ∧
    guidanceLayer (announceAtDoor 0 0 1 { w with aboard := [(0, [(1, 2)])] }) row [] = some (.lit .up false 1) ∧
    guidanceLayer lit row [] = none := by decide +kernel

/-- The test re-applied: a lit commit with no business goes dark, an unlit one with business lights, one with business
stays, a deck at rest stays, and a change at a landing that is not the commit changes nothing. -/
theorem witness_resettle :
    let lit (x : Option Nat) : Announcement := { landing := x, litBy := x.map (fun _ => .commit) }
    let s (m : DeckMode) (x : Option Nat) (y : Nat) : State := { hub with
      board := waitingBoard
      cars := [(0, { tracking := .tracking, deck0 := { mode := m, commit := some y, announcement := lit x } })] }
    ((resettle 0 0 1 (s .running (some 1) 1)).deck 0 0).announcement = {} ∧
    ((resettle 0 0 0 (s .running none 0)).deck 0 0).announcement.landing = some 0 ∧
    resettle 0 0 0 (s .running (some 0) 0) = s .running (some 0) 0 ∧
    resettle 0 0 1 (s .running none 1) = s .running none 1 ∧
    resettle 0 0 1 (s .at (some 1) 1) = s .at (some 1) 1 ∧
    resettle 0 0 2 (s .running none 0) = s .running none 0 ∧
    resettle 0 0 2 (s .running (some 1) 1) = s .running (some 1) 1 := by decide +kernel

/-! ### Notice programs -/

/-- Program 7 of tenant 0: run and stop stamps and its first step. -/
def controlRam (go halt : Nat) (step : List Byte) : Memory :=
  ramOf (stamped (programBase 0 7) 14 8 ++ [(programBase 0 7 + 2, u16 go ++ u16 halt), (programBase 0 7 + 16, step)])

def controlling (m : Memory) (x : Program) : State := sweeping 89 1 m { hub.tenant 0 with programs := [(7, x)] }

theorem witness_controls :
    let show63 : List Byte := [1, 63, 0, 0, 1]
    let first := controlling (controlRam 1 1 show63) {}
    let start := controlling (controlRam 2 1 show63) { runBase := some 1, stopBase := some 1 }
    let halt := controlling (controlRam 1 2 show63)
      { runBase := some 1, stopBase := some 1, state := .running, current := some 0, share := .blank, expiry := some 5 }
    (∀ s ∈ [first, start, halt], ReadsNow s (.sweepReadProgramControl 0 7) (.tenant 0) 89 ∧
      judge (controlStamps s.ram 0 7) (tableGet none (s.tenant 0).controlSeen 7) = .accepted 8) ∧
    ((readSteps start.ram 0 7).getD 0 {}).p1 = 63 ∧
    [first, start, halt].map (fun s => ((run (.sweepReadProgramControl 0 7) s).program 0 7).state) =
      [.idle, .running, .idle] ∧
    ((run (.sweepReadProgramControl 0 7) start).program 0 7).expiry = some 1100 := by unfold ReadsNow; decide +kernel

/-- The targets of a start: a range of floors past 191, a car, and a car that fails; and a stop of a FAULTED program. -/
theorem witness_targets :
    let start (kind first last car : Byte) : State := run (.sweepReadProgramControl 0 7) (controlling
      (memWrite (controlRam 2 1 [1, 63, 0, 0, 1]) (programBase 0 7 + 6) [kind, first, last, 0xFF, car]) { runBase := some 1, stopBase := some 1 })
    ((start 1 255 0 0).program 0 7).target = .landings 7 0xFF ∧ ((start 1 255 0 0).tenant 0).faults.sequence = 0 ∧
    ((start 2 0 0 0).program 0 7).target = .car 0 ∧ ((start 2 0 0 15).program 0 7).target = .empty ∧
    ((start 2 0 0 15).tenant 0).faults.sequence = 1 := by decide +kernel

theorem test_stopFaulted :
    let x : Program := { state := .faulted, current := some 3, zeroTime := 16, cause := some .loop, counters := [(2, 1)] }
    x.stop = { x with state := .idle, current := none, cause := none } := by decide +kernel

/-- The steps of a program, one by one, from step 0 with a zero-time count. -/
theorem witness_steps :
    let at_ (z : Nat) (marks : Bool) (steps : List Machine.Step) : State := { hub with
      cars := [(0, { doorMark := marks })]
      tenants := [(0, { hub.tenant 0 with programs := [(7, { steps := steps, state := .running, zeroTime := z })] })] }
    let t (z : Nat) (marks : Bool) (steps : List Machine.Step) : Program := (runFrom 0 7 stepFuel 0 (at_ z marks steps)).program 0 7
    ((t 0 false [{ kind := 5 }]).cause, (t 0 false [{ kind := 3, p2 := 4 }]).cause, (t 0 false [{ kind := 1, p1 := 64 }]).cause,
      (t 0 false [{ kind := 4, p1 := 12 }]).cause, (t 0 false [{ kind := 4 }]).cause, (t 15 false [{ kind := 2 }]).cause) =
      (some .stepKind, some .stepKind, some .textIndex, some .stepRange, some .loop, some .loop) ∧
    (t 0 false [{ kind := 2 }, { kind := 0 }]).current = some 1 ∧ (t 0 false [{ kind := 1, p1 := 63, time := 1 }]).expiry = some 1100 ∧
    (t 0 false [{ kind := 4, p1 := 0, p2 := 2 }, { kind := 2, time := 700000 }]).expiry = some 601000 ∧
    (t 0 false [{ kind := 3, p2 := 1, time := 100 }]).waiting = some (0, .door) ∧
    (t 0 true [{ kind := 3, p2 := 1 }, { kind := 0 }]).current = some 1 ∧
    (t 0 false [{ kind := 3, p1 := 15, p3 := 1 }]).state = .done ∧ (t 0 false [{ kind := 3, p1 := 15 }, { kind := 2, time := 100 }]).current = some 1 := by
  decide +kernel

/-- A mark with a program waiting on it, and with none. -/
theorem witness_setMark :
    let p : Program := { steps := [{ kind := 3, p2 := 1 }], state := .waiting, current := some 0, waiting := some (0, .door) }
    let s : State := { hub with tenants := [(0, { hub.tenant 0 with programs := [(7, p)] })] }
    waiters s 0 .door = [(0, 7)] ∧ ((setMark 0 .door s).program 0 7).state = .done ∧ ((setMark 0 .door s).car 0).doorMark = false ∧
    ((setMark 0 .park s).car 0).parkMark = true := by decide +kernel

theorem witness_programExpiries :
    let steps : List Machine.Step := [{ kind := 2, time := 100 }, { kind := 1, p1 := 63, time := 600001 }, { kind := 0 },
      { kind := 2, time := 99 }, { kind := 3, p3 := 1 }]
    let at_ (i : Nat) (st : ProgramState) : State := { hub with tenants := [(0, { hub.tenant 0 with programs :=
      [(7, { steps := steps, state := st, current := some i, expiry := some 1000, zeroTime := 15 })] })] }
    reached hub.hubTime ((at_ 0 .running).program 0 7).expiry = true ∧
    [0, 1, 2, 11].map (fun i => ((run (.stepExpiry 0 7) (at_ i .running)).program 0 7).state) =
      [.running, .done, .running, .done] ∧
    ((run (.stepExpiry 0 7) (at_ 0 .running)).program 0 7).expiry = some 601000 ∧
    ((run (.waitTimeout 0 7) (at_ 2 .waiting)).program 0 7).expiry = some 1100 ∧
    ((run (.waitTimeout 0 7) (at_ 4 .waiting)).program 0 7).current = some 4 ∧
    ((run (.waitTimeout 0 7) (at_ 4 .waiting)).program 0 7).state = .done := by decide +kernel

/-! ### Override lines -/

theorem witness_overrideLine :
    let line (st : LineState) (pin : Bool) (e : Option Time) : State :=
      { hub with lines := [(3, { state := st, pin := pin, expiry := e })] }
    (run (.overridePinChange 3 true) (line .idle false none)).line 3 =
      { state := .pendingOn, pin := true, expiry := some 1100 } ∧
    ((run (.overridePinChange 3 true) (line .pendingOff false (some 1001))).line 3).state = .active ∧
    ((run (.overridePinChange 3 false) (line .pendingOn true (some 1001))).line 3).state = .idle ∧
    ((run (.overridePinChange 3 false) (line .active true none)).line 3).expiry = some 1050 ∧
    ((run (.overridePinChange 3 true) State.reset)).ovrLow = 8 ∧
    ((run (.debounceExpiry 3) (line .pendingOn true (some 1000))).line 3).state = .active ∧
    ((run (.debounceExpiry 3) (line .pendingOff false (some 1000))).line 3).state = .idle ∧
    reached hub.hubTime (some 1000) = true := by decide +kernel

/-- R127's worked word, and one bit more. -/
def goodWord : List Bool :=
  [false, true, false, false, false, false, false, false, false, false, false, false, true, false, false, true, false,
   true, false, true, false, false]

/-- An entry into ACTIVE with the trunk idle, with a frame being sent and with a request pending for the line; a gain of
zones when SBEN falls; and a trunk DOWN. -/
theorem witness_broadcast :
    let r : Request := { line := 3, zones := 1, short := [65], long := [66] }
    let poll : Turn := { kind := .poll, address := 1, line := .a, frame := pollFrame 1 0 }
    let line (x : Trunk) : State := { hub with
      lines := [(3, { state := .pendingOn, pin := true, expiry := some 1000, zones := 0x8000 })], trunks := [(0, x)] }
    let t (x : Trunk) : Trunk := (run (.debounceExpiry 3) (line x)).trunk 0
    let gain : State := { hub with sben := true, lines := [(0, { state := .active, pin := true })] }
    (t (hub.trunk 0)).requests.map (·.zones) = [0x8000] ∧ (t (hub.trunk 0)).flight = .idle ∧
    (t { hub.trunk 0 with flight := .sending poll }).flight = .breaking .a ∧
    (t { hub.trunk 0 with requests := [r] }).requests.map (·.zones) = [0x8001] ∧ (t { state := .down }).requests = [] ∧
    ((run (.sbenChange false) gain).trunk 0).requests.map (·.zones) = [0xFFFF] := by decide +kernel

theorem witness_sideBand :
    let s : State := { hub with sben := true, sbfr := true, word := some (goodWord.take 21) }
    (run (.sideBandClockEdge false) s).word = some goodWord ∧
    (run .sideBandWordStart { hub with sben := true }).word = some [] ∧
    run (.sideBandClockEdge true) hub = hub ∧
    judgeSideBand goodWord = some (1, 0x25) ∧ judgeSideBand (goodWord ++ [false]) = none ∧
    ((run .sideBandWord { s with word := some goodWord }).line 1).word = some 0x25 ∧
    ((run .sideBandWord { s with word := some goodWord }).line 1).zones = 0x25 ∧
    (run .sideBandWord { s with word := some [] }).badWords = 1 ∧
    (run .sideBandWord { s with word := some [], badWords := 65535 }).badWords = 65535 := by decide +kernel

theorem test_sbenChange : ((run (.sbenChange true) hub).line 0).zones = 0 ∧
    ((run (.sbenChange false) { hub with sben := true }).line 0).zones = 0xFFFF := by decide +kernel

/-! ### Display trunks -/

theorem witness_turnBegin :
    let r : Request := { line := 3, zones := 1, short := [65], long := [66] }
    let online (h : Head) : Head := { h with link := .online }
    let heads : State := { hub with heads := hub.heads.map (fun e => (e.1, online e.2)) }
    let kind (s : State) : Option FrameKind := ((s.trunk 0).flight.turn?).map (·.kind)
    (hub.trunk 0).flight = .idle ∧ (hub.trunk 0).active = some .a ∧ scheduled hub 0 = some (6, 0) ∧
    small.head 0 ≠ none ∧ tableFind hub.heads 0 ≠ none ∧ kind (run (.turnBegin 0) hub) = some .poll ∧
    kind (run (.turnBegin 0) { hub with trunks := [(0, { hub.trunk 0 with requests := [r] })] }) = some .override ∧
    kind (run (.turnBegin 0) heads) = some .quick ∧ scheduled heads 0 = some (4, 1) ∧
    roundRobin [0, 1, 61] 2 = some 61 ∧ roundRobin [0, 1, 61] 62 = some 0 ∧
    (let t := run (.turnBegin 0) heads
     let times (s : State) : List (Option Time × BitVec 4) := s.heads.map (fun e => (e.2.lastFrame, e.2.sentTag))
     times t = [(none, 0), (some 1000, 1)] ∧
     ((t.trunk 0).flight.turn?.map (fun u => (u.second, u.early, u.orphan, u.noMiss, u.recovery))) =
       some (false, false, false, false, false) ∧
     times (run (.turnBegin 0) { heads with trunks := [(0, { hub.trunk 0 with requests := [r] })] }) = times heads) := by
  decide +kernel

def probing1 : Turn := { kind := .probe, address := 1, line := .a, frame := probeFrame 1 }
def flying (f : Flight) (x : Trunk := hub.trunk 0) (h : Head := {}) : State :=
  { hub with trunks := [(0, { x with flight := f })], heads := [(0, h)] }

/-- A clean copy, a first error, and the third error with the other line READY and with it SHUT. -/
theorem witness_frameEnd :
    let clean := probing1.frame.map goodCharacter
    let run2 : Trunk := { hub.trunk 0 with lineA := { loopRun := 2 } }
    let alone : Trunk := { run2 with lineB := { shut := some .loop } }
    let odd : List Received := clean.map (fun c => { c with parity := !c.parity })
    let other : List Received := (withCrc 0xC6 [2]).map goodCharacter
    let late : List Received := clean.take 1 ++ [goodCharacter 2] ++ clean.drop 2
    loopError .probe probing1.frame clean = false ∧ loopError .probe probing1.frame (clean ++ odd) = false ∧
    (∀ e ∈ [[], clean.take 3, odd, other, late], loopError .probe probing1.frame e = true) ∧
    (∀ e ∈ [[], odd, other], loopError .quick probing1.frame e = true) ∧
    ((run (.frameEnd 0 clean) (flying (.sending probing1) run2)).trunk 0).lineA.loopRun = 0 ∧
    ((run (.frameEnd 0 []) (flying (.sending probing1))).trunk 0).lineA.loopRun = 1 ∧
    ((run (.frameEnd 0 []) (flying (.sending probing1) run2)).trunk 0).active = some .b ∧
    ((run (.frameEnd 0 []) (flying (.sending probing1) { run2 with lineB := { loopRun := 2 } })).trunk 0).lineB.loopRun = 0 ∧
    ((run (.frameEnd 0 []) (flying (.sending probing1) alone)).trunk 0).state = .down ∧
    ((run (.frameEnd 0 []) (flying (.sending probing1) alone)).trunk 0).recovery = some 6000 := by decide +kernel

/-- With trunk 0 legal and no other listed every trunk is. -/
theorem trunksLegal_of {f : Flight} {x : Trunk} {h : Head} (legal : TrunkLegal { x with flight := f }) :
    TrunksLegal (flying f x h) := fun n => by
  by_cases e : 0 = n
  · subst e; exact legal
  · have e : (flying f x h).trunk n = {} := by simp [flying, State.trunk, tableGet, tableFind, e]
    rw [e]
    exact ⟨fun h => (by cases h), fun _ => rfl, fun h => (by cases h), fun u h => (by cases h), fun h => (by cases h),
      fun u h => (by cases h)⟩

/-- A POLL in flight at a third loop error, at the watchdog and at a SHUT order, by a failover and by a trunk going DOWN: the
poll is left due with no miss counted; the other line's shut leaves it, and so does a frame of another kind. -/
theorem witness_cutPolls :
    let poll : Turn := { probing1 with kind := .poll }
    let run2 : Trunk := { hub.trunk 0 with lineA := { loopRun := 2 } }
    let alone : Trunk := { run2 with lineB := { shut := some .loop } }
    let h : Head := { pollDue := false, missRun := 2, misses := 5, pending := true }
    let order (a : Nat) : Memory := ramOf (stamped ordersBase 1022 4 ++ [(ordersBase + 4 + a, [1])])
    let seen (s : State) : Option (Bool × Nat × Nat × Bool) :=
      (tableFind s.heads 0).map (fun h => (h.pollDue, h.missRun, h.misses, h.pending))
    let ordered (a : Nat) (x : Trunk) : State :=
      run .sweepReadOrders { flying (.window poll) x h with ram := order a, sweep := { next := some 1 } }
    CutPoll (.window poll) 0 0 ∧ TrunksLegal (flying (.window poll) run2 h) ∧
    (∀ s ∈ [run (.frameEnd 0 []) (flying (.sending poll) run2 h), run (.frameEnd 0 []) (flying (.sending poll) alone h),
        run (.watchdogExpiry 0 .a) (flying (.window poll) run2 h), run (.watchdogExpiry 0 .a) (flying (.receiving poll) alone h),
        ordered 0 run2, ordered 0 alone], seen s = some (true, 2, 5, true)) ∧
    (∀ s ∈ [run (.frameEnd 0 []) (flying (.sending poll) (hub.trunk 0) h),
        run (.frameEnd 0 []) (flying (.sending probing1) run2 h), run (.watchdogExpiry 0 .b) (flying (.window poll) run2 h),
        run (.watchdogExpiry 0 .a) (flying (.window probing1) alone h), ordered 1 run2], seen s = some (false, 2, 5, true)) := by
  refine ⟨⟨{ probing1 with kind := .poll }, .inr (.inl rfl), rfl, rfl, rfl⟩, ?_, by decide +kernel, by decide +kernel⟩
  exact trunksLegal_of ⟨fun _ => ⟨.a, rfl, rfl⟩, fun h => absurd rfl h, fun h => (by cases h),
    fun u h => (by cases h; simp [probing1]), fun h => (by cases h), fun u h => (by cases h)⟩

theorem witness_transitions :
    let u : Turn := { probing1 with kind := .override }
    ((run (.breakEnd 0) (flying (.breaking .a))).trunk 0).flight = .gap ∧
    ((run (.gapExpiry 0) (flying .gap)).trunk 0).flight = .idle ∧
    ((run (.gapExpiry 0) (flying (.copyGap u))).trunk 0).flight = .sending { u with second := true } ∧
    ((run (.replyFirstCharacter 0) (flying (.window probing1))).trunk 0).flight = .receiving probing1 ∧
    ((run (.pollDue 0 1) (flying .idle (h := { pollAt := some 1000, pollDue := false }))).headAt 0 1).map (·.pollDue) =
      some true ∧
    ((run (.probeDue 0 1) (flying .idle (h := { probeAt := some 1000, link := .lost }))).headAt 0 1).map (·.probeDue) =
      some true := by decide +kernel

def replyOf (flags tag : Byte) : List Received :=
  (withCrc 0xD0 [1, flags, tag, 7]).map goodCharacter

/-- A confirming reply, with a held snapshot of its tag and of another, one from a head out of reach, one with FAULT, one
with LASTERR, one with SERVICE, and a SETUP's reply. -/
theorem witness_replyAccepted :
    let online : Head := { link := .online, sentTag := 5, pending := true }
    let holding (tag : BitVec 4) : Head :=
      { online with snapshot := some { content := .panel .blank (some 3), tag := tag, level := 0 } }
    let head (k : FrameKind) (h : Head) (flags : Byte) : Head :=
      (tableFind (run (.replyEnd 0 (replyOf flags 5)) (flying (.receiving { probing1 with kind := k }) (h := h))).heads 0).getD {}
    judgeReply 1 (replyOf 0 5) = .accepted { fault := false, service := false, busy := false, lasterr := false, tag := 5, ambient := 7 } ∧
    (head .content online 0).pending = false ∧ (head .content online 8).pending = true ∧
    (head .probe {} 0).needsReload = true ∧ (head .poll online 1).link = .failed ∧
    (head .setup { online with needsReload := true } 0).needsReload = false ∧
    (head .poll (holding 5) 0).confirmed = some (.panel .blank (some 3)) ∧ (head .poll (holding 5) 0).snapshot.isSome = true ∧
    (head .poll (holding 4) 0).confirmed = none ∧ (head .poll (holding 4) 0).pending = false ∧
    (head .poll (holding 5) 8).confirmed = none ∧ (head .poll (holding 5) 2).snapshot = none ∧
    (head .poll (holding 5) 2).jump = true := by decide +kernel

theorem witness_misses :
    let bad : List Received := (replyOf 0 5).map (fun c => { c with code := c.code ^^^ 1 })
    let u2 : Turn := { probing1 with second := true }
    let odd : List Received := (replyOf 0 5).map (fun c => { c with parity := !c.parity })
    judgeReply 1 bad = .crcFault ∧ judgeReply 1 ((replyOf 0 5).take 5) = .crcFault ∧ judgeReply 1 [] = .crcFault ∧
    judgeReply 1 odd = .refused ∧ judgeReply 2 (replyOf 0 5) = .refused ∧
    (tableFind (run (.replyEnd 0 odd) (flying (.receiving u2))).heads 0).map (fun h => (h.crcErrors, h.misses)) = some (0, 1) ∧
    ((run (.replyEnd 0 odd) (flying (.receiving probing1))).trunk 0).flight = .sending u2 ∧
    ((run (.replyWindowExpiry 0) (flying (.window probing1))).trunk 0).flight = .sending u2 ∧
    (tableFind (run (.replyEnd 0 bad) (flying (.receiving probing1))).heads 0).map (·.crcErrors) = some 1 ∧
    (tableFind (run (.replyEnd 0 bad) (flying (.receiving { u2 with early := true }))).heads 0).map
      (fun h => (h.crcErrors, h.misses)) = some (0, 0) ∧
    (tableFind (run (.replyWindowExpiry 0) (flying (.window u2))).heads 0).map (·.missRun) = some 1 ∧
    (tableFind (run (.replyWindowExpiry 0) (flying (.window u2) (h := { missRun := 3 }))).heads 0).map (·.link) = some .lost ∧
    (tableFind (run (.replyWindowExpiry 0) (flying (.window u2) (h := { link := .lost }))).heads 0).map (·.misses) =
      some 0 := by decide +kernel

/-- The miss that makes a head LOST, the one before it, and a first send: what the head keeps (R166). -/
theorem witness_keptAtMiss :
    let h (n : Nat) : Head :=
      { missRun := n, busy := true, sentTag := 5, pending := true, echo := 4, needsReload := true, level := 9,
        lastFrame := some 900, pollAt := some 1400, confirmed := some (.panel .blank none) }
    let at_ (second : Bool) (n : Nat) : Option Head :=
      tableFind (run (.replyWindowExpiry 0) (flying (.window { probing1 with second := second }) (h := h n))).heads 0
    let kept (x : Head) : Bool := x.sentTag == 5 && x.pending && x.echo == 4 && x.needsReload && x.level == 9 &&
      x.lastFrame == some 900 && x.pollAt == some 1400 && x.confirmed == some (.panel .blank none)
    let links (x : Head) : Nat × Bool × Bool × LinkState := (x.missRun, x.busy, x.everLost, x.link)
    (∀ x ∈ [at_ false 3, at_ true 2, at_ true 3], x.map kept = some true) ∧
    (at_ false 3).map links = some (3, true, false, .unknown) ∧ (at_ true 2).map links = some (3, true, false, .unknown) ∧
    (at_ true 3).map links = some (4, false, true, .lost) := by decide +kernel

/-- A turn whose head's row was set to NONE: an accepted reply, a window that expires at either send, and a reply that
fails its CRC-16. -/
theorem witness_orphan :
    let u : Turn := { probing1 with orphan := true }
    let again : Turn := { u with second := true }
    let bad : List Received := (replyOf 0 5).map (fun c => { c with code := c.code ^^^ 1 })
    let t (c : Instr) (f : Flight) : State := run c (flying f (h := { missRun := 3 }))
    judgeReply 1 (replyOf 1 5) =
      .accepted { fault := true, service := false, busy := false, lasterr := false, tag := 5, ambient := 7 } ∧
    judgeReply 1 bad = .crcFault ∧
    (∀ x ∈ [t (.replyEnd 0 (replyOf 1 5)) (.receiving u), t (.replyWindowExpiry 0) (.window again),
        t (.replyEnd 0 bad) (.receiving again)], (x.trunk 0).flight = .gap ∧ x.attention = 0 ∧
      (tableFind x.heads 0).map (fun h => (h.link, h.missRun, h.misses, h.crcErrors)) = some (.unknown, 3, 0, 0)) ∧
    ((t (.replyWindowExpiry 0) (.window u)).trunk 0).flight = .sending again := by decide +kernel

theorem witness_watchdog :
    let alone : Trunk := { hub.trunk 0 with lineB := { shut := some .ordered } }
    ((run (.watchdogExpiry 0 .a) hub).trunk 0).active = some .b ∧
    ((run (.watchdogExpiry 0 .a) { hub with trunks := [(0, alone)] }).trunk 0).state = .down ∧
    ((run (.watchdogExpiry 0 .b) hub).trunk 0).active = some .a ∧
    ((run (.watchdogExpiry 15 .b) hub).trunk 15).state = .off ∧
    ((run (.watchdogExpiry 15 .b) { hub with trunks := [(15, { flight := .breaking .b })] }).trunk 15).flight = .gap := by
  decide +kernel

def downTrunk : Trunk :=
  { state := .down, lineA := { shut := some .loop, shutTime := 500 }, lineB := { shut := some .loop, shutTime := 400 },
    recovery := some 1000 }

/-- A DOWN trunk's line shut by its watchdog: not probed, chosen, and in its probe. -/
theorem witness_watchdogDown :
    let chosen : Trunk := { downTrunk with chosen := some .b, recovery := none }
    let probe : Turn := { probing1 with recovery := true }
    let t (l : LineId) (x : Trunk) : Trunk := (run (.watchdogExpiry 0 l) { hub with trunks := [(0, x)] }).trunk 0
    (t .a downTrunk).recovery = some 1000 ∧ (t .a chosen).chosen = some .b ∧ (t .a chosen).recovery = none ∧
    (t .b chosen).chosen = none ∧ (t .b chosen).recovery = some 6000 ∧
    (t .a { downTrunk with flight := .window probe, recovery := none }).flight = .idle ∧
    (t .a { downTrunk with flight := .window probe, recovery := none }).recovery = some 6000 := by decide +kernel

/-- A DOWN trunk with its recovery probe in flight is legal. -/
theorem witness_legalDown : TrunkLegal { downTrunk with flight := .window { probing1 with recovery := true } } :=
  ⟨fun h => (by cases h), fun _ => rfl, fun _ => ⟨by decide, by decide⟩, fun u h _ => (by cases h; exact ⟨rfl, rfl⟩),
    fun _ u h => (by cases h; rfl), fun u h => (by cases h)⟩

theorem witness_probed : Probed { downTrunk with chosen := some .b } .b ∧ ¬ Probed downTrunk .a :=
  ⟨.inl rfl, fun h => by rcases h with h | ⟨u, -, -, h⟩ <;> simp [downTrunk] at h⟩

/-- The SHUT order of a chosen recovery line, alone and with the other line ORDERED. -/
theorem witness_orderDown :
    let m := ramOf (stamped ordersBase 1022 4 ++ [(ordersBase + 5, [1])])
    let t (a : ShutCause) : Trunk := (run .sweepReadOrders { sweeping 0 1 m with trunks := [(0,
      { downTrunk with lineA := { shut := some a }, chosen := some .b, recovery := none })] }).trunk 0
    judge (ordersStamps m) none = .accepted 4 ∧ (t .loop).lineB.shut = some .ordered ∧ (t .loop).chosen = none ∧
    (t .loop).recovery = some 6000 ∧ (t .ordered).recovery = none ∧ (t .ordered).state = .down := by decide +kernel

/-- The only head of a trunk is the next above any address. -/
theorem witness_nextAbove :
    let s : State := { hub with heads := [(61, { link := .failed })], trunks := [(0, downTrunk)] }
    KeysOk s ∧ NextAbove (ProbedHead s 0) 0 61 ∧ NextAbove (ProbedHead s 0) 62 61 ∧
    recoveryHead s 0 = some 61 ∧ ∀ k, tableFind ({ s with heads := [] } : State).heads k = none := by
  have h : ∀ j, ProbedHead { hub with heads := [(61, { link := .failed })], trunks := [(0, downTrunk)] } 0 j → j = 61 := by
    rintro j ⟨-, hj, -⟩
    by_contra hn
    exact hj (by simp [tableFind, Ne.symm hn])
  have h61 : ProbedHead { hub with heads := [(61, { link := .failed })], trunks := [(0, downTrunk)] } 0 61 :=
    ⟨rfl, by decide, .inl ⟨_, rfl, .inr rfl⟩⟩
  refine ⟨keysOk_of (by decide +kernel), ⟨h61, .inl ⟨by decide, fun j hj _ => by rw [h j hj]⟩⟩,
    ⟨h61, .inr ⟨fun j hj => ?_, fun j hj => by rw [h j hj]⟩⟩, by decide +kernel, fun _ => rfl⟩
  rw [h j hj]; decide

/-- A recovery probe to an UNKNOWN head whose poll is due: the poll is pushed back by its interval (assumption 70). -/
theorem witness_probePushesPoll :
    let s : State := { hub with trunks := [(0, { downTrunk with chosen := some .b, recovery := none })] }
    let polls (s : State) : List (LinkState × Bool × Option Time) := s.heads.map (fun e => (e.2.link, e.2.pollDue, e.2.pollAt))
    recoveryHead s 0 = some 0 ∧ polls s = [(.unknown, true, none), (.unknown, true, none)] ∧
    polls (run (.recoveryProbeBegin 0) s) = [(.unknown, false, some 1500), (.unknown, true, none)] ∧
    (((run (.recoveryProbeBegin 0) s).trunk 0).flight.turn?.map (fun u => (u.second, u.early, u.orphan, u.noMiss, u.recovery))) =
      some (false, false, false, false, true) := by decide +kernel

theorem witness_recovery :
    let s : State := { hub with trunks := [(0, downTrunk)] }
    let probe : Turn := { probing1 with recovery := true, second := true }
    let ordered : Trunk := { downTrunk with lineA := { shut := some .ordered }, lineB := { shut := some .ordered } }
    (s.trunk 0).state = .down ∧ reached s.hubTime (s.trunk 0).recovery = true ∧ trunkHeads s 0 = [0, 1] ∧
    ((run (.recoveryExpiry 0) s).trunk 0).chosen = some .b ∧
    ((run (.recoveryExpiry 0) { s with trunks := [(0, { downTrunk with lineB := { downTrunk.lineA with } })] }).trunk 0).chosen =
      some .a ∧
    ((run (.recoveryExpiry 0) { s with trunks := [(0, ordered)] }).trunk 0).chosen = none ∧
    ((run (.recoveryExpiry 0) { s with heads := [] }).trunk 0).active = some .b ∧
    ((run (.recoveryProbeBegin 0) { s with heads := [], trunks := [(0, { downTrunk with chosen := some .a })] }).trunk 0).active =
      some .a ∧
    recoveryHead s 0 = some 0 ∧
    ((run (.recoveryProbeBegin 0) { s with trunks := [(0, { downTrunk with chosen := some .b })] }).trunk 0).lastProbe = 1 ∧
    ((run (.replyWindowExpiry 0) (flying (.window probe) downTrunk)).trunk 0).recovery = some 6000 ∧
    ((run (.replyEnd 0 (replyOf 0 0)) (flying (.receiving probe) downTrunk)).trunk 0).state = .running := by
  decide +kernel

/-- A failover in a broadcast's frame and between its copies: its request returns to the list's head, or into the request
pending for its line, which keeps its texts and its place; any other turn leaves the list as it was (R162). -/
theorem witness_failedOver :
    let r (l : Nat) (z : BitVec 16) : Request := { line := l, zones := z, short := [], long := [] }
    let kept : Request := { r 2 1 with short := [65] }
    let u : Turn := { probing1 with kind := .override, request := some (r 2 8) }
    let x (rs : List Request) : Trunk := { hub.trunk 0 with requests := rs, lineA := { loopRun := 2 } }
    let fails (rs : List Request) (f : Flight) : Trunk := (run (.frameEnd 0 []) (flying f (x rs))).trunk 0
    let acts (rs : List Request) (f : Flight) : Trunk := (run (.watchdogExpiry 0 .a) (flying f (x rs))).trunk 0
    (fails [] (.sending u)).requests = [r 2 8] ∧ (fails [] (.sending u)).flight = .gap ∧
    (fails [r 3 1] (.sending { u with second := true })).requests = [r 2 8, r 3 1] ∧
    (fails [r 3 1, kept, r 0 4] (.sending u)).requests = [r 3 1, { kept with zones := 9 }, r 0 4] ∧
    (fails [kept] (.sending probing1)).requests = [kept] ∧ (acts [] (.copyGap u)).requests = [r 2 8] ∧
    (acts [kept] (.copyGap u)).requests = [{ kept with zones := 9 }] ∧ (acts [] (.copyGap u)).flight = .gap ∧
    (acts [kept] (.window probing1)).requests = [kept] ∧ (acts [] .idle).flight = .idle ∧
    (acts [] (.breaking .a)).flight = .gap := by decide +kernel

/-- A recovery probe whose reply is accepted: the trunk is RUNNING on its line and the head has the reply. -/
theorem witness_probeAnswered :
    let s := flying (.receiving { probing1 with recovery := true }) { downTrunk with recovery := none } { link := .lost }
    let t := run (.replyEnd 0 (replyOf 4 5)) s
    (s.trunk 0).state = .down ∧ judgeReply 1 (replyOf 4 5) =
      .accepted { fault := false, service := false, busy := true, lasterr := false, tag := 5, ambient := 7 } ∧
    ((s.trunk 0).line .a).shut ≠ none ∧ tableFind s.heads (headKey 0 1) = some { link := .lost } ∧
    (t.trunk 0).active = some .a ∧ (t.trunk 0).lineB = downTrunk.lineB ∧
    (tableFind t.heads 0).map (fun h => (h.link, h.busy, h.ambient, h.echo, h.needsReload)) =
      some (.online, true, some 7, 5, true) := by decide +kernel

/-- A recovery probe with no accepted reply: its first send, to each kind of failure, and its retry. -/
theorem witness_probeFails :
    let probe : Turn := { probing1 with recovery := true }
    let again : Turn := { probe with second := true }
    let bad : List Received := (replyOf 0 5).map (fun c => { c with code := c.code ^^^ 1 })
    let odd : List Received := (replyOf 0 5).map (fun c => { c with parity := !c.parity })
    let t (c : Instr) (f : Flight) : State := run c (flying f { downTrunk with recovery := none } { link := .online })
    Unanswered (flying (.window probe)) 0 probe (.replyWindowExpiry 0) false ∧
    Unanswered (flying (.receiving probe)) 0 probe (.replyEnd 0 bad) true ∧
    Unanswered (flying (.receiving probe)) 0 probe (.replyEnd 0 odd) false ∧
    (∀ c ∈ [(.replyEnd 0 bad : Instr), .replyEnd 0 odd], ((t c (.receiving probe)).trunk 0).flight = .sending again) ∧
    ((t (.replyWindowExpiry 0) (.window probe)).trunk 0).flight = .sending again ∧
    (∀ c ∈ [(.replyEnd 0 bad : Instr), .replyEnd 0 odd],
      ((t c (.receiving again)).trunk 0).lineA = { shut := some .loop, shutTime := 1000 } ∧
      ((t c (.receiving again)).trunk 0).recovery = some 6000 ∧ ((t c (.receiving again)).trunk 0).flight = .gap) ∧
    (tableFind (t (.replyEnd 0 bad) (.receiving again)).heads 0).map (fun h => (h.link, h.misses, h.crcErrors)) =
      some (.online, 0, 1) := by
  refine ⟨.inl ⟨rfl, rfl, rfl⟩, .inr ⟨_, rfl, rfl, .inl (by decide +kernel)⟩, .inr ⟨_, rfl, rfl, .inr (by decide +kernel)⟩, ?_⟩
  decide +kernel

/-- An order readies a line during a recovery probe on line A: line A's restore stamp, line B's RUN order, and both. A probe
of the line goes on, and its missing reply is no miss (R173). -/
theorem witness_probeSettled :
    let probe : Turn := { probing1 with recovery := true }
    let on : Turn := { probing1 with noMiss := true }
    let s (base : Stamp) (b : ShutCause) (f : Flight) : State := { sweeping 0 1 (ramOf (stamped ordersBase 1022 4)) with
      orders := { lines := [(1, true)], restore := [(0, some base)] }, heads := [(0, { link := .online })],
      trunks := [(0, { downTrunk with recovery := none, lineB := { shut := some b }, flight := f })] }
    let x (s : State) : Trunk := (run .sweepReadOrders s).trunk 0
    let t : State := run (.replyWindowExpiry 0) (flying (.window { on with second := true }) (h := { link := .online }))
    ReadsNow (s 3 .loop (.window probe)) .sweepReadOrders .building 1 ∧
    judge (ordersStamps (s 3 .loop .idle).ram) none = .accepted 4 ∧
    Readied (s 3 .loop .idle) (readOrders (s 3 .loop .idle).ram) 0 .a ∧
    ¬ Readied (s 0 .ordered .idle) (readOrders (s 0 .ordered .idle).ram) 0 .a ∧
    Readied (s 0 .ordered .idle) (readOrders (s 0 .ordered .idle).ram) 0 .b ∧
    (∀ i ∈ [0, 1], ¬ ShutOrder (s 3 .loop .idle) (readOrders (s 3 .loop .idle).ram) i) ∧
    (x (s 3 .loop (.window probe))).flight = .window on ∧ (x (s 3 .loop (.receiving probe))).active = some .a ∧
    (x (s 0 .ordered (.sending probe))).flight = .gap ∧ (x (s 0 .ordered (.sending probe))).active = some .b ∧
    (x (s 3 .ordered (.sending probe))).flight = .sending on ∧
    (x (s 3 .ordered (.sending { probe with line := .b }))).flight = .gap ∧
    (t.trunk 0).flight = .gap ∧ (t.trunk 0).state = .running ∧
    (tableFind t.heads 0).map (fun h => (h.misses, h.missRun)) = some (0, 0) := by
  unfold ReadsNow Readied RunOrder ShutOrder
  dsimp only
  decide +kernel

/-- A trunk disabled past its frame ends its turn in its gap, and an OFF trunk's ORDERED line keeps its shut time at the
enabling (assumptions 64 and 66). -/
theorem test_disabledAndEnabled :
    let off : State := { hub with orders := { lines := [(0, true), (1, true)] }, trunks := [(0,
      { lineA := { shut := some .ordered, shutTime := 7 }, lineB := { loopRun := 1 } })] }
    let t : Trunk := (enableTrunk 0 off).trunk 0
    ((disableTrunk 0 (flying (.window probing1))).trunk 0).flight = .gap ∧
    ((disableTrunk 0 (flying (.sending probing1))).trunk 0).flight = .breaking .a ∧
    t.lineA.shutTime = 7 ∧ t.lineB.shutTime = 1000 ∧ t.state = .down := by decide +kernel

/-! ### Checks (R175) -/

theorem test_crc : crc16 [0x31, 0x32, 0x33, 0x34, 0x35, 0x36, 0x37, 0x38, 0x39] = 0x29B1 := by decide +kernel
/-- The 11 levels of 0x31, whose three one-bits make its parity bit 1; and a character with either fault (R149). -/
theorem test_characters :
    characterLevels 0x31 = [false, true, false, false, false, true, true, false, false, true, true] ∧
    badCharacter { code := 0x31, parity := false, stop := true } = true ∧
    badCharacter { code := 0x31, parity := true, stop := false } = true ∧
    driverEnable (flying (.sending probing1)) 0 .a = true ∧ driverEnable (flying .gap) 0 .a = false ∧
    transmitLevels (flying (.breaking .b)) 0 .b = List.replicate 22 false := by decide +kernel

theorem test_quickWord : quickWord (.lantern true .up true 1) 34 = 0xAC53 := by decide +kernel

/-- The layouts' smallest payloads, and the largest: a car panel's list of 24 has 129 bytes (12_layouts.md section 6). -/
theorem test_payload :
    let x : PosText := { places := [0x31], arrow := .down, mark := .parked }
    let d : DestItem := { label := [0x32], arrow := .up, closed := true, wheelchair := true }
    payload (.indicator x none) .position = [3, 0xFF, 0x31, 32, 32, 32, 2, 0x85] ∧ payload (.indicator x none) .idle = [0, 0xFF] ∧
    payload (.panel (.destinations [d]) none) .guidance = [1, 0xFF, 1, 0x32, 32, 32, 32, 1, 6] ∧
    payload (.carPanel x (.destinations [d]) none) .guidance = [1, 0xFF, 0x31, 32, 32, 32, 2, 0x85, 1, 0x32, 32, 32, 32, 6] ∧
    (payload (.carPanel x (.destinations (List.replicate 24 d)) (some 3)) .guidance).length = 129 := by decide +kernel

/-! ### Faults, records and what every step keeps -/

/-- A free list, and one whose 32 entries are all occupied. -/
theorem witness_faults :
    let f : Raised :=
      { tenant := some 7, cause := .textIndex, source := .program, indexA := some 0, indexB := some 1, logical := 64,
        building := none, count := none }
    let full : State := { hub with ram := ramOf ((List.range 32).map (fun i => (tenantFaultBase 7 + 32 * i, [1]))) }
    toSupervisor hub f = false ∧ occupied hub.ram (some 7) 0 = false ∧
    (∀ i < 32, occupied full.ram (some 7) i = true) ∧ (raise f hub).attention = 0x80 ∧
    ((raise f full).tenant 7).faults.dropped = 1 ∧ (raise f full).attention = 0 ∧
    occupied (raise f hub).ram (some 7) 0 = true ∧ memNat (raise f hub).ram (tenantFaultBase 7) 4 = 1 := by decide +kernel

def settled : State := settleHeads { hub with pending := [.hubTimeTick] }

theorem witness_keysOk : KeysOk settled ∧ Sound settled :=
  ⟨keysOk_of (by decide +kernel), keysOk_of (by decide +kernel), by decide⟩

theorem witness_booksKept : BooksOk settled ∧ BooksOk { settled with board := waitingBoard } :=
  ⟨booksOk_of (by decide +kernel), booksOk_of (by decide +kernel)⟩

/-- The hub with one party of three waiting. -/
def waits : State :=
  { settled with tenants := [(0, { hub.tenant 0 with slots := [(0, takenSlot)] })], board := waitingBoard }

theorem waits_slot {n i : Nat} (h : ¬ (n = 0 ∧ i = 0)) : waits.slot n i = {} := by
  by_cases hn : 0 = n
  · subst hn
    have hi : ¬ 0 = i := fun e => h ⟨rfl, e.symm⟩
    show tableGet ({} : Slot) [(0, takenSlot)] i = {}
    simp [tableGet, tableFind, hi]
  · have e : waits.tenant n = {} := by
      show tableGet ({} : Tenant) [(0, _)] n = {}
      simp [tableGet, tableFind, hn]
    show (waits.tenant n).slot i = {}
    rw [e]; rfl

/-- A sum over the slots is that of the one party, or nothing. -/
theorem waits_partySum (f : Slot → Bool) :
    partySum waits (fun n i => f (waits.slot n i)) = if f takenSlot then 3 else 0 := by
  unfold partySum
  rw [show (512 : Nat) = 511 + 1 from rfl, List.range_succ_eq_map, List.map_cons, List.sum_cons, List.map_map,
    List.sum_eq_zero]
  · rfl
  · intro x hx
    obtain ⟨k, -, rfl⟩ := List.mem_map.mp hx
    have e : waits.slot ((k + 1) / 64) ((k + 1) % 64) = {} := waits_slot (by omega)
    simp [e]

theorem waits_owners : OwnersOk waits := by
  have grants : ∀ n c, grantsCar small n c = true → n = 0 := by
    intro n c h
    cases n with
    | zero => rfl
    | succ n => simp [grantsCar, small, BuildingConfig.grant] at h
  refine ⟨fun c m _ n _ hm hn => (grants m c hm).trans (grants n c hn).symm, by decide +kernel, ?_, ?_, ?_, by decide +kernel⟩
  · intro n hn m hm
    cases n with
    | zero => cases hm; exact ⟨rfl, rfl⟩
    | succ n => cases hm
  · intro n hn
    cases n with
    | zero => intro h; cases h
    | succ n => intro _ r h; cases h
  · intro n _ i _ live c hc
    by_cases h : n = 0 ∧ i = 0
    · obtain ⟨rfl, rfl⟩ := h; cases hc; rfl
    · rw [waits_slot h] at live; cases live

/-- The sums of the guidance books hold where a party waits. -/
theorem witness_tallies : Sound waits ∧ BooksOk waits ∧ TalliesOk waits := by
  refine ⟨⟨keysOk_of (by decide +kernel), by decide⟩, booksOk_of (by decide +kernel), ?_, ?_, by decide +kernel,
    liveDecks_of (by decide +kernel), waits_owners⟩
  · intro l c k dir x
    rw [waits_partySum (fun y => decide (WaitsFor l c k dir x y))]
    by_cases e : 0 = l ∧ 0 = c ∧ 0 = k ∧ Dir.up = dir
    · obtain ⟨rfl, rfl, rfl, rfl⟩ := e
      by_cases ex : 2 = x
      · subst ex; rfl
      · rw [if_neg (by simp [WaitsFor, takenSlot, ex])]
        simp [waiting, waits, waitingBoard, boardFind, countOf, ex]
    · have hb : boardFind waits l c k dir = none := by
        simp only [boardFind, waits, waitingBoard, List.find?_cons, List.find?_nil]
        split
        · rename_i h
          simp only [Bool.and_eq_true, beq_iff_eq] at h
          exact absurd ⟨h.1.1.1, h.1.1.2, h.1.2, h.2⟩ e
        · rfl
      simp only [waiting, hb]
      rw [if_neg]
      simp only [WaitsFor, takenSlot, decide_eq_true_eq, Option.some.injEq]
      exact fun h => e ⟨h.2.1, h.2.2.1, h.2.2.2.1, h.2.2.2.2.1⟩
  · intro c k _ x
    rw [waits_partySum (fun y => decide (RidesTo c k x y)), if_neg (by simp [RidesTo, takenSlot])]
    rfl

/-- The layouts by 12_layouts.md 3.5, 3.8 and 3.11: a waiting slot, the status of a head with a content turn in flight and
its entry's mirror place, as published. -/
theorem witness_layouts :
    let rs := [RecordId.slotHalf 0 0, .headStatus 0, .boardPlace 0, .buildingStatus]
    let s := publishList
      { waits with trunks := [(0, { hub.trunk 0 with flight := .window { probing1 with kind := .content } })] } rs
    (∀ r ∈ rs, ShowsRecord s r) ∧
    ContentInFlight s 0 ∧ memBytes s.ram 0x10824 10 = [1, 0xFF, 0xFF, 0xFF, 0, 0, 0, 2, 0, 3] ∧
    byteAt s.ram 0x9002 = 0x21 ∧ memBytes s.ram 0xD002 7 = [1, 0, 0, 0, 0, 0, 1] ∧ byteAt s.ram 0xD00A = 2 ∧
    pairAt s.ram 0xD010 = 3 := by
  refine ⟨by unfold ShowsRecord; decide +kernel,
    ⟨{ probing1 with kind := .content }, .inr (.inl rfl), rfl, rfl, .inl rfl⟩, by decide +kernel⟩

/-- A report's velocity of -2 and a slot's absent kiosk, read from bytes written out (12_layouts.md 3.3, 3.5). -/
theorem test_hostReads :
    (readReport (ramOf [(0x10108, [0xFE, 0xFF])]) 0 0).velocity = -2 ∧
    (readSlotRequest (ramOf [(0x16842, [1, 2, 3, 4, 0xFF, 9])]) 1 1).kiosk = none ∧
    (readSlotRequest (ramOf [(0x16842, [1, 2, 3, 4, 0xFF, 9])]) 1 1).party = 9 ∧
    (readConfiguration (ramOf [(0x1040, [0xA0, 0x0F, 0, 0, 0x47])])).floor 0 =
      { height := 4000, label := [0x47, 0, 0, 0] } := by decide +kernel

/-- Labels of the full length, cut short by a code 0, and empty (R65); and a recovery interval of 0 and of 60 s (R25). -/
theorem test_labelsAndInterval :
    labelPlaces 4 [0x41, 0x42, 0x43, 0x44] = [0x41, 0x42, 0x43, 0x44] ∧ labelPlaces 4 [0x41, 0, 0x43, 0x44] = [0x41, 32, 32, 32] ∧
    labelPlaces 2 [0, 0x41] = [32, 32] ∧ recoveryMs hub 0 = 5000 ∧
    recoveryMs { hub with config := { inForce := some { small with trunks := [{ enabled := 1, recovery := 60 }] } } } 0 = 60000 := by
  decide +kernel

theorem witness_changes : publishesChanges (.overridePinChange 0 true) = true ∧
    writesHostBytes (.overridePinChange 0 true) = false ∧
    tableGet 0 (run (.overridePinChange 0 true) settled).stamps 4 = 1 ∧
    recordView (run (.overridePinChange 0 true) settled) .buildingStatus ≠ recordView settled .buildingStatus ∧
    recordView (run (.overridePinChange 0 true) settled) (.headStatus 0) = recordView settled (.headStatus 0) := by
  decide +kernel

theorem witness_registersKept : Quiet settled ∧ TimersNeedRun { settled with run := false } ∧ TimersNeedRun settled := by
  refine ⟨⟨fun h => absurd rfl h, fun h => by rcases h with h | h <;> cases h⟩, fun _ a => ?_, fun h => by cases h⟩
  cases a with
  | building => exact ⟨rfl, rfl⟩
  | tenant t => revert t; decide +kernel

theorem witness_debounceKept : DebounceOk { settled with lines := [(0, { state := .pendingOn, expiry := some 5 })] } :=
  fun _ => by decide +kernel

theorem witness_carsKept : CarsOk settled := by
  have e : ∀ c, settled.car c = {} := fun c => rfl
  refine ⟨fun c _ => ?_, fun c => ?_⟩
  · rw [e]; exact ⟨⟨rfl, rfl, rfl⟩, ⟨rfl, rfl, rfl⟩⟩
  · rw [e]; exact ⟨fun j h => (by cases h), fun j h => (by cases h)⟩

theorem witness_trunksKept : TrunksLegal settled := fun t => by
  by_cases h : 0 = t
  · subst h
    exact ⟨fun _ => ⟨.a, rfl, rfl⟩, fun h => absurd rfl h, fun h => (by cases h), fun u h => (by cases h),
      fun h => (by cases h), fun u h => (by cases h)⟩
  · have e : settled.trunk t = {} := by simp [settled, settleHeads, hub, State.trunk, tableGet, tableFind, h]
    rw [e]
    exact ⟨fun h => (by cases h), fun _ => rfl, fun h => (by cases h), fun u h => (by cases h), fun h => (by cases h),
      fun u h => (by cases h)⟩

/-- The hub with its car's announcement lit at the lantern's landing. -/
def lit : State :=
  { hub with
    pending := [.hubTimeTick]
    cars := [(0, { tracking := .tracking
                   deck0 := { mode := .running, announcement := { landing := some 1, litBy := some .commit, arrow := .up } } })] }

/-- Heads as the Head Table's acceptance leaves them are settled with their layers right: in the hub at rest, and with the
lantern lit, whose next content is then its guidance layer's. -/
theorem witness_layersKept : LayersOk settled ∧ LayersOk (settleHeads lit) ∧
    ((tableFind (settleHeads lit).heads 1).map (·.next)) = some (.lantern true .up true 1) := by
  have fresh : ∀ k h, tableFind hub.heads k = some h →
      (h.guidance = h.guidanceDesc ∨ h.guidance = none) ∧ PositionHolds h.positionDesc h.position ∧
      (h.differs = true ↔ h.confirmed ≠ some h.next) := fun k h hh => by
    have : h = (hub.heads.getD 0 (0, {})).2 ∨ h = (hub.heads.getD 1 (0, {})).2 := by
      rcases List.mem_cons.mp (tableFind_mem hh) with e | e
      · cases e; exact .inl rfl
      · cases List.mem_singleton.mp e; exact .inr rfl
    rcases this with rfl | rfl <;> exact ⟨.inl rfl, .inl rfl, by decide +kernel⟩
  exact ⟨settleHeads_is _ fun k h _ hh _ _ => fresh k h hh, settleHeads_is _ fun k h _ hh _ _ => fresh k h hh,
    by decide +kernel⟩

end Sys2Proof.Tests
end

section
/-!
SUPPORT. The Attention register through a command (R12). `AttentionStays s t` is the part of `Calm` that holds of every
command but the clear and the resets, also of those whose work is not calm: a sweep's moves, and a generation put in force,
which replaces the numbered tables.
-/

namespace Sys2Proof.Proofs

open Sys2Proof Sys2Proof.Machine Sys2Proof.Safety Sys2Proof.Laws

/-! ### Bits that stay set -/

/-- Every Attention bit set in `s` is set in `t`. -/
def AttentionStays (s t : State) : Prop := ∀ i, s.attention.getLsbD i = true → t.attention.getLsbD i = true

theorem AttentionStays.refl (s : State) : AttentionStays s s := fun _ => id

theorem AttentionStays.trans {s t u : State} (h1 : AttentionStays s t) (h2 : AttentionStays t u) : AttentionStays s u :=
  fun i h => h2 i (h1 i h)

theorem AttentionStays.of_eq {s t : State} (h : t.attention = s.attention) : AttentionStays s t := fun _ hi => h ▸ hi

theorem AttentionStays.of_calm {fs : List Field} {s t : State} (h : Calm fs s t) : AttentionStays s t := h.attention

/-- A calm piece of work after work that keeps the bits. -/
theorem AttentionStays.calm {fs : List Field} {s t u : State} (h1 : AttentionStays s t) (h2 : Calm fs t u) :
    AttentionStays s u := h1.trans h2.attention

theorem AttentionStays.ite {s t u : State} {p : Prop} [Decidable p] (h1 : AttentionStays s t) (h2 : AttentionStays s u) :
    AttentionStays s (if p then t else u) := by split <;> assumption

/-- Work done under a condition, with nothing changed otherwise. -/
theorem AttentionStays.guarded {s t : State} {p : Prop} [Decidable p] (h : AttentionStays s t) :
    AttentionStays s (if p then t else s) := h.ite (.refl s)

theorem AttentionStays.foldl {α : Type} (f : State → α → State) (l : List α)
    (h : ∀ a ∈ l, ∀ s, AttentionStays s (f s a)) (s : State) : AttentionStays s (l.foldl f s) := by
  induction l generalizing s with
  | nil => exact .refl _
  | cons a l ih => exact (h a List.mem_cons_self s).trans (ih (fun b hb => h b (List.mem_cons_of_mem _ hb)) _)

/-- The end of an event hands on the Attention register as the event's work left it. -/
theorem finishWith_attention (forced : List RecordId) (s u : State) :
    (finishWith forced s u).attention = u.attention := rfl

theorem AttentionStays.finishWith {s u v : State} (forced : List RecordId) (h : AttentionStays s u) :
    AttentionStays s (Machine.finishWith forced v u) := h.trans (.of_eq (finishWith_attention forced v u))

theorem AttentionStays.finish {s u v : State} (h : AttentionStays s u) : AttentionStays s (Machine.finish v u) :=
  h.finishWith []

/-- Calm work under a condition, at whose end the changed records are published. -/
theorem AttentionStays.guardedFinish {fs : List Field} {s u : State} {p : Prop} [Decidable p] (h : Calm fs s u) :
    AttentionStays s (if p then Machine.finish s u else s) := (AttentionStays.of_calm h).finish.guarded

/-! ### Sweeps -/

@[simp] theorem setAreaSweep_attention (s : State) (a : Area) (x : AreaSweep) :
    (s.setAreaSweep a x).attention = s.attention := by cases a <;> rfl

@[simp] theorem nextRecord_attention (s : State) (a : Area) (n : Nat) : (nextRecord a n s).attention = s.attention :=
  setAreaSweep_attention _ _ _

@[simp] theorem beginSweep_attention (s : State) (a : Area) : (beginSweep a s).attention = s.attention :=
  setAreaSweep_attention _ _ _

@[simp] theorem stopArea_attention (s : State) (a : Area) : (stopArea a s).attention = s.attention :=
  setAreaSweep_attention _ _ _

@[simp] theorem sweepEvent_attention (s : State) (a : Area) : (sweepEvent a s).attention = s.attention := by
  unfold sweepEvent
  dsimp only
  split
  · exact setAreaSweep_attention _ _ _
  · exact beginSweep_attention _ _

@[simp] theorem countSweep_attention (s : State) (a : Area) : (countSweep a s).attention = s.attention := by
  cases a <;> rfl

theorem attentionStays_startAreas (l : List Area) (s : State) :
    AttentionStays s (l.foldl (fun s a => startArea a s) s) :=
  .foldl _ _ (fun a _ u => .of_eq (sweepEvent_attention u a)) _

theorem attentionStays_stopAreas (l : List Area) (s : State) :
    AttentionStays s (l.foldl (fun s a => stopArea a s) s) :=
  .foldl _ _ (fun a _ u => .of_eq (stopArea_attention u a)) _

/-! ### The reads of a sweep -/

theorem attentionStays_readConfigurationRecord (s : State) : AttentionStays s (readConfigurationRecord s) := by
  unfold readConfigurationRecord
  split
  · exact .refl s
  · split
    · exact .of_calm (calm_countTorn_building s)
    · exact .refl s
    · next st _ =>
      have heads : KeysBelow 992 (readConfiguration s.ram).heads := by
        rw [readConfiguration_heads]; exact readHeadTable_below _
      exact (AttentionStays.of_calm (calm_configSeen s (some st))).calm (calm_handConfiguration _ st _ _ heads)

theorem attentionStays_readOrdersRecord (s : State) : AttentionStays s (readOrdersRecord s) := by
  unfold readOrdersRecord
  split
  · exact .of_calm (calm_countTorn_building s)
  · exact .refl s
  · next st _ =>
    have seen : AttentionStays s { s with ordersSeen := some st } := .of_eq rfl
    exact seen.calm (calm_handOrders _ st _)

theorem attentionStays_readHeaderRecord (t : Fin 8) (s : State) : AttentionStays s (readHeaderRecord t s).1 := by
  unfold readHeaderRecord
  split
  · exact .of_calm (calm_countTorn_tenant s t)
  · exact .refl s
  · exact (AttentionStays.of_calm (calm_modTenant s t.isLt _)).calm (calm_handHeader _ t.isLt _ _)

theorem attentionStays_readMapRecord (t : Fin 8) (s : State) : AttentionStays s (readMapRecord t s) := by
  unfold readMapRecord
  split
  · exact .of_calm (calm_countTorn_tenant s t)
  · exact .refl s
  · exact (AttentionStays.of_calm (calm_modTenant s t.isLt _)).calm (calm_handMap _ t.isLt _ _)

theorem attentionStays_readReportRecord (t : Fin 8) (i : Fin 16) (s : State) :
    AttentionStays s (readReportRecord t i s).1 := by
  unfold readReportRecord
  split
  · exact .of_calm (calm_countTorn_tenant s t)
  · exact .refl s
  · exact (AttentionStays.of_calm (calm_modTenant s t.isLt _)).calm (calm_handReport _ t.isLt i _ _)

theorem attentionStays_readSlotRecord (t : Fin 8) (i : Fin 64) (s : State) : AttentionStays s (readSlotRecord t i s) := by
  unfold readSlotRecord
  split
  · exact .of_calm (calm_countTorn_tenant s t)
  · exact .refl s
  · exact (AttentionStays.of_calm (calm_modSlot s t.isLt i.isLt _)).calm (calm_handRequest _ t.isLt i.isLt _)

theorem attentionStays_readControlRecord (t p : Fin 8) (s : State) : AttentionStays s (readControlRecord t p s) := by
  unfold readControlRecord
  split
  · exact .of_calm (calm_countTorn_tenant s t)
  · exact .refl s
  · exact (AttentionStays.of_calm (calm_modTenant s t.isLt _)).calm (calm_handControl _ t.isLt p.isLt _)

/-! ### The end of a validation -/

/-- The Head Table's change keeps Attention whatever numbers the table lists, where `calm_changeHeads` asks that they are
below the heads that the hub has. -/
theorem changeHeads_attention (old : Option BuildingConfig) (g : BuildingConfig) (s : State) :
    (changeHeads old g s).attention = s.attention := by
  have orphans : Calm [.trunks] s (((List.range 16).filter (servesRemoved g s)).foldl
      (fun s t => s.modTrunk t (fun x => { x with flight := orphanFlight x.flight })) s) :=
    .foldl _ _ (fun t _ u => calm_modTrunk u t _) _
  exact orphans.touches.same .attention

/-- A generation put in force sets SUPERVISOR and clears no bit. -/
theorem attentionStays_putInForce (st : Stamp) (g : BuildingConfig) (s : State) :
    AttentionStays s (putInForce st g s) := by
  unfold putInForce
  dsimp only
  have config : ∀ v, AttentionStays s (attend 8 { s with config := v }) := fun v =>
    (AttentionStays.of_eq (t := { s with config := v }) rfl).calm (calm_attend _ 8)
  have cars : ∀ u, AttentionStays u
      (relabel g (darkenRevoked g (disturbCars s.config.inForce g (retireAtAcceptance s.config.inForce g u)))) := fun u =>
    (((AttentionStays.of_calm (calm_retireAtAcceptance u _ g)).calm (calm_disturbCars _ _ g)).calm
      (calm_darkenRevoked _ g)).calm (calm_relabel _ g)
  have heads : ∀ u, AttentionStays u (changeHeads s.config.inForce g u) := fun u =>
    .of_eq (changeHeads_attention _ g u)
  have trunks : ∀ u, AttentionStays u ((List.range 16).foldl (changeTrunk s.config.inForce g) u) :=
    .foldl _ _ (fun t _ u => .of_calm (calm_changeTrunk u _ g t))
  have maps : ∀ u, AttentionStays u ((List.range 8).foldl recheckMap u) :=
    .foldl _ _ (fun t ht u => .of_calm (calm_recheckMap u (List.mem_range.mp ht)))
  have units := fun v =>
    (((((config v).trans (cars _)).trans (heads _)).trans (trunks _)).trans (maps _)).calm (calm_recomputeZones _)
  exact .ite ((units _).trans (.foldl _ _ (fun t _ u => .of_eq (sweepEvent_attention u (.tenant t))) _)) (units _)

theorem attentionStays_completeValidation (v : Validation) (s : State) : AttentionStays s (completeValidation v s) := by
  have dropped : AttentionStays s { s with config := { s.config with validating := none } } := .of_eq rfl
  unfold completeValidation
  dsimp only
  split
  · exact dropped.calm (calm_refuseFailing _ _ _)
  · exact .ite (dropped.calm (calm_refuseLocked _ _ _)) (dropped.trans (attentionStays_putInForce _ _ _))

/-! ### The commands -/

/-- The commands that may take an Attention bit back: the host's clear, and the beginnings and ends of the resets. -/
def clearsAttention : Instr → Bool
  | .attentionClear _ | .powerOnResetAssert | .zeroFillCompletion | .portReset | .portResetCompletion => true
  | _ => false

/-- A meaning whose next state has every Attention bit of `s`. -/
def KeepsAttention (s : State) (o : Host.Outcome State Fault Refusal) : Prop := ∀ t, o = .next t → AttentionStays s t

theorem KeepsAttention.next {s t : State} (h : AttentionStays s t) : KeepsAttention s (.next t) := fun _ e => by
  cases e; exact h

/-- A meaning whose work is done under a condition, and which otherwise changes nothing. -/
theorem KeepsAttention.guarded {s t : State} {p : Prop} [Decidable p] (h : AttentionStays s t) :
    KeepsAttention s (.next (if p then t else s)) := .next h.guarded

theorem KeepsAttention.guardedFinish {fs : List Field} {s u : State} {p : Prop} [Decidable p] (h : Calm fs s u) :
    KeepsAttention s (.next (if p then finish s u else s)) := .next (.guardedFinish h)

/-- A meaning that reads a sweep's record under a condition: the sweep goes on to its next record and the record's work
follows. -/
theorem KeepsAttention.guardedRead {s : State} {a : Area} {n : Nat} {f : State → State} {p : Prop} [Decidable p]
    (h : ∀ u, AttentionStays u (f u)) : KeepsAttention s (.next (if p then finish s (f (nextRecord a n s)) else s)) :=
  .guarded ((AttentionStays.of_eq (nextRecord_attention s a n)).trans (h _)).finish

theorem execSweepCompletion_keepsAttention (a : Area) (s : State) : KeepsAttention s (execSweepCompletion a s) := by
  have ended : ∀ x, AttentionStays s (countSweep a (s.setAreaSweep a x)) := fun x => .of_eq (by simp)
  exact .guarded (((ended _).trans (.of_eq (beginSweep_attention _ _))).ite (ended _)).finish

theorem execSweepReadTenantHeader_keepsAttention (t : Fin 8) (s : State) :
    KeepsAttention s (execSweepReadTenantHeader t s) :=
  .guarded (((attentionStays_readHeaderRecord t s).trans (.of_eq (nextRecord_attention _ _ _))).finishWith _)

theorem execSweepReadCarReport_keepsAttention (t : Fin 8) (i : Fin 16) (s : State) :
    KeepsAttention s (execSweepReadCarReport t i s) :=
  .guarded (((AttentionStays.of_eq (nextRecord_attention s _ _)).trans
    (attentionStays_readReportRecord t i _)).finishWith _)

theorem execOverridePinChange_keepsAttention (l : Fin 4) (low : Bool) (s : State) :
    KeepsAttention s (execOverridePinChange l low s) := by
  have pin : AttentionStays s { s with ovrLow := pinLevels s.ovrLow l low } := .of_eq rfl
  have taken := calm_takeInputs { s with ovrLow := pinLevels s.ovrLow l low } l
    (fun s => s.modLine l (fun x => { x with pin := low })) (fs := [.attention, .lines]) (calm_modLine _ _ _).mono
  exact .next ((pin.calm taken).finish.ite pin)

/-- What a change of the SBEN pin leaves: the pin's level, and where it is taken the zones computed again (R126, R128). -/
theorem execSbenChange_cases (high : Bool) (s : State) : ∃ t, execSbenChange high s = .next t ∧
    (t = { s with sben := high } ∨ t = finish s (recomputeZones { s with sben := high, word := none })) := by
  unfold execSbenChange
  refine ⟨_, rfl, ?_⟩
  split
  · exact .inr rfl
  · exact .inl rfl

theorem execSbenChange_keepsAttention (high : Bool) (s : State) : KeepsAttention s (execSbenChange high s) := by
  have cut : AttentionStays s { s with sben := high, word := none } := .of_eq rfl
  obtain ⟨t, run, rfl | rfl⟩ := execSbenChange_cases high s
  · exact run ▸ .next (.of_eq rfl)
  · exact run ▸ .next (cut.calm (calm_recomputeZones _)).finish

theorem execSideBandWord_keepsAttention (s : State) : KeepsAttention s (execSideBandWord s) := by
  have ended : AttentionStays s { s with sbfr := false, word := none } := .of_eq rfl
  refine .next ?_
  split
  · exact ((ended.calm (calm_endWord _ _)).finishWith _).ite ended
  · exact ended

/-- R12: every command but the clear and the resets leaves each set bit set. -/
theorem exec_keepsAttention (c : Instr) (s : State) (h : clearsAttention c = false) : KeepsAttention s (exec c s) := by
  cases c with
  | attentionClear _ | powerOnResetAssert | zeroFillCompletion | portReset | portResetCompletion => cases h
  | powerOnResetRelease => exact .guarded (.of_eq rfl)
  | sharedRamWrite _ _ => exact .guarded (.of_eq rfl)
  | sharedRamRead _ => exact .next (.of_eq rfl)
  | runSet =>
    have run : AttentionStays s { s with run := true } := .of_eq rfl
    exact .guarded (run.trans (attentionStays_startAreas _ _))
  | runClear =>
    have run : AttentionStays s
        { s with run := false, trunks := s.trunks.map (fun e => (e.1, { e.2 with requests := [] })) } := .of_eq rfl
    exact .guarded (run.trans (attentionStays_stopAreas _ _))
  | nudgeTenant _ => exact .guarded (.of_eq (sweepEvent_attention _ _))
  | nudgeBuilding => exact .guarded (.of_eq (sweepEvent_attention _ _))
  | attentionMaskWrite _ => exact .guarded (.of_eq rfl)
  | lockSetHold => exact .guarded (.of_eq rfl)
  | lockClearHold => exact .guarded (.of_eq rfl)
  | lockSetFixed => exact .guarded (.of_eq rfl)
  | registerWriteIgnored _ _ => exact .next (.refl s)
  | hubTimeTick => exact .guarded (.of_eq rfl)
  | sweepTimerExpiry a =>
    have event : ∀ x, (sweepEvent a (s.setAreaSweep a x)).attention = s.attention := fun x => by simp
    exact .guarded (.of_eq (event _))
  | sweepCompletion a => exact execSweepCompletion_keepsAttention a s
  | sweepReadConfiguration => exact .guardedRead attentionStays_readConfigurationRecord
  | sweepReadOrders => exact .guardedRead attentionStays_readOrdersRecord
  | sweepReadTenantHeader t => exact execSweepReadTenantHeader_keepsAttention t s
  | sweepReadTenantMap t => exact .guardedRead (attentionStays_readMapRecord t)
  | sweepReadCarReport t i => exact execSweepReadCarReport_keepsAttention t i s
  | sweepReadSlot t i => exact .guardedRead (attentionStays_readSlotRecord t i)
  | sweepReadProgramControl t p => exact .guardedRead (attentionStays_readControlRecord t p)
  | validationCompletion =>
    refine .next ?_
    split
    · exact .guarded (attentionStays_completeValidation _ s).finish
    · exact .refl s
  | freshnessExpiry c => exact .guardedFinish (calm_freshnessExpired s c)
  | boardingLimitExpiry t i => exact .guardedFinish (calm_retire s t.isLt i.isLt _ _)
  | rideLimitExpiry t i => exact .guardedFinish (calm_retire s t.isLt i.isLt _ _)
  | promptHoldExpiry t a =>
    refine .next ?_
    split
    · exact .refl s
    · exact .guardedFinish (calm_modHead s _ _)
  | stepExpiry t p => exact .guardedFinish (calm_advance s t.isLt p.isLt)
  | waitTimeout t p => exact .guardedFinish (calm_waitExpired s t.isLt p.isLt)
  | overridePinChange l low => exact execOverridePinChange_keepsAttention l low s
  | debounceExpiry l => exact .guardedFinish (calm_debounceExpired s l)
  | sbenChange high => exact execSbenChange_keepsAttention high s
  | sideBandWord => exact execSideBandWord_keepsAttention s
  | turnBegin t => exact .guardedFinish (calm_beginTurn s t)
  | frameEnd t echo =>
    refine .next ?_
    split
    · exact .guardedFinish (calm_copyEnded s t _ echo)
    · exact .refl s
  | breakEnd t =>
    refine .next ?_
    split
    · exact .guarded (.of_calm (calm_setFlight s t _))
    · exact .refl s
  | replyEnd t reply =>
    refine .next ?_
    split
    · exact .guardedFinish (calm_replyEnded s t _ reply)
    · exact .refl s
  | replyWindowExpiry t =>
    refine .next ?_
    split
    · exact .guardedFinish (calm_noReply s t _)
    · exact .refl s
  | gapExpiry t =>
    refine .next ?_
    split
    · exact .guarded (.of_calm (calm_setFlight s t _))
    · exact .guarded (.of_calm (calm_setFlight s t _))
    · exact .refl s
  | pollDue t a =>
    refine .next ?_
    split
    · exact .refl s
    · exact .guarded (.of_calm (calm_modHead s _ _))
  | probeDue t a =>
    refine .next ?_
    split
    · exact .refl s
    · exact .guarded (.of_calm (calm_modHead s _ _))
  | watchdogExpiry t l => exact .guardedFinish (calm_watchdogActs s t l)
  | recoveryExpiry t => exact .guardedFinish (calm_recoveryExpired s t)
  | recoveryProbeBegin t =>
    refine .next ?_
    split
    · exact .refl s
    · exact .guardedFinish (calm_beginRecovery s t _)
  | sideBandWordStart => exact .next (.of_eq rfl)
  | sideBandClockEdge b =>
    refine .next ?_
    split
    · exact .guarded (.of_eq rfl)
    · exact .refl s
  | replyFirstCharacter t =>
    refine .next ?_
    split
    · exact .guarded (.of_calm (calm_setFlight s t _))
    · exact .refl s

/-! ### The register's bits -/

/-- An event leaves every other Attention bit as it is. -/
theorem attend_other (s : State) {b i : Nat} (h : i ≠ b) :
    (attend b s).attention.getLsbD i = s.attention.getLsbD i := by
  unfold attend
  rw [BitVec.getLsbD_or, BitVec.getLsbD_ofNat, Nat.testBit_two_pow_of_ne h.symm, Bool.and_false, Bool.or_false]

/-- An event whose bit is set changes nothing. -/
theorem attend_of_set (s : State) {b : Nat} (h : s.attention.getLsbD b = true) : attend b s = s := by
  have same : (attend b s).attention = s.attention := BitVec.eq_of_getLsbD_eq fun i _ => by
    by_cases e : i = b
    · subst e; rw [h, attend_getLsbD s i i h]
    · exact attend_other s e
  exact congrArg (fun a => { s with attention := a }) same

theorem ready_of_phase {s : State} (h : s.phase = .ready) : ready s = true := by simp [ready, h]

/-- R12: the clear takes exactly the bits written as 1. -/
theorem execAttentionClear_spec (s : State) (v : Word32) (h : s.phase = .ready) :
    ∃ t, exec (.attentionClear v) s = .next t ∧ Touches [.attention] s t ∧
      ∀ i < 12, t.attention.getLsbD i = (s.attention.getLsbD i && !v.getLsbD i) := by
  refine ⟨{ s with attention := s.attention &&& ~~~ (v.truncate 12) }, ?_, fun f => ?_, fun i hi => ?_⟩
  · exact congrArg Host.Outcome.next (if_pos (ready_of_phase h))
  · cases f with
    | attention => exact .inl (List.mem_singleton_self _)
    | _ => exact .inr rfl
  · simp [hi]

/-- R12: the mask takes the write's bits 0 to 11. -/
theorem execAttentionMaskWrite_spec (s : State) (v : Word32) (h : s.phase = .ready) :
    ∃ t, exec (.attentionMaskWrite v) s = .next t ∧ Touches [.mask] s t ∧ ∀ i < 12, t.mask.getLsbD i = v.getLsbD i := by
  refine ⟨{ s with mask := v.truncate 12 }, ?_, fun f => ?_, fun i hi => ?_⟩
  · exact congrArg Host.Outcome.next (if_pos (ready_of_phase h))
  · cases f with
    | mask => exact .inl (List.mem_singleton_self _)
    | _ => exact .inr rfl
  · simp [hi]

/-- The output is asserted exactly while a set bit has its mask bit at 1. -/
theorem attentionOutput_iff (s : State) :
    attentionOutput s = true ↔ ∃ i < 12, s.attention.getLsbD i = true ∧ s.mask.getLsbD i = true := by
  have zero : s.attention &&& s.mask = 0 ↔ ∀ i < 12, ¬ (s.attention.getLsbD i = true ∧ s.mask.getLsbD i = true) := by
    rw [BitVec.eq_of_getLsbD_eq_iff]
    simp
  rw [attentionOutput, Bool.not_eq_true', beq_eq_false_iff_ne, Ne, zero]
  simp only [not_forall, not_not, exists_prop]

/-! ### The resets -/

theorem publishList_attention (s : State) (rs : List RecordId) : (publishList s rs).attention = s.attention := rfl
theorem publishList_mask (s : State) (rs : List RecordId) : (publishList s rs).mask = s.mask := rfl

/-- R15: a port reset's completion leaves Attention and its mask 0. -/
theorem resetUnits_registers (s : State) : (resetUnits s).attention = 0 ∧ (resetUnits s).mask = 0 := by
  have trunks : ∀ u, Calm [.heads, .trunks] u (rebuildTrunks u) := fun u =>
    .foldl _ _ (fun t _ u => calm_enableTrunk u t) u
  exact ⟨(trunks _).touches.same .attention, (trunks _).touches.same .mask⟩

theorem execZeroFillCompletion_registers (s : State) (h : s.phase = .zeroFill) :
    ∃ t, exec .zeroFillCompletion s = .next t ∧ t.attention = 0 ∧ t.mask = 0 :=
  ⟨_, congrArg Host.Outcome.next (if_pos h), publishList_attention _ _, publishList_mask _ _⟩

theorem execPortReset_registers (s : State) (h : s.phase = .ready) :
    ∃ t, exec .portReset s = .next t ∧ t.attention = 0 ∧ t.mask = 0 :=
  ⟨_, congrArg Host.Outcome.next (if_pos (ready_of_phase h)), rfl, rfl⟩

theorem execPortResetCompletion_registers (s : State) (h : s.phase = .portReset) :
    ∃ t, exec .portResetCompletion s = .next t ∧ t.attention = 0 ∧ t.mask = 0 := by
  obtain ⟨attention, mask⟩ := resetUnits_registers s
  exact ⟨_, congrArg Host.Outcome.next (if_pos h), (publishList_attention _ _).trans attention,
    (publishList_mask _ _).trans mask⟩

/-- Settles O6, by the commands' frame of the Attention register and the equations of its bits. -/
theorem attentionCommands : Obligations.AttentionCommands := by
  intro s v
  refine ⟨fun b hb => ⟨attend_sets s hb, rfl, fun i hi => attend_other s hi, attend_of_set s⟩,
    fun c t i run clear assert fill reset completion hi => ?_,
    fun h => ⟨execAttentionClear_spec s v h, execAttentionMaskWrite_spec s v h⟩, attentionOutput_iff s, rfl, rfl,
    ⟨_, rfl, rfl, rfl⟩, execZeroFillCompletion_registers s, execPortReset_registers s,
    execPortResetCompletion_registers s⟩
  have other : clearsAttention c = false := by
    cases c with
    | attentionClear w => exact absurd rfl (clear w)
    | powerOnResetAssert => exact absurd rfl assert
    | zeroFillCompletion => exact absurd rfl fill
    | portReset => exact absurd rfl reset
    | portResetCompletion => exact absurd rfl completion
    | _ => rfl
  exact exec_keepsAttention c s other t run i hi

end Sys2Proof.Proofs
end

section
/-!
SUPPORT. The port's registers at all times and while READY is 0 (R2).
-/

namespace Sys2Proof.Proofs

open Sys2Proof Sys2Proof.Machine Sys2Proof.Safety Sys2Proof.Laws

/-- Identity is no register that a write reaches. -/
theorem registerWriteCommand_identity (s : State) (v : Word32) :
    registerWriteCommand s 0 v = .registerWriteIgnored 0 v := by
  unfold registerWriteCommand
  split
  · rfl
  · rfl

theorem ready_of_phase_ne {s : State} (h : s.phase ≠ .ready) : ready s = false := by simp [ready, h]

theorem registerWriteCommand_closed {s : State} (h : s.phase ≠ .ready) (sel : BitVec 3) (v : Word32) :
    registerWriteCommand s sel v = .registerWriteIgnored sel v := by
  simp [registerWriteCommand, ready_of_phase_ne h]

/-- Bit 3 of Control reads the SBEN pin. -/
theorem readRegister_control_sben (s : State) : (readRegister s 1).getLsbD 3 = s.sben := by
  have bits : ∀ run ready sben : Bool,
      (BitVec.ofNat 32 (bit run + 4 * bit ready + 8 * bit sben)).getLsbD 3 = sben := by decide
  exact bits s.run (ready s) s.sben

theorem finish_sben (s u : State) : (finish s u).sben = u.sben := rfl

/-- R128: the pin's level is kept at all times. -/
theorem execSbenChange_sben (s : State) (high : Bool) : ∃ t, exec (.sbenChange high) s = .next t ∧ t.sben = high := by
  obtain ⟨t, run, rfl | rfl⟩ := execSbenChange_cases high s
  · exact ⟨_, run, rfl⟩
  · have zones : (recomputeZones { s with sben := high, word := none }).sben = high :=
      (calm_recomputeZones { s with sben := high, word := none }).touches.same .sben
    exact ⟨_, run, (finish_sben _ _).trans zones⟩

/-- What the registers read where RUN, READY, Attention, its mask and HOLD are 0. -/
theorem readRegister_cleared {s : State} (phase : s.phase ≠ .ready) (run : s.run = false) (attention : s.attention = 0)
    (mask : s.mask = 0) (hold : s.hold = false) {sel : BitVec 3} (h : sel ≠ 0) :
    readRegister s sel = if sel = 1 then BitVec.ofNat 32 (8 * bit s.sben)
      else if sel = 5 then BitVec.ofNat 32 (2 * bit s.fixed) else 0 := by
  have select : ∀ x : BitVec 3, x ≠ 0 → x = 1 ∨ x = 3 ∨ x = 4 ∨ x = 5 ∨ x = 2 ∨ x = 6 ∨ x = 7 := by decide
  rcases select sel h with rfl | rfl | rfl | rfl | rfl | rfl | rfl
  · simp [readRegister, run, ready_of_phase_ne phase, bit]
  · simp [readRegister, attention]
  · simp [readRegister, mask]
  · simp [readRegister, hold, bit]
  all_goals rfl

theorem readRegister_of_quiet {s : State} (q : Quiet s) (phase : s.phase ≠ .ready) {sel : BitVec 3} (h : sel ≠ 0) :
    readRegister s sel = if sel = 1 then BitVec.ofNat 32 (8 * bit s.sben)
      else if sel = 5 then BitVec.ofNat 32 (2 * bit s.fixed) else 0 := by
  obtain ⟨run, attention, mask, hold⟩ := q.registers phase
  exact readRegister_cleared phase run attention mask hold h

/-- Settles O4, by the registers' reads where the resets left them and the port's choice of command. -/
theorem identityAndClosedRegisters : Obligations.IdentityAndClosedRegisters := by
  intro s sel v
  refine ⟨rfl, registerWriteCommand_identity s v, rfl, readRegister_control_sben s, execSbenChange_sben s,
    fun closed => ⟨registerWriteCommand_closed closed sel v, rfl⟩, fun q phase h => ?_, fun q phase h => ?_⟩
  · have closed : s.phase ≠ .ready := by rcases phase with e | e <;> simp [e]
    rw [readRegister_of_quiet q closed h, q.fixed phase]
    split
    · rfl
    · exact ite_self _
  · exact readRegister_of_quiet q (by simp [phase]) h

end Sys2Proof.Proofs
end
